-- ==== Sys2Proof/Word.lean ====
section
/-! DEFINITION. The word types of T1D (00_scope.md R6, R7). -/

namespace Sys2Proof

/-- A byte of codeword memory (20_memory.md R70). -/
abbrev Byte := BitVec 8

/-- The 16-bit words of the MQ interval register and the probability table (10_state.md R24, R34). -/
abbrev Half := BitVec 16

/-- A 32-bit word: a command word, a CSR, a sample word, the code register (00_scope.md R6). -/
abbrev Word := BitVec 32

/-- The 64-bit result register's value (10_state.md R30). -/
abbrev Res := BitVec 64

end Sys2Proof
end

