-- ==== Sys2Proof/Machine/Sparse.lean ====
section
/-! DEFINITION. Memories as lists of (key, value) pairs in one canonical form: keys strictly rising, and no entry that
holds the value an unlisted key reads as. CWMEM, SAMP and S are held so (20_memory.md R70, R73; 10_state.md R37). -/

namespace Sys2Proof.Machine.Sparse

variable {α : Type} [DecidableEq α]

/-- The canonical form, for a memory whose unlisted keys read as `d`. -/
abbrev WF (d : α) (m : List (Nat × α)) : Prop :=
  m.Pairwise (fun e f => e.1 < f.1) ∧ ∀ e ∈ m, e.2 ≠ d

/-- The value at a key; an unlisted key reads as `d`. -/
def get (d : α) : List (Nat × α) → Nat → α
  | [], _ => d
  | (j, v) :: m, k => if j = k then v else get d m k

/-- Store a value at a key. Storing `d` unlists the key, so that the canonical form is kept. -/
def set (d : α) : List (Nat × α) → Nat → α → List (Nat × α)
  | [], k, v => if v = d then [] else [(k, v)]
  | (j, u) :: m, k, v =>
    if j < k then (j, u) :: set d m k v
    else if j = k then (if v = d then m else (k, v) :: m)
    else (if v = d then (j, u) :: m else (k, v) :: (j, u) :: m)

/-- Apply a function that keeps `d` to every cell, listed or not. -/
def mapCells (d : α) (f : α → α) : List (Nat × α) → List (Nat × α)
  | [] => []
  | (j, u) :: m => if f u = d then mapCells d f m else (j, f u) :: mapCells d f m

end Sys2Proof.Machine.Sparse
end

