-- ==== Sys2Proof/Config.lean ====
section
/-! DEFINITION. What an implementation fixes (00_scope.md R6, 93_implementation_defined.md section 1) and the values
the spec leaves free (93_implementation_defined.md section 2). -/

namespace Sys2Proof.Config

/-- `NUM_CTX` of 00_scope.md R6: the adaptive contexts. -/
abbrev numCtx : Nat := 19

/-- `QE_ENTRIES` of 00_scope.md R6: the rows of the probability table. -/
abbrev qeEntries : Nat := 47

/-- `STRIPE_H` of 00_scope.md R6: the rows of a stripe. -/
abbrev stripeH : Nat := 4

/-- `READBITS_MAX` of 00_scope.md R6. -/
abbrev readBitsMax : Nat := 64

/-- `MAX_W` and `MAX_H` of 00_scope.md R6: the most columns, and the most rows, of a code-block. -/
abbrev maxSide : Nat := 1024

/-- `MAX_AREA` of 00_scope.md R6. -/
abbrev maxArea : Nat := 4096

/-- `MAX_PLANE` of 00_scope.md R6: the highest magnitude bit of a sample word. -/
abbrev maxPlane : Nat := 30

/-- The values of the parameter `CTX_RESET_AT` (00_scope.md R6, 45_block_control.md R310). -/
inductive CtxResetAt where
  /-- One context reset for each BLK_SEGMENT: the spec's default. -/
  | segment
  /-- One context reset before every pass of the segment. -/
  | pass
deriving DecidableEq, Repr

/-- The parameters that 00_scope.md R6 leaves OPEN. They are data, so that a statement about every state is a statement
about every value of them; no command changes them, and all engines of one hardware have the same (log 4). -/
structure Params where
  /-- `N_INSTANCES`, at least 1 (93_implementation_defined.md P4): the engines of the hardware, each of which decodes as if
  it were alone (60_exceptions.md R350), so that no command depends on it. -/
  nInstances : Nat
  /-- `CWMEM_SIZE`, in bytes, 1..2^32 (93_implementation_defined.md P3). -/
  cwmemSize : Nat
  /-- `CTX_RESET_AT` (93_implementation_defined.md P2). -/
  ctxResetAt : CtxResetAt
  /-- `EXTRA_CONTEXT_WORDS`, at least 2, not observable (93_implementation_defined.md P1). -/
  extraContextWords : Nat
deriving DecidableEq, Repr

/-- The range of each parameter (00_scope.md R6). -/
abbrev Params.Legal (p : Params) : Prop :=
  1 ≤ p.nInstances ∧ 1 ≤ p.cwmemSize ∧ p.cwmemSize ≤ 2 ^ 32 ∧ 2 ≤ p.extraContextWords

/-- The parameters of the machine at `State.reset`. `CTX_RESET_AT` is the spec's default (00_scope.md R6).
DESIGN CHOICE (log 4): one engine, the whole 32-bit address space of codeword memory, and the least margin. -/
def defaultParams : Params :=
  { nInstances := 1, cwmemSize := 2 ^ 32, ctxResetAt := .segment, extraContextWords := 2 }

/-- The free values of the debug CSRs 7..12 after an error ("any value", 10_state.md R50,
93_implementation_defined.md U5), one for each value of the state's counter and the same for every engine (log 27). No body: nothing is known of them
(log 8). -/
opaque freeDebug : Nat → Word

/-- The free values of a host read of a word of SAMP that BLK_START has not zeroed: before the first one succeeds ("any
value", 93_implementation_defined.md U3), and after it a word outside the block it zeroed, for which the spec states no
value. One for each size last zeroed and each coordinate pair, the same for every engine (log 27). No body: nothing is
known of them (log 7, log 25). -/
opaque freeSample : Option (Nat × Nat) → Nat → Nat → Word

end Sys2Proof.Config
end

