-- ==== Sys2Proof/Machine/Tables.lean ====
section
/-! DEFINITION. The constant tables of the MQ decoder and the context model: the probability-state table QE
(42_mq_decoder.md R151, R152) and the initial context table (43_context_model.md R202). -/

namespace Sys2Proof.Machine

/-- One row of the probability-state table (42_mq_decoder.md R151). -/
structure QeRow where
  /-- The LPS probability estimate. -/
  Qe : Half
  /-- The next state after an MPS exchange. -/
  NMPS : Fin Config.qeEntries
  /-- The next state after an LPS exchange. -/
  NLPS : Fin Config.qeEntries
  /-- The LPS exchange inverts the MPS. -/
  SWITCH : Bool
deriving DecidableEq, Repr

/-- One adaptive context: the probability-state index and the more probable symbol (43_context_model.md R201). -/
structure CxEntry where
  /-- The index into QE, 6 bits, 0..46. -/
  I : Fin Config.qeEntries
  /-- The more probable symbol. -/
  MPS : Bool
deriving DecidableEq, Repr

/-- A context category, 0..18 (10_state.md R33). -/
abbrev Category := Fin Config.numCtx

/-- Rows 0 to 15 of the table of 42_mq_decoder.md R151. -/
def qeRowsLow : List QeRow := [
  ⟨0x5601, 1, 1, true⟩,
  ⟨0x3401, 2, 6, false⟩,
  ⟨0x1801, 3, 9, false⟩,
  ⟨0x0AC1, 4, 12, false⟩,
  ⟨0x0521, 5, 29, false⟩,
  ⟨0x0221, 38, 33, false⟩,
  ⟨0x5601, 7, 6, true⟩,
  ⟨0x5401, 8, 14, false⟩,
  ⟨0x4801, 9, 14, false⟩,
  ⟨0x3801, 10, 14, false⟩,
  ⟨0x3001, 11, 17, false⟩,
  ⟨0x2401, 12, 18, false⟩,
  ⟨0x1C01, 13, 20, false⟩,
  ⟨0x1601, 29, 21, false⟩,
  ⟨0x5601, 15, 14, true⟩,
  ⟨0x5401, 16, 14, false⟩]

/-- Rows 16 to 31 of the table of 42_mq_decoder.md R151. -/
def qeRowsMiddle : List QeRow := [
  ⟨0x5101, 17, 15, false⟩,
  ⟨0x4801, 18, 16, false⟩,
  ⟨0x3801, 19, 17, false⟩,
  ⟨0x3401, 20, 18, false⟩,
  ⟨0x3001, 21, 19, false⟩,
  ⟨0x2801, 22, 19, false⟩,
  ⟨0x2401, 23, 20, false⟩,
  ⟨0x2201, 24, 21, false⟩,
  ⟨0x1C01, 25, 22, false⟩,
  ⟨0x1801, 26, 23, false⟩,
  ⟨0x1601, 27, 24, false⟩,
  ⟨0x1401, 28, 25, false⟩,
  ⟨0x1201, 29, 26, false⟩,
  ⟨0x1101, 30, 27, false⟩,
  ⟨0x0AC1, 31, 28, false⟩,
  ⟨0x09C1, 32, 29, false⟩]

/-- Rows 32 to 46 of the table of 42_mq_decoder.md R151. -/
def qeRowsHigh : List QeRow := [
  ⟨0x08A1, 33, 30, false⟩,
  ⟨0x0521, 34, 31, false⟩,
  ⟨0x0441, 35, 32, false⟩,
  ⟨0x02A1, 36, 33, false⟩,
  ⟨0x0221, 37, 34, false⟩,
  ⟨0x0141, 38, 35, false⟩,
  ⟨0x0111, 39, 36, false⟩,
  ⟨0x0085, 40, 37, false⟩,
  ⟨0x0049, 41, 38, false⟩,
  ⟨0x0025, 42, 39, false⟩,
  ⟨0x0015, 43, 40, false⟩,
  ⟨0x0009, 44, 41, false⟩,
  ⟨0x0005, 45, 42, false⟩,
  ⟨0x0001, 45, 43, false⟩,
  ⟨0x5601, 46, 46, false⟩]

/-- The rows of the probability-state table, in order (42_mq_decoder.md R151). -/
def qeTable : List QeRow := qeRowsLow ++ qeRowsMiddle ++ qeRowsHigh

/-- The table has 47 entries (42_mq_decoder.md R151). -/
theorem qeTable_length : qeTable.length = Config.qeEntries := by decide

/-- `QE[i]` (42_mq_decoder.md R151): a constant that no command and no reset changes (R152). -/
def qe (i : Fin Config.qeEntries) : QeRow := qeTable[i.val]'(by rw [qeTable_length]; exact i.isLt)

/-- `INIT[k]` of 43_context_model.md R202: state 4 for category 0, 3 for the run-length category 17, 46 for the uniform
category 18, else 0; the MPS is 0 everywhere. -/
def initContext (k : Category) : CxEntry :=
  if k = 0 then ⟨4, false⟩ else if k = 17 then ⟨3, false⟩ else if k = 18 then ⟨46, false⟩ else ⟨0, false⟩

/-- The initial context table (43_context_model.md R202). -/
def initContexts : Vector CxEntry Config.numCtx := Vector.ofFn initContext

end Sys2Proof.Machine
end

