-- ==== Sys2Proof/Machine/State.lean ====
section
/-! DEFINITION. The state of one engine instance (10_state.md) as plain data, its value after reset (10_state.md R57,
70_reset_and_hazards.md R370), and the reasons a step can end without a next state. -/

namespace Sys2Proof.Machine

/-- The MQ decoder's registers (10_state.md R24 to R27). -/
@[ext]
structure MqRegs where
  /-- `A`, the interval register (R24). -/
  a : Half
  /-- `C`, the code register, complemented (R25). -/
  c : Word
  /-- `CT`, the bit counter, 0..8 (R26). -/
  ct : BitVec 4
  /-- `B`, the last byte fetched (R27). -/
  b : Byte
  /-- `MF`, marker found (R27). -/
  mf : Bool
deriving DecidableEq, Repr

/-- `SRC`, the bound byte source (10_state.md R28). -/
@[ext]
structure Source where
  /-- `SRC.RANGES`: (base, length) pairs, read as their concatenation. -/
  ranges : List (Word × Word)
  /-- `SRC.POS`: the logical index of the next byte. -/
  pos : Word
  /-- `SRC.FILLED`: a fill byte has been returned. -/
  filled : Bool
deriving DecidableEq, Repr

/-- `BOUND`: which coder owns the source (10_state.md R28). -/
inductive Bound where
  | none
  | mq
  | br
deriving DecidableEq, Repr

/-- The bit reader's registers (10_state.md R29). -/
@[ext]
structure BitReader where
  /-- `BR.BUF`, the byte being read. -/
  buf : Byte
  /-- `BR.BITSLEFT`, 0..8. -/
  bitsLeft : BitVec 4
  /-- `BR.LASTFF`: the last loaded byte was 0xFF. -/
  lastFF : Bool
  /-- `BR.MODE`: false is header mode, true is codeword mode. -/
  mode : Bool
deriving DecidableEq, Repr

/-- One cell of the sample-state array `S` (10_state.md R37). -/
@[ext]
structure SampleFlags where
  /-- The coefficient is significant. -/
  SIG : Bool
  /-- It was coded in the significance propagation pass of the current bit-plane. -/
  VIS : Bool
  /-- It has received a magnitude refinement. -/
  REF : Bool
  /-- Its sign, true is negative. -/
  SGN : Bool
deriving DecidableEq, Repr

/-- All four flags 0: a margin cell, and every cell after BLK_START (10_state.md R38, R57). -/
def SampleFlags.clear : SampleFlags := ⟨false, false, false, false⟩

/-- The subband kind of the code-block (10_state.md R44). -/
inductive Orient where
  | LL
  | HL
  | LH
  | HH
deriving DecidableEq, Repr

/-- `CFG`, the configuration BLK_START latches (10_state.md R39). -/
@[ext]
structure BlockConfig where
  /-- `CFG.W`, columns. -/
  w : Nat
  /-- `CFG.H`, rows. -/
  h : Nat
  /-- `CFG.ORIENT`. -/
  orient : Orient
  /-- `CFG.RESTART`. -/
  restart : Bool
  /-- `CFG.RESETCTX`. -/
  resetCtx : Bool
  /-- `CFG.CAUSAL`. -/
  causal : Bool
  /-- `CFG.SEGSYM`. -/
  segSym : Bool
  /-- `CFG.BYPASS`. -/
  bypass : Bool
  /-- `CFG.PTERM`. -/
  pterm : Bool
  /-- `CFG.VALIDATE`. -/
  validate : Bool
  /-- `CFG.P0`, the start bit-plane. -/
  p0 : BitVec 5
  /-- `CFG.SHIFT`. -/
  shift : BitVec 5
deriving DecidableEq, Repr

/-- The pass kinds (44_coding_passes.md R240). -/
inductive PassKind where
  | sp
  | mr
  | cu
deriving DecidableEq, Repr

/-- `LASTTYPE`: the coder the last pass used (10_state.md R40). -/
inductive Coder where
  | mq
  | raw
deriving DecidableEq, Repr

/-- The pass cursor (10_state.md R40). -/
@[ext]
structure Cursor where
  /-- `LASTPASS`; `none` is the spec's NONE. -/
  lastPass : Option PassKind
  /-- `PLANE`, the bit-plane of `LASTPASS`. -/
  plane : BitVec 5
  /-- `PASSCOUNT`. -/
  passCount : BitVec 8
  /-- `LASTTYPE`. -/
  lastType : Coder
deriving DecidableEq, Repr

/-- The pass cursor after reset and after BLK_START (10_state.md R40). -/
def Cursor.start : Cursor := { lastPass := none, plane := 0, passCount := 0, lastType := .mq }

/-- The block status flags (10_state.md R41). -/
@[ext]
structure BlockStatus where
  /-- `STARTED`. -/
  started : Bool
  /-- `FINISHED`. -/
  finished : Bool
  /-- `ERROR`. -/
  error : Bool
  /-- `ERRCODE`. -/
  errCode : BitVec 4
deriving DecidableEq, Repr

/-- The writable CSRs 0..4 (10_state.md R43 to R47); the others are views of other registers. -/
@[ext]
structure Csrs where
  /-- `GEOM`. -/
  geom : Word
  /-- `MODE`. -/
  mode : Word
  /-- `SEG_BASE`. -/
  segBase : Word
  /-- `SEG_LEN`. -/
  segLen : Word
  /-- `SEG_PASSES`. -/
  segPasses : Word
deriving DecidableEq, Repr

/-- The model's own marks for the values the spec leaves free (log 7, log 8, log 25): no register of the spec. -/
@[ext]
structure FreeMarks where
  /-- Selects the next free value of the debug CSRs. -/
  count : Nat
  /-- The MQ registers are "any value": an error has been latched since they were last loaded. -/
  mq : Bool
  /-- The bit-reader registers are "any value": an error has been latched since they were last loaded. -/
  br : Bool
  /-- `CFG.W` and `CFG.H` of the last BLK_START that zeroed SAMP; `none` before the first since reset. A word of SAMP
  outside that block has no value the spec states (log 7, log 25). -/
  zeroed : Option (Nat × Nat)
deriving DecidableEq, Repr

/-- The state of one engine instance. -/
@[ext]
structure State where
  /-- The parameters of the machine (00_scope.md R6); no command changes them (log 4). -/
  par : Config.Params
  /-- Codeword memory (20_memory.md R70, R71). -/
  cwmem : List Host.Cell
  /-- The words the host has delivered and the engine has not taken (log 1). -/
  hostq : List Word
  /-- The writable CSRs (10_state.md R43). -/
  csr : Csrs
  /-- The MQ registers (10_state.md R24 to R27). -/
  mq : MqRegs
  /-- The bound source (10_state.md R28). -/
  src : Source
  /-- `BOUND` (10_state.md R28). -/
  bound : Bound
  /-- The bit-reader registers (10_state.md R29). -/
  br : BitReader
  /-- `RES` (10_state.md R30). -/
  res : Res
  /-- `CXSEL` (10_state.md R31). -/
  cxsel : Category
  /-- `CX` (10_state.md R32). -/
  cx : Vector CxEntry Config.numCtx
  /-- `SAMP` (10_state.md R35), by coordinate key. -/
  samp : List (Nat × Word)
  /-- `S` (10_state.md R37), by coordinate key. -/
  cells : List (Nat × SampleFlags)
  /-- `CFG` (10_state.md R39). -/
  cfg : BlockConfig
  /-- The pass cursor (10_state.md R40). -/
  cur : Cursor
  /-- The block status flags (10_state.md R41). -/
  st : BlockStatus
  /-- The model's own marks for free values. -/
  free : FreeMarks
deriving DecidableEq, Repr

/-- What stops the machine. The spec has nothing that does: an error is latched in STATUS and the engine goes on
(60_exceptions.md R340), so there is no constructor and no meaning raises one (log 20). -/
inductive Fault where
deriving DecidableEq, Repr

/-- Why a command has no meaning in the model. -/
inductive Refusal where
  /-- Raised by the dispatcher alone, for a command the model gives no meaning. Safe: nothing is claimed of it. -/
  | notModelled (mnemonic : String)
deriving DecidableEq, Repr

/-- What a byte of CWMEM that the host has not placed reads as. DESIGN CHOICE (log 5), unsafe: the spec leaves the
contents of CWMEM to the host (20_memory.md R71). -/
def unplacedByte : Byte := 0x00

/-- The canonical form of codeword memory. -/
abbrev Memory.wf (m : List Host.Cell) : Prop := Sparse.WF unplacedByte m

/-- `CFG` at reset. DESIGN CHOICE (log 6): the spec gives it no value, and no command reads it before BLK_START, nor does
a host read of one word of SAMP; the array `State.sampleBuffer` alone takes its size from it, 1 by 1 (log 25).
VALIDATE is 0 because FATAL is then 0 (10_state.md R41). -/
def BlockConfig.atReset : BlockConfig :=
  { w := 1, h := 1, orient := .LL, restart := false, resetCtx := false, causal := false, segSym := false,
    bypass := false, pterm := false, validate := false, p0 := 0, shift := 0 }

/-- The state after reset (10_state.md R57, 70_reset_and_hazards.md R370). The values the spec does not give are
DESIGN CHOICES: the parameters (log 4), nothing placed in CWMEM (log 5), CFG (log 6), nothing listed in SAMP and S
(log 7), nothing delivered (log 1), and the free-value marks (log 7, log 8). -/
def State.reset : State :=
  { par := Config.defaultParams
    cwmem := []
    hostq := []
    csr := { geom := 0, mode := 0, segBase := 0, segLen := 0, segPasses := 0 }
    mq := { a := 0, c := 0, ct := 0, b := 0, mf := false }
    src := { ranges := [], pos := 0, filled := false }
    bound := .none
    br := { buf := 0, bitsLeft := 0, lastFF := false, mode := false }
    res := 0
    cxsel := 0
    cx := initContexts
    samp := []
    cells := []
    cfg := BlockConfig.atReset
    cur := Cursor.start
    st := { started := false, finished := false, error := false, errCode := 0 }
    free := { count := 0, mq := false, br := false, zeroed := none } }

end Sys2Proof.Machine
end

