-- ==== Sys2Proof/Machine/Ops.lean ====
section
/-! DEFINITION. The shared operations over registers and memories: one writer for each field of the state, the outcome
of a step of pseudocode, raising an error and its latch (60_exceptions.md R342), the command prologue
(60_exceptions.md R343), codeword memory and the byte source (20_memory.md R72 to R76), sample memory and the
sample-state array (20_memory.md R77, 10_state.md R37, R38). -/

namespace Sys2Proof.Machine

/-- Write codeword memory. -/
def State.setCwmem (s : State) (v : List Host.Cell) : State := { s with cwmem := v }

/-- Write the delivered words. -/
def State.setHostq (s : State) (v : List Word) : State := { s with hostq := v }

/-- Write the writable CSRs. -/
def State.setCsr (s : State) (v : Csrs) : State := { s with csr := v }

/-- Write the MQ registers. -/
def State.setMq (s : State) (v : MqRegs) : State := { s with mq := v }

/-- Write the bound source. -/
def State.setSrc (s : State) (v : Source) : State := { s with src := v }

/-- Write `BOUND`. -/
def State.setBound (s : State) (v : Bound) : State := { s with bound := v }

/-- Write the bit-reader registers. -/
def State.setBr (s : State) (v : BitReader) : State := { s with br := v }

/-- Write `RES`. -/
def State.setRes (s : State) (v : Res) : State := { s with res := v }

/-- Write `CXSEL`. -/
def State.setCxsel (s : State) (v : Category) : State := { s with cxsel := v }

/-- Write the context table. -/
def State.setCx (s : State) (v : Vector CxEntry Config.numCtx) : State := { s with cx := v }

/-- Write the sample memory. -/
def State.setSamp (s : State) (v : List (Nat × Word)) : State := { s with samp := v }

/-- Write the sample-state array. -/
def State.setCells (s : State) (v : List (Nat × SampleFlags)) : State := { s with cells := v }

/-- Write `CFG`. -/
def State.setCfg (s : State) (v : BlockConfig) : State := { s with cfg := v }

/-- Write the pass cursor. -/
def State.setCur (s : State) (v : Cursor) : State := { s with cur := v }

/-- Write the block status flags. -/
def State.setSt (s : State) (v : BlockStatus) : State := { s with st := v }

/-- Write the free-value marks. -/
def State.setFree (s : State) (v : FreeMarks) : State := { s with free := v }

/-! ## Errors -/

/-- The errors of 60_exceptions.md R341. -/
inductive Err where
  /-- Raised by the bit reader (41_bit_reader.md R123). -/
  | corruptBitstuffing
  /-- Raised by a byte fetch (20_memory.md R72, R75). -/
  | genericIOFailure
  /-- Raised by BLK_SEGMENT (45_block_control.md R311). -/
  | segmentationMismatch
  /-- Raised by BLK_SEGMENT (45_block_control.md R312). -/
  | predictableTerminationFailure
  /-- Raised by the encoding checks (30_encoding.md R95 to R97) and by a pass plane beyond bit 30
  (44_coding_passes.md R247). -/
  | illegalCommand
  /-- Raised by BLK_START (45_block_control.md R303). -/
  | badConfig
  /-- Raised by BLK_SEGMENT (45_block_control.md R306). -/
  | excessPasses
  /-- Raised by BLK_SEGMENT (45_block_control.md R309). -/
  | lateAppend
  /-- Raised when a block or a coder binding is absent (60_exceptions.md R341). -/
  | notReady
  /-- Raised by BLK_SEGMENT (45_block_control.md R307). -/
  | segmentSpan
  /-- Raised by BLK_SEGMENT (45_block_control.md R313). -/
  | sequenceError
deriving DecidableEq, Repr

/-- `code(E)`, the value of ERRCODE (60_exceptions.md R341). -/
def Err.code : Err → BitVec 4
  | .corruptBitstuffing => 1
  | .genericIOFailure => 2
  | .segmentationMismatch => 3
  | .predictableTerminationFailure => 4
  | .illegalCommand => 5
  | .badConfig => 6
  | .excessPasses => 7
  | .lateAppend => 8
  | .notReady => 9
  | .segmentSpan => 10
  | .sequenceError => 11

/-- The outcome of a stretch of pseudocode: it completes with a value, or raises an error. In both cases the state is
what was written up to there: a raise rolls nothing back (60_exceptions.md R342). -/
inductive Act (α : Type) where
  /-- The pseudocode ran to its end. -/
  | done (a : α) (s : State)
  /-- It raised: no later step runs. -/
  | raised (e : Err) (s : State)
deriving DecidableEq, Repr

/-- Run one stretch of pseudocode after another; a raise ends both. -/
def Act.bind {α β : Type} (m : Act α) (f : α → State → Act β) : Act β :=
  match m with
  | .done a s => f a s
  | .raised e s => .raised e s

/-- `for b in list: f(b)`, ended by the first raise. -/
def forEach {β : Type} (f : β → State → Act Unit) : List β → State → Act Unit
  | [], s => .done () s
  | b :: bs, s => (f b s).bind fun _ s1 => forEach f bs s1

/-- Taking an error, the machine's only exception: the first one is latched in ERROR and ERRCODE, a later one changes
nothing (60_exceptions.md R342). From the latch on, the registers behind the debug CSRs are "any value" to a reader
(93_implementation_defined.md U5, log 8). Nothing else is saved and nothing is jumped to: there is no handler
(60_exceptions.md R340). -/
def State.latch (s : State) (e : Err) : State :=
  if s.st.error then s
  else (s.setSt { s.st with error := true, errCode := e.code }).setFree { s.free with mq := true, br := true }

/-- The return from an error: ERROR and ERRCODE are cleared. BLK_START and reset alone do it (60_exceptions.md R347). -/
def State.clearError (s : State) : State := s.setSt { s.st with error := false, errCode := 0 }

/-- The end of a command: complete, or with its error latched (60_exceptions.md R342). -/
def Act.outcome (m : Act Unit) : Host.Outcome State Fault Refusal :=
  match m with
  | .done _ s => .next s
  | .raised e s => .next (s.latch e)

/-- The common prologue (60_exceptions.md R343): an operand out of range is IllegalCommand before any state is read
(30_encoding.md R97, R100); with ERROR = 1 a command does nothing, unless it is one of the commands that `always` run. -/
def runCommand (legal always : Bool) (body : State → Act Unit) (s : State) : Host.Outcome State Fault Refusal :=
  if legal = false then .next (s.latch .illegalCommand)
  else if s.st.error = true ∧ always = false then .next s
  else (body s).outcome

/-! ## Codeword memory and the byte source -/

/-- The byte the host has placed at an address of CWMEM (20_memory.md R71). -/
def State.cwByte (s : State) (addr : Nat) : Byte := Sparse.get unplacedByte s.cwmem addr

/-- `MemRead(addr, 1)` (20_memory.md R72). -/
def memRead (addr : Nat) (s : State) : Act Byte :=
  if addr < s.par.cwmemSize then .done (s.cwByte addr) s else .raised .genericIOFailure s

/-- `TOTAL` of 20_memory.md R74: the bytes of the bound source. -/
def srcTotal : List (Word × Word) → Nat
  | [] => 0
  | (_, len) :: rs => len.toNat + srcTotal rs

/-- The address of a logical index of the bound source (20_memory.md R74); `none` at or past `TOTAL`. The sum of base
and offset is not reduced modulo 2^32 (log 11). -/
def srcAddr : List (Word × Word) → Nat → Option Nat
  | [], _ => none
  | (base, len) :: rs, i => if i < len.toNat then some (base.toNat + i) else srcAddr rs (i - len.toNat)

/-- The fill byte (20_memory.md R75). -/
def fillByte : Byte := 0xFF

/-- `FetchByte()` (20_memory.md R75): the next byte of the bound source, and whether it is a fill byte. `SRC.POS` is a
32-bit register (00_scope.md R8, log 12). -/
def fetchByte (s : State) : Act (Byte × Bool) :=
  match srcAddr s.src.ranges s.src.pos.toNat with
  | some addr =>
    (memRead addr s).bind fun b s1 => .done (b, false) (s1.setSrc { s1.src with pos := s1.src.pos + 1 })
  | none =>
    if s.bound = .br ∧ s.br.mode = false then .raised .genericIOFailure s
    else .done (fillByte, true) (s.setSrc { s.src with filled := true })

/-- Binding the source to one range for a coder (20_memory.md R76). -/
def State.bindSource (s : State) (base len : Word) (coder : Bound) : State :=
  (s.setSrc { ranges := [(base, len)], pos := 0, filled := false }).setBound coder

/-! ## Sample memory and the sample-state array -/

/-- The key of the coefficient in column `x` and row `y`: row-major, with a stride no block is wider than
(00_scope.md R6), so that it does not depend on `CFG.W` (log 10). -/
def coordKey (x y : Nat) : Nat := y * Config.maxSide + x

/-- `SampRead(x, y)` (20_memory.md R77). -/
def State.sampRead (s : State) (x y : Nat) : Word := Sparse.get 0 s.samp (coordKey x y)

/-- `SampWrite(x, y, v)` (20_memory.md R77). -/
def State.sampWrite (s : State) (x y : Nat) (v : Word) : State := s.setSamp (Sparse.set 0 s.samp (coordKey x y) v)

/-- `S(x, y)` of a coefficient (10_state.md R37). -/
def State.cell (s : State) (x y : Nat) : SampleFlags := Sparse.get .clear s.cells (coordKey x y)

/-- Write `S(x, y)` of a coefficient (10_state.md R37). -/
def State.setCell (s : State) (x y : Nat) (v : SampleFlags) : State :=
  s.setCells (Sparse.set .clear s.cells (coordKey x y) v)

/-- `(x, y)` is a coefficient of the block (20_memory.md R77). -/
abbrev State.InBlock (s : State) (x y : Nat) : Prop := x < s.cfg.w ∧ y < s.cfg.h

/-- A cell of `S` with its margin, in the coordinates of the layout of 10_state.md R38: `(u, w)` is the cell of
`(u - 1, w - 1)`, and a cell outside the block is a margin cell, whose flags read 0 at all times. -/
def State.paddedCell (s : State) (u w : Nat) : SampleFlags :=
  if 1 ≤ u ∧ u ≤ s.cfg.w ∧ 1 ≤ w ∧ w ≤ s.cfg.h then s.cell (u - 1) (w - 1) else .clear

/-- Where 10_state.md R38 lays out the cell with padded coordinates `(u, w)`. The layout is not observable: no
definition of the machine reads it. -/
def stateIndex (p : Config.Params) (width u w : Nat) : Nat := w * (width + p.extraContextWords) + u

end Sys2Proof.Machine
end

