-- ==== Sys2Proof/Syntax.lean ====
section
/-! DEFINITION. The commands of T1D-CMD v1 (30_encoding.md R94): one constructor for each row of the opcode table, with
the operand fields of its format (30_encoding.md R92, R93) at the width the format gives them. -/

namespace Sys2Proof

/-- A command. Operands are the unsigned values of their fields (30_encoding.md R93); the ranges that
30_encoding.md R97 asks of them are in `WellFormed`. -/
inductive Instr where
  /-- `CSR_WR csr, data` (45_block_control.md R300). -/
  | csrWr (csr : BitVec 4) (data : Word)
  /-- `CSR_RD csr` (45_block_control.md R301). -/
  | csrRd (csr : BitVec 4)
  /-- `BLK_START` (45_block_control.md R302). -/
  | blkStart
  /-- `BLK_SEGMENT [last]` (45_block_control.md R304). -/
  | blkSegment (last : Bool)
  /-- `BR_BIND header|codeword`; `true` is codeword mode (41_bit_reader.md R126). -/
  | brBind (mode : Bool)
  /-- `BR_READBIT` (41_bit_reader.md R127). -/
  | brReadbit
  /-- `BR_READBITS n` (41_bit_reader.md R128). -/
  | brReadbits (n : BitVec 7)
  /-- `BR_FINISH` (41_bit_reader.md R130). -/
  | brFinish
  /-- `MQ_INIT` (42_mq_decoder.md R160). -/
  | mqInit
  /-- `MQ_DECODE` (42_mq_decoder.md R161). -/
  | mqDecode
  /-- `MQ_DECODE_RAW` (42_mq_decoder.md R162). -/
  | mqDecodeRaw
  /-- `MQ_PTERM` (42_mq_decoder.md R163). -/
  | mqPterm
  /-- `CX_RESET` (43_context_model.md R203). -/
  | cxReset
  /-- `CX_SELECT k` (43_context_model.md R204). -/
  | cxSelect (k : BitVec 5)
  /-- `CX_READ` (43_context_model.md R205). -/
  | cxRead
  /-- `PASS_SP p[, raw]` (44_coding_passes.md R250). -/
  | passSp (p : BitVec 5) (raw : Bool)
  /-- `PASS_MR p[, raw]` (44_coding_passes.md R255). -/
  | passMr (p : BitVec 5) (raw : Bool)
  /-- `PASS_CU p` (44_coding_passes.md R260). -/
  | passCu (p : BitVec 5)
  /-- `NEXT_PASS` (44_coding_passes.md R272). -/
  | nextPass
deriving DecidableEq, Repr

end Sys2Proof
end

