-- ==== Sys2Proof/WellFormed.lean ====
section
/-! DEFINITION. The operand ranges of the commands (30_encoding.md R97). A command outside them is IllegalCommand. -/

namespace Sys2Proof

/-- A CSR index CSR_RD may name: 0..12 (30_encoding.md R97). -/
abbrev CsrReadable (csr : BitVec 4) : Prop := csr.toNat < 13

/-- A CSR index CSR_WR may name: 0..4, the writable CSRs (30_encoding.md R97, 10_state.md R42). -/
abbrev CsrWritable (csr : BitVec 4) : Prop := csr.toNat < 5

/-- A bit count BR_READBITS may name: 0..64 (30_encoding.md R97). -/
abbrev CountLegal (n : BitVec 7) : Prop := n.toNat ≤ Config.readBitsMax

/-- A context category CX_SELECT may name: 0..18 (30_encoding.md R97). -/
abbrev CategoryLegal (k : BitVec 5) : Prop := k.toNat < Config.numCtx

/-- A bit-plane a pass command may name: 0..30 (30_encoding.md R97). -/
abbrev PlaneLegal (p : BitVec 5) : Prop := p.toNat ≤ Config.maxPlane

/-- Every operand of the command is in the range that 30_encoding.md R97 allows. -/
def Instr.wellFormed : Instr → Bool
  | .csrWr csr _ => decide (CsrWritable csr)
  | .csrRd csr => decide (CsrReadable csr)
  | .blkStart => true
  | .blkSegment _ => true
  | .brBind _ => true
  | .brReadbit => true
  | .brReadbits n => decide (CountLegal n)
  | .brFinish => true
  | .mqInit => true
  | .mqDecode => true
  | .mqDecodeRaw => true
  | .mqPterm => true
  | .cxReset => true
  | .cxSelect k => decide (CategoryLegal k)
  | .cxRead => true
  | .passSp p _ => decide (PlaneLegal p)
  | .passMr p _ => decide (PlaneLegal p)
  | .passCu p => decide (PlaneLegal p)
  | .nextPass => true

/-- A well-formed command: one whose operands are legal (30_encoding.md R97). -/
abbrev Instr.WellFormed (i : Instr) : Prop := i.wellFormed = true

end Sys2Proof
end

