-- ==== Sys2Proof/Machine/Operands.lean ====
section
/-! DEFINITION. The operand forms of the commands: the fields of GEOM, MODE and SEG_PASSES that a command reads
(10_state.md R44 to R47), the configuration BLK_START latches from them (45_block_control.md R302), the writable CSRs
by index (45_block_control.md R300), the context category and the bit-plane (30_encoding.md R93). -/

namespace Sys2Proof.Machine

/-- `WMASK[csr]`: the named fields of a writable CSR (45_block_control.md R300); no field of any other index is
writable (10_state.md R42). -/
def writeMask (csr : BitVec 4) : Word :=
  match csr.toNat with
  | 0 => 0x003FFFFF
  | 1 => 0x001F1F7F
  | 2 => 0xFFFFFFFF
  | 3 => 0xFFFFFFFF
  | 4 => 0x000000FF
  | _ => 0

/-- The CSRs after a write of `data` to the writable CSR of an index (45_block_control.md R300). -/
def writeCsr (csrs : Csrs) (csr : BitVec 4) (data : Word) : Csrs :=
  let v := data &&& writeMask csr
  match csr.toNat with
  | 0 => { csrs with geom := v }
  | 1 => { csrs with mode := v }
  | 2 => { csrs with segBase := v }
  | 3 => { csrs with segLen := v }
  | 4 => { csrs with segPasses := v }
  | _ => csrs

/-- `ORIENT` from its two bits (10_state.md R44). -/
def orientOf (v : BitVec 2) : Orient :=
  match v.toNat with
  | 0 => .LL
  | 1 => .HL
  | 2 => .LH
  | _ => .HH

/-- `CFG` as BLK_START latches it from GEOM and MODE (45_block_control.md R302; fields: 10_state.md R44, R45). -/
def latchConfig (geom mode : Word) : BlockConfig :=
  { w := (geom.extractLsb' 0 10).toNat + 1
    h := (geom.extractLsb' 10 10).toNat + 1
    orient := orientOf (geom.extractLsb' 20 2)
    restart := mode.getLsbD 0
    resetCtx := mode.getLsbD 1
    causal := mode.getLsbD 2
    segSym := mode.getLsbD 3
    bypass := mode.getLsbD 4
    pterm := mode.getLsbD 5
    validate := mode.getLsbD 6
    p0 := mode.extractLsb' 8 5
    shift := mode.extractLsb' 16 5 }

/-- The configuration BLK_START accepts (45_block_control.md R303). -/
abbrev BlockConfig.Accepted (c : BlockConfig) : Prop :=
  c.w * c.h ≤ Config.maxArea ∧ c.p0.toNat + c.shift.toNat ≤ Config.maxPlane

/-- `n`, the pass count of the next BLK_SEGMENT (10_state.md R47). -/
def State.segPassCount (s : State) : Nat := (s.csr.segPasses.extractLsb' 0 8).toNat

/-- The context category of an operand (30_encoding.md R93); a value that CX_SELECT refuses (R97) has none. -/
def categoryOf (k : BitVec 5) : Option Category :=
  if h : k.toNat < Config.numCtx then some ⟨k.toNat, h⟩ else none

/-- A bit-plane that lands on a magnitude bit of the sample word (44_coding_passes.md R247). -/
abbrev State.PlaneFits (s : State) (p : Nat) : Prop := p + s.cfg.shift.toNat ≤ Config.maxPlane

end Sys2Proof.Machine
end

