-- ==== Sys2Proof/Machine/Flags.lean ====
section
/-! DEFINITION. The flags of 10_state.md R58 as software sees them: the derived flag FATAL (10_state.md R41), the layouts
of the read-only CSRs 5..12 (10_state.md R48 to R56), and when a debug CSR is "any value" (10_state.md R50,
93_implementation_defined.md U5). -/

namespace Sys2Proof.Machine

/-- `FATAL` = `ERROR & CFG.VALIDATE` (10_state.md R41). -/
def State.fatal (s : State) : Bool := s.st.error && s.cfg.validate

/-- The code of BOUND in STATUS (10_state.md R48). -/
def Bound.code : Bound → BitVec 2
  | .none => 0
  | .mq => 1
  | .br => 2

/-- The code of a pass kind in STATUS and in the result of NEXT_PASS (10_state.md R48, 44_coding_passes.md R272). -/
def PassKind.code : PassKind → BitVec 2
  | .sp => 1
  | .mr => 2
  | .cu => 3

/-- The code of LASTPASS in STATUS (10_state.md R48). -/
def lastPassCode : Option PassKind → BitVec 2
  | none => 0
  | some k => k.code

/-- LASTTYPE as a bit: 1 is RAW (10_state.md R48). -/
def Coder.isRaw : Coder → Bool
  | .mq => false
  | .raw => true

/-- A field of a CSR: the value `v` at bit `lo`. -/
def fieldAt {n : Nat} (lo : Nat) (v : BitVec n) : Word := v.setWidth 32 <<< lo

/-- A one-bit field of a CSR. -/
def bitAt (lo : Nat) (b : Bool) : Word := fieldAt lo (BitVec.ofBool b)

/-- `STATUS` (10_state.md R48). -/
def State.statusWord (s : State) : Word :=
  bitAt 0 s.st.started ||| bitAt 1 s.st.finished ||| bitAt 2 s.st.error ||| bitAt 3 s.fatal |||
  fieldAt 4 s.bound.code ||| bitAt 6 s.src.filled ||| bitAt 7 s.cur.lastType.isRaw |||
  fieldAt 8 (lastPassCode s.cur.lastPass) ||| fieldAt 10 s.cur.plane ||| fieldAt 16 s.st.errCode

/-- `PASSCOUNT` (10_state.md R49). -/
def State.passCountWord (s : State) : Word := fieldAt 0 s.cur.passCount

/-- `MQ_A` (10_state.md R51). -/
def State.mqAWord (s : State) : Word := fieldAt 0 s.mq.a

/-- `MQ_CTB` (10_state.md R53). -/
def State.mqCtbWord (s : State) : Word := fieldAt 0 s.mq.ct ||| fieldAt 8 s.mq.b ||| bitAt 16 s.mq.mf

/-- `BR_STATE` (10_state.md R55). -/
def State.brStateWord (s : State) : Word :=
  fieldAt 0 s.br.bitsLeft ||| fieldAt 8 s.br.buf ||| bitAt 16 s.br.lastFF ||| bitAt 17 s.br.mode

/-- `CXSEL` (10_state.md R56). -/
def State.cxselWord (s : State) : Word := BitVec.ofNat 32 s.cxsel.val

/-- `CSR[csr]` as the registers give it (45_block_control.md R301, 10_state.md R43); the reserved fields of the
writable CSRs read 0 (10_state.md R42). -/
def State.csrWord (s : State) (csr : BitVec 4) : Word :=
  match csr.toNat with
  | 0 => s.csr.geom &&& writeMask csr
  | 1 => s.csr.mode &&& writeMask csr
  | 2 => s.csr.segBase &&& writeMask csr
  | 3 => s.csr.segLen &&& writeMask csr
  | 4 => s.csr.segPasses &&& writeMask csr
  | 5 => s.statusWord
  | 6 => s.passCountWord
  | 7 => s.mqAWord
  | 8 => s.mq.c
  | 9 => s.mqCtbWord
  | 10 => s.src.pos
  | 11 => s.brStateWord
  | 12 => s.cxselWord
  | _ => 0

/-- The named fields of a debug CSR (10_state.md R51 to R56); its other bits read 0 whatever the value is
(93_implementation_defined.md U4). -/
def debugMask (csr : BitVec 4) : Word :=
  match csr.toNat with
  | 7 => 0x0000FFFF
  | 8 => 0xFFFFFFFF
  | 9 => 0x0001FF0F
  | 10 => 0xFFFFFFFF
  | 11 => 0x0003FF0F
  | 12 => 0x0000001F
  | _ => 0

/-- The CSR is a debug CSR whose value is unspecified: an error is latched (10_state.md R50), or one has been since the
registers it shows were last loaded (93_implementation_defined.md U5, log 8). -/
def State.csrIsFree (s : State) (csr : BitVec 4) : Bool :=
  match csr.toNat with
  | 7 | 8 | 9 => s.st.error || s.free.mq
  | 10 | 12 => s.st.error
  | 11 => s.st.error || s.free.br
  | _ => false

/-- The value CSR_RD returns: the registers' value, or a free value in the named fields of a debug CSR. Two engines, or one
engine before and after a host reset, get the same free value at equal counters (DESIGN CHOICE, log 27). -/
def State.csrRead (s : State) (csr : BitVec 4) : Word :=
  if s.csrIsFree csr then Config.freeDebug s.free.count &&& debugMask csr else s.csrWord csr

/-- Each free value is used once (log 8). -/
def State.spendFree (s : State) (csr : BitVec 4) : State :=
  if s.csrIsFree csr then s.setFree { s.free with count := s.free.count + 1 } else s

end Sys2Proof.Machine
end

