-- ==== Sys2Proof/Machine/BitReader.lean ====
section
/-! DEFINITION. The bit-stuffed input reader (41_bit_reader.md): BR_BIND, BR_READBIT, BR_READBITS, BR_FINISH. -/

namespace Sys2Proof.Machine

/-- A bit as a value of `RES` (`zext_64`, 00_scope.md R7). -/
def resOfBit (d : Bool) : Res := (BitVec.ofBool d).setWidth 64

/-- `LoadByte()` (41_bit_reader.md R121): a real 0xFF after a 0xFF is CorruptBitstuffing (R123), after a 0xFF the
stuffing bit is dropped (R122), its value is not checked (R124). -/
def loadByte (s : State) : Act Unit :=
  (fetchByte s).bind fun bf s1 =>
    if s1.br.lastFF = true ∧ bf.1 = 0xFF ∧ bf.2 = false then .raised .corruptBitstuffing s1
    else .done () (s1.setBr
      { s1.br with bitsLeft := if s1.br.lastFF then 7 else 8, lastFF := bf.1 == 0xFF, buf := bf.1 })

/-- `LoadByte()` if the current byte is used up. -/
def refill (s : State) : Act Unit := if s.br.bitsLeft = 0 then loadByte s else .done () s

/-- `READBIT()` (41_bit_reader.md R127). -/
def readBit (s : State) : Act Bool :=
  (refill s).bind fun _ s1 =>
    .done (s1.br.buf.getLsbD (s1.br.bitsLeft - 1).toNat)
      (s1.setBr { s1.br with bitsLeft := s1.br.bitsLeft - 1 })

/-- The loop of BR_READBITS (41_bit_reader.md R128): `n` more bits below those of `v`, the first one read on top. -/
def readBits : Nat → Res → State → Act Res
  | 0, v, s => .done v s
  | n + 1, v, s => (readBit s).bind fun d s1 => readBits n ((v <<< 1) ||| resOfBit d) s1

/-- Bind the bit reader to the segment of SEG_BASE, SEG_LEN (41_bit_reader.md R126, 45_block_control.md R308). Its
registers have known values again (log 8). -/
def State.bindReader (s : State) (mode : Bool) : State :=
  ((s.bindSource s.csr.segBase s.csr.segLen .br).setBr
    { buf := 0, bitsLeft := 0, lastFF := false, mode := mode }).setFree { s.free with br := false }

/-- The stuffing byte of BR_FINISH: fetched exactly at a byte boundary after a 0xFF, not checked
(41_bit_reader.md R130). -/
def skipStuffing (s : State) : Act Unit :=
  if s.br.bitsLeft = 0 ∧ s.br.lastFF = true then (fetchByte s).bind fun _ s1 => .done () s1 else .done () s

/-- BR_BIND (41_bit_reader.md R126). -/
def execBrBind (mode : Bool) (s : State) : Host.Outcome State Fault Refusal :=
  runCommand true false (fun s => .done () (s.bindReader mode)) s

/-- BR_READBIT (41_bit_reader.md R127). -/
def execBrReadbit (s : State) : Host.Outcome State Fault Refusal :=
  runCommand true false (fun s =>
    if s.bound = .br then (readBit s).bind fun d s1 => .done () (s1.setRes (resOfBit d))
    else .raised .notReady s) s

/-- BR_READBITS (41_bit_reader.md R128): `RES` is written only if all `n` bits were read (R129). -/
def execBrReadbits (n : BitVec 7) (s : State) : Host.Outcome State Fault Refusal :=
  runCommand (decide (CountLegal n)) false (fun s =>
    if s.bound = .br then (readBits n.toNat 0 s).bind fun v s1 => .done () (s1.setRes v)
    else .raised .notReady s) s

/-- BR_FINISH (41_bit_reader.md R130). -/
def execBrFinish (s : State) : Host.Outcome State Fault Refusal :=
  runCommand true false (fun s =>
    if s.bound = .br then
      (skipStuffing s).bind fun _ s1 =>
        .done () ((s1.setBr { s1.br with bitsLeft := 0, lastFF := false }).setRes (s1.src.pos.setWidth 64))
    else .raised .notReady s) s

end Sys2Proof.Machine
end

