-- ==== Sys2Proof/Machine/MqDecoder.lean ====
section
/-! DEFINITION. The MQ arithmetic decoder (42_mq_decoder.md): MQ_INIT, MQ_DECODE, MQ_DECODE_RAW, MQ_PTERM. -/

namespace Sys2Proof.Machine

/-- `Chigh`, the 16 bits `C[31:16]` (00_scope.md R8). -/
def MqRegs.chigh (r : MqRegs) : Half := r.c.extractLsb' 16 16

/-- `CX[k]` (10_state.md R32). -/
def State.ctx (s : State) (k : Category) : CxEntry := s.cx[k.val]

/-- Write `CX[k]`: the exchange steps alone do it (43_context_model.md R206). -/
def State.setCtx (s : State) (k : Category) (e : CxEntry) : State := s.setCx (s.cx.set k.val e)

/-- What BYTEIN does to the registers with the byte it fetched (42_mq_decoder.md R155): after a 0xFF a byte above 0x8F
is a marker and leaves `C` alone, another gives 7 bits; else 8 bits. `C` is modulo 2^32 (R153). -/
def MqRegs.takeByte (r : MqRegs) (b : Byte) : MqRegs :=
  if r.b = 0xFF then
    if 0x8F#8 < b then { r with b := b, mf := true, ct := 8 }
    else { r with b := b, c := r.c + 0xFE00 - (b.setWidth 32 <<< 9), ct := 7 }
  else { r with b := b, c := r.c + 0xFF00 - (b.setWidth 32 <<< 8), ct := 8 }

/-- `BYTEIN` (42_mq_decoder.md R155). It ignores whether the byte is a fill byte (R154); once a marker is found nothing
is fetched (R156). -/
def byteIn (s : State) : Act Unit :=
  if s.mq.mf then .done () (s.setMq { s.mq with ct := 8 })
  else (fetchByte s).bind fun bf s1 => .done () (s1.setMq (s1.mq.takeByte bf.1))

/-- `BYTEIN` if `CT` is 0 (42_mq_decoder.md R157). -/
def byteInIfEmpty (s : State) : Act Unit := if s.mq.ct = 0 then byteIn s else .done () s

/-- One doubling of RENORMD (42_mq_decoder.md R157): `A` modulo 2^16, `C` modulo 2^32. -/
def MqRegs.double (r : MqRegs) : MqRegs := { r with a := r.a <<< 1, c := r.c <<< 1, ct := r.ct - 1 }

/-- The do-while loop of RENORMD (42_mq_decoder.md R157), at most `n` rounds. -/
def renormLoop : Nat → State → Act Unit
  | 0, s => .done () s
  | n + 1, s =>
    (byteInIfEmpty s).bind fun _ s1 =>
      if s1.mq.double.a < 0x8000 then renormLoop n (s1.setMq s1.mq.double)
      else .done () (s1.setMq s1.mq.double)

/-- `RENORMD` (42_mq_decoder.md R157). It is entered with `A` from 1 to 0x7FFF, so it ends within 15 rounds (log 13). -/
def renormD (s : State) : Act Unit := renormLoop 16 s

/-- The context entry after an LPS exchange, with the MPS inverted where the row says SWITCH (42_mq_decoder.md R158). -/
def CxEntry.lps (e : CxEntry) : CxEntry :=
  { I := (qe e.I).NLPS, MPS := if (qe e.I).SWITCH then !e.MPS else e.MPS }

/-- The context entry after an MPS exchange (42_mq_decoder.md R158). -/
def CxEntry.mps (e : CxEntry) : CxEntry := { e with I := (qe e.I).NMPS }

/-- MPS exchange (42_mq_decoder.md R158): the decision, and the state with the context adapted. -/
def mpsExchange (k : Category) (s : State) : Bool × State :=
  let e := s.ctx k
  if s.mq.a < (qe e.I).Qe then (!e.MPS, s.setCtx k e.lps) else (e.MPS, s.setCtx k e.mps)

/-- LPS exchange (42_mq_decoder.md R159): `A < Q` is asked of `A` before `A <- Q` (90_conflicts.md C7). -/
def lpsExchange (k : Category) (s : State) : Bool × State :=
  let e := s.ctx k
  let s1 := s.setMq { s.mq with a := (qe e.I).Qe }
  if s.mq.a < (qe e.I).Qe then (e.MPS, s1.setCtx k e.mps) else (!e.MPS, s1.setCtx k e.lps)

/-- `C <- C - (A << 16)`, modulo 2^32 (42_mq_decoder.md R161). -/
def MqRegs.subtractA (r : MqRegs) : MqRegs := { r with c := r.c - (r.a.setWidth 32 <<< 16) }

/-- `DECODE(k)` (42_mq_decoder.md R161). `A - Q` is modulo 2^16 (00_scope.md R8, log 15). The MPS path with `A` still at
0x8000 or above does not renormalise, in state 46 either, as R161's pseudocode has it; R161's corner case says that state
46 always renormalises there (DEDUCED, log 26). -/
def decodeMq (k : Category) (s : State) : Act Bool :=
  let s1 := s.setMq { s.mq with a := s.mq.a - (qe (s.ctx k).I).Qe }
  if s1.mq.chigh < s1.mq.a then
    if 0x8000#16 ≤ s1.mq.a then .done (s1.ctx k).MPS s1
    else (renormD (mpsExchange k s1).2).bind fun _ s2 => .done (mpsExchange k s1).1 s2
  else
    let s2 := s1.setMq s1.mq.subtractA
    (renormD (lpsExchange k s2).2).bind fun _ s3 => .done (lpsExchange k s2).1 s3

/-- `INITDEC` (42_mq_decoder.md R160). The MQ registers have known values again (log 8). -/
def initDec (s : State) : Act Unit :=
  (fetchByte (s.setMq { s.mq with mf := false })).bind fun bf s1 =>
    (byteIn (s1.setMq { s1.mq with b := bf.1, c := (bf.1 ^^^ 0xFF).setWidth 32 <<< 16 })).bind fun _ s2 =>
      .done () ((s2.setMq { s2.mq with c := s2.mq.c <<< 7, ct := s2.mq.ct - 7, a := 0x8000 }).setFree
        { s2.free with mq := false })

/-- Bind the source to SEG_BASE, SEG_LEN for the MQ decoder and initialise it (42_mq_decoder.md R160,
45_block_control.md R308). -/
def bindDecoder (s : State) : Act Unit := initDec (s.bindSource s.csr.segBase s.csr.segLen .mq)

/-- The last part of `PTERM()` (42_mq_decoder.md R163), from `kk <- CT - 1` on: true when the check fails. -/
def ptermPattern (s : State) : Act Bool :=
  let q : Half := 0x8000#16 >>> (s.mq.ct - 1).toNat
  let s1 := s.setMq { s.mq with a := s.mq.a - q }
  if s1.mq.chigh < s1.mq.a then .done true s1
  else (renormD (s1.setMq { s1.mq.subtractA with a := q })).bind fun _ s2 => .done false s2

/-- `PTERM()` (42_mq_decoder.md R163): true when the check fails. -/
def pterm (s : State) : Act Bool :=
  if s.mq.b ≠ 0xFF ∧ s.mq.mf = false then .done true s
  else if s.mq.ct ≠ 0 ∧ s.mq.mf = false then .done true s
  else if s.mq.ct = 1 then .done false s
  else if s.mq.ct = 0 then
    if s.mq.mf = false then
      (fetchByte s).bind fun bf s1 =>
        if bf.1 ≤ 0x8F#8 then .done true (s1.setMq { s1.mq with b := bf.1 })
        else ptermPattern (s1.setMq { s1.mq with b := bf.1, ct := 8 })
    else ptermPattern (s.setMq { s.mq with ct := 8 })
  else ptermPattern s

/-- MQ_INIT (42_mq_decoder.md R160). -/
def execMqInit (s : State) : Host.Outcome State Fault Refusal :=
  runCommand true false bindDecoder s

/-- MQ_DECODE (42_mq_decoder.md R161) on the context CX_SELECT chose. -/
def execMqDecode (s : State) : Host.Outcome State Fault Refusal :=
  runCommand true false (fun s =>
    if s.bound = .mq then (decodeMq s.cxsel s).bind fun d s1 => .done () (s1.setRes (resOfBit d))
    else .raised .notReady s) s

/-- MQ_DECODE_RAW (42_mq_decoder.md R162): one bit of the bit reader in codeword mode. -/
def execMqDecodeRaw (s : State) : Host.Outcome State Fault Refusal :=
  runCommand true false (fun s =>
    if s.bound = .br ∧ s.br.mode = true then (readBit s).bind fun d s1 => .done () (s1.setRes (resOfBit d))
    else .raised .notReady s) s

/-- MQ_PTERM (42_mq_decoder.md R163). -/
def execMqPterm (s : State) : Host.Outcome State Fault Refusal :=
  runCommand true false (fun s =>
    if s.bound = .mq then (pterm s).bind fun d s1 => .done () (s1.setRes (resOfBit d))
    else .raised .notReady s) s

end Sys2Proof.Machine
end

