-- ==== Sys2Proof/Machine/ContextModel.lean ====
section
/-! DEFINITION. The context model (43_context_model.md): CX_RESET, CX_SELECT, CX_READ, and the context labels. -/

namespace Sys2Proof.Machine

/-- The fresh context table (43_context_model.md R203). -/
def State.resetContexts (s : State) : State := (s.setCx initContexts).setCxsel 0

/-- CX_RESET (43_context_model.md R203). -/
def execCxReset (s : State) : Host.Outcome State Fault Refusal :=
  runCommand true false (fun s => .done () s.resetContexts) s

/-- CX_SELECT (43_context_model.md R204). -/
def execCxSelect (k : BitVec 5) (s : State) : Host.Outcome State Fault Refusal :=
  runCommand (decide (CategoryLegal k)) false (fun s =>
    match categoryOf k with
    | some c => .done () (s.setCxsel c)
    | none => .raised .illegalCommand s) s

/-- What CX_READ returns of a context: the MPS at bit 8, the state index in bits [5:0] (43_context_model.md R205). -/
def CxEntry.word (e : CxEntry) : Res := (resOfBit e.MPS <<< 8) ||| BitVec.ofNat 64 e.I.val

/-- CX_READ (43_context_model.md R205). -/
def execCxRead (s : State) : Host.Outcome State Fault Refusal :=
  runCommand true false (fun s => .done () (s.setRes (s.ctx s.cxsel).word)) s

/-! ## The neighbourhood -/

/-- The neighbour in row `w` of a coefficient in row `y` lies in the next stripe, and the vertically causal mode hides
it (43_context_model.md R209); `w` is a padded row, so the coefficient's own is `y + 1`. -/
abbrev State.causallyHidden (s : State) (y w : Nat) : Prop :=
  s.cfg.causal = true ∧ y % Config.stripeH = 3 ∧ w = y + 2

/-- The state of a neighbour as seen from row `y` (43_context_model.md R207 to R209), in the padded coordinates of
`State.paddedCell`: the neighbours of `(x, y)` are `(x..x+2, y..y+2)` but for `(x+1, y+1)`. -/
def State.seen (s : State) (y u w : Nat) : SampleFlags :=
  if s.causallyHidden y w then .clear else s.paddedCell u w

/-- `σ(u, w)` of 43_context_model.md R207 as a number. -/
def State.sigma (s : State) (y u w : Nat) : Nat := (s.seen y u w).SIG.toNat

/-- `h`, the significant horizontal neighbours of `(x, y)` (43_context_model.md R207). -/
def State.hCount (s : State) (x y : Nat) : Nat := s.sigma y x (y + 1) + s.sigma y (x + 2) (y + 1)

/-- `v`, the significant vertical neighbours of `(x, y)` (43_context_model.md R207). -/
def State.vCount (s : State) (x y : Nat) : Nat := s.sigma y (x + 1) y + s.sigma y (x + 1) (y + 2)

/-- `d`, the significant diagonal neighbours of `(x, y)` (43_context_model.md R207). -/
def State.dCount (s : State) (x y : Nat) : Nat :=
  s.sigma y x y + s.sigma y (x + 2) y + s.sigma y x (y + 2) + s.sigma y (x + 2) (y + 2)

/-! ## The labels -/

/-- The ZC table for LL and LH (43_context_model.md R210). -/
def zcTable (h v d : Nat) : Category :=
  if 2 ≤ h then 8
  else if h = 1 then (if 1 ≤ v then 7 else if 1 ≤ d then 6 else 5)
  else if 2 ≤ v then 4
  else if v = 1 then 3
  else if 2 ≤ d then 2
  else if d = 1 then 1
  else 0

/-- The ZC table for HH, with `hv = h + v` (43_context_model.md R210). -/
def zcTableHH (hv d : Nat) : Category :=
  if 3 ≤ d then 8
  else if d = 2 then (if 1 ≤ hv then 7 else 6)
  else if d = 1 then (if 2 ≤ hv then 5 else if hv = 1 then 4 else 3)
  else if 2 ≤ hv then 2
  else if hv = 1 then 1
  else 0

/-- The ZC label from the counts and the orientation (43_context_model.md R210). -/
def zcOf (orient : Orient) (h v d : Nat) : Category :=
  match orient with
  | .LL => zcTable h v d
  | .LH => zcTable h v d
  | .HL => zcTable v h d
  | .HH => zcTableHH (h + v) d

/-- `ZC(x, y)` (43_context_model.md R210). -/
def State.zc (s : State) (x y : Nat) : Category :=
  zcOf s.cfg.orient (s.hCount x y) (s.vCount x y) (s.dCount x y)

/-- `χ`, the sign contribution of a neighbour (43_context_model.md R211). -/
def SampleFlags.chi (f : SampleFlags) : Int := if f.SIG then (if f.SGN then -1 else 1) else 0

/-- `clamp(t, -1, 1)` (43_context_model.md R211). -/
def clampSign (t : Int) : Int := if t < -1 then -1 else if 1 < t then 1 else t

/-- `hc` (43_context_model.md R211). -/
def State.hSign (s : State) (x y : Nat) : Int :=
  clampSign ((s.seen y x (y + 1)).chi + (s.seen y (x + 2) (y + 1)).chi)

/-- `vc` (43_context_model.md R211). -/
def State.vSign (s : State) (x y : Nat) : Int :=
  clampSign ((s.seen y (x + 1) y).chi + (s.seen y (x + 1) (y + 2)).chi)

/-- The SC label and XOR bit from `hc` and `vc` (43_context_model.md R212). -/
def scOf (hc vc : Int) : Category × Bool :=
  if hc = 1 then (if vc = 1 then (13, false) else if vc = 0 then (12, false) else (11, false))
  else if hc = 0 then (if vc = 1 then (10, false) else if vc = 0 then (9, false) else (10, true))
  else (if vc = 1 then (11, true) else if vc = 0 then (12, true) else (13, true))

/-- `SC(x, y)` (43_context_model.md R212). -/
def State.sc (s : State) (x y : Nat) : Category × Bool := scOf (s.hSign x y) (s.vSign x y)

/-- `MR(x, y)` (43_context_model.md R214). -/
def State.mrLabel (s : State) (x y : Nat) : Category :=
  if (s.cell x y).REF then 16
  else if 0 < s.hCount x y + s.vCount x y + s.dCount x y then 15
  else 14

/-- RL, the run-length category (43_context_model.md R215). -/
def runCategory : Category := 17

/-- UNI, the uniform category (43_context_model.md R215). -/
def uniformCategory : Category := 18

end Sys2Proof.Machine
end

