-- ==== Sys2Proof/Machine/Passes.lean ====
section
/-! DEFINITION. The coding-pass state machine (44_coding_passes.md): PASS_SP, PASS_MR, PASS_CU, NEXT_PASS. -/

namespace Sys2Proof.Machine

/-! ## Scan order -/

/-- The rows of the stripe starting at row `y0` that a block of `h` rows has (44_coding_passes.md R241). -/
def stripeRows (h y0 : Nat) : List Nat := [y0, y0 + 1, y0 + 2, y0 + 3].filter (· < h)

/-- The stripe columns `(x, y0)` of a block in the order a pass visits them (44_coding_passes.md R241). -/
def columns (w h : Nat) : List (Nat × Nat) :=
  (List.range ((h + 3) / Config.stripeH)).flatMap fun i => (List.range w).map fun x => (x, Config.stripeH * i)

/-- `SCAN` (44_coding_passes.md R241): the coefficients `(x, y)` in the order a pass visits them. -/
def scan (w h : Nat) : List (Nat × Nat) :=
  (columns w h).flatMap fun c => (stripeRows h c.2).map fun y => (c.1, y)

/-! ## Updates and decisions -/

/-- The sample word of a coefficient that becomes significant at plane `p` with sign `sgn` (44_coding_passes.md R244). -/
def significantWord (sgn : Bool) (bit : Nat) : Word := ((BitVec.ofBool sgn).setWidth 32 <<< 31) ||| (1#32 <<< bit)

/-- `SETSIG(x, y, p, s)` (44_coding_passes.md R244). -/
def State.setSig (s : State) (x y p : Nat) (sgn : Bool) : State :=
  (s.setCell x y { s.cell x y with SIG := true, SGN := sgn }).sampWrite x y
    (significantWord sgn (p + s.cfg.shift.toNat))

/-- `REFINE(x, y, p, d)` (44_coding_passes.md R245). -/
def State.refine (s : State) (x y p : Nat) (d : Bool) : State :=
  (s.sampWrite x y (s.sampRead x y ||| ((BitVec.ofBool d).setWidth 32 <<< (p + s.cfg.shift.toNat)))).setCell x y
    { s.cell x y with REF := true }

/-- `S(x, y).VIS <- 1` (44_coding_passes.md R246). -/
def State.setVis (s : State) (x y : Nat) : State := s.setCell x y { s.cell x y with VIS := true }

/-- `S(x, y).VIS <- 0` for every coefficient (44_coding_passes.md R257). -/
def State.clearVis (s : State) : State :=
  s.setCells (Sparse.mapCells .clear (fun f => { f with VIS := false }) s.cells)

/-- `BIT(k)` (44_coding_passes.md R242). -/
def passBit (raw : Bool) (k : Category) (s : State) : Act Bool := if raw then readBit s else decodeMq k s

/-- `SIGN(x, y)` (44_coding_passes.md R242, 43_context_model.md R213). -/
def passSign (raw : Bool) (x y : Nat) (s : State) : Act Bool :=
  if raw then readBit s
  else (decodeMq (s.sc x y).1 s).bind fun d s1 => .done (d ^^ (s.sc x y).2) s1

/-- A coefficient whose significance decision was 1: decode its sign and make it significant. -/
def becomeSignificant (raw : Bool) (p x y : Nat) (s : State) : Act Unit :=
  (passSign raw x y s).bind fun sgn s1 => .done () (s1.setSig x y p sgn)

/-! ## Significance propagation -/

/-- One coefficient of SP_PASS (44_coding_passes.md R248, R249). -/
def spVisit (p : Nat) (raw : Bool) (c : Nat × Nat) (s : State) : Act Unit :=
  if (s.cell c.1 c.2).SIG = true then .done () s
  else if s.zc c.1 c.2 = 0 then .done () s
  else (passBit raw (s.zc c.1 c.2) s).bind fun d s1 =>
    if d then becomeSignificant raw p c.1 c.2 (s1.setVis c.1 c.2) else .done () (s1.setVis c.1 c.2)

/-- `SP_PASS(p, raw)` (44_coding_passes.md R248); it never reports an error. -/
def spPass (p : Nat) (raw : Bool) (s : State) : Act Bool :=
  (forEach (spVisit p raw) (scan s.cfg.w s.cfg.h) s).bind fun _ s1 => .done false s1

/-! ## Magnitude refinement -/

/-- One coefficient of MR_PASS (44_coding_passes.md R251, R252). -/
def mrVisit (p : Nat) (raw : Bool) (c : Nat × Nat) (s : State) : Act Unit :=
  if (s.cell c.1 c.2).SIG = false ∨ (s.cell c.1 c.2).VIS = true then .done () s
  else (passBit raw (s.mrLabel c.1 c.2) s).bind fun d s1 => .done () (s1.refine c.1 c.2 p d)

/-- `MR_PASS(p, raw)` (44_coding_passes.md R251); it never reports an error. -/
def mrPass (p : Nat) (raw : Bool) (s : State) : Act Bool :=
  (forEach (mrVisit p raw) (scan s.cfg.w s.cfg.h) s).bind fun _ s1 => .done false s1

/-! ## Cleanup -/

/-- Column `x` of the stripe at `y0` enters run mode (44_coding_passes.md R256). -/
def State.runMode (s : State) (x y0 : Nat) : Bool :=
  decide (y0 + Config.stripeH ≤ s.cfg.h) &&
    [y0, y0 + 1, y0 + 2, y0 + 3].all fun y =>
      !(s.cell x y).SIG && !(s.cell x y).VIS && decide (s.zc x y = 0)

/-- One coefficient of a column that CU_PASS codes by itself (44_coding_passes.md R257); label 0 is coded too. -/
def cuVisit (p : Nat) (c : Nat × Nat) (s : State) : Act Unit :=
  if (s.cell c.1 c.2).SIG = true ∨ (s.cell c.1 c.2).VIS = true then .done () s
  else (decodeMq (s.zc c.1 c.2) s).bind fun d s1 =>
    if d then becomeSignificant false p c.1 c.2 s1 else .done () s1

/-- The coefficients of column `x` of the stripe at `y0` from row `ystart` on (44_coding_passes.md R257). -/
def columnFrom (h x y0 ystart : Nat) : List (Nat × Nat) :=
  ((stripeRows h y0).filter (ystart ≤ ·)).map fun y => (x, y)

/-- The two UNI decisions of the run position, the first one the more significant (44_coding_passes.md R257). -/
def runPosition (s : State) : Act Nat :=
  (decodeMq uniformCategory s).bind fun d1 s1 =>
    (decodeMq uniformCategory s1).bind fun d0 s2 => .done (2 * d1.toNat + d0.toNat) s2

/-- One stripe column of CU_PASS (44_coding_passes.md R257). -/
def cuColumn (p : Nat) (c : Nat × Nat) (s : State) : Act Unit :=
  if s.runMode c.1 c.2 then
    (decodeMq runCategory s).bind fun d s1 =>
      if d = false then .done () s1
      else (runPosition s1).bind fun r s2 =>
        (becomeSignificant false p c.1 (c.2 + r) s2).bind fun _ s3 =>
          forEach (cuVisit p) (columnFrom s3.cfg.h c.1 c.2 (c.2 + r + 1)) s3
  else forEach (cuVisit p) (columnFrom s.cfg.h c.1 c.2 c.2) s

/-- `n` UNI decisions below the bits of `v`, the first one on top (44_coding_passes.md R261). -/
def uniformBits : Nat → BitVec 4 → State → Act (BitVec 4)
  | 0, v, s => .done v s
  | n + 1, v, s =>
    (decodeMq uniformCategory s).bind fun d s1 =>
      uniformBits n ((v <<< 1) ||| (BitVec.ofBool d).setWidth 4) s1

/-- `SEGSYM_CHECK` (44_coding_passes.md R261): true on a mismatch. -/
def segSymCheck (s : State) : Act Bool :=
  (uniformBits 4 0 s).bind fun v s1 => .done (v != 0b1010#4) s1

/-- `CU_PASS(p)` (44_coding_passes.md R257); true is a segmentation-symbol mismatch. -/
def cuPass (p : Nat) (s : State) : Act Bool :=
  (forEach (cuColumn p) (columns s.cfg.w s.cfg.h) s).bind fun _ s1 =>
    if s1.cfg.segSym then segSymCheck s1.clearVis else .done false s1.clearVis

/-! ## Pass sequencing -/

/-- `NEXT(kind, p)` (44_coding_passes.md R270); `none` is END, after the CU pass of plane 0 (90_conflicts.md C2). -/
def nextPassOf (cfg : BlockConfig) (last : Option PassKind) (p : BitVec 5) : Option (PassKind × BitVec 5) :=
  match last with
  | none => some (.cu, cfg.p0)
  | some .cu => if p = 0 then none else some (.sp, p - 1)
  | some .sp => some (.mr, p)
  | some .mr => some (.cu, p)

/-- `RAW(kind, p)` (44_coding_passes.md R271): `p <= P0 - 4` as integers. -/
def rawPass (cfg : BlockConfig) (kind : PassKind) (p : BitVec 5) : Bool :=
  match kind with
  | .cu => false
  | .sp => cfg.bypass && decide (p.toNat + 4 ≤ cfg.p0.toNat)
  | .mr => cfg.bypass && decide (p.toNat + 4 ≤ cfg.p0.toNat)

/-- What NEXT_PASS returns (44_coding_passes.md R272). -/
def nextPassWord (cfg : BlockConfig) (next : Option (PassKind × BitVec 5)) : Res :=
  match next with
  | none => 0
  | some (kind, p) =>
    kind.code.setWidth 64 ||| (p.setWidth 64 <<< 8) ||| (resOfBit (rawPass cfg kind p) <<< 16)

/-! ## Commands -/

/-- The coder a pass command needs is bound (44_coding_passes.md R250). -/
abbrev State.coderReady (s : State) (raw : Bool) : Prop :=
  if raw then s.bound = .br ∧ s.br.mode = true else s.bound = .mq

/-- The common shape of the pass commands (44_coding_passes.md R250, R255, R260): a block and the coder, then the plane,
then the pass, whose error signal is the result. -/
def passCommand (raw : Bool) (p : BitVec 5) (body : State → Act Bool) (s : State) : Act Unit :=
  if s.st.started = true ∧ s.coderReady raw then
    if s.PlaneFits p.toNat then (body s).bind fun err s1 => .done () (s1.setRes (resOfBit err))
    else .raised .illegalCommand s
  else .raised .notReady s

/-- PASS_SP (44_coding_passes.md R250). -/
def execPassSp (p : BitVec 5) (raw : Bool) (s : State) : Host.Outcome State Fault Refusal :=
  runCommand (decide (PlaneLegal p)) false (passCommand raw p (spPass p.toNat raw)) s

/-- PASS_MR (44_coding_passes.md R255). -/
def execPassMr (p : BitVec 5) (raw : Bool) (s : State) : Host.Outcome State Fault Refusal :=
  runCommand (decide (PlaneLegal p)) false (passCommand raw p (mrPass p.toNat raw)) s

/-- PASS_CU (44_coding_passes.md R260). -/
def execPassCu (p : BitVec 5) (s : State) : Host.Outcome State Fault Refusal :=
  runCommand (decide (PlaneLegal p)) false (passCommand false p (cuPass p.toNat)) s

/-- NEXT_PASS (44_coding_passes.md R272). -/
def execNextPass (s : State) : Host.Outcome State Fault Refusal :=
  runCommand true false (fun s =>
    if s.st.started = true then
      .done () (s.setRes (nextPassWord s.cfg (nextPassOf s.cfg s.cur.lastPass s.cur.plane)))
    else .raised .notReady s) s

end Sys2Proof.Machine
end

