-- ==== Sys2Proof/Machine/BlockControl.lean ====
section
/-! DEFINITION. Block control (45_block_control.md): CSR_WR, CSR_RD, BLK_START, and BLK_SEGMENT, the contribution
sequencer. -/

namespace Sys2Proof.Machine

/-! ## CSR access -/

/-- CSR_WR (45_block_control.md R300). It runs with ERROR = 1 too (60_exceptions.md R343). -/
def execCsrWr (csr : BitVec 4) (data : Word) (s : State) : Host.Outcome State Fault Refusal :=
  runCommand (decide (CsrWritable csr)) true (fun s => .done () (s.setCsr (writeCsr s.csr csr data))) s

/-- CSR_RD (45_block_control.md R301). It runs with ERROR = 1 too (60_exceptions.md R343); a debug CSR is then a free
value (10_state.md R50, log 8). -/
def execCsrRd (csr : BitVec 4) (s : State) : Host.Outcome State Fault Refusal :=
  runCommand (decide (CsrReadable csr)) true (fun s =>
    .done () ((s.spendFree csr).setRes ((s.csrRead csr).setWidth 64))) s

/-! ## Block start -/

/-- The first steps of BLK_START, before its checks, in the order of R302's pseudocode: so FINISHED is 0 after BadConfig
also where it was 1, which R303's "the rest of the block state is as before" would leave (DEDUCED, log 24). -/
def State.latchBlock (s : State) : State :=
  (s.clearError.setSt { s.clearError.st with started := false, finished := false }).setCfg
    (latchConfig s.csr.geom s.csr.mode)

/-- The last steps of BLK_START, after its checks (45_block_control.md R302): SAMP and S all 0, the initial contexts, no
source, the start of the pass cursor. The model's mark keeps the size of the block whose words are now 0 (log 25). -/
def State.freshBlock (s : State) : State :=
  { s with
    samp := []
    cells := []
    cx := initContexts
    cxsel := 0
    src := { ranges := [], pos := 0, filled := false }
    bound := .none
    cur := Cursor.start
    st := { s.st with started := true }
    free := { s.free with zeroed := some (s.cfg.w, s.cfg.h) } }

/-- BLK_START's steps (45_block_control.md R302, R303). -/
def blkStart (s : State) : Act Unit :=
  if s.latchBlock.cfg.Accepted then .done () s.latchBlock.freshBlock else .raised .badConfig s.latchBlock

/-- BLK_START (45_block_control.md R302). It runs with ERROR = 1 too, and clears it. -/
def execBlkStart (s : State) : Host.Outcome State Fault Refusal := runCommand true true blkStart s

/-! ## Segment decode -/

/-- The plan of BLK_SEGMENT (45_block_control.md R306): `n` passes from a cursor; `none` if END comes first. -/
def planPasses (cfg : BlockConfig) : Nat → Option PassKind → BitVec 5 → Option (List (PassKind × BitVec 5))
  | 0, _, _ => some []
  | n + 1, last, p =>
    match nextPassOf cfg last p with
    | none => none
    | some (kind, q) => (planPasses cfg n (some kind) q).map fun rest => (kind, q) :: rest

/-- The segment spans two codeword segments (45_block_control.md R307); `first` is the first planned pass. -/
def spansTwo (cfg : BlockConfig) (first : PassKind × BitVec 5) (rest : List (PassKind × BitVec 5)) : Bool :=
  (cfg.restart && !rest.isEmpty) ||
    (cfg.bypass && rest.any fun k => rawPass cfg k.1 k.2 != rawPass cfg first.1 first.2)

/-- A fresh coder is bound for the segment (45_block_control.md R304); `raw` is the first pass's coder. -/
def State.needsFresh (s : State) (raw : Bool) : Bool :=
  s.cur.passCount == 0 || s.cfg.restart || (s.cfg.bypass && raw != s.cur.lastType.isRaw)

/-- Bind a fresh coder (45_block_control.md R308). -/
def freshCoder (raw : Bool) (s : State) : Act Unit :=
  if raw then .done () (s.bindReader true) else bindDecoder s

/-- Continue with the bound coder: append the segment (45_block_control.md R309). -/
def appendSegment (raw : Bool) (s : State) : Act Unit :=
  if s.bound ≠ (if raw then .br else .mq) then .raised .notReady s
  else if s.src.filled = true ∧ 0 < s.csr.segLen.toNat then .raised .lateAppend s
  else .done () (s.setSrc { s.src with ranges := s.src.ranges ++ [(s.csr.segBase, s.csr.segLen)] })

/-- The coder step of BLK_SEGMENT (45_block_control.md R304). -/
def coderStep (raw : Bool) (s : State) : Act Unit :=
  if s.needsFresh raw then freshCoder raw s else appendSegment raw s

/-- The context reset of the segment (45_block_control.md R310), made here when `CTX_RESET_AT` is SEGMENT. -/
def State.segmentReset (s : State) : State :=
  if s.cfg.resetCtx = true ∧ s.par.ctxResetAt = .segment then s.resetContexts else s

/-- The context reset before a pass (45_block_control.md R310), made here when `CTX_RESET_AT` is PASS. -/
def State.passReset (s : State) : State :=
  if s.cfg.resetCtx = true ∧ s.par.ctxResetAt = .pass then s.resetContexts else s

/-- The pass procedure of a kind (45_block_control.md R311). -/
def runPass (kind : PassKind) (p : BitVec 5) (raw : Bool) (s : State) : Act Bool :=
  match kind with
  | .sp => spPass p.toNat raw s
  | .mr => mrPass p.toNat raw s
  | .cu => cuPass p.toNat s

/-- Advance the pass cursor past a completed pass (45_block_control.md R311). -/
def State.advance (s : State) (kind : PassKind) (p : BitVec 5) (raw : Bool) : State :=
  s.setCur { lastPass := some kind, plane := p, passCount := s.cur.passCount + 1,
             lastType := if raw then .raw else .mq }

/-- One pass of a segment (45_block_control.md R311): a raise inside the pass comes before the cursor moves, a
segmentation mismatch after. -/
def segmentPass (k : PassKind × BitVec 5) (s : State) : Act Unit :=
  (runPass k.1 k.2 (rawPass s.cfg k.1 k.2) s.passReset).bind fun err s1 =>
    if err then .raised .segmentationMismatch (s1.advance k.1 k.2 (rawPass s.cfg k.1 k.2))
    else .done () (s1.advance k.1 k.2 (rawPass s.cfg k.1 k.2))

/-- The segment ends a codeword segment (45_block_control.md R312). -/
def State.endsCodeword (s : State) : Bool :=
  s.cfg.restart ||
    match nextPassOf s.cfg s.cur.lastPass s.cur.plane with
    | none => true
    | some (kind, p) => s.cfg.bypass && rawPass s.cfg kind p != s.cur.lastType.isRaw

/-- The termination check (45_block_control.md R312). -/
def terminationCheck (s : State) : Act Unit :=
  if s.cfg.pterm = true ∧ s.cur.lastType = .mq ∧ s.endsCodeword = true then
    (pterm s).bind fun failed s1 => if failed then .raised .predictableTerminationFailure s1 else .done () s1
  else .done () s

/-- The planned passes of a segment: coder, context reset, passes, termination check (45_block_control.md R304). -/
def runSegment (plan : List (PassKind × BitVec 5)) (raw : Bool) (s : State) : Act Unit :=
  (coderStep raw s).bind fun _ s1 =>
    (forEach segmentPass plan s1.segmentReset).bind fun _ s2 => terminationCheck s2

/-- The `try` of BLK_SEGMENT (45_block_control.md R304), in the order of 60_exceptions.md R345. -/
def segmentBody (s : State) : Act Unit :=
  if s.st.finished = true then .raised .sequenceError s
  else
    match planPasses s.cfg s.segPassCount s.cur.lastPass s.cur.plane with
    | none => .raised .excessPasses s
    | some [] => .done () s
    | some (first :: rest) =>
      if spansTwo s.cfg first rest then .raised .segmentSpan s
      else runSegment (first :: rest) (rawPass s.cfg first.1 first.2) s

/-- The `last` step of BLK_SEGMENT (45_block_control.md R304, R313). -/
def State.finishIf (s : State) (last : Bool) : State := if last then s.setSt { s.st with finished := true } else s

/-- The state after the `try` of BLK_SEGMENT and its `last` step, which a raise does not skip (60_exceptions.md R342). -/
def Act.finishSegment (m : Act Unit) (last : Bool) : State :=
  match m with
  | .done _ s => s.finishIf last
  | .raised e s => (s.latch e).finishIf last

/-- BLK_SEGMENT's steps (45_block_control.md R304). With ERROR = 1 only the `last` step is left. -/
def blkSegment (last : Bool) (s : State) : Act Unit :=
  if s.st.error = true then .done () (s.finishIf (last && s.st.started))
  else if s.st.started = false then .raised .notReady s
  else .done () ((segmentBody s).finishSegment last)

/-- BLK_SEGMENT (45_block_control.md R304). -/
def execBlkSegment (last : Bool) (s : State) : Host.Outcome State Fault Refusal :=
  runCommand true true (blkSegment last) s

end Sys2Proof.Machine
end

