-- ==== Sys2Proof/Machine/Dispatch.lean ====
section
/-! DEFINITION. One arm for each command (30_encoding.md R94). -/

namespace Sys2Proof.Machine

def exec (i : Instr) (s : State) : Host.Outcome State Fault Refusal :=
  match i with
  | .csrWr csr data => Sys2Proof.Machine.execCsrWr csr data s
  | .csrRd csr => Sys2Proof.Machine.execCsrRd csr s
  | .blkStart => Sys2Proof.Machine.execBlkStart s
  | .blkSegment last => Sys2Proof.Machine.execBlkSegment last s
  | .brBind mode => Sys2Proof.Machine.execBrBind mode s
  | .brReadbit => Sys2Proof.Machine.execBrReadbit s
  | .brReadbits n => Sys2Proof.Machine.execBrReadbits n s
  | .brFinish => Sys2Proof.Machine.execBrFinish s
  | .mqInit => Sys2Proof.Machine.execMqInit s
  | .mqDecode => Sys2Proof.Machine.execMqDecode s
  | .mqDecodeRaw => Sys2Proof.Machine.execMqDecodeRaw s
  | .mqPterm => Sys2Proof.Machine.execMqPterm s
  | .cxReset => Sys2Proof.Machine.execCxReset s
  | .cxSelect k => Sys2Proof.Machine.execCxSelect k s
  | .cxRead => Sys2Proof.Machine.execCxRead s
  | .passSp p raw => Sys2Proof.Machine.execPassSp p raw s
  | .passMr p raw => Sys2Proof.Machine.execPassMr p raw s
  | .passCu p => Sys2Proof.Machine.execPassCu p s
  | .nextPass => Sys2Proof.Machine.execNextPass s

end Sys2Proof.Machine
end

