-- ==== Sys2Proof/Decode.lean ====
section
/-! DEFINITION. Decoding the host's word stream (30_encoding.md R90 to R100) and encoding commands back into it. -/

namespace Sys2Proof

/-- The opcode of a command word, bits [31:26] (30_encoding.md R91). -/
def opcodeOf (w : Word) : BitVec 6 := w.extractLsb' 26 6

/-- The bits [25:n] of a command word are all 0: the reserved bits of a format whose operands fill the low `n` bits
(30_encoding.md R92, R96). -/
def reservedClear (n : Nat) (w : Word) : Bool := (w.setWidth 26 >>> n) == 0#26

/-- Why a command word is IllegalCommand, in the order in which 30_encoding.md R100 checks. -/
inductive IllegalWord where
  /-- The opcode is reserved (30_encoding.md R95). -/
  | reservedOpcode
  /-- A reserved bit of the format is set (30_encoding.md R96). -/
  | reservedBit
  /-- An operand is out of its range (30_encoding.md R97). -/
  | operandRange
deriving DecidableEq, Repr

/-- What the engine finds at the head of the delivered words. -/
inductive Decoded where
  /-- A legal command, and the words after it. -/
  | instr (i : Instr) (rest : List Word)
  /-- An illegal command, and the words after it (a CSR_WR's data word is consumed, 30_encoding.md R99). -/
  | illegal (why : IllegalWord) (rest : List Word)
  /-- No whole command has been delivered. -/
  | incomplete
deriving DecidableEq, Repr

/-- The operand bits of the format of an opcode, and the command the word then is (30_encoding.md R92 to R94); `none`
for a reserved opcode (30_encoding.md R95). `w` is the command word and `d` the data word of CSR_WR. -/
def formatOf (w d : Word) : Option (Nat × Instr) :=
  match (opcodeOf w).toNat with
  | 0x01 => some (4, .csrWr (w.extractLsb' 0 4) d)
  | 0x02 => some (4, .csrRd (w.extractLsb' 0 4))
  | 0x03 => some (0, .blkStart)
  | 0x04 => some (1, .blkSegment (w.getLsbD 0))
  | 0x08 => some (1, .brBind (w.getLsbD 0))
  | 0x09 => some (0, .brReadbit)
  | 0x0A => some (7, .brReadbits (w.extractLsb' 0 7))
  | 0x0B => some (0, .brFinish)
  | 0x10 => some (0, .mqInit)
  | 0x11 => some (0, .mqDecode)
  | 0x12 => some (0, .mqDecodeRaw)
  | 0x13 => some (0, .mqPterm)
  | 0x18 => some (0, .cxReset)
  | 0x19 => some (5, .cxSelect (w.extractLsb' 0 5))
  | 0x1A => some (0, .cxRead)
  | 0x20 => some (6, .passSp (w.extractLsb' 0 5) (w.getLsbD 5))
  | 0x21 => some (6, .passMr (w.extractLsb' 0 5) (w.getLsbD 5))
  | 0x22 => some (5, .passCu (w.extractLsb' 0 5))
  | 0x23 => some (0, .nextPass)
  | _ => none

/-- The three checks of 30_encoding.md R100, in order, on a command word and its data word. -/
def decodeWords (w d : Word) : Except IllegalWord Instr :=
  match formatOf w d with
  | none => .error .reservedOpcode
  | some (n, i) =>
    if reservedClear n w = false then .error .reservedBit
    else if i.wellFormed = false then .error .operandRange
    else .ok i

/-- A command word has a data word behind it exactly when its opcode is CSR_WR's, whatever its other bits
(30_encoding.md R99). -/
def takesData (w : Word) : Bool := opcodeOf w == 0x01#6

/-- The outcome of the checks, with the words left over. -/
def decodedOf (w d : Word) (rest : List Word) : Decoded :=
  match decodeWords w d with
  | .ok i => .instr i rest
  | .error why => .illegal why rest

/-- Decode the head of the host's word stream (30_encoding.md R99). Total on any words. -/
def decode : List Word → Decoded
  | [] => .incomplete
  | w :: ws =>
    if takesData w then
      match ws with
      | [] => .incomplete
      | d :: rest => decodedOf w d rest
    else decodedOf w 0 ws

/-- A command word from its opcode and its operand bits (30_encoding.md R91, R92). -/
def headWord (opcode : BitVec 6) (operands : BitVec 26) : Word := opcode ++ operands

/-- The words of a command (30_encoding.md R92, R94). -/
def encode : Instr → List Word
  | .csrWr csr data => [headWord 0x01 (csr.setWidth 26), data]
  | .csrRd csr => [headWord 0x02 (csr.setWidth 26)]
  | .blkStart => [headWord 0x03 0]
  | .blkSegment last => [headWord 0x04 ((BitVec.ofBool last).setWidth 26)]
  | .brBind mode => [headWord 0x08 ((BitVec.ofBool mode).setWidth 26)]
  | .brReadbit => [headWord 0x09 0]
  | .brReadbits n => [headWord 0x0A (n.setWidth 26)]
  | .brFinish => [headWord 0x0B 0]
  | .mqInit => [headWord 0x10 0]
  | .mqDecode => [headWord 0x11 0]
  | .mqDecodeRaw => [headWord 0x12 0]
  | .mqPterm => [headWord 0x13 0]
  | .cxReset => [headWord 0x18 0]
  | .cxSelect k => [headWord 0x19 (k.setWidth 26)]
  | .cxRead => [headWord 0x1A 0]
  | .passSp p raw => [headWord 0x20 ((BitVec.ofBool raw ++ p).setWidth 26)]
  | .passMr p raw => [headWord 0x21 ((BitVec.ofBool raw ++ p).setWidth 26)]
  | .passCu p => [headWord 0x22 (p.setWidth 26)]
  | .nextPass => [headWord 0x23 0]

/-- One row of the match and mask table of 30_encoding.md R94. -/
structure OpcodeRow where
  /-- The command's name. -/
  mnemonic : String
  /-- The opcode bits, the operand bits 0. -/
  pattern : Word
  /-- Every bit that is no operand bit. -/
  mask : Word
deriving DecidableEq, Repr

/-- The match and mask table of 30_encoding.md R94. The decoder does not read it: the package states that they agree. -/
def opcodeTable : List OpcodeRow := [
  ⟨"CSR_WR", 0x04000000, 0xFFFFFFF0⟩,
  ⟨"CSR_RD", 0x08000000, 0xFFFFFFF0⟩,
  ⟨"BLK_START", 0x0C000000, 0xFFFFFFFF⟩,
  ⟨"BLK_SEGMENT", 0x10000000, 0xFFFFFFFE⟩,
  ⟨"BR_BIND", 0x20000000, 0xFFFFFFFE⟩,
  ⟨"BR_READBIT", 0x24000000, 0xFFFFFFFF⟩,
  ⟨"BR_READBITS", 0x28000000, 0xFFFFFF80⟩,
  ⟨"BR_FINISH", 0x2C000000, 0xFFFFFFFF⟩,
  ⟨"MQ_INIT", 0x40000000, 0xFFFFFFFF⟩,
  ⟨"MQ_DECODE", 0x44000000, 0xFFFFFFFF⟩] ++ [
  ⟨"MQ_DECODE_RAW", 0x48000000, 0xFFFFFFFF⟩,
  ⟨"MQ_PTERM", 0x4C000000, 0xFFFFFFFF⟩,
  ⟨"CX_RESET", 0x60000000, 0xFFFFFFFF⟩,
  ⟨"CX_SELECT", 0x64000000, 0xFFFFFFE0⟩,
  ⟨"CX_READ", 0x68000000, 0xFFFFFFFF⟩,
  ⟨"PASS_SP", 0x80000000, 0xFFFFFFC0⟩,
  ⟨"PASS_MR", 0x84000000, 0xFFFFFFC0⟩,
  ⟨"PASS_CU", 0x88000000, 0xFFFFFFE0⟩,
  ⟨"NEXT_PASS", 0x8C000000, 0xFFFFFFFF⟩]

/-- A word is the command of a row exactly when its masked bits are the row's pattern (30_encoding.md R94). -/
def OpcodeRow.covers (r : OpcodeRow) (w : Word) : Bool := (w &&& r.mask) == r.pattern

/-- The mnemonic of a command (30_encoding.md R94). -/
def Instr.mnemonic : Instr → String
  | .csrWr _ _ => "CSR_WR"
  | .csrRd _ => "CSR_RD"
  | .blkStart => "BLK_START"
  | .blkSegment _ => "BLK_SEGMENT"
  | .brBind _ => "BR_BIND"
  | .brReadbit => "BR_READBIT"
  | .brReadbits _ => "BR_READBITS"
  | .brFinish => "BR_FINISH"
  | .mqInit => "MQ_INIT"
  | .mqDecode => "MQ_DECODE"
  | .mqDecodeRaw => "MQ_DECODE_RAW"
  | .mqPterm => "MQ_PTERM"
  | .cxReset => "CX_RESET"
  | .cxSelect _ => "CX_SELECT"
  | .cxRead => "CX_READ"
  | .passSp _ _ => "PASS_SP"
  | .passMr _ _ => "PASS_MR"
  | .passCu _ => "PASS_CU"
  | .nextPass => "NEXT_PASS"

/-- The words of an instruction whose bits, numbered as the opcode table numbers them, are the low `nbits` of `w`: the
command word is bits 31..0 and, for CSR_WR alone, the data word is bits 63..32. -/
def tableWords (nbits w : Nat) : List Word :=
  let v := w % 2 ^ nbits
  let head := BitVec.ofNat 32 v
  if takesData head then [head, BitVec.ofNat 32 (v / 2 ^ 32)] else [head]

/-- The instruction the decoder reads from an instruction's bits (numbered as the opcode table numbers them). -/
def decodeTableWord (nbits w : Nat) : Option Instr :=
  match decode (tableWords nbits w) with
  | .instr i _ => some i
  | .illegal _ _ => none
  | .incomplete => none

end Sys2Proof
end

