-- ==== Sys2Proof/Machine/Fetch.lean ====
section
/-! DEFINITION. Taking the next command from the words the host has delivered (10_state.md R23, 30_encoding.md R99).
There is no program counter and no instruction memory (20_memory.md R86); the list `hostq` stands for the delivery
(log 1). -/

namespace Sys2Proof.Machine

/-- The command at the head of the delivered words (30_encoding.md R99). -/
def State.fetch (s : State) : Decoded := decode s.hostq

/-- The state with a command's words taken: `rest` is what the host has delivered behind it. -/
def State.taken (s : State) (rest : List Word) : State := s.setHostq rest

/-- An illegal command word raises IllegalCommand; nothing else is read or written (30_encoding.md R95, R96). -/
def State.illegalWord (s : State) : State := s.latch .illegalCommand

/-- The host delivers the words of one instruction, given as bits numbered as the opcode table numbers them, ahead of
what it has delivered before. -/
def State.deliverFirst (s : State) (nbits w : Nat) : State := s.setHostq (tableWords nbits w ++ s.hostq)

end Sys2Proof.Machine
end

