-- ==== Sys2Proof/Machine/Step.lean ====
section
/-! DEFINITION. One step of the engine: take the next command the host has delivered and run it to completion
(00_scope.md R10, 10_state.md R23). -/

namespace Sys2Proof.Machine

/-- One step. With no whole command delivered the engine waits for the host (70_reset_and_hazards.md R371;
30_encoding.md R99 for a CSR_WR whose data word is still to come): nothing changes (log 2, log 3). -/
def step (s : State) : Host.Outcome State Fault Refusal :=
  match s.fetch with
  | .instr i rest => exec i (s.taken rest)
  | .illegal _ rest => .next (s.taken rest).illegalWord
  | .incomplete => .next s

/-- The state with the words of one instruction delivered first, so that the next step takes and runs exactly it. -/
def State.withFetchWord (s : State) (nbits w : Nat) : State := s.deliverFirst nbits w

end Sys2Proof.Machine
end

