-- ==== Sys2Proof/Machine/HostPort.lean ====
section
/-! DEFINITION. What the host can do to an engine between two commands, besides what its commands do: deliver words
(10_state.md R23), write and read codeword memory (20_memory.md R70, R84), read the sample memory (20_memory.md R73,
45_block_control.md R314), and reset the instance (70_reset_and_hazards.md R370). These are no steps of the engine
(log 16). -/

namespace Sys2Proof.Machine

/-- The host delivers words behind those it has delivered before (10_state.md R23). -/
def State.deliver (s : State) (words : List Word) : State := s.setHostq (s.hostq ++ words)

/-- The host writes a byte of CWMEM (20_memory.md R70, R84). There is no cell at or above CWMEM_SIZE: such a write
changes nothing (DESIGN CHOICE, log 17). -/
def State.hostWrite (s : State) (addr : Nat) (b : Byte) : State :=
  if addr < s.par.cwmemSize then s.setCwmem (Sparse.set unplacedByte s.cwmem addr b) else s

/-- The host writes consecutive bytes of CWMEM. -/
def State.hostWriteAll (s : State) (addr : Nat) : List Byte → State
  | [] => s
  | b :: bs => (s.hostWrite addr b).hostWriteAll (addr + 1) bs

/-- The host reads a byte of CWMEM (20_memory.md R70); `none` where there is no cell. -/
def State.hostRead (s : State) (addr : Nat) : Option Byte :=
  if addr < s.par.cwmemSize then some (s.cwByte addr) else none

/-- Word `(x, y)` of SAMP as the host sees it. A word that no BLK_START has zeroed is a free value: before the first
BLK_START "any value" (93_implementation_defined.md U3, log 7); outside the block last zeroed, which a later BLK_START
that raised BadConfig can put inside `CFG.W` and `CFG.H` (45_block_control.md R303), the spec states none and the free
value is the model's choice (DESIGN CHOICE, log 25). Two engines that last zeroed the same size, or both none, have the same
free value at the same coordinates (DESIGN CHOICE, log 27). -/
def State.hostSampWord (s : State) (x y : Nat) : Word :=
  match s.free.zeroed with
  | none => Config.freeSample none x y
  | some (w, h) => if x < w ∧ y < h then s.sampRead x y else Config.freeSample (some (w, h)) x y

/-- A host read of `(x, y)` reaches a word of SAMP: inside `CFG.W` and `CFG.H` (20_memory.md R70, R73). Before the first
BLK_START `CFG` has no value, and any pair some block could have reaches one (DESIGN CHOICE, log 25). -/
abbrev State.SampReaches (s : State) (x y : Nat) : Prop :=
  if s.free.zeroed = none then x < Config.maxSide ∧ y < Config.maxSide else s.InBlock x y

/-- The host reads word `(x, y)` of SAMP (20_memory.md R70, R73): `none` where no word is reached, of which the spec says
nothing (DESIGN CHOICE, log 25). -/
def State.hostSampRead (s : State) (x y : Nat) : Option Word :=
  if s.SampReaches x y then some (s.hostSampWord x y) else none

/-- The sample buffer as the host's row-major array: word `(x, y)` at index `y * CFG.W + x` (20_memory.md R73). Its size
is that of `CFG`; after reset, where `CFG` has no value, it is the 1 by 1 of log 6 (DESIGN CHOICE, log 25). -/
def State.sampleBuffer (s : State) : List Word :=
  (List.range s.cfg.h).flatMap fun y => (List.range s.cfg.w).map fun x => s.hostSampWord x y

/-- A sample word as a signed number: sign and magnitude (10_state.md R36). -/
def sampleValue (v : Word) : Int := if v.getLsbD 31 then -((v.setWidth 31).toNat : Int) else (v.setWidth 31).toNat

/-- The host resets the instance (70_reset_and_hazards.md R370): every piece of state takes its value after reset, but
CWMEM, which is the host's, and the parameters, which are the machine's. Words not yet taken are dropped (log 1). -/
def State.hostReset (s : State) : State := { State.reset with par := s.par, cwmem := s.cwmem }

end Sys2Proof.Machine
end

