-- ==== Sys2Proof/Machine/Pool.lean ====
section
/-! DEFINITION. Several engine instances over one codeword memory (10_state.md R20, 20_memory.md R83, 60_exceptions.md
R350). Which engine moves next is the host's choice; one engine alone is `State` and `step` (log 16). -/

namespace Sys2Proof.Machine

/-- `N_INSTANCES` engines that share the host's codeword memory and nothing else that can change (60_exceptions.md R350). -/
structure Pool where
  /-- The codeword memory all engines read. -/
  cwmem : List Host.Cell
  /-- The parameters of the hardware, the same for every engine (00_scope.md R6). -/
  par : Config.Params
  /-- The engines. -/
  engines : List State
deriving DecidableEq, Repr

/-- Every engine sees the shared codeword memory and is of the same hardware. -/
abbrev Pool.Shared (p : Pool) : Prop := ∀ s ∈ p.engines, s.cwmem = p.cwmem ∧ s.par = p.par

/-- The pool is a hardware of 00_scope.md R6: legal parameters, `N_INSTANCES` engines, so at least one, and one codeword
memory. -/
abbrev Pool.Legal (p : Pool) : Prop := p.par.Legal ∧ p.engines.length = p.par.nInstances ∧ p.Shared

/-- The hardware after reset of every engine, over a codeword memory of the host's (70_reset_and_hazards.md R370). -/
def Pool.reset (par : Config.Params) (cwmem : List Host.Cell) : Pool :=
  { cwmem := cwmem, par := par,
    engines := List.replicate par.nInstances { State.reset with par := par, cwmem := cwmem } }

/-- The state after a step; a step of this machine always has one (60_exceptions.md R340). -/
def State.stepped (s : State) : State :=
  match step s with
  | .next t => t
  | .fault _ => s
  | .refused _ => s

/-- Engine `i` takes one step. -/
def Pool.stepAt (p : Pool) (i : Nat) : Pool :=
  match p.engines[i]? with
  | some s => { p with engines := p.engines.set i (s.setCwmem p.cwmem).stepped }
  | none => p

/-- The engines step in the order of a schedule. -/
def Pool.run (p : Pool) (schedule : List Nat) : Pool := schedule.foldl Pool.stepAt p

/-- The host delivers words to engine `i`. -/
def Pool.deliverTo (p : Pool) (i : Nat) (words : List Word) : Pool :=
  match p.engines[i]? with
  | some s => { p with engines := p.engines.set i (s.deliver words) }
  | none => p

/-- The host writes a byte of the shared codeword memory, seen by every engine (20_memory.md R84); as for one engine,
there is no cell at or above CWMEM_SIZE (DESIGN CHOICE, log 17). -/
def Pool.hostWrite (p : Pool) (addr : Nat) (b : Byte) : Pool :=
  if addr < p.par.cwmemSize then
    { p with
      cwmem := Sparse.set unplacedByte p.cwmem addr b
      engines := p.engines.map fun s => s.setCwmem (Sparse.set unplacedByte p.cwmem addr b) }
  else p

end Sys2Proof.Machine
end

