-- ==== Sys2Proof/Safety.lean ====
section
/-! DEFINITION. What a safe run is, the invariant of the machine, and when a byte source can be read without an error:
the terms in which the statements are made. -/

namespace Sys2Proof.Machine

/-- A safe state: no error has been latched since the last BLK_START or reset (60_exceptions.md R342, R347). -/
abbrev State.Safe (s : State) : Prop := s.st.error = false

/-! ## The invariant -/

/-- The memories are in canonical form. -/
abbrev State.MemoriesCanonical (s : State) : Prop :=
  Memory.wf s.cwmem ∧ Sparse.WF (0 : Word) s.samp ∧ Sparse.WF SampleFlags.clear s.cells

/-- A coordinate key is that of a coefficient of a block (20_memory.md R77). -/
abbrev KeyInBlock (c : BlockConfig) (k : Nat) : Prop := k % Config.maxSide < c.w ∧ k / Config.maxSide < c.h

/-- No word of SAMP and no cell of S outside the block is written while a block is started (20_memory.md R77,
10_state.md R38). -/
abbrev State.InsideBlock (s : State) : Prop :=
  s.st.started = true → (∀ e ∈ s.samp, KeyInBlock s.cfg e.1) ∧ (∀ e ∈ s.cells, KeyInBlock s.cfg e.1)

/-- The bit counters are in their ranges (10_state.md R26, R29). -/
abbrev State.CountersInRange (s : State) : Prop := s.mq.ct.toNat ≤ 8 ∧ s.br.bitsLeft.toNat ≤ 8

/-- ERRCODE holds no code exactly while ERROR is 0, and a code of 60_exceptions.md R341 else; 12..15 are never latched. -/
abbrev State.ErrorLegal (s : State) : Prop :=
  (s.st.error = false → s.st.errCode = 0) ∧
    (s.st.error = true → 1 ≤ s.st.errCode.toNat ∧ s.st.errCode.toNat ≤ 11)

/-- The reserved fields of the writable CSRs are 0 (10_state.md R42). -/
abbrev State.CsrsLegal (s : State) : Prop :=
  s.csr.geom &&& ~~~0x003FFFFF = 0 ∧ s.csr.mode &&& ~~~0x001F1F7F = 0 ∧ s.csr.segPasses &&& ~~~0x000000FF = 0

/-- CFG holds block sides of 10_state.md R39, and while a block is started a configuration BLK_START accepts
(45_block_control.md R303). -/
abbrev State.ConfigLegal (s : State) : Prop :=
  (1 ≤ s.cfg.w ∧ s.cfg.w ≤ Config.maxSide ∧ 1 ≤ s.cfg.h ∧ s.cfg.h ≤ Config.maxSide) ∧
    (s.st.started = true → s.cfg.Accepted)

/-- The cursor stands at a pass of the block's sequence, PASSCOUNT is that pass's number in it, and LASTTYPE is that
pass's coder (44_coding_passes.md R270, R271, R273; 45_block_control.md R311). -/
abbrev Cursor.Legal (cfg : BlockConfig) (cur : Cursor) : Prop :=
  (cur.lastPass = none → cur = Cursor.start) ∧
  (cur.lastPass = some .cu → cur.plane.toNat ≤ cfg.p0.toNat ∧
    cur.passCount.toNat = 3 * (cfg.p0.toNat - cur.plane.toNat) + 1 ∧ cur.lastType = .mq) ∧
  (cur.lastPass = some .sp → cur.plane.toNat < cfg.p0.toNat ∧
    cur.passCount.toNat + 1 = 3 * (cfg.p0.toNat - cur.plane.toNat) ∧
    cur.lastType.isRaw = rawPass cfg .sp cur.plane) ∧
  (cur.lastPass = some .mr → cur.plane.toNat < cfg.p0.toNat ∧
    cur.passCount.toNat = 3 * (cfg.p0.toNat - cur.plane.toNat) ∧
    cur.lastType.isRaw = rawPass cfg .mr cur.plane)

/-- The cursor is legal while a block is started. -/
abbrev State.CursorLegal (s : State) : Prop := s.st.started = true → Cursor.Legal s.cfg s.cur

/-- A sample word agrees with its flags (44_coding_passes.md R244, R245; 10_state.md R36): an insignificant coefficient
has the word 0 and no refinement; a significant one has its sign in bit 31 and a magnitude that is not 0. -/
abbrev SampleAgrees (f : SampleFlags) (v : Word) : Prop :=
  (f.SIG = false → v = 0 ∧ f.REF = false) ∧ (f.SIG = true → v.getLsbD 31 = f.SGN ∧ v.setWidth 31 ≠ 0#31)

/-- Every coefficient of a started block agrees with its flags. -/
abbrev State.SamplesAgree (s : State) : Prop :=
  s.st.started = true → ∀ y < s.cfg.h, ∀ x < s.cfg.w, SampleAgrees (s.cell x y) (s.sampRead x y)

/-- A block is finished only if it was started, an unbound source is empty, and BLK_START has zeroed all of SAMP once a
block is started (10_state.md R28, R41; 45_block_control.md R302). -/
abbrev State.StatusLegal (s : State) : Prop :=
  (s.st.finished = true → s.st.started = true) ∧
  (s.bound = .none → s.src = { ranges := [], pos := 0, filled := false }) ∧
  (s.st.started = true → s.free.zeroed = some (s.cfg.w, s.cfg.h))

/-- The invariant of the machine: it rules out the states no run reaches. -/
abbrev State.Inv (s : State) : Prop :=
  s.par.Legal ∧ s.MemoriesCanonical ∧ s.InsideBlock ∧ s.CountersInRange ∧ s.ErrorLegal ∧ s.CsrsLegal ∧
    s.ConfigLegal ∧ s.CursorLegal ∧ s.SamplesAgree ∧ s.StatusLegal

/-! ## When a byte source can be read -/

/-- Every byte of a list of ranges is in CWMEM, so that no fetch of it raises GenericIOFailure (20_memory.md R72). -/
def RangesReadable (p : Config.Params) (rs : List (Word × Word)) : Prop :=
  ∀ i a, srcAddr rs i = some a → a < p.cwmemSize

/-- Every byte of the bound source is in CWMEM. -/
def State.SourceReadable (s : State) : Prop := RangesReadable s.par s.src.ranges

/-- Every byte of the segment SEG_BASE, SEG_LEN is in CWMEM. -/
def State.SegmentReadable (s : State) : Prop := RangesReadable s.par [(s.csr.segBase, s.csr.segLen)]

/-- The byte at a logical index of the bound source (20_memory.md R74); `none` at or past its end. -/
def State.sourceByte (s : State) (i : Nat) : Option Byte := (srcAddr s.src.ranges i).map s.cwByte

/-- No load of the bit reader from here on can raise CorruptBitstuffing (41_bit_reader.md R123): no real 0xFF follows a
0xFF in what is left of the bound source. The source is short enough for SRC.POS not to wrap. -/
def State.StuffingClean (s : State) : Prop :=
  srcTotal s.src.ranges < 2 ^ 32 ∧
  (s.br.lastFF = true → s.sourceByte s.src.pos.toNat ≠ some 0xFF) ∧
  ∀ i, s.src.pos.toNat ≤ i → s.sourceByte i = some 0xFF → s.sourceByte (i + 1) ≠ some 0xFF

/-- The coder of a pass can read all it needs: the MQ decoder any readable source (42_mq_decoder.md R165), the bit reader
in codeword mode a readable source without stuffing errors (41_bit_reader.md R123, R125). -/
def State.CoderClean (s : State) (raw : Bool) : Prop := s.SourceReadable ∧ (raw = true → s.StuffingClean)

/-! ## Errors -/

/-- `t` is `s` with an error raised and nothing else changed: the first error is latched, a later one is not
(60_exceptions.md R342). Of the free-value marks only those of log 8 may change. -/
def State.Raises (s t : State) (code : BitVec 4) : Prop :=
  t = (s.setSt t.st).setFree t.free ∧
  t.st = { s.st with error := true, errCode := if s.st.error then s.st.errCode else code } ∧
  t.free.count = s.free.count ∧ t.free.zeroed = s.free.zeroed

/-- A command that was not suppressed ended in an error part-way: its code is latched and RES is as before
(60_exceptions.md R342, R344). -/
def State.Fails (s t : State) (code : BitVec 4) : Prop :=
  t.st = { s.st with error := true, errCode := code } ∧ t.res = s.res

/-- A BLK_SEGMENT that raised before it changed anything: the error is latched and the `last` step done
(45_block_control.md R304, R306, R307). -/
def State.SegmentRejected (s t : State) (last : Bool) (code : BitVec 4) : Prop :=
  t = (s.setSt t.st).setFree t.free ∧
  t.st = { s.st with error := true, errCode := code, finished := s.st.finished || last }

/-! ## Bits -/

/-- A bit as a result: 0 or 1. -/
def bitResult (d : Bool) : Res := if d then 1 else 0

/-- The number a list of bits writes, the first one the most significant (41_bit_reader.md R128). -/
def bitsValue (ds : List Bool) : Nat := ds.foldl (fun v d => 2 * v + d.toNat) 0

/-- `n` BR_READBITs in a row from `s` all complete, return `ds` and end in `u`. -/
def ReadsBits : Nat → State → List Bool → State → Prop
  | 0, s, ds, u => ds = [] ∧ u = s
  | n + 1, s, ds, u =>
    ∃ t d rest, exec .brReadbit s = .next t ∧ t.Safe ∧ t.res = bitResult d ∧ ds = d :: rest ∧ ReadsBits n t rest u

/-! ## The MQ decoder -/

/-- What DECODE does after the exchange (42_mq_decoder.md R161): renormalise, then return the decision. -/
def decodeEnd (u : State) (d : Bool) : Host.Outcome State Fault Refusal :=
  ((renormD u).bind fun _ v => .done () (v.setRes (bitResult d))).outcome

/-- The low half of `C`, from which `CT` more bits can be shifted out, holds no others (42_mq_decoder.md R155). -/
abbrev MqRegs.LowClear (r : MqRegs) : Prop := (r.c.toNat % 2 ^ 16 * 2 ^ r.ct.toNat) % 2 ^ 16 = 0

/-- The ranges of the decoder's registers before and after every DECODE (42_mq_decoder.md R164). -/
abbrev MqRegs.InRange (r : MqRegs) : Prop := 0x8000 ≤ r.a.toNat ∧ r.ct.toNat ≤ 7

/-- Every byte after a 0xFF in a list of ranges is at most 0x7F or a marker byte (42_mq_decoder.md R164). -/
def RangesMarkerClean (s : State) (rs : List (Word × Word)) : Prop :=
  srcTotal rs < 2 ^ 32 ∧
  ∀ i a b, srcAddr rs i = some a → srcAddr rs (i + 1) = some b → s.cwByte a = 0xFF →
    s.cwByte b ≤ 0x7F#8 ∨ 0x8F#8 < s.cwByte b

/-- The bound bytes are clean, and so is the next one if the last byte fetched was a 0xFF (42_mq_decoder.md R164). -/
def State.MarkerClean (s : State) : Prop :=
  RangesMarkerClean s s.src.ranges ∧
  ∀ a, s.mq.b = 0xFF → s.mq.mf = false → srcAddr s.src.ranges s.src.pos.toNat = some a →
    s.cwByte a ≤ 0x7F#8 ∨ 0x8F#8 < s.cwByte a

/-- Two engines with the same decoder registers, contexts and bound bytes (42_mq_decoder.md R166). -/
def State.SameDecoder (s t : State) : Prop :=
  s.mq = t.mq ∧ s.cx = t.cx ∧ s.cxsel = t.cxsel ∧ s.src = t.src ∧ s.bound = .mq ∧ t.bound = .mq ∧
  ∀ i a, srcAddr s.src.ranges i = some a →
    s.cwByte a = t.cwByte a ∧ (a < s.par.cwmemSize ↔ a < t.par.cwmemSize)

/-! ## The context model and the passes -/

/-- The cell at integer coordinates as a coefficient of row `y` sees it: a cell outside the block, and in the vertically
causal mode a cell of the next stripe, is insignificant with sign 0 (43_context_model.md R208, R209). -/
def State.neighbour (s : State) (y : Nat) (u w : Int) : SampleFlags :=
  if 0 ≤ u ∧ u < s.cfg.w ∧ 0 ≤ w ∧ w < s.cfg.h ∧ ¬ (s.cfg.causal = true ∧ y % 4 = 3 ∧ w = y + 1) then
    s.cell u.toNat w.toNat
  else SampleFlags.clear

/-- `σ` at integer coordinates (43_context_model.md R207). -/
def State.sigmaAt (s : State) (y : Nat) (u w : Int) : Nat := if (s.neighbour y u w).SIG then 1 else 0

/-- `χ` at integer coordinates (43_context_model.md R211). -/
def State.chiAt (s : State) (y : Nat) (u w : Int) : Int :=
  if (s.neighbour y u w).SIG then (if (s.neighbour y u w).SGN then -1 else 1) else 0

/-- The word of a coefficient that has just become significant with sign `sgn` at magnitude bit `bit`
(44_coding_passes.md R244). -/
def firstWord (sgn : Bool) (bit : Nat) : Word := (if sgn then 0x80000000 else 0) ||| BitVec.ofNat 32 (2 ^ bit)

/-- What a significance pass may do to one coefficient, with flags `c` and word `v` before, `c'` and `v'` after
(44_coding_passes.md R244, R248). -/
def SpCoefficient (bit : Nat) (c c' : SampleFlags) (v v' : Word) : Prop :=
  (c.SIG = true → c' = c ∧ v' = v) ∧
  (c.SIG = false → c'.REF = c.REF ∧ (c.VIS = true → c'.VIS = true) ∧
    (c'.SIG = true → c'.VIS = true ∧ v' = firstWord c'.SGN bit) ∧
    (c'.SIG = false → c'.SGN = c.SGN ∧ v' = v))

/-- What a refinement pass does to one coefficient (44_coding_passes.md R245, R251). -/
def MrCoefficient (bit : Nat) (c c' : SampleFlags) (v v' : Word) : Prop :=
  (c.SIG = false ∨ c.VIS = true → c' = c ∧ v' = v) ∧
  (c.SIG = true ∧ c.VIS = false →
    c' = { c with REF := true } ∧ (v' = v ∨ v' = v ||| BitVec.ofNat 32 (2 ^ bit)))

/-- What a cleanup pass may do to one coefficient (44_coding_passes.md R244, R257). -/
def CuCoefficient (bit : Nat) (c c' : SampleFlags) (v v' : Word) : Prop :=
  (c.SIG = true ∨ c.VIS = true → c' = { c with VIS := false } ∧ v' = v) ∧
  (c.SIG = false ∧ c.VIS = false → c'.REF = c.REF ∧ c'.VIS = false ∧
    (c'.SIG = true → v' = firstWord c'.SGN bit) ∧ (c'.SIG = false → c'.SGN = c.SGN ∧ v' = v))

/-- Every coefficient of the block went through `effect`, and no cell and no word outside the block changed. -/
def State.PassEffect (effect : SampleFlags → SampleFlags → Word → Word → Prop) (s t : State) : Prop :=
  (∀ x y, s.InBlock x y → effect (s.cell x y) (t.cell x y) (s.sampRead x y) (t.sampRead x y)) ∧
  ∀ x y, x < Config.maxSide → ¬ s.InBlock x y → t.cell x y = s.cell x y ∧ t.sampRead x y = s.sampRead x y

/-- A pass writes the registers of its coder, the contexts if that is the MQ decoder, RES, SAMP and S, and nothing else
(44_coding_passes.md R250, R255, R260). -/
def State.PassFrame (raw : Bool) (s t : State) : Prop :=
  t = ((((((s.setMq t.mq).setSrc t.src).setBr t.br).setRes t.res).setCx t.cx).setSamp t.samp).setCells t.cells ∧
  t.src.ranges = s.src.ranges ∧ t.br.mode = s.br.mode ∧
  (raw = true → t.mq = s.mq ∧ t.cx = s.cx) ∧ (raw = false → t.br = s.br)

/-- A pass command may run at plane `p`: no error, a block, its coder bound, the plane a magnitude bit
(44_coding_passes.md R247, R250). -/
def State.PassReady (s : State) (p : Nat) (raw : Bool) : Prop :=
  s.Safe ∧ s.st.started = true ∧ p + s.cfg.shift.toNat ≤ 30 ∧
  (raw = false → s.bound = .mq) ∧ (raw = true → s.bound = .br ∧ s.br.mode = true)

/-! ## The passes, told by the commands that make one decision

Every decision of a pass is the one MQ_DECODE makes with its context selected, or MQ_DECODE_RAW. A state with an error
goes through all of these functions unchanged: both commands are suppressed, and nothing else is written. -/

/-- The state a command leaves; there always is one (60_exceptions.md R340). -/
def State.after (s : State) (i : Instr) : State :=
  match exec i s with
  | .next t => t
  | .fault _ => s
  | .refused _ => s

/-- `BIT(k)` (44_coding_passes.md R242): the decision, and the state after it, with CXSEL and RES put back, which a pass
does not write. The decision means nothing if that state has an error. -/
def State.decision (s : State) (raw : Bool) (k : Category) : Bool × State :=
  let t := if raw then s.after .mqDecodeRaw else (s.setCxsel k).after .mqDecode
  (t.res == 1, (t.setCxsel s.cxsel).setRes s.res)

/-- The sign decision of `(x, y)`, with the label and the XOR bit that `SC` gives (43_context_model.md R213;
44_coding_passes.md R242), and then `SETSIG` at magnitude bit `bit` (R244). -/
def State.signStep (raw : Bool) (bit : Nat) (s : State) (x y : Nat) : State :=
  let d := s.decision raw (s.sc x y).1
  let sgn := if raw then d.1 else d.1 ^^ (s.sc x y).2
  if d.2.Safe then
    (d.2.setCell x y { s.cell x y with SIG := true, SGN := sgn }).sampWrite x y (firstWord sgn bit)
  else d.2

/-- A significance pass at one coefficient (44_coding_passes.md R248, R249). -/
def State.spStep (raw : Bool) (bit : Nat) (s : State) (c : Nat × Nat) : State :=
  if (s.cell c.1 c.2).SIG = true ∨ s.zc c.1 c.2 = 0 then s
  else
    let d := s.decision raw (s.zc c.1 c.2)
    if d.2.Safe then
      let u := d.2.setCell c.1 c.2 { s.cell c.1 c.2 with VIS := true }
      if d.1 then u.signStep raw bit c.1 c.2 else u
    else d.2

/-- A refinement pass at one coefficient (44_coding_passes.md R245, R251, R252). -/
def State.mrStep (raw : Bool) (bit : Nat) (s : State) (c : Nat × Nat) : State :=
  if (s.cell c.1 c.2).SIG = false ∨ (s.cell c.1 c.2).VIS = true then s
  else
    let d := s.decision raw (s.mrLabel c.1 c.2)
    if d.2.Safe then
      (d.2.setCell c.1 c.2 { s.cell c.1 c.2 with REF := true }).sampWrite c.1 c.2
        (if d.1 then s.sampRead c.1 c.2 ||| BitVec.ofNat 32 (2 ^ bit) else s.sampRead c.1 c.2)
    else d.2

/-- A cleanup pass at one coefficient that it codes by itself (44_coding_passes.md R257). -/
def State.cuStep (bit : Nat) (s : State) (c : Nat × Nat) : State :=
  if (s.cell c.1 c.2).SIG = true ∨ (s.cell c.1 c.2).VIS = true then s
  else
    let d := s.decision false (s.zc c.1 c.2)
    if d.1 = true ∧ d.2.Safe then d.2.signStep false bit c.1 c.2 else d.2

/-- A column of a stripe enters run mode (44_coding_passes.md R256). -/
abbrev State.InRunMode (s : State) (x y0 : Nat) : Prop :=
  y0 + 4 ≤ s.cfg.h ∧ ∀ j < 4, (s.cell x (y0 + j)).SIG = false ∧ (s.cell x (y0 + j)).VIS = false ∧ s.zc x (y0 + j) = 0

/-- The coefficients of a column of the stripe at `y0` from row `ystart` on, downwards (44_coding_passes.md R257). -/
def columnRest (h x y0 ystart : Nat) : List (Nat × Nat) :=
  ([y0, y0 + 1, y0 + 2, y0 + 3].filter fun y => decide (ystart ≤ y ∧ y < h)).map fun y => (x, y)

/-- A cleanup pass at column `c.1` of the stripe at row `c.2` (44_coding_passes.md R256, R257): the run decision with
context 17, the run position with context 18, its sign, and the rest of the column; or the whole column. -/
def State.cuColumnStep (bit : Nat) (s : State) (c : Nat × Nat) : State :=
  if s.InRunMode c.1 c.2 then
    let run := s.decision false 17
    if run.1 = true ∧ run.2.Safe then
      let high := run.2.decision false 18
      let low := high.2.decision false 18
      let y := c.2 + (2 * high.1.toNat + low.1.toNat)
      (columnRest s.cfg.h c.1 c.2 (y + 1)).foldl (State.cuStep bit) (low.2.signStep false bit c.1 y)
    else run.2
  else (columnRest s.cfg.h c.1 c.2 c.2).foldl (State.cuStep bit) s

/-- The segmentation symbol: four decisions with context 18, the first one the most significant bit
(44_coding_passes.md R261). -/
def State.symbolStep (s : State) : Nat × State :=
  let a := s.decision false 18
  let b := a.2.decision false 18
  let c := b.2.decision false 18
  let d := c.2.decision false 18
  (8 * a.1.toNat + 4 * b.1.toNat + 2 * c.1.toNat + d.1.toNat, d.2)

/-- The whole significance pass at magnitude bit `bit`, RES included (44_coding_passes.md R248, R250). -/
def State.spSteps (raw : Bool) (bit : Nat) (s : State) : State :=
  let t := (scan s.cfg.w s.cfg.h).foldl (State.spStep raw bit) s
  if t.Safe then t.setRes 0 else t

/-- The whole refinement pass at magnitude bit `bit`, RES included (44_coding_passes.md R251, R255). -/
def State.mrSteps (raw : Bool) (bit : Nat) (s : State) : State :=
  let t := (scan s.cfg.w s.cfg.h).foldl (State.mrStep raw bit) s
  if t.Safe then t.setRes 0 else t

/-- The whole cleanup pass at magnitude bit `bit`, RES included (44_coding_passes.md R257, R260, R261). -/
def State.cuSteps (bit : Nat) (s : State) : State :=
  let t := (columns s.cfg.w s.cfg.h).foldl (State.cuColumnStep bit) s
  if ¬ t.Safe then t
  else if s.cfg.segSym = false then t.clearVis.setRes 0
  else
    let e := t.clearVis.symbolStep
    if e.2.Safe then e.2.setRes (bitResult (e.1 ≠ 10)) else e.2

/-! ## Segments -/

/-- The segment starts a fresh coder (45_block_control.md R304, R308); `raw` is the coder of its first pass. -/
abbrev State.StartsFresh (s : State) (raw : Bool) : Prop :=
  s.cur.passCount = 0 ∨ s.cfg.restart = true ∨ (s.cfg.bypass = true ∧ raw ≠ s.cur.lastType.isRaw)

/-- The bytes of the segment as its coder will read them (45_block_control.md R308, R309): bound afresh, or appended. -/
def State.withSegment (s : State) (raw : Bool) : State :=
  if s.needsFresh raw then
    (if raw then s.bindReader true else s.bindSource s.csr.segBase s.csr.segLen .mq)
  else s.setSrc { s.src with ranges := s.src.ranges ++ [(s.csr.segBase, s.csr.segLen)] }

/-- The segment's coder can take the segment: a fresh one, or the bound one, which has read no fill byte in place of
the bytes now arriving (45_block_control.md R309). -/
def State.CoderFits (s : State) (raw : Bool) : Prop :=
  s.StartsFresh raw ∨
    (s.bound = (if raw then .br else .mq) ∧ (s.src.filled = true → s.csr.segLen = 0) ∧ (raw = true → s.br.mode = true))

/-! ## A segment, told by the commands that do its parts -/

/-- An error that the sequencer itself raises: the first error is latched, and the registers behind the debug CSRs are
any value from there on (60_exceptions.md R342, log 8). -/
def State.failing (s : State) (code : BitVec 4) : State :=
  (s.setSt { s.st with error := true, errCode := code }).setFree { s.free with mq := true, br := true }

/-- The command that runs one pass. -/
def passInstr (kind : PassKind) (p : BitVec 5) (raw : Bool) : Instr :=
  match kind with
  | .sp => .passSp p raw
  | .mr => .passMr p raw
  | .cu => .passCu p

/-- The coder step: MQ_INIT or BR_BIND with mode 1 for a fresh coder, else the segment's bytes behind those of the bound
one (45_block_control.md R308, R309). -/
def State.coderSteps (s : State) (raw : Bool) : State :=
  if s.StartsFresh raw then s.after (if raw then .brBind true else .mqInit)
  else s.setSrc { s.src with ranges := s.src.ranges ++ [(s.csr.segBase, s.csr.segLen)] }

/-- CX_RESET where `RESETCTX` asks for one and `CTX_RESET_AT` is `resetAt` (45_block_control.md R310). -/
def State.contextSteps (s : State) (resetAt : Config.CtxResetAt) : State :=
  if s.cfg.resetCtx = true ∧ s.par.ctxResetAt = resetAt then s.after .cxReset else s

/-- One planned pass: the context reset of `CTX_RESET_AT` = PASS, the pass command, and the cursor, moved only if the
pass did not raise; RES stays, and a 1 in it is the segmentation mismatch (45_block_control.md R310, R311). -/
def State.plannedPass (s : State) (k : PassKind × BitVec 5) : State :=
  let raw := rawPass s.cfg k.1 k.2
  let t := (s.contextSteps .pass).after (passInstr k.1 k.2 raw)
  if t.Safe then
    let u := (t.setRes s.res).setCur
      { lastPass := some k.1, plane := k.2, passCount := s.cur.passCount + 1, lastType := if raw then .raw else .mq }
    if t.res = 1 then u.failing 3 else u
  else t

/-- The segment ends a codeword segment (45_block_control.md R312), with what NEXT_PASS returns: 0 at the end of the
sequence, and RAW of the next pass at bit 16. -/
abbrev State.EndsCodeword (s : State) : Prop :=
  s.cfg.restart = true ∨ (s.after .nextPass).res = 0 ∨
    (s.cfg.bypass = true ∧ (s.after .nextPass).res.getLsbD 16 ≠ s.cur.lastType.isRaw)

/-- The termination check by MQ_PTERM, after an MQ pass that ends a codeword segment; RES stays, and a 1 in it is the
failed check (45_block_control.md R312). -/
def State.terminationSteps (s : State) : State :=
  if s.Safe ∧ s.cfg.pterm = true ∧ s.cur.lastType = .mq ∧ s.EndsCodeword then
    let t := s.after .mqPterm
    if t.Safe then (if t.res = 1 then (t.setRes s.res).failing 4 else t.setRes s.res) else t
  else s

/-- The planned passes of a segment: coder, context reset, passes in order, termination check (45_block_control.md R304). -/
def State.segmentSteps (s : State) (plan : List (PassKind × BitVec 5)) (raw : Bool) : State :=
  (plan.foldl State.plannedPass ((s.coderSteps raw).contextSteps .segment)).terminationSteps

end Sys2Proof.Machine
end

