-- ==== Sys2Proof/Certificates/Slice0/Obligations.lean ====
section
/-! DEFINITION. The statements for the provers. -/

open Sys2Proof Sys2Proof.Machine

/-! ## Encoding and the host's word stream -/

/-- Every well-formed command, with any operands, decodes from its own words, whatever the host delivered behind them
(30_encoding.md R92 to R94, R99). -/
def Obligations.DecodeEncodeAgree : Prop :=
  ∀ (i : Instr) (rest : List Word), i.WellFormed → decode (encode i ++ rest) = .instr i rest

/-- A command that decodes is well-formed, and the words taken are its encoding and no others. -/
def Obligations.EncodeDecodeAgree : Prop :=
  ∀ (ws rest : List Word) (i : Instr), decode ws = .instr i rest → i.WellFormed ∧ ws = encode i ++ rest

/-- 30_encoding.md R94: a word is a command exactly when the match and mask row of that command covers it, and at most
one row covers a word. -/
def Obligations.CommandIsItsTableRow : Prop :=
  (∀ (w d : Word) (rest : List Word), ∀ r ∈ opcodeTable, r.covers w = true →
    (∃ i tail, decode (w :: d :: rest) = .instr i tail ∧ i.mnemonic = r.mnemonic) ∨
      ∃ tail, decode (w :: d :: rest) = .illegal .operandRange tail) ∧
  (∀ (w : Word) (ws : List Word) (i : Instr) (tail : List Word), decode (w :: ws) = .instr i tail →
    ∃ r ∈ opcodeTable, r.covers w = true ∧ r.mnemonic = i.mnemonic) ∧
  ∀ (w : Word), ∀ r ∈ opcodeTable, ∀ r' ∈ opcodeTable, r.covers w = true → r'.covers w = true → r = r'

/-- Words of 95_test_vectors.md V-ENC-1 decode to the commands listed beside them. -/
def Obligations.ListedWordsDecode : Prop :=
  decode [0x04000000, 0x00000C03] = .instr (.csrWr 0 0xC03) [] ∧
  decode [0x08000005] = .instr (.csrRd 5) [] ∧
  decode [0x10000001] = .instr (.blkSegment true) [] ∧
  decode [0x20000001] = .instr (.brBind true) [] ∧
  decode [0x28000040] = .instr (.brReadbits 64) [] ∧
  decode [0x48000000] = .instr .mqDecodeRaw [] ∧
  decode [0x64000012] = .instr (.cxSelect 18) [] ∧
  decode [0x80000023] = .instr (.passSp 3 true) [] ∧
  decode [0x84000020] = .instr (.passMr 0 true) [] ∧
  decode [0x8800001E] = .instr (.passCu 30) [] ∧
  decode [0x8C000000] = .instr .nextPass []

/-- 30_encoding.md R95: the reserved opcodes, the all-zero word's among them, raise IllegalCommand and touch nothing. -/
def Obligations.ReservedOpcodesAreIllegal : Prop :=
  ∀ (s : State) (w : Word) (tail : List Word), s.hostq = w :: tail →
    (let op := w.toNat / 2 ^ 26
     op = 0 ∨ (0x05 ≤ op ∧ op ≤ 0x07) ∨ (0x0C ≤ op ∧ op ≤ 0x0F) ∨ (0x14 ≤ op ∧ op ≤ 0x17) ∨
       (0x1B ≤ op ∧ op ≤ 0x1F) ∨ 0x24 ≤ op) →
    ∃ t, step s = .next t ∧ (s.setHostq tail).Raises t 5

/-- 30_encoding.md R96: a listed opcode with a reserved bit set raises IllegalCommand and touches nothing; the data word
of a CSR_WR is taken all the same. -/
def Obligations.ReservedBitsAreIllegal : Prop :=
  ∀ (s : State) (w : Word) (tail : List Word), ∀ r ∈ opcodeTable, s.hostq = w :: tail →
    w.toNat / 2 ^ 26 = r.pattern.toNat / 2 ^ 26 → w &&& r.mask ≠ r.pattern →
    (r.mnemonic ≠ "CSR_WR" → ∃ t, step s = .next t ∧ (s.setHostq tail).Raises t 5) ∧
    (r.mnemonic = "CSR_WR" → ∀ d rest, tail = d :: rest →
      ∃ t, step s = .next t ∧ (s.setHostq rest).Raises t 5)

/-- 30_encoding.md R97: the operand values out of range raise IllegalCommand and touch nothing. -/
def Obligations.OperandsOutOfRangeAreIllegal : Prop :=
  ∀ (s : State) (i : Instr) (rest : List Word), s.hostq = encode i ++ rest →
    ((∃ k : BitVec 5, 19 ≤ k.toNat ∧ i = .cxSelect k) ∨
      (∃ n : BitVec 7, 65 ≤ n.toNat ∧ i = .brReadbits n) ∨
      (∃ p : BitVec 5, 31 ≤ p.toNat ∧ ((∃ raw, i = .passSp p raw ∨ i = .passMr p raw) ∨ i = .passCu p)) ∨
      (∃ c : BitVec 4, 13 ≤ c.toNat ∧ (i = .csrRd c ∨ ∃ d, i = .csrWr c d)) ∨
      (∃ (c : BitVec 4) (d : Word), 5 ≤ c.toNat ∧ c.toNat ≤ 12 ∧ i = .csrWr c d)) →
    ∃ t, step s = .next t ∧ (s.setHostq rest).Raises t 5

/-- 30_encoding.md R99: opcode 0x01 takes two words, the second as data whatever its value, legal or not; every other
opcode takes one. -/
def Obligations.WordsTakenByOpcode : Prop :=
  ∀ (s : State) (w : Word) (tail : List Word), s.hostq = w :: tail →
    (w.toNat / 2 ^ 26 ≠ 1 → ∃ t, step s = .next t ∧ t.hostq = tail) ∧
    (w.toNat / 2 ^ 26 = 1 → ∀ d rest, tail = d :: rest →
      (∃ t, step s = .next t ∧ t.hostq = rest) ∧
      (w.toNat % 2 ^ 26 < 5 → decode s.hostq = .instr (.csrWr (BitVec.ofNat 4 (w.toNat % 2 ^ 26)) d) rest))

/-- A step takes the words of the decoded command and runs it: nothing else is added around `exec` on this hardware,
which has no program counter (10_state.md R23). -/
def Obligations.StepRunsTheDecodedCommand : Prop :=
  ∀ (s : State) (i : Instr) (rest : List Word), decode s.hostq = .instr i rest →
    step s = exec i (s.setHostq rest)

/-- With no word delivered, or with a CSR_WR's command word alone, the engine waits and nothing changes. The model's
choice (log 2, log 3), read from 70_reset_and_hazards.md R371 and 30_encoding.md R99. -/
def Obligations.EngineWaitsForTheHost : Prop :=
  ∀ s : State, (s.hostq = [] ∨ ∃ w : Word, w.toNat / 2 ^ 26 = 1 ∧ s.hostq = [w]) → step s = .next s

/-! ## Errors and suppression -/

/-- Nothing stops the machine: every command, legal or not, and every step end in a next state (60_exceptions.md R340). -/
def Obligations.NothingStopsTheMachine : Prop :=
  (∀ (i : Instr) (s : State), ∃ t, exec i s = .next t) ∧ ∀ s : State, ∃ t, step s = .next t

/-- 60_exceptions.md R343, the prologue: an illegal command raises IllegalCommand; with ERROR = 1 a command other than
CSR_RD, CSR_WR, BLK_START and BLK_SEGMENT does nothing, and BLK_SEGMENT does only its `last` step. -/
def Obligations.ErrorSuppressesCommands : Prop :=
  (∀ (i : Instr) (s : State), ¬ i.WellFormed → ∃ t, exec i s = .next t ∧ s.Raises t 5) ∧
  (∀ (i : Instr) (s : State), i.WellFormed → s.st.error = true → (∀ c, i ≠ .csrRd c) → (∀ c d, i ≠ .csrWr c d) →
    i ≠ .blkStart → (∀ last, i ≠ .blkSegment last) → exec i s = .next s) ∧
  ∀ (s : State) (last : Bool), s.st.error = true →
    exec (.blkSegment last) s =
      .next (s.setSt { s.st with finished := s.st.finished || (last && s.st.started) })

/-- The first error is kept: only BLK_START changes a latched ERROR and ERRCODE, and a new error has a code of 1 to 11
(60_exceptions.md R341, R342, R347). -/
def Obligations.FirstErrorIsKept : Prop :=
  ∀ (i : Instr) (s t : State), exec i s = .next t →
    (s.st.error = true → i ≠ .blkStart → t.st.error = true ∧ t.st.errCode = s.st.errCode) ∧
    (s.st.error = true → i ≠ .blkStart → t.samp = s.samp ∧ t.cells = s.cells ∧ t.src = s.src) ∧
    (t.st.error = true → (s.st.error = true ∧ t.st.errCode = s.st.errCode) ∨
      (1 ≤ t.st.errCode.toNat ∧ t.st.errCode.toNat ≤ 11))

/-- RES is written only by the commands that return a value, and never by one that raises (10_state.md R30,
60_exceptions.md R344). The last clause is R344's literal: the bytes FF FF and BR_READBITS 12. -/
def Obligations.RaisingCommandsKeepTheResult : Prop :=
  (∀ (i : Instr) (s t : State), exec i s = .next t → t.st.error = true →
    ((∃ c, i = .csrRd c) → ¬ i.WellFormed) → t.res = s.res) ∧
  (∀ (i : Instr) (s t : State), exec i s = .next t →
    ((∃ c d, i = .csrWr c d) ∨ i = .blkStart ∨ (∃ last, i = .blkSegment last) ∨ (∃ mode, i = .brBind mode) ∨
      i = .mqInit ∨ i = .cxReset ∨ ∃ k, i = .cxSelect k) → t.res = s.res) ∧
  ∀ (s : State) (a b : Nat), s.Safe → s.bound = .br → s.br.bitsLeft = 0 → s.br.lastFF = false →
    srcAddr s.src.ranges s.src.pos.toNat = some a → srcAddr s.src.ranges (s.src.pos + 1).toNat = some b →
    a < s.par.cwmemSize → b < s.par.cwmemSize → s.cwByte a = 0xFF → s.cwByte b = 0xFF →
    ∃ t, exec (.brReadbits 12) s = .next t ∧ s.Fails t 1

/-- A command that needs a block or a coder binding that is absent raises NotReady and changes nothing else
(60_exceptions.md R341 code 9, 92_eei_decisions.md D41, D42). -/
def Obligations.MissingBlockOrCoderIsNotReady : Prop :=
  ∀ (s : State) (i : Instr), s.Safe → i.WellFormed →
    ((s.bound ≠ .mq ∧ (i = .mqDecode ∨ i = .mqPterm)) ∨
      (s.bound ≠ .br ∧ (i = .brReadbit ∨ (∃ n, i = .brReadbits n) ∨ i = .brFinish)) ∨
      (¬ (s.bound = .br ∧ s.br.mode = true) ∧
        (i = .mqDecodeRaw ∨ ∃ p, i = .passSp p true ∨ i = .passMr p true)) ∨
      (s.bound ≠ .mq ∧ ∃ p, i = .passSp p false ∨ i = .passMr p false ∨ i = .passCu p) ∨
      (s.st.started = false ∧ (i = .nextPass ∨ (∃ last, i = .blkSegment last) ∨
        (∃ p raw, i = .passSp p raw ∨ i = .passMr p raw) ∨ ∃ p, i = .passCu p))) →
    ∃ t, exec i s = .next t ∧ s.Raises t 9

/-- 44_coding_passes.md R247: a pass command at a plane that is no magnitude bit raises IllegalCommand; no pass that
BLK_SEGMENT plans is at such a plane. -/
def Obligations.PlanesStayMagnitudeBits : Prop :=
  (∀ (s : State) (p : BitVec 5) (raw : Bool), s.Safe → s.st.started = true → p.toNat ≤ 30 →
    30 < p.toNat + s.cfg.shift.toNat →
    ((raw = false → s.bound = .mq) → (raw = true → s.bound = .br ∧ s.br.mode = true) →
      (∃ t, exec (.passSp p raw) s = .next t ∧ s.Raises t 5) ∧
      (∃ t, exec (.passMr p raw) s = .next t ∧ s.Raises t 5)) ∧
    (s.bound = .mq → ∃ t, exec (.passCu p) s = .next t ∧ s.Raises t 5)) ∧
  ∀ (s : State) (n : Nat) (plan : List (PassKind × BitVec 5)), s.Inv → s.st.started = true →
    planPasses s.cfg n s.cur.lastPass s.cur.plane = some plan →
    ∀ k ∈ plan, k.2.toNat + s.cfg.shift.toNat ≤ 30

/-! ## Frames: which command writes which state -/

/-- The frame of every command over the host's and the block control's state: parameters, codeword memory, the word
stream, CSRs, CFG, the pass cursor and the status flags have the writers the spec gives them (10_state.md R58;
20_memory.md R71; 70_reset_and_hazards.md R372, R374). -/
def Obligations.ControlStateWriters : Prop :=
  ∀ (i : Instr) (s t : State), exec i s = .next t →
    t.par = s.par ∧ t.cwmem = s.cwmem ∧ t.hostq = s.hostq ∧
    ((∀ c d, i ≠ .csrWr c d) → t.csr = s.csr) ∧
    (i ≠ .blkStart → t.cfg = s.cfg ∧ t.st.started = s.st.started) ∧
    (i ≠ .blkStart → (∀ last, i ≠ .blkSegment last) → t.cur = s.cur ∧ t.st.finished = s.st.finished) ∧
    (∀ last, i = .blkSegment last → last = false → t.st.finished = s.st.finished)

/-- The frame of every command over the block's data: SAMP and S are written by BLK_START, BLK_SEGMENT and the pass
commands alone; the contexts by those that decode MQ decisions or reset the table; CXSEL by CX_SELECT and the resets
(10_state.md R58, 43_context_model.md R206). -/
def Obligations.BlockDataWriters : Prop :=
  ∀ (i : Instr) (s t : State), exec i s = .next t →
    (i ≠ .blkStart → (∀ last, i ≠ .blkSegment last) → (∀ p raw, i ≠ .passSp p raw) → (∀ p raw, i ≠ .passMr p raw) →
      (∀ p, i ≠ .passCu p) → ∀ x y, t.sampRead x y = s.sampRead x y ∧ t.cell x y = s.cell x y) ∧
    (i ≠ .blkStart → (∀ last, i ≠ .blkSegment last) → (∀ p, i ≠ .passSp p false) → (∀ p, i ≠ .passMr p false) →
      (∀ p, i ≠ .passCu p) → i ≠ .mqDecode → i ≠ .cxReset → t.cx = s.cx) ∧
    (i ≠ .blkStart → (∀ last, i ≠ .blkSegment last) → i ≠ .cxReset → (∀ k, i ≠ .cxSelect k) → t.cxsel = s.cxsel)

/-- The frame of every command over the coders: the bound ranges and BOUND are written by the binding commands,
BLK_START and BLK_SEGMENT alone (20_memory.md R76); the MQ registers by the MQ commands, MQ passes and BLK_SEGMENT; the
bit-reader registers by the BR commands, MQ_DECODE_RAW, raw passes and BLK_SEGMENT; the source position by those. -/
def Obligations.CoderWriters : Prop :=
  ∀ (i : Instr) (s t : State), exec i s = .next t →
    (i ≠ .blkStart → (∀ last, i ≠ .blkSegment last) → i ≠ .mqInit → (∀ mode, i ≠ .brBind mode) →
      t.src.ranges = s.src.ranges ∧ t.bound = s.bound) ∧
    ((∀ last, i ≠ .blkSegment last) → i ≠ .mqInit → i ≠ .mqDecode → i ≠ .mqPterm → (∀ p, i ≠ .passSp p false) →
      (∀ p, i ≠ .passMr p false) → (∀ p, i ≠ .passCu p) → t.mq = s.mq) ∧
    ((∀ last, i ≠ .blkSegment last) → (∀ mode, i ≠ .brBind mode) → i ≠ .brReadbit → (∀ n, i ≠ .brReadbits n) →
      i ≠ .brFinish → i ≠ .mqDecodeRaw → (∀ p, i ≠ .passSp p true) → (∀ p, i ≠ .passMr p true) → t.br = s.br) ∧
    (((∃ c d, i = .csrWr c d) ∨ (∃ c, i = .csrRd c) ∨ i = .cxReset ∨ (∃ k, i = .cxSelect k) ∨ i = .cxRead ∨
      i = .nextPass) → t.src = s.src)

/-! ## CSRs -/

/-- 45_block_control.md R300: CSR_WR stores the named fields of a writable CSR and changes nothing else, with ERROR = 1
too; any other index raises IllegalCommand. -/
def Obligations.CsrWriteStoresNamedFields : Prop :=
  ∀ (s : State) (d : Word),
    exec (.csrWr 0 d) s = .next (s.setCsr { s.csr with geom := d &&& 0x003FFFFF }) ∧
    exec (.csrWr 1 d) s = .next (s.setCsr { s.csr with mode := d &&& 0x001F1F7F }) ∧
    exec (.csrWr 2 d) s = .next (s.setCsr { s.csr with segBase := d }) ∧
    exec (.csrWr 3 d) s = .next (s.setCsr { s.csr with segLen := d }) ∧
    exec (.csrWr 4 d) s = .next (s.setCsr { s.csr with segPasses := d &&& 0x000000FF }) ∧
    ∀ c : BitVec 4, 5 ≤ c.toNat → ∃ t, exec (.csrWr c d) s = .next t ∧ s.Raises t 5

/-- 10_state.md R48, R49, R51 to R56: the layouts of the read-only CSRs, field by field from the most significant, and
that all of them read 0 after reset. -/
def Obligations.ReadOnlyCsrLayouts : Prop :=
  (∀ s : State,
    let lastPass : BitVec 2 := match s.cur.lastPass with
      | none => 0
      | some .sp => 1
      | some .mr => 2
      | some .cu => 3
    let bound : BitVec 2 := match s.bound with
      | .none => 0
      | .mq => 1
      | .br => 2
    let bit : Bool → BitVec 1 := fun b => if b then 1 else 0
    s.csrWord 5 = 0#12 ++ s.st.errCode ++ 0#1 ++ s.cur.plane ++ lastPass ++ bit (s.cur.lastType == .raw) ++
      bit s.src.filled ++ bound ++ bit (s.st.error && s.cfg.validate) ++ bit s.st.error ++ bit s.st.finished ++
      bit s.st.started ∧
    s.csrWord 6 = 0#24 ++ s.cur.passCount ∧
    s.csrWord 7 = 0#16 ++ s.mq.a ∧
    s.csrWord 8 = s.mq.c ∧
    s.csrWord 9 = 0#15 ++ bit s.mq.mf ++ s.mq.b ++ 0#4 ++ s.mq.ct ∧
    s.csrWord 10 = s.src.pos ∧
    s.csrWord 11 = 0#14 ++ bit s.br.mode ++ bit s.br.lastFF ++ s.br.buf ++ 0#4 ++ s.br.bitsLeft ∧
    (s.csrWord 12).toNat = s.cxsel.val) ∧
  ∀ c : BitVec 4, 5 ≤ c.toNat → c.toNat ≤ 12 → State.reset.csrWord c = 0

/-- CSR_RD returns the CSR, zero-extended, and changes nothing but RES (45_block_control.md R301); an index above 12
raises IllegalCommand. A debug CSR after an error is "any value" in its named fields and 0 in the others (10_state.md
R50, 93_implementation_defined.md U4, U5); that a reload of its registers ends this, and a command without an error does
not begin it, is the model's choice (log 8). The writable CSRs read their named fields. -/
def Obligations.CsrReadReturnsTheRegister : Prop :=
  (∀ (s : State) (c : BitVec 4), c.toNat ≤ 12 →
    (c.toNat < 7 ∨ (s.Safe ∧ (c.toNat ≤ 9 → s.free.mq = false) ∧ (c.toNat = 11 → s.free.br = false))) →
    exec (.csrRd c) s = .next (s.setRes ((s.csrWord c).setWidth 64))) ∧
  (∀ (s : State) (c : BitVec 4), 7 ≤ c.toNat → c.toNat ≤ 12 → s.st.error = true →
    ∃ (v : Word) (n : Nat), exec (.csrRd c) s = .next ((s.setFree { s.free with count := n }).setRes (v.setWidth 64)) ∧
      (c.toNat = 7 → v.toNat < 2 ^ 16) ∧ (c.toNat = 9 → v &&& 0xFFFE00F0 = 0) ∧
      (c.toNat = 11 → v &&& 0xFFFC00F0 = 0) ∧ (c.toNat = 12 → v.toNat < 2 ^ 5)) ∧
  (∀ (s : State) (c : BitVec 4), 13 ≤ c.toNat → ∃ t, exec (.csrRd c) s = .next t ∧ s.Raises t 5) ∧
  (∀ (i : Instr) (s t : State), s.Safe → t.Safe → exec i s = .next t →
    (s.free.mq = false ∨ i = .mqInit → t.free.mq = false) ∧
    (s.free.br = false ∨ (∃ mode, i = .brBind mode) → t.free.br = false)) ∧
  ∀ s : State, s.csrWord 0 = s.csr.geom &&& 0x003FFFFF ∧ s.csrWord 1 = s.csr.mode &&& 0x001F1F7F ∧
    s.csrWord 2 = s.csr.segBase ∧ s.csrWord 3 = s.csr.segLen ∧ s.csrWord 4 = s.csr.segPasses &&& 0x000000FF

/-! ## Block start -/

/-- 45_block_control.md R302: BLK_START latches GEOM and MODE into CFG. If the block is too large, or its planes leave
the sample word, it raises BadConfig, the block is not started, FINISHED is 0 as R302's pseudocode has it (log 24), and nothing else has changed; else the block is fresh:
no error, SAMP and S all 0, the initial contexts, no source, the start of the pass cursor, and everything else as
before. It runs with ERROR = 1 too, issuing it again changes nothing, and no other command clears ERROR. -/
def Obligations.BlockStartBeginsAFreshBlock : Prop :=
  (∀ (i : Instr) (s t : State), i ≠ .blkStart → s.st.error = true → exec i s = .next t → t.st.error = true) ∧
  ∀ s : State,
    let g := s.csr.geom.toNat
    let m := s.csr.mode.toNat
    let cfg : BlockConfig :=
      { w := g % 1024 + 1
        h := g / 1024 % 1024 + 1
        orient := match g / 2 ^ 20 % 4 with
          | 0 => .LL
          | 1 => .HL
          | 2 => .LH
          | _ => .HH
        restart := m.testBit 0
        resetCtx := m.testBit 1
        causal := m.testBit 2
        segSym := m.testBit 3
        bypass := m.testBit 4
        pterm := m.testBit 5
        validate := m.testBit 6
        p0 := BitVec.ofNat 5 (m / 2 ^ 8)
        shift := BitVec.ofNat 5 (m / 2 ^ 16) }
    (4096 < cfg.w * cfg.h ∨ 30 < cfg.p0.toNat + cfg.shift.toNat →
      ∃ t, exec .blkStart s = .next t ∧
        t = ((s.setCfg cfg).setSt { started := false, finished := false, error := true, errCode := 6 }).setFree t.free ∧
        t.free.count = s.free.count ∧ t.free.zeroed = s.free.zeroed) ∧
    (cfg.w * cfg.h ≤ 4096 → cfg.p0.toNat + cfg.shift.toNat ≤ 30 →
      ∃ t, exec .blkStart s = .next t ∧ exec .blkStart t = .next t ∧
        t.cfg = cfg ∧ t.st = { started := true, finished := false, error := false, errCode := 0 } ∧
        (∀ x y, x < cfg.w → y < cfg.h → t.hostSampRead x y = some 0) ∧
        (∀ x y, t.sampRead x y = 0 ∧ t.cell x y = { SIG := false, VIS := false, REF := false, SGN := false }) ∧
        (∀ k : Category, t.ctx k = { I := if k = 0 then 4 else if k = 17 then 3 else if k = 18 then 46 else 0, MPS := false }) ∧
        t.cxsel = 0 ∧ t.src = { ranges := [], pos := 0, filled := false } ∧ t.bound = .none ∧
        t.cur = { lastPass := none, plane := 0, passCount := 0, lastType := .mq } ∧
        t.mq = s.mq ∧ t.br = s.br ∧ t.res = s.res ∧ t.csr = s.csr ∧ t.par = s.par ∧ t.cwmem = s.cwmem ∧
        t.hostq = s.hostq ∧ t.free.zeroed = some (cfg.w, cfg.h))

/-! ## The bit reader -/

/-- 41_bit_reader.md R126: BR_BIND binds the reader to the segment, resets its registers, fetches nothing and changes
nothing else; `f` is the model's own marks. -/
def Obligations.BrBindBindsTheSegment : Prop :=
  ∀ (s : State) (mode : Bool), s.Safe →
    ∃ f, exec (.brBind mode) s = .next ((((s.setSrc
      { ranges := [(s.csr.segBase, s.csr.segLen)], pos := 0, filled := false }).setBound .br).setBr
      { buf := 0, bitsLeft := 0, lastFF := false, mode := mode }).setFree f)

/-- 41_bit_reader.md R127 and 42_mq_decoder.md R162, with R121 to R125: one bit from the byte being read; from the next
byte, whose stuffing bit after a 0xFF is dropped and not checked; or from a fill byte. A real 0xFF after a 0xFF is
CorruptBitstuffing, an address beyond CWMEM_SIZE and the end of a header are GenericIOFailure. -/
def Obligations.ReadBitReturnsTheNextBit : Prop :=
  (∀ s : State, s.Safe → s.bound ≠ .br → ∃ t, exec .brReadbit s = .next t ∧ s.Raises t 9) ∧
  (∀ s : State, s.Safe → ¬ (s.bound = .br ∧ s.br.mode = true) →
    ∃ t, exec .mqDecodeRaw s = .next t ∧ s.Raises t 9) ∧
  ∀ (s : State) (i : Instr), i = .brReadbit ∨ (i = .mqDecodeRaw ∧ s.br.mode = true) → s.Safe → s.bound = .br →
    (s.br.bitsLeft ≠ 0 →
      exec i s = .next ((s.setBr { s.br with bitsLeft := s.br.bitsLeft - 1 }).setRes
        (bitResult (s.br.buf.getLsbD (s.br.bitsLeft.toNat - 1))))) ∧
    (∀ a, s.br.bitsLeft = 0 → srcAddr s.src.ranges s.src.pos.toNat = some a → a < s.par.cwmemSize →
      ¬ (s.br.lastFF = true ∧ s.cwByte a = 0xFF) →
      exec i s = .next (((s.setSrc { s.src with pos := s.src.pos + 1 }).setBr
        { s.br with buf := s.cwByte a, lastFF := s.cwByte a == 0xFF, bitsLeft := if s.br.lastFF then 6 else 7 }).setRes
        (bitResult ((s.cwByte a).getLsbD (if s.br.lastFF then 6 else 7))))) ∧
    (s.br.bitsLeft = 0 → srcTotal s.src.ranges ≤ s.src.pos.toNat → s.br.mode = true →
      exec i s = .next (((s.setSrc { s.src with filled := true }).setBr
        { s.br with buf := 0xFF, lastFF := true, bitsLeft := if s.br.lastFF then 6 else 7 }).setRes 1)) ∧
    (∀ a, s.br.bitsLeft = 0 → srcAddr s.src.ranges s.src.pos.toNat = some a → a < s.par.cwmemSize →
      s.br.lastFF = true → s.cwByte a = 0xFF → ∃ t, exec i s = .next t ∧ s.Fails t 1) ∧
    (∀ a, s.br.bitsLeft = 0 → srcAddr s.src.ranges s.src.pos.toNat = some a → s.par.cwmemSize ≤ a →
      ∃ t, exec i s = .next t ∧ s.Fails t 2) ∧
    (s.br.bitsLeft = 0 → srcTotal s.src.ranges ≤ s.src.pos.toNat → s.br.mode = false →
      ∃ t, exec i s = .next t ∧ s.Fails t 2)

/-- 41_bit_reader.md R128, R129: BR_READBITS is `n` BR_READBITs, the first bit the most significant of RES; if one of
them raises, so does it, and RES is unchanged. Without the bit reader bound it raises NotReady, with `n` above 64
IllegalCommand. -/
def Obligations.ReadBitsCollectsBits : Prop :=
  (∀ (s : State) (n : BitVec 7), 65 ≤ n.toNat → ∃ t, exec (.brReadbits n) s = .next t ∧ s.Raises t 5) ∧
  (∀ (s : State) (n : BitVec 7), s.Safe → s.bound ≠ .br → n.toNat ≤ 64 →
    ∃ t, exec (.brReadbits n) s = .next t ∧ s.Raises t 9) ∧
  ∀ (s : State) (n : BitVec 7), s.Safe → s.bound = .br → n.toNat ≤ 64 →
    (∀ ds u, ReadsBits n.toNat s ds u →
      exec (.brReadbits n) s = .next (u.setRes (BitVec.ofNat 64 (bitsValue ds)))) ∧
    ∀ t, exec (.brReadbits n) s = .next t →
      (t.Safe → ∃ ds u, ReadsBits n.toNat s ds u ∧ t = u.setRes (BitVec.ofNat 64 (bitsValue ds))) ∧
      (¬ t.Safe → t.res = s.res)

/-- BR_READBITS completes on a source it can read, with no real 0xFF after a 0xFF: in codeword mode always, in header
mode while the bytes left, at 7 bits or more each, hold the bits asked for (41_bit_reader.md R122, R123, R125). -/
def Obligations.ReadBitsCompletes : Prop :=
  ∀ (s : State) (n : BitVec 7), s.Safe → s.bound = .br → n.toNat ≤ 64 → s.SourceReadable → s.StuffingClean →
    (s.br.mode = true ∨ n.toNat ≤ s.br.bitsLeft.toNat + 7 * (srcTotal s.src.ranges - s.src.pos.toNat)) →
    ∃ t, exec (.brReadbits n) s = .next t ∧ t.Safe ∧ t.res.toNat < 2 ^ n.toNat

/-- 41_bit_reader.md R130: BR_FINISH takes the stuffing byte exactly at a byte boundary after a 0xFF, drops the rest of
the current byte, and returns the position. -/
def Obligations.BrFinishReleasesTheSource : Prop :=
  (∀ s : State, s.Safe → s.bound ≠ .br → ∃ t, exec .brFinish s = .next t ∧ s.Raises t 9) ∧
  ∀ s : State, s.Safe → s.bound = .br →
    (¬ (s.br.bitsLeft = 0 ∧ s.br.lastFF = true) →
      exec .brFinish s = .next ((s.setBr { s.br with bitsLeft := 0, lastFF := false }).setRes
        (s.src.pos.setWidth 64))) ∧
    (∀ a, s.br.bitsLeft = 0 → s.br.lastFF = true → srcAddr s.src.ranges s.src.pos.toNat = some a →
      a < s.par.cwmemSize →
      exec .brFinish s = .next (((s.setSrc { s.src with pos := s.src.pos + 1 }).setBr
        { s.br with bitsLeft := 0, lastFF := false }).setRes ((s.src.pos + 1).setWidth 64))) ∧
    (s.br.bitsLeft = 0 → s.br.lastFF = true → srcTotal s.src.ranges ≤ s.src.pos.toNat → s.br.mode = true →
      exec .brFinish s = .next (((s.setSrc { s.src with filled := true }).setBr
        { s.br with bitsLeft := 0, lastFF := false }).setRes (s.src.pos.setWidth 64))) ∧
    (s.br.bitsLeft = 0 → s.br.lastFF = true → srcTotal s.src.ranges ≤ s.src.pos.toNat → s.br.mode = false →
      ∃ t, exec .brFinish s = .next t ∧ s.Fails t 2) ∧
    (∀ a, s.br.bitsLeft = 0 → s.br.lastFF = true → srcAddr s.src.ranges s.src.pos.toNat = some a →
      s.par.cwmemSize ≤ a → ∃ t, exec .brFinish s = .next t ∧ s.Fails t 2)

/-- 41_bit_reader.md R131: a second BR_FINISH right after a first one fetches nothing and returns the same RES, because
the first left BITSLEFT and LASTFF 0. -/
def Obligations.BrFinishIsIdempotent : Prop :=
  ∀ s t : State, exec .brFinish s = .next t →
    exec .brFinish t = .next t ∧ (s.Safe → t.Safe → t.br.bitsLeft = 0 ∧ t.br.lastFF = false)

/-- 41_bit_reader.md R132, R122: between the 8 bits of a real 0xFF and the bits of the byte after it, a byte up to 0x7F
gives exactly its bits [6:0]. -/
def Obligations.SevenBitsAfterFF : Prop :=
  ∀ (s : State) (a b : Nat), s.Safe → s.bound = .br → s.br.bitsLeft = 0 → s.br.lastFF = false →
    srcAddr s.src.ranges s.src.pos.toNat = some a → srcAddr s.src.ranges (s.src.pos + 1).toNat = some b →
    a < s.par.cwmemSize → b < s.par.cwmemSize → s.cwByte a = 0xFF → (s.cwByte b).toNat ≤ 0x7F →
    (∃ t, exec (.brReadbits 15) s = .next t ∧ t.Safe ∧ t.res.toNat = 0xFF * 2 ^ 7 + (s.cwByte b).toNat ∧
      t.br.bitsLeft = 0 ∧ t.src.pos = s.src.pos + 2) ∧
    ∀ c, srcAddr s.src.ranges (s.src.pos + 2).toNat = some c → c < s.par.cwmemSize →
      ∃ t, exec (.brReadbits 23) s = .next t ∧ t.Safe ∧
        t.res.toNat = (0xFF * 2 ^ 7 + (s.cwByte b).toNat) * 2 ^ 8 + (s.cwByte c).toNat

/-! ## The MQ decoder -/

/-- 42_mq_decoder.md R160: MQ_INIT binds the segment and loads the registers from its first two bytes, fill bytes past
its end; a byte beyond CWMEM_SIZE is GenericIOFailure; `f` is the model's own marks. -/
def Obligations.MqInitLoadsTheDecoder : Prop :=
  ∀ s : State, s.Safe →
    let base := s.csr.segBase.toNat
    let len := s.csr.segLen.toNat
    let b0 : Byte := if 0 < len then s.cwByte base else 0xFF
    let b1 : Byte := if 1 < len then s.cwByte (base + 1) else 0xFF
    let first : Word := (b0 ^^^ 0xFF).setWidth 32 <<< 16
    ((0 < len → base < s.par.cwmemSize) → (1 < len → base + 1 < s.par.cwmemSize) →
      ∃ f, exec .mqInit s = .next ((((s.setMq
        { a := 0x8000
          c := (if b0 = 0xFF then (if 0x8F < b1 then first else first + 0xFE00 - (b1.setWidth 32 <<< 9))
                else first + 0xFF00 - (b1.setWidth 32 <<< 8)) <<< 7
          ct := if b0 = 0xFF ∧ b1 ≤ 0x8F then 0 else 1
          b := b1
          mf := decide (b0 = 0xFF ∧ 0x8F < b1) }).setSrc
        { ranges := [(s.csr.segBase, s.csr.segLen)]
          pos := if len < 2 then s.csr.segLen else 2
          filled := decide (len < 2) }).setBound .mq).setFree f)) ∧
    ((0 < len ∧ s.par.cwmemSize ≤ base) ∨ (1 < len ∧ s.par.cwmemSize ≤ base + 1) →
      ∃ t, exec .mqInit s = .next t ∧ s.Fails t 2)

/-- 42_mq_decoder.md R158, R159, R161: the decision of MQ_DECODE, the register and context updates of its four
exchanges, and renormalisation after each; no other context changes; NotReady without the MQ binding. That the MPS path
with `A` at 0x8000 or above does not renormalise in state 46 either is R161's pseudocode against its corner case, the
model's reading (log 26). -/
def Obligations.MqDecodeDecides : Prop :=
  (∀ s : State, s.Safe → s.bound ≠ .mq → ∃ t, exec .mqDecode s = .next t ∧ s.Raises t 9) ∧
  ∀ s : State, s.Safe → s.bound = .mq →
    let e := s.ctx s.cxsel
    let q := (qe e.I).Qe
    let a := s.mq.a - q
    let chigh : Half := s.mq.c.extractLsb' 16 16
    let moreProbable : CxEntry := { I := (qe e.I).NMPS, MPS := e.MPS }
    let lessProbable : CxEntry := { I := (qe e.I).NLPS, MPS := if (qe e.I).SWITCH then !e.MPS else e.MPS }
    let upper := s.setMq { s.mq with a := a }
    let lower := s.setMq { s.mq with a := q, c := s.mq.c - (a.setWidth 32 <<< 16) }
    (chigh < a → 0x8000 ≤ a → exec .mqDecode s = .next (upper.setRes (bitResult e.MPS))) ∧
    (chigh < a → a < 0x8000 → a < q →
      exec .mqDecode s = decodeEnd (upper.setCtx s.cxsel lessProbable) (!e.MPS)) ∧
    (chigh < a → a < 0x8000 → q ≤ a →
      exec .mqDecode s = decodeEnd (upper.setCtx s.cxsel moreProbable) e.MPS) ∧
    (a ≤ chigh → a < q → exec .mqDecode s = decodeEnd (lower.setCtx s.cxsel moreProbable) e.MPS) ∧
    (a ≤ chigh → q ≤ a → exec .mqDecode s = decodeEnd (lower.setCtx s.cxsel lessProbable) (!e.MPS)) ∧
    ∀ t, exec .mqDecode s = .next t → (∀ k : Category, k ≠ s.cxsel → t.ctx k = s.ctx k) ∧ t.cxsel = s.cxsel

/-- 42_mq_decoder.md R157: RENORMD is its do-while loop, for every `A` it is entered with; and while `CT` bits suffice it
shifts `A` and `C` by the fewest places that bring `A` to 0x8000. -/
def Obligations.RenormalisationLoops : Prop :=
  ∀ s : State, 0 < s.mq.a.toNat → s.mq.a.toNat < 0x8000 →
    (renormD s = (if s.mq.ct = 0 then byteIn s else .done () s).bind fun _ u =>
      let v := u.setMq { u.mq with a := u.mq.a <<< 1, c := u.mq.c <<< 1, ct := u.mq.ct - 1 }
      if v.mq.a < 0x8000 then renormD v else .done () v) ∧
    (let n := 15 - Nat.log2 s.mq.a.toNat
     n ≤ s.mq.ct.toNat →
      renormD s = .done () (s.setMq { s.mq with a := s.mq.a <<< n, c := s.mq.c <<< n, ct := s.mq.ct - BitVec.ofNat 4 n }))

/-- 42_mq_decoder.md R155, R154: the three cases of BYTEIN on the next byte, real or fill, and a marker found. -/
def Obligations.ByteInTakesOneByte : Prop :=
  ∀ s : State, s.bound = .mq →
    (s.mq.mf = true → byteIn s = .done () (s.setMq { s.mq with ct := 8 })) ∧
    (∀ (b : Byte) (src : Source), s.mq.mf = false →
      ((∃ a, srcAddr s.src.ranges s.src.pos.toNat = some a ∧ a < s.par.cwmemSize ∧ b = s.cwByte a ∧
        src = { s.src with pos := s.src.pos + 1 }) ∨
       (srcTotal s.src.ranges ≤ s.src.pos.toNat ∧ b = 0xFF ∧ src = { s.src with filled := true })) →
      (s.mq.b = 0xFF → 0x8F < b →
        byteIn s = .done () ((s.setSrc src).setMq { s.mq with b := b, mf := true, ct := 8 })) ∧
      (s.mq.b = 0xFF → b ≤ 0x8F →
        byteIn s = .done () ((s.setSrc src).setMq
          { s.mq with b := b, c := s.mq.c + 0xFE00 - (b.setWidth 32 <<< 9), ct := 7 })) ∧
      (s.mq.b ≠ 0xFF →
        byteIn s = .done () ((s.setSrc src).setMq
          { s.mq with b := b, c := s.mq.c + 0xFF00 - (b.setWidth 32 <<< 8), ct := 8 })))

/-- 42_mq_decoder.md R156: once a marker is found, MQ_DECODE, MQ_PTERM and the MQ passes fetch nothing more and raise
nothing of the source, whatever the source is. -/
def Obligations.NothingIsFetchedAfterAMarker : Prop :=
  ∀ (s : State) (i : Instr), s.Safe → s.bound = .mq → s.mq.mf = true →
    (i = .mqDecode ∨ i = .mqPterm ∨
      ∃ p, s.PassReady p.toNat false ∧ p.toNat ≤ 30 ∧ (i = .passSp p false ∨ i = .passMr p false ∨ i = .passCu p)) →
    ∃ t, exec i s = .next t ∧ t.Safe ∧ t.src = s.src ∧ t.mq.mf = true ∧ t.mq.b = s.mq.b

/-- 42_mq_decoder.md R164: after INITDEC and after every DECODE, `A` is 0x8000 or above and `CT` at most 7, and `A - Q`
never goes below 0; and while every byte after a 0xFF is at most 0x7F or a marker byte, `Chigh < A` too. These are the
procedures that MQ_INIT and MQ_DECODE run, and BLK_SEGMENT and the passes. -/
def Obligations.DecoderRegistersStayInRange : Prop :=
  (∀ s t : State, initDec s = .done () t → t.mq.InRange) ∧
  (∀ (s t : State) (k : Category) (d : Bool), s.mq.InRange → decodeMq k s = .done d t → t.mq.InRange) ∧
  (∀ (s : State) (k : Category), s.mq.InRange → (qe (s.ctx k).I).Qe.toNat ≤ s.mq.a.toNat) ∧
  (∀ s t : State, RangesMarkerClean s s.src.ranges → initDec s = .done () t →
    t.MarkerClean ∧ t.mq.LowClear ∧ t.mq.chigh < t.mq.a) ∧
  ∀ (s t : State) (k : Category) (d : Bool), s.mq.InRange → s.MarkerClean → s.mq.LowClear → s.mq.chigh < s.mq.a →
    decodeMq k s = .done d t → t.MarkerClean ∧ t.mq.LowClear ∧ t.mq.chigh < t.mq.a

/-- 42_mq_decoder.md R163: MQ_PTERM, case by case: no marker byte reached, bits left, one bit left after a marker, the
byte of the marker still to fetch, and the comparison with the termination pattern. -/
def Obligations.MqPtermChecksTheTermination : Prop :=
  (∀ s : State, s.Safe → s.bound ≠ .mq → ∃ t, exec .mqPterm s = .next t ∧ s.Raises t 9) ∧
  ∀ s : State, s.Safe → s.bound = .mq →
    (s.mq.mf = false → (s.mq.b ≠ 0xFF ∨ s.mq.ct ≠ 0) → exec .mqPterm s = .next (s.setRes 1)) ∧
    (s.mq.mf = true → s.mq.ct = 1 → exec .mqPterm s = .next (s.setRes 0)) ∧
    (∀ a, s.mq.mf = false → s.mq.b = 0xFF → s.mq.ct = 0 → srcAddr s.src.ranges s.src.pos.toNat = some a →
      s.par.cwmemSize ≤ a → ∃ t, exec .mqPterm s = .next t ∧ s.Fails t 2) ∧
    ∀ u : State,
      ((s.mq.mf = true ∧ s.mq.ct ≠ 1 ∧ u = s) ∨
       (s.mq.mf = false ∧ s.mq.b = 0xFF ∧ s.mq.ct = 0 ∧
        ((∃ a, srcAddr s.src.ranges s.src.pos.toNat = some a ∧ a < s.par.cwmemSize ∧
          u = (s.setSrc { s.src with pos := s.src.pos + 1 }).setMq { s.mq with b := s.cwByte a }) ∨
         (srcTotal s.src.ranges ≤ s.src.pos.toNat ∧ u = s.setSrc { s.src with filled := true })))) →
      let ct : Nat := if s.mq.ct = 0 then 8 else s.mq.ct.toNat
      let q : Half := 0x8000#16 >>> (ct - 1)
      let a : Half := s.mq.a - q
      (s.mq.mf = false → u.mq.b ≤ 0x8F → exec .mqPterm s = .next (u.setRes 1)) ∧
      (s.mq.mf = true ∨ 0x8F < u.mq.b →
        (s.mq.c.extractLsb' 16 16 < a →
          exec .mqPterm s = .next ((u.setMq { u.mq with ct := BitVec.ofNat 4 ct, a := a }).setRes 1)) ∧
        (a ≤ s.mq.c.extractLsb' 16 16 →
          exec .mqPterm s = .next ((u.setMq { u.mq with
            ct := 1, a := 0x8000, c := (s.mq.c - (a.setWidth 32 <<< 16)) <<< (ct - 1) }).setRes 0)))

/-- The MQ commands raise nothing of their own: on a readable source they complete and return a bit
(42_mq_decoder.md R165, 60_exceptions.md R348), and what they raise is GenericIOFailure or NotReady. -/
def Obligations.MqCommandsComplete : Prop :=
  (∀ s : State, s.Safe → s.bound = .mq → s.SourceReadable →
    (∃ t d, exec .mqDecode s = .next t ∧ t.Safe ∧ t.res = bitResult d) ∧
    (∃ t d, exec .mqPterm s = .next t ∧ t.Safe ∧ t.res = bitResult d)) ∧
  (∀ s : State, s.Safe → s.SegmentReadable → ∃ t, exec .mqInit s = .next t ∧ t.Safe) ∧
  ∀ (s t : State) (i : Instr), s.Safe → i = .mqInit ∨ i = .mqDecode ∨ i = .mqPterm → exec i s = .next t → ¬ t.Safe →
    t.st.errCode = 2 ∨ (t.st.errCode = 9 ∧ i ≠ .mqInit ∧ s.bound ≠ .mq)

/-- 42_mq_decoder.md R166, 70_reset_and_hazards.md R379: two engines with the same decoder registers, contexts and bound
bytes, whatever else differs between them, get the same result, decoder state and contexts from MQ_DECODE and from
MQ_PTERM, and the same error if there is one. -/
def Obligations.MqResultsDependOnTheDecoderAlone : Prop :=
  ∀ (s₁ s₂ t₁ t₂ : State) (i : Instr), s₁.Safe → s₂.Safe → s₁.SameDecoder s₂ → i = .mqDecode ∨ i = .mqPterm →
    exec i s₁ = .next t₁ → exec i s₂ = .next t₂ →
    t₁.mq = t₂.mq ∧ t₁.cx = t₂.cx ∧ t₁.src = t₂.src ∧ t₁.st.error = t₂.st.error ∧
      (¬ t₁.Safe → t₁.st.errCode = t₂.st.errCode) ∧ (t₁.Safe → t₁.res = t₂.res)

/-! ## The context model -/

/-- 43_context_model.md R203, R204, R205 with R202: CX_RESET writes the initial table and CXSEL, CX_SELECT CXSEL alone,
CX_READ returns the selected context's MPS at bit 8 and index below; nothing else changes. -/
def Obligations.ContextCommands : Prop :=
  (∀ s : State, s.Safe → ∃ t, exec .cxReset s = .next t ∧ t = (s.setCx t.cx).setCxsel 0 ∧
    ∀ k : Category, t.ctx k = { I := if k = 0 then 4 else if k = 17 then 3 else if k = 18 then 46 else 0, MPS := false }) ∧
  (∀ (s : State) (k : BitVec 5), s.Safe → ∀ h : k.toNat < 19, exec (.cxSelect k) s = .next (s.setCxsel ⟨k.toNat, h⟩)) ∧
  (∀ (s : State) (k : BitVec 5), 19 ≤ k.toNat → ∃ t, exec (.cxSelect k) s = .next t ∧ s.Raises t 5) ∧
  ∀ s : State, s.Safe →
    exec .cxRead s = .next (s.setRes
      (BitVec.ofNat 64 ((if (s.ctx s.cxsel).MPS then 256 else 0) + (s.ctx s.cxsel).I.val)))

/-- 43_context_model.md R207, R208, R209: the neighbour counts, at integer coordinates, with the block's boundary and the
vertically causal mode. -/
def Obligations.NeighbourCounts : Prop :=
  ∀ (s : State) (x y : Nat), s.InBlock x y →
    s.hCount x y = s.sigmaAt y (x - 1 : Int) y + s.sigmaAt y (x + 1 : Int) y ∧
    s.vCount x y = s.sigmaAt y x (y - 1 : Int) + s.sigmaAt y x (y + 1 : Int) ∧
    s.dCount x y = s.sigmaAt y (x - 1 : Int) (y - 1 : Int) + s.sigmaAt y (x + 1 : Int) (y - 1 : Int) +
      s.sigmaAt y (x - 1 : Int) (y + 1 : Int) + s.sigmaAt y (x + 1 : Int) (y + 1 : Int)

/-- 43_context_model.md R211, R212: the sign label and XOR bit, from the clamped sums of the neighbours' signs at integer
coordinates. -/
def Obligations.SignLabels : Prop :=
  ∀ (s : State) (x y : Nat), s.InBlock x y →
    let hc := max (-1) (min 1 (s.chiAt y (x - 1 : Int) y + s.chiAt y (x + 1 : Int) y))
    let vc := max (-1) (min 1 (s.chiAt y x (y - 1 : Int) + s.chiAt y x (y + 1 : Int)))
    (hc = 1 → vc = 1 → s.sc x y = (13, false)) ∧
    (hc = 1 → vc = 0 → s.sc x y = (12, false)) ∧
    (hc = 1 → vc = -1 → s.sc x y = (11, false)) ∧
    (hc = 0 → vc = 1 → s.sc x y = (10, false)) ∧
    (hc = 0 → vc = 0 → s.sc x y = (9, false)) ∧
    (hc = 0 → vc = -1 → s.sc x y = (10, true)) ∧
    (hc = -1 → vc = 1 → s.sc x y = (11, true)) ∧
    (hc = -1 → vc = 0 → s.sc x y = (12, true)) ∧
    (hc = -1 → vc = -1 → s.sc x y = (13, true))

/-- 43_context_model.md R210, R214, R216: the significance label of every orientation and the refinement label, from the
neighbour counts. -/
def Obligations.SignificanceAndRefinementLabels : Prop :=
  ∀ (s : State) (x y : Nat),
    let h := s.hCount x y
    let v := s.vCount x y
    let d := s.dCount x y
    (∀ a b, (s.cfg.orient = .LL ∨ s.cfg.orient = .LH) ∧ a = h ∧ b = v ∨ s.cfg.orient = .HL ∧ a = v ∧ b = h →
      (a = 2 → s.zc x y = 8) ∧ (a = 1 → 1 ≤ b → s.zc x y = 7) ∧ (a = 1 → b = 0 → 1 ≤ d → s.zc x y = 6) ∧
      (a = 1 → b = 0 → d = 0 → s.zc x y = 5) ∧ (a = 0 → b = 2 → s.zc x y = 4) ∧ (a = 0 → b = 1 → s.zc x y = 3) ∧
      (a = 0 → b = 0 → 2 ≤ d → s.zc x y = 2) ∧ (a = 0 → b = 0 → d = 1 → s.zc x y = 1) ∧
      (a = 0 → b = 0 → d = 0 → s.zc x y = 0)) ∧
    (s.cfg.orient = .HH →
      (3 ≤ d → s.zc x y = 8) ∧ (d = 2 → 1 ≤ h + v → s.zc x y = 7) ∧ (d = 2 → h + v = 0 → s.zc x y = 6) ∧
      (d = 1 → 2 ≤ h + v → s.zc x y = 5) ∧ (d = 1 → h + v = 1 → s.zc x y = 4) ∧ (d = 1 → h + v = 0 → s.zc x y = 3) ∧
      (d = 0 → 2 ≤ h + v → s.zc x y = 2) ∧ (d = 0 → h + v = 1 → s.zc x y = 1) ∧ (d = 0 → h + v = 0 → s.zc x y = 0)) ∧
    h ≤ 2 ∧ v ≤ 2 ∧ d ≤ 4 ∧
    ((s.cell x y).REF = true → s.mrLabel x y = 16) ∧
    ((s.cell x y).REF = false → 0 < h + v + d → s.mrLabel x y = 15) ∧
    ((s.cell x y).REF = false → h + v + d = 0 → s.mrLabel x y = 14)

/-! ## The coding passes -/

/-- 44_coding_passes.md R241: a pass visits every coefficient of the block exactly once and no other, stripe by stripe
from the top, column by column from the left, and row by row downwards. -/
def Obligations.ScanVisitsEachCoefficientOnce : Prop :=
  ∀ w h : Nat,
    (∀ x y, (scan w h).count (x, y) = if x < w ∧ y < h then 1 else 0) ∧
    (scan w h).Pairwise fun c c' =>
      c.2 / 4 < c'.2 / 4 ∨ (c.2 / 4 = c'.2 / 4 ∧ (c.1 < c'.1 ∨ (c.1 = c'.1 ∧ c.2 < c'.2)))

/-- PASS_SP is its decisions, one coefficient after another in scan order: which coefficients are coded, the label of
each decision, made as MQ_DECODE with that context or as MQ_DECODE_RAW, the sign and its XOR bit, and what each decision
sets, up to the first error if there is one (44_coding_passes.md R242, R244, R246, R248, R249, R250; 43_context_model.md
R213). It completes with RES = 0 when its coder can read; its effect on each coefficient and its frame. -/
def Obligations.PassSpEffect : Prop :=
  (∀ (s : State) (p : BitVec 5) (raw : Bool), p.toNat ≤ 30 → s.PassReady p.toNat raw →
    exec (.passSp p raw) s = .next (s.spSteps raw (p.toNat + s.cfg.shift.toNat))) ∧
  ∀ (s : State) (p : BitVec 5) (raw : Bool), p.toNat ≤ 30 → s.PassReady p.toNat raw → s.Inv → s.CoderClean raw →
    ∃ t, exec (.passSp p raw) s = .next t ∧ t.res = 0 ∧ s.PassFrame raw t ∧
      s.PassEffect (SpCoefficient (p.toNat + s.cfg.shift.toNat)) t

/-- PASS_MR is its decisions, one coefficient after another in scan order: which coefficients are refined, the label of
each decision, and the bit and REF it sets, up to the first error if there is one (44_coding_passes.md R242, R245, R251,
R252, R255). It completes with RES = 0 when its coder can read; its effect on each coefficient and its frame. -/
def Obligations.PassMrEffect : Prop :=
  (∀ (s : State) (p : BitVec 5) (raw : Bool), p.toNat ≤ 30 → s.PassReady p.toNat raw →
    exec (.passMr p raw) s = .next (s.mrSteps raw (p.toNat + s.cfg.shift.toNat))) ∧
  ∀ (s : State) (p : BitVec 5) (raw : Bool), p.toNat ≤ 30 → s.PassReady p.toNat raw → s.Inv → s.CoderClean raw →
    ∃ t, exec (.passMr p raw) s = .next t ∧ t.res = 0 ∧ s.PassFrame raw t ∧
      s.PassEffect (MrCoefficient (p.toNat + s.cfg.shift.toNat)) t

/-- PASS_CU is its decisions, one stripe column after another: run mode with its run and position decisions, the label of
every other decision, the signs, VIS cleared at the end, and the segmentation symbol, up to the first error if there is
one (44_coding_passes.md R242, R244, R246, R256, R257, R260, R261; 43_context_model.md R213). It completes with RES 0 or
1, 0 without segmentation symbols, when its coder can read; its effect on each coefficient and its frame. -/
def Obligations.PassCuEffect : Prop :=
  (∀ (s : State) (p : BitVec 5), p.toNat ≤ 30 → s.PassReady p.toNat false →
    exec (.passCu p) s = .next (s.cuSteps (p.toNat + s.cfg.shift.toNat))) ∧
  ∀ (s : State) (p : BitVec 5), p.toNat ≤ 30 → s.PassReady p.toNat false → s.Inv → s.CoderClean false →
    ∃ t mismatch, exec (.passCu p) s = .next t ∧ t.res = bitResult mismatch ∧
      (s.cfg.segSym = false → mismatch = false) ∧ s.PassFrame false t ∧
      s.PassEffect (CuCoefficient (p.toNat + s.cfg.shift.toNat)) t

/-- The significance pass codes exactly the insignificant coefficients with a significant neighbour
(44_coding_passes.md R248, R249): each one that had a neighbour before the pass is coded, and each one coded has one
after it. -/
def Obligations.SignificancePassMembership : Prop :=
  ∀ (s t : State) (p : BitVec 5) (raw : Bool), p.toNat ≤ 30 → s.PassReady p.toNat raw → s.Inv →
    exec (.passSp p raw) s = .next t → t.Safe →
    ∀ x y, s.InBlock x y → (s.cell x y).SIG = false →
      (0 < s.hCount x y + s.vCount x y + s.dCount x y → (t.cell x y).VIS = true) ∧
      ((s.cell x y).VIS = false → (t.cell x y).VIS = true → 0 < t.hCount x y + t.vCount x y + t.dCount x y)

/-- 44_coding_passes.md R270, R271, R272: NEXT_PASS returns the successor of the cursor's pass, its plane and its coder,
and 0 at the end of the sequence; without a block it raises NotReady. -/
def Obligations.NextPassReturnsTheSuccessor : Prop :=
  (∀ s : State, s.Safe → s.st.started = false → ∃ t, exec .nextPass s = .next t ∧ s.Raises t 9) ∧
  ∀ s : State, s.Safe → s.st.started = true →
    let p := s.cur.plane.toNat
    let raw : Nat → Nat := fun q => if s.cfg.bypass = true ∧ (q : Int) ≤ (s.cfg.p0.toNat : Int) - 4 then 2 ^ 16 else 0
    (s.cur.lastPass = none → exec .nextPass s = .next (s.setRes (BitVec.ofNat 64 (3 + s.cfg.p0.toNat * 2 ^ 8)))) ∧
    (s.cur.lastPass = some .cu → p = 0 → exec .nextPass s = .next (s.setRes 0)) ∧
    (s.cur.lastPass = some .cu → 0 < p →
      exec .nextPass s = .next (s.setRes (BitVec.ofNat 64 (1 + (p - 1) * 2 ^ 8 + raw (p - 1))))) ∧
    (s.cur.lastPass = some .sp → exec .nextPass s = .next (s.setRes (BitVec.ofNat 64 (2 + p * 2 ^ 8 + raw p)))) ∧
    (s.cur.lastPass = some .mr → exec .nextPass s = .next (s.setRes (BitVec.ofNat 64 (3 + p * 2 ^ 8))))

/-- 44_coding_passes.md R273: from BLK_START to END the sequence holds 3 P0 + 1 passes: one CU at plane P0, then SP, MR
and CU at each plane below. -/
def Obligations.PassSequence : Prop :=
  ∀ cfg : BlockConfig,
    planPasses cfg (3 * cfg.p0.toNat + 1) none 0 = some ((.cu, cfg.p0) ::
      (List.range cfg.p0.toNat).reverse.flatMap fun p =>
        [(.sp, BitVec.ofNat 5 p), (.mr, BitVec.ofNat 5 p), (.cu, BitVec.ofNat 5 p)]) ∧
    ∀ n, planPasses cfg n none 0 = none ↔ 3 * cfg.p0.toNat + 1 < n

/-! ## BLK_SEGMENT -/

/-- 45_block_control.md R305: a segment of no passes does nothing but the `last` step. -/
def Obligations.ZeroPassSegmentDoesNothing : Prop :=
  ∀ (s : State) (last : Bool), s.Safe → s.st.started = true → s.st.finished = false →
    s.csr.segPasses.toNat % 256 = 0 →
    exec (.blkSegment last) s = .next (if last then s.setSt { s.st with finished := true } else s)

/-- The checks BLK_SEGMENT makes before it changes anything, in order, with their codes: SequenceError, ExcessPasses,
SegmentSpan, NotReady for a continuation without its coder, LateAppend (45_block_control.md R306, R307, R309, R313;
60_exceptions.md R345). Nothing else changes but the `last` step. -/
def Obligations.SegmentChecksComeFirst : Prop :=
  ∀ (s : State) (last : Bool), s.Safe → s.st.started = true →
    let n := s.csr.segPasses.toNat % 256
    let rejected : BitVec 4 → Prop := fun code =>
      ∃ t, exec (.blkSegment last) s = .next t ∧ s.SegmentRejected t last code
    (s.st.finished = true → rejected 11) ∧
    (s.st.finished = false →
      (Cursor.Legal s.cfg s.cur → 3 * s.cfg.p0.toNat + 1 < s.cur.passCount.toNat + n → rejected 7) ∧
      ∀ first rest, planPasses s.cfg n s.cur.lastPass s.cur.plane = some (first :: rest) →
        let raw := rawPass s.cfg first.1 first.2
        let spans := (s.cfg.restart = true ∧ 1 < n) ∨
          (s.cfg.bypass = true ∧ ∃ k ∈ rest, rawPass s.cfg k.1 k.2 ≠ raw)
        (spans → rejected 10) ∧
        (¬ spans → ¬ s.StartsFresh raw →
          (s.bound ≠ (if raw then .br else .mq) → rejected 9) ∧
          (s.bound = (if raw then .br else .mq) → s.src.filled = true → 0 < s.csr.segLen.toNat → rejected 8)))

/-- BLK_SEGMENT is its parts: with a legal plan in one codeword segment and a coder that fits it does what MQ_INIT or
BR_BIND (or the append), CX_RESET where RESETCTX asks for it, the pass commands in plan order and MQ_PTERM do, up to the
first error, with the cursor moved after each pass, RES unchanged, SegmentationMismatch raised for a mismatch and
PredictableTerminationFailure for a failed check (45_block_control.md R304, R308 to R312). It completes when its coder can
read the segment: the cursor moves past the planned passes, `last` sets FINISHED, and the only error there can be is a
segmentation mismatch or a failed termination check, each in its mode alone. -/
def Obligations.SegmentCompletes : Prop :=
  (∀ (s : State) (last : Bool) (plan : List (PassKind × BitVec 5)) (first : PassKind × BitVec 5),
    s.Inv → s.Safe → s.st.started = true → s.st.finished = false →
    planPasses s.cfg (s.csr.segPasses.toNat % 256) s.cur.lastPass s.cur.plane = some plan →
    plan.head? = some first →
    (s.cfg.restart = true → plan.length = 1) →
    (s.cfg.bypass = true → ∀ k ∈ plan, rawPass s.cfg k.1 k.2 = rawPass s.cfg first.1 first.2) →
    s.CoderFits (rawPass s.cfg first.1 first.2) →
    let t := s.segmentSteps plan (rawPass s.cfg first.1 first.2)
    exec (.blkSegment last) s = .next (t.setSt { t.st with finished := last })) ∧
  ∀ (s : State) (last : Bool) (plan : List (PassKind × BitVec 5)) (first final : PassKind × BitVec 5),
    s.Safe → s.st.started = true → s.st.finished = false →
    planPasses s.cfg (s.csr.segPasses.toNat % 256) s.cur.lastPass s.cur.plane = some plan →
    plan.head? = some first → plan.getLast? = some final →
    (s.cfg.restart = true → plan.length = 1) →
    (s.cfg.bypass = true → ∀ k ∈ plan, rawPass s.cfg k.1 k.2 = rawPass s.cfg first.1 first.2) →
    s.CoderFits (rawPass s.cfg first.1 first.2) →
    (s.withSegment (rawPass s.cfg first.1 first.2)).CoderClean (rawPass s.cfg first.1 first.2) →
    ∃ t, exec (.blkSegment last) s = .next t ∧ t.res = s.res ∧ t.st.started = true ∧ t.st.finished = last ∧
      (t.Safe → t.cur =
        { lastPass := some final.1, plane := final.2, passCount := s.cur.passCount + BitVec.ofNat 8 plan.length,
          lastType := if rawPass s.cfg final.1 final.2 then .raw else .mq }) ∧
      (s.cfg.segSym = false → s.cfg.pterm = false → t.Safe) ∧
      (¬ t.Safe → (t.st.errCode = 3 ∧ s.cfg.segSym = true) ∨ (t.st.errCode = 4 ∧ s.cfg.pterm = true)) ∧
      t.bound = (if rawPass s.cfg first.1 first.2 then .br else .mq) ∧
      t.src.ranges = (s.withSegment (rawPass s.cfg first.1 first.2)).src.ranges

/-- BLK_SEGMENT with `last` marks a started block finished even when it raised or was suppressed; without `last` it never
does (45_block_control.md R304, R313). -/
def Obligations.LastContributionFinishesTheBlock : Prop :=
  ∀ (s t : State) (last : Bool), s.st.started = true → exec (.blkSegment last) s = .next t →
    t.st.finished = (s.st.finished || last)

/-- 45_block_control.md R316: to stop between the passes of a contribution the host may issue it as two BLK_SEGMENTs, the
second with SEG_LEN = 0. With RESTART = 0, RESETCTX = 0 and no new coder for the second part, the block is decoded as
with one. -/
def Obligations.SplitContributionsDecodeTheSame : Prop :=
  ∀ (s t₁ u t₂ : State) (m n : Nat) (whole : List (PassKind × BitVec 5)),
    s.Inv → s.Safe → s.st.started = true → s.st.finished = false → 0 < m → 0 < n → m + n < 256 →
    s.cfg.restart = false → s.cfg.resetCtx = false →
    planPasses s.cfg (m + n) s.cur.lastPass s.cur.plane = some whole →
    (s.cfg.bypass = true → ∀ k ∈ whole, ∀ k' ∈ whole, rawPass s.cfg k.1 k.2 = rawPass s.cfg k'.1 k'.2) →
    exec (.blkSegment false) (s.setCsr { s.csr with segPasses := BitVec.ofNat 32 (m + n) }) = .next t₁ →
    exec (.blkSegment false) (s.setCsr { s.csr with segPasses := BitVec.ofNat 32 m }) = .next u →
    exec (.blkSegment false) (u.setCsr { s.csr with segLen := 0, segPasses := BitVec.ofNat 32 n }) = .next t₂ →
    (t₁.Safe ↔ t₂.Safe) ∧ t₁.st.errCode = t₂.st.errCode ∧ t₁.samp = t₂.samp ∧ t₁.cells = t₂.cells ∧
      t₁.cx = t₂.cx ∧ t₁.cur = t₂.cur ∧ t₁.mq = t₂.mq ∧ t₁.br = t₂.br ∧ t₁.src.pos = t₂.src.pos

/-! ## The whole machine -/

/-- The invariant holds after every step from any state that meets it: memories in canonical form, nothing outside the
block, counters and codes in range, reserved CSR fields 0, the cursor at a pass of the sequence, and sample words that
agree with their flags. -/
def Obligations.EveryStepKeepsTheInvariant : Prop :=
  ∀ s t : State, s.Inv → step s = .next t → t.Inv

/-- The state after reset meets the invariant. -/
def Obligations.ResetMeetsTheInvariant : Prop := State.reset.Inv

/-- 10_state.md R57, 70_reset_and_hazards.md R370: the values after reset that the spec gives, and that a host reset of an
instance in any state restores them and leaves codeword memory to the host. -/
def Obligations.ResetValues : Prop :=
  ∀ s : State, ∀ r ∈ [State.reset, s.hostReset],
    r.mq = { a := 0, c := 0, ct := 0, b := 0, mf := false } ∧
    r.src = { ranges := [], pos := 0, filled := false } ∧ r.bound = .none ∧
    r.br = { buf := 0, bitsLeft := 0, lastFF := false, mode := false } ∧
    r.res = 0 ∧ r.cxsel = 0 ∧
    (∀ k : Category, r.ctx k = { I := if k = 0 then 4 else if k = 17 then 3 else if k = 18 then 46 else 0, MPS := false }) ∧
    (∀ y u w, ¬ (1 ≤ u ∧ u ≤ r.cfg.w ∧ 1 ≤ w ∧ w ≤ r.cfg.h) → r.seen y u w = SampleFlags.clear) ∧
    r.cur = { lastPass := none, plane := 0, passCount := 0, lastType := .mq } ∧
    r.st = { started := false, finished := false, error := false, errCode := 0 } ∧
    r.csr = { geom := 0, mode := 0, segBase := 0, segLen := 0, segPasses := 0 } ∧
    s.hostReset.cwmem = s.cwmem

/-- The host reads back the byte it wrote to codeword memory, every other byte is unchanged, the canonical form is kept,
and nothing else of the engine changes (20_memory.md R70, R71, R84). That a write at or above CWMEM_SIZE changes nothing
is the model's choice (log 17). -/
def Obligations.HostWritesCodewordMemory : Prop :=
  ∀ (s : State) (addr : Nat) (b : Byte), Memory.wf s.cwmem →
    (∀ a, (s.hostWrite addr b).hostRead a =
      if a < s.par.cwmemSize then some (if a = addr then b else s.cwByte a) else none) ∧
    Memory.wf (s.hostWrite addr b).cwmem ∧ s.hostWrite addr b = s.setCwmem (s.hostWrite addr b).cwmem

/-- 20_memory.md R83, 60_exceptions.md R350: under any schedule each engine of a pool goes through the states it would go
through alone, one for each of its own turns, and the shared codeword memory and the parameters never change. A hardware
of N_INSTANCES engines (00_scope.md R6) stays one. -/
def Obligations.PoolEnginesRunAsIfAlone : Prop :=
  ∀ (p : Pool) (schedule : List Nat), p.Shared →
    (∀ (i : Nat) (s : State), p.engines[i]? = some s →
      (p.run schedule).engines[i]? = some (State.stepped^[schedule.count i] s)) ∧
    (p.run schedule).cwmem = p.cwmem ∧ (p.run schedule).par = p.par ∧ (p.run schedule).Shared ∧
    (p.Legal → (p.run schedule).Legal)
end

