-- ==== Sys2Proof/Laws/State.lean ====
section
/-! SUPPORT. What each writer of the state changes and what it leaves alone, one lemma for each field and writer, so that
no later proof unfolds a record update. -/

namespace Sys2Proof.Machine

variable (s : State)

section
variable (v : List Host.Cell)
@[simp] theorem State.setCwmem_par : (s.setCwmem v).par = s.par := rfl
@[simp] theorem State.setCwmem_cwmem : (s.setCwmem v).cwmem = v := rfl
@[simp] theorem State.setCwmem_hostq : (s.setCwmem v).hostq = s.hostq := rfl
@[simp] theorem State.setCwmem_csr : (s.setCwmem v).csr = s.csr := rfl
@[simp] theorem State.setCwmem_mq : (s.setCwmem v).mq = s.mq := rfl
@[simp] theorem State.setCwmem_src : (s.setCwmem v).src = s.src := rfl
@[simp] theorem State.setCwmem_bound : (s.setCwmem v).bound = s.bound := rfl
@[simp] theorem State.setCwmem_br : (s.setCwmem v).br = s.br := rfl
@[simp] theorem State.setCwmem_res : (s.setCwmem v).res = s.res := rfl
@[simp] theorem State.setCwmem_cxsel : (s.setCwmem v).cxsel = s.cxsel := rfl
@[simp] theorem State.setCwmem_cx : (s.setCwmem v).cx = s.cx := rfl
@[simp] theorem State.setCwmem_samp : (s.setCwmem v).samp = s.samp := rfl
@[simp] theorem State.setCwmem_cells : (s.setCwmem v).cells = s.cells := rfl
@[simp] theorem State.setCwmem_cfg : (s.setCwmem v).cfg = s.cfg := rfl
@[simp] theorem State.setCwmem_cur : (s.setCwmem v).cur = s.cur := rfl
@[simp] theorem State.setCwmem_st : (s.setCwmem v).st = s.st := rfl
@[simp] theorem State.setCwmem_free : (s.setCwmem v).free = s.free := rfl
end

section
variable (v : List Word)
@[simp] theorem State.setHostq_par : (s.setHostq v).par = s.par := rfl
@[simp] theorem State.setHostq_cwmem : (s.setHostq v).cwmem = s.cwmem := rfl
@[simp] theorem State.setHostq_hostq : (s.setHostq v).hostq = v := rfl
@[simp] theorem State.setHostq_csr : (s.setHostq v).csr = s.csr := rfl
@[simp] theorem State.setHostq_mq : (s.setHostq v).mq = s.mq := rfl
@[simp] theorem State.setHostq_src : (s.setHostq v).src = s.src := rfl
@[simp] theorem State.setHostq_bound : (s.setHostq v).bound = s.bound := rfl
@[simp] theorem State.setHostq_br : (s.setHostq v).br = s.br := rfl
@[simp] theorem State.setHostq_res : (s.setHostq v).res = s.res := rfl
@[simp] theorem State.setHostq_cxsel : (s.setHostq v).cxsel = s.cxsel := rfl
@[simp] theorem State.setHostq_cx : (s.setHostq v).cx = s.cx := rfl
@[simp] theorem State.setHostq_samp : (s.setHostq v).samp = s.samp := rfl
@[simp] theorem State.setHostq_cells : (s.setHostq v).cells = s.cells := rfl
@[simp] theorem State.setHostq_cfg : (s.setHostq v).cfg = s.cfg := rfl
@[simp] theorem State.setHostq_cur : (s.setHostq v).cur = s.cur := rfl
@[simp] theorem State.setHostq_st : (s.setHostq v).st = s.st := rfl
@[simp] theorem State.setHostq_free : (s.setHostq v).free = s.free := rfl
end

section
variable (v : Csrs)
@[simp] theorem State.setCsr_par : (s.setCsr v).par = s.par := rfl
@[simp] theorem State.setCsr_cwmem : (s.setCsr v).cwmem = s.cwmem := rfl
@[simp] theorem State.setCsr_hostq : (s.setCsr v).hostq = s.hostq := rfl
@[simp] theorem State.setCsr_csr : (s.setCsr v).csr = v := rfl
@[simp] theorem State.setCsr_mq : (s.setCsr v).mq = s.mq := rfl
@[simp] theorem State.setCsr_src : (s.setCsr v).src = s.src := rfl
@[simp] theorem State.setCsr_bound : (s.setCsr v).bound = s.bound := rfl
@[simp] theorem State.setCsr_br : (s.setCsr v).br = s.br := rfl
@[simp] theorem State.setCsr_res : (s.setCsr v).res = s.res := rfl
@[simp] theorem State.setCsr_cxsel : (s.setCsr v).cxsel = s.cxsel := rfl
@[simp] theorem State.setCsr_cx : (s.setCsr v).cx = s.cx := rfl
@[simp] theorem State.setCsr_samp : (s.setCsr v).samp = s.samp := rfl
@[simp] theorem State.setCsr_cells : (s.setCsr v).cells = s.cells := rfl
@[simp] theorem State.setCsr_cfg : (s.setCsr v).cfg = s.cfg := rfl
@[simp] theorem State.setCsr_cur : (s.setCsr v).cur = s.cur := rfl
@[simp] theorem State.setCsr_st : (s.setCsr v).st = s.st := rfl
@[simp] theorem State.setCsr_free : (s.setCsr v).free = s.free := rfl
end

section
variable (v : MqRegs)
@[simp] theorem State.setMq_par : (s.setMq v).par = s.par := rfl
@[simp] theorem State.setMq_cwmem : (s.setMq v).cwmem = s.cwmem := rfl
@[simp] theorem State.setMq_hostq : (s.setMq v).hostq = s.hostq := rfl
@[simp] theorem State.setMq_csr : (s.setMq v).csr = s.csr := rfl
@[simp] theorem State.setMq_mq : (s.setMq v).mq = v := rfl
@[simp] theorem State.setMq_src : (s.setMq v).src = s.src := rfl
@[simp] theorem State.setMq_bound : (s.setMq v).bound = s.bound := rfl
@[simp] theorem State.setMq_br : (s.setMq v).br = s.br := rfl
@[simp] theorem State.setMq_res : (s.setMq v).res = s.res := rfl
@[simp] theorem State.setMq_cxsel : (s.setMq v).cxsel = s.cxsel := rfl
@[simp] theorem State.setMq_cx : (s.setMq v).cx = s.cx := rfl
@[simp] theorem State.setMq_samp : (s.setMq v).samp = s.samp := rfl
@[simp] theorem State.setMq_cells : (s.setMq v).cells = s.cells := rfl
@[simp] theorem State.setMq_cfg : (s.setMq v).cfg = s.cfg := rfl
@[simp] theorem State.setMq_cur : (s.setMq v).cur = s.cur := rfl
@[simp] theorem State.setMq_st : (s.setMq v).st = s.st := rfl
@[simp] theorem State.setMq_free : (s.setMq v).free = s.free := rfl
end

section
variable (v : Source)
@[simp] theorem State.setSrc_par : (s.setSrc v).par = s.par := rfl
@[simp] theorem State.setSrc_cwmem : (s.setSrc v).cwmem = s.cwmem := rfl
@[simp] theorem State.setSrc_hostq : (s.setSrc v).hostq = s.hostq := rfl
@[simp] theorem State.setSrc_csr : (s.setSrc v).csr = s.csr := rfl
@[simp] theorem State.setSrc_mq : (s.setSrc v).mq = s.mq := rfl
@[simp] theorem State.setSrc_src : (s.setSrc v).src = v := rfl
@[simp] theorem State.setSrc_bound : (s.setSrc v).bound = s.bound := rfl
@[simp] theorem State.setSrc_br : (s.setSrc v).br = s.br := rfl
@[simp] theorem State.setSrc_res : (s.setSrc v).res = s.res := rfl
@[simp] theorem State.setSrc_cxsel : (s.setSrc v).cxsel = s.cxsel := rfl
@[simp] theorem State.setSrc_cx : (s.setSrc v).cx = s.cx := rfl
@[simp] theorem State.setSrc_samp : (s.setSrc v).samp = s.samp := rfl
@[simp] theorem State.setSrc_cells : (s.setSrc v).cells = s.cells := rfl
@[simp] theorem State.setSrc_cfg : (s.setSrc v).cfg = s.cfg := rfl
@[simp] theorem State.setSrc_cur : (s.setSrc v).cur = s.cur := rfl
@[simp] theorem State.setSrc_st : (s.setSrc v).st = s.st := rfl
@[simp] theorem State.setSrc_free : (s.setSrc v).free = s.free := rfl
end

section
variable (v : Bound)
@[simp] theorem State.setBound_par : (s.setBound v).par = s.par := rfl
@[simp] theorem State.setBound_cwmem : (s.setBound v).cwmem = s.cwmem := rfl
@[simp] theorem State.setBound_hostq : (s.setBound v).hostq = s.hostq := rfl
@[simp] theorem State.setBound_csr : (s.setBound v).csr = s.csr := rfl
@[simp] theorem State.setBound_mq : (s.setBound v).mq = s.mq := rfl
@[simp] theorem State.setBound_src : (s.setBound v).src = s.src := rfl
@[simp] theorem State.setBound_bound : (s.setBound v).bound = v := rfl
@[simp] theorem State.setBound_br : (s.setBound v).br = s.br := rfl
@[simp] theorem State.setBound_res : (s.setBound v).res = s.res := rfl
@[simp] theorem State.setBound_cxsel : (s.setBound v).cxsel = s.cxsel := rfl
@[simp] theorem State.setBound_cx : (s.setBound v).cx = s.cx := rfl
@[simp] theorem State.setBound_samp : (s.setBound v).samp = s.samp := rfl
@[simp] theorem State.setBound_cells : (s.setBound v).cells = s.cells := rfl
@[simp] theorem State.setBound_cfg : (s.setBound v).cfg = s.cfg := rfl
@[simp] theorem State.setBound_cur : (s.setBound v).cur = s.cur := rfl
@[simp] theorem State.setBound_st : (s.setBound v).st = s.st := rfl
@[simp] theorem State.setBound_free : (s.setBound v).free = s.free := rfl
end

section
variable (v : BitReader)
@[simp] theorem State.setBr_par : (s.setBr v).par = s.par := rfl
@[simp] theorem State.setBr_cwmem : (s.setBr v).cwmem = s.cwmem := rfl
@[simp] theorem State.setBr_hostq : (s.setBr v).hostq = s.hostq := rfl
@[simp] theorem State.setBr_csr : (s.setBr v).csr = s.csr := rfl
@[simp] theorem State.setBr_mq : (s.setBr v).mq = s.mq := rfl
@[simp] theorem State.setBr_src : (s.setBr v).src = s.src := rfl
@[simp] theorem State.setBr_bound : (s.setBr v).bound = s.bound := rfl
@[simp] theorem State.setBr_br : (s.setBr v).br = v := rfl
@[simp] theorem State.setBr_res : (s.setBr v).res = s.res := rfl
@[simp] theorem State.setBr_cxsel : (s.setBr v).cxsel = s.cxsel := rfl
@[simp] theorem State.setBr_cx : (s.setBr v).cx = s.cx := rfl
@[simp] theorem State.setBr_samp : (s.setBr v).samp = s.samp := rfl
@[simp] theorem State.setBr_cells : (s.setBr v).cells = s.cells := rfl
@[simp] theorem State.setBr_cfg : (s.setBr v).cfg = s.cfg := rfl
@[simp] theorem State.setBr_cur : (s.setBr v).cur = s.cur := rfl
@[simp] theorem State.setBr_st : (s.setBr v).st = s.st := rfl
@[simp] theorem State.setBr_free : (s.setBr v).free = s.free := rfl
end

section
variable (v : Res)
@[simp] theorem State.setRes_par : (s.setRes v).par = s.par := rfl
@[simp] theorem State.setRes_cwmem : (s.setRes v).cwmem = s.cwmem := rfl
@[simp] theorem State.setRes_hostq : (s.setRes v).hostq = s.hostq := rfl
@[simp] theorem State.setRes_csr : (s.setRes v).csr = s.csr := rfl
@[simp] theorem State.setRes_mq : (s.setRes v).mq = s.mq := rfl
@[simp] theorem State.setRes_src : (s.setRes v).src = s.src := rfl
@[simp] theorem State.setRes_bound : (s.setRes v).bound = s.bound := rfl
@[simp] theorem State.setRes_br : (s.setRes v).br = s.br := rfl
@[simp] theorem State.setRes_res : (s.setRes v).res = v := rfl
@[simp] theorem State.setRes_cxsel : (s.setRes v).cxsel = s.cxsel := rfl
@[simp] theorem State.setRes_cx : (s.setRes v).cx = s.cx := rfl
@[simp] theorem State.setRes_samp : (s.setRes v).samp = s.samp := rfl
@[simp] theorem State.setRes_cells : (s.setRes v).cells = s.cells := rfl
@[simp] theorem State.setRes_cfg : (s.setRes v).cfg = s.cfg := rfl
@[simp] theorem State.setRes_cur : (s.setRes v).cur = s.cur := rfl
@[simp] theorem State.setRes_st : (s.setRes v).st = s.st := rfl
@[simp] theorem State.setRes_free : (s.setRes v).free = s.free := rfl
end

section
variable (v : Category)
@[simp] theorem State.setCxsel_par : (s.setCxsel v).par = s.par := rfl
@[simp] theorem State.setCxsel_cwmem : (s.setCxsel v).cwmem = s.cwmem := rfl
@[simp] theorem State.setCxsel_hostq : (s.setCxsel v).hostq = s.hostq := rfl
@[simp] theorem State.setCxsel_csr : (s.setCxsel v).csr = s.csr := rfl
@[simp] theorem State.setCxsel_mq : (s.setCxsel v).mq = s.mq := rfl
@[simp] theorem State.setCxsel_src : (s.setCxsel v).src = s.src := rfl
@[simp] theorem State.setCxsel_bound : (s.setCxsel v).bound = s.bound := rfl
@[simp] theorem State.setCxsel_br : (s.setCxsel v).br = s.br := rfl
@[simp] theorem State.setCxsel_res : (s.setCxsel v).res = s.res := rfl
@[simp] theorem State.setCxsel_cxsel : (s.setCxsel v).cxsel = v := rfl
@[simp] theorem State.setCxsel_cx : (s.setCxsel v).cx = s.cx := rfl
@[simp] theorem State.setCxsel_samp : (s.setCxsel v).samp = s.samp := rfl
@[simp] theorem State.setCxsel_cells : (s.setCxsel v).cells = s.cells := rfl
@[simp] theorem State.setCxsel_cfg : (s.setCxsel v).cfg = s.cfg := rfl
@[simp] theorem State.setCxsel_cur : (s.setCxsel v).cur = s.cur := rfl
@[simp] theorem State.setCxsel_st : (s.setCxsel v).st = s.st := rfl
@[simp] theorem State.setCxsel_free : (s.setCxsel v).free = s.free := rfl
end

section
variable (v : Vector CxEntry Config.numCtx)
@[simp] theorem State.setCx_par : (s.setCx v).par = s.par := rfl
@[simp] theorem State.setCx_cwmem : (s.setCx v).cwmem = s.cwmem := rfl
@[simp] theorem State.setCx_hostq : (s.setCx v).hostq = s.hostq := rfl
@[simp] theorem State.setCx_csr : (s.setCx v).csr = s.csr := rfl
@[simp] theorem State.setCx_mq : (s.setCx v).mq = s.mq := rfl
@[simp] theorem State.setCx_src : (s.setCx v).src = s.src := rfl
@[simp] theorem State.setCx_bound : (s.setCx v).bound = s.bound := rfl
@[simp] theorem State.setCx_br : (s.setCx v).br = s.br := rfl
@[simp] theorem State.setCx_res : (s.setCx v).res = s.res := rfl
@[simp] theorem State.setCx_cxsel : (s.setCx v).cxsel = s.cxsel := rfl
@[simp] theorem State.setCx_cx : (s.setCx v).cx = v := rfl
@[simp] theorem State.setCx_samp : (s.setCx v).samp = s.samp := rfl
@[simp] theorem State.setCx_cells : (s.setCx v).cells = s.cells := rfl
@[simp] theorem State.setCx_cfg : (s.setCx v).cfg = s.cfg := rfl
@[simp] theorem State.setCx_cur : (s.setCx v).cur = s.cur := rfl
@[simp] theorem State.setCx_st : (s.setCx v).st = s.st := rfl
@[simp] theorem State.setCx_free : (s.setCx v).free = s.free := rfl
end

section
variable (v : List (Nat × Word))
@[simp] theorem State.setSamp_par : (s.setSamp v).par = s.par := rfl
@[simp] theorem State.setSamp_cwmem : (s.setSamp v).cwmem = s.cwmem := rfl
@[simp] theorem State.setSamp_hostq : (s.setSamp v).hostq = s.hostq := rfl
@[simp] theorem State.setSamp_csr : (s.setSamp v).csr = s.csr := rfl
@[simp] theorem State.setSamp_mq : (s.setSamp v).mq = s.mq := rfl
@[simp] theorem State.setSamp_src : (s.setSamp v).src = s.src := rfl
@[simp] theorem State.setSamp_bound : (s.setSamp v).bound = s.bound := rfl
@[simp] theorem State.setSamp_br : (s.setSamp v).br = s.br := rfl
@[simp] theorem State.setSamp_res : (s.setSamp v).res = s.res := rfl
@[simp] theorem State.setSamp_cxsel : (s.setSamp v).cxsel = s.cxsel := rfl
@[simp] theorem State.setSamp_cx : (s.setSamp v).cx = s.cx := rfl
@[simp] theorem State.setSamp_samp : (s.setSamp v).samp = v := rfl
@[simp] theorem State.setSamp_cells : (s.setSamp v).cells = s.cells := rfl
@[simp] theorem State.setSamp_cfg : (s.setSamp v).cfg = s.cfg := rfl
@[simp] theorem State.setSamp_cur : (s.setSamp v).cur = s.cur := rfl
@[simp] theorem State.setSamp_st : (s.setSamp v).st = s.st := rfl
@[simp] theorem State.setSamp_free : (s.setSamp v).free = s.free := rfl
end

section
variable (v : List (Nat × SampleFlags))
@[simp] theorem State.setCells_par : (s.setCells v).par = s.par := rfl
@[simp] theorem State.setCells_cwmem : (s.setCells v).cwmem = s.cwmem := rfl
@[simp] theorem State.setCells_hostq : (s.setCells v).hostq = s.hostq := rfl
@[simp] theorem State.setCells_csr : (s.setCells v).csr = s.csr := rfl
@[simp] theorem State.setCells_mq : (s.setCells v).mq = s.mq := rfl
@[simp] theorem State.setCells_src : (s.setCells v).src = s.src := rfl
@[simp] theorem State.setCells_bound : (s.setCells v).bound = s.bound := rfl
@[simp] theorem State.setCells_br : (s.setCells v).br = s.br := rfl
@[simp] theorem State.setCells_res : (s.setCells v).res = s.res := rfl
@[simp] theorem State.setCells_cxsel : (s.setCells v).cxsel = s.cxsel := rfl
@[simp] theorem State.setCells_cx : (s.setCells v).cx = s.cx := rfl
@[simp] theorem State.setCells_samp : (s.setCells v).samp = s.samp := rfl
@[simp] theorem State.setCells_cells : (s.setCells v).cells = v := rfl
@[simp] theorem State.setCells_cfg : (s.setCells v).cfg = s.cfg := rfl
@[simp] theorem State.setCells_cur : (s.setCells v).cur = s.cur := rfl
@[simp] theorem State.setCells_st : (s.setCells v).st = s.st := rfl
@[simp] theorem State.setCells_free : (s.setCells v).free = s.free := rfl
end

section
variable (v : BlockConfig)
@[simp] theorem State.setCfg_par : (s.setCfg v).par = s.par := rfl
@[simp] theorem State.setCfg_cwmem : (s.setCfg v).cwmem = s.cwmem := rfl
@[simp] theorem State.setCfg_hostq : (s.setCfg v).hostq = s.hostq := rfl
@[simp] theorem State.setCfg_csr : (s.setCfg v).csr = s.csr := rfl
@[simp] theorem State.setCfg_mq : (s.setCfg v).mq = s.mq := rfl
@[simp] theorem State.setCfg_src : (s.setCfg v).src = s.src := rfl
@[simp] theorem State.setCfg_bound : (s.setCfg v).bound = s.bound := rfl
@[simp] theorem State.setCfg_br : (s.setCfg v).br = s.br := rfl
@[simp] theorem State.setCfg_res : (s.setCfg v).res = s.res := rfl
@[simp] theorem State.setCfg_cxsel : (s.setCfg v).cxsel = s.cxsel := rfl
@[simp] theorem State.setCfg_cx : (s.setCfg v).cx = s.cx := rfl
@[simp] theorem State.setCfg_samp : (s.setCfg v).samp = s.samp := rfl
@[simp] theorem State.setCfg_cells : (s.setCfg v).cells = s.cells := rfl
@[simp] theorem State.setCfg_cfg : (s.setCfg v).cfg = v := rfl
@[simp] theorem State.setCfg_cur : (s.setCfg v).cur = s.cur := rfl
@[simp] theorem State.setCfg_st : (s.setCfg v).st = s.st := rfl
@[simp] theorem State.setCfg_free : (s.setCfg v).free = s.free := rfl
end

section
variable (v : Cursor)
@[simp] theorem State.setCur_par : (s.setCur v).par = s.par := rfl
@[simp] theorem State.setCur_cwmem : (s.setCur v).cwmem = s.cwmem := rfl
@[simp] theorem State.setCur_hostq : (s.setCur v).hostq = s.hostq := rfl
@[simp] theorem State.setCur_csr : (s.setCur v).csr = s.csr := rfl
@[simp] theorem State.setCur_mq : (s.setCur v).mq = s.mq := rfl
@[simp] theorem State.setCur_src : (s.setCur v).src = s.src := rfl
@[simp] theorem State.setCur_bound : (s.setCur v).bound = s.bound := rfl
@[simp] theorem State.setCur_br : (s.setCur v).br = s.br := rfl
@[simp] theorem State.setCur_res : (s.setCur v).res = s.res := rfl
@[simp] theorem State.setCur_cxsel : (s.setCur v).cxsel = s.cxsel := rfl
@[simp] theorem State.setCur_cx : (s.setCur v).cx = s.cx := rfl
@[simp] theorem State.setCur_samp : (s.setCur v).samp = s.samp := rfl
@[simp] theorem State.setCur_cells : (s.setCur v).cells = s.cells := rfl
@[simp] theorem State.setCur_cfg : (s.setCur v).cfg = s.cfg := rfl
@[simp] theorem State.setCur_cur : (s.setCur v).cur = v := rfl
@[simp] theorem State.setCur_st : (s.setCur v).st = s.st := rfl
@[simp] theorem State.setCur_free : (s.setCur v).free = s.free := rfl
end

section
variable (v : BlockStatus)
@[simp] theorem State.setSt_par : (s.setSt v).par = s.par := rfl
@[simp] theorem State.setSt_cwmem : (s.setSt v).cwmem = s.cwmem := rfl
@[simp] theorem State.setSt_hostq : (s.setSt v).hostq = s.hostq := rfl
@[simp] theorem State.setSt_csr : (s.setSt v).csr = s.csr := rfl
@[simp] theorem State.setSt_mq : (s.setSt v).mq = s.mq := rfl
@[simp] theorem State.setSt_src : (s.setSt v).src = s.src := rfl
@[simp] theorem State.setSt_bound : (s.setSt v).bound = s.bound := rfl
@[simp] theorem State.setSt_br : (s.setSt v).br = s.br := rfl
@[simp] theorem State.setSt_res : (s.setSt v).res = s.res := rfl
@[simp] theorem State.setSt_cxsel : (s.setSt v).cxsel = s.cxsel := rfl
@[simp] theorem State.setSt_cx : (s.setSt v).cx = s.cx := rfl
@[simp] theorem State.setSt_samp : (s.setSt v).samp = s.samp := rfl
@[simp] theorem State.setSt_cells : (s.setSt v).cells = s.cells := rfl
@[simp] theorem State.setSt_cfg : (s.setSt v).cfg = s.cfg := rfl
@[simp] theorem State.setSt_cur : (s.setSt v).cur = s.cur := rfl
@[simp] theorem State.setSt_st : (s.setSt v).st = v := rfl
@[simp] theorem State.setSt_free : (s.setSt v).free = s.free := rfl
end

section
variable (v : FreeMarks)
@[simp] theorem State.setFree_par : (s.setFree v).par = s.par := rfl
@[simp] theorem State.setFree_cwmem : (s.setFree v).cwmem = s.cwmem := rfl
@[simp] theorem State.setFree_hostq : (s.setFree v).hostq = s.hostq := rfl
@[simp] theorem State.setFree_csr : (s.setFree v).csr = s.csr := rfl
@[simp] theorem State.setFree_mq : (s.setFree v).mq = s.mq := rfl
@[simp] theorem State.setFree_src : (s.setFree v).src = s.src := rfl
@[simp] theorem State.setFree_bound : (s.setFree v).bound = s.bound := rfl
@[simp] theorem State.setFree_br : (s.setFree v).br = s.br := rfl
@[simp] theorem State.setFree_res : (s.setFree v).res = s.res := rfl
@[simp] theorem State.setFree_cxsel : (s.setFree v).cxsel = s.cxsel := rfl
@[simp] theorem State.setFree_cx : (s.setFree v).cx = s.cx := rfl
@[simp] theorem State.setFree_samp : (s.setFree v).samp = s.samp := rfl
@[simp] theorem State.setFree_cells : (s.setFree v).cells = s.cells := rfl
@[simp] theorem State.setFree_cfg : (s.setFree v).cfg = s.cfg := rfl
@[simp] theorem State.setFree_cur : (s.setFree v).cur = s.cur := rfl
@[simp] theorem State.setFree_st : (s.setFree v).st = s.st := rfl
@[simp] theorem State.setFree_free : (s.setFree v).free = v := rfl
end

end Sys2Proof.Machine
end

