-- ==== Sys2Proof/Laws/Composed.lean ====
section
/-! SUPPORT. What each composed writer of the state leaves alone, one lemma for each field, so that no later proof
unfolds it. -/

namespace Sys2Proof.Machine

variable (s : State)

section
@[simp] theorem State.resetContexts_par : s.resetContexts.par = s.par := rfl
@[simp] theorem State.resetContexts_cwmem : s.resetContexts.cwmem = s.cwmem := rfl
@[simp] theorem State.resetContexts_hostq : s.resetContexts.hostq = s.hostq := rfl
@[simp] theorem State.resetContexts_csr : s.resetContexts.csr = s.csr := rfl
@[simp] theorem State.resetContexts_mq : s.resetContexts.mq = s.mq := rfl
@[simp] theorem State.resetContexts_src : s.resetContexts.src = s.src := rfl
@[simp] theorem State.resetContexts_bound : s.resetContexts.bound = s.bound := rfl
@[simp] theorem State.resetContexts_br : s.resetContexts.br = s.br := rfl
@[simp] theorem State.resetContexts_res : s.resetContexts.res = s.res := rfl
@[simp] theorem State.resetContexts_samp : s.resetContexts.samp = s.samp := rfl
@[simp] theorem State.resetContexts_cells : s.resetContexts.cells = s.cells := rfl
@[simp] theorem State.resetContexts_cfg : s.resetContexts.cfg = s.cfg := rfl
@[simp] theorem State.resetContexts_cur : s.resetContexts.cur = s.cur := rfl
@[simp] theorem State.resetContexts_st : s.resetContexts.st = s.st := rfl
@[simp] theorem State.resetContexts_free : s.resetContexts.free = s.free := rfl
end

section
variable (base len : Word) (b : Bound)
@[simp] theorem State.bindSource_par : (s.bindSource base len b).par = s.par := rfl
@[simp] theorem State.bindSource_cwmem : (s.bindSource base len b).cwmem = s.cwmem := rfl
@[simp] theorem State.bindSource_hostq : (s.bindSource base len b).hostq = s.hostq := rfl
@[simp] theorem State.bindSource_csr : (s.bindSource base len b).csr = s.csr := rfl
@[simp] theorem State.bindSource_mq : (s.bindSource base len b).mq = s.mq := rfl
@[simp] theorem State.bindSource_br : (s.bindSource base len b).br = s.br := rfl
@[simp] theorem State.bindSource_res : (s.bindSource base len b).res = s.res := rfl
@[simp] theorem State.bindSource_cxsel : (s.bindSource base len b).cxsel = s.cxsel := rfl
@[simp] theorem State.bindSource_cx : (s.bindSource base len b).cx = s.cx := rfl
@[simp] theorem State.bindSource_samp : (s.bindSource base len b).samp = s.samp := rfl
@[simp] theorem State.bindSource_cells : (s.bindSource base len b).cells = s.cells := rfl
@[simp] theorem State.bindSource_cfg : (s.bindSource base len b).cfg = s.cfg := rfl
@[simp] theorem State.bindSource_cur : (s.bindSource base len b).cur = s.cur := rfl
@[simp] theorem State.bindSource_st : (s.bindSource base len b).st = s.st := rfl
@[simp] theorem State.bindSource_free : (s.bindSource base len b).free = s.free := rfl
end

section
variable (mode : Bool)
@[simp] theorem State.bindReader_par : (s.bindReader mode).par = s.par := rfl
@[simp] theorem State.bindReader_cwmem : (s.bindReader mode).cwmem = s.cwmem := rfl
@[simp] theorem State.bindReader_hostq : (s.bindReader mode).hostq = s.hostq := rfl
@[simp] theorem State.bindReader_csr : (s.bindReader mode).csr = s.csr := rfl
@[simp] theorem State.bindReader_mq : (s.bindReader mode).mq = s.mq := rfl
@[simp] theorem State.bindReader_res : (s.bindReader mode).res = s.res := rfl
@[simp] theorem State.bindReader_cxsel : (s.bindReader mode).cxsel = s.cxsel := rfl
@[simp] theorem State.bindReader_cx : (s.bindReader mode).cx = s.cx := rfl
@[simp] theorem State.bindReader_samp : (s.bindReader mode).samp = s.samp := rfl
@[simp] theorem State.bindReader_cells : (s.bindReader mode).cells = s.cells := rfl
@[simp] theorem State.bindReader_cfg : (s.bindReader mode).cfg = s.cfg := rfl
@[simp] theorem State.bindReader_cur : (s.bindReader mode).cur = s.cur := rfl
@[simp] theorem State.bindReader_st : (s.bindReader mode).st = s.st := rfl
end

section
@[simp] theorem State.latchBlock_par : s.latchBlock.par = s.par := rfl
@[simp] theorem State.latchBlock_cwmem : s.latchBlock.cwmem = s.cwmem := rfl
@[simp] theorem State.latchBlock_hostq : s.latchBlock.hostq = s.hostq := rfl
@[simp] theorem State.latchBlock_csr : s.latchBlock.csr = s.csr := rfl
@[simp] theorem State.latchBlock_mq : s.latchBlock.mq = s.mq := rfl
@[simp] theorem State.latchBlock_src : s.latchBlock.src = s.src := rfl
@[simp] theorem State.latchBlock_bound : s.latchBlock.bound = s.bound := rfl
@[simp] theorem State.latchBlock_br : s.latchBlock.br = s.br := rfl
@[simp] theorem State.latchBlock_res : s.latchBlock.res = s.res := rfl
@[simp] theorem State.latchBlock_cxsel : s.latchBlock.cxsel = s.cxsel := rfl
@[simp] theorem State.latchBlock_cx : s.latchBlock.cx = s.cx := rfl
@[simp] theorem State.latchBlock_samp : s.latchBlock.samp = s.samp := rfl
@[simp] theorem State.latchBlock_cells : s.latchBlock.cells = s.cells := rfl
@[simp] theorem State.latchBlock_cur : s.latchBlock.cur = s.cur := rfl
@[simp] theorem State.latchBlock_free : s.latchBlock.free = s.free := rfl
end

section
@[simp] theorem State.freshBlock_par : s.freshBlock.par = s.par := rfl
@[simp] theorem State.freshBlock_cwmem : s.freshBlock.cwmem = s.cwmem := rfl
@[simp] theorem State.freshBlock_hostq : s.freshBlock.hostq = s.hostq := rfl
@[simp] theorem State.freshBlock_csr : s.freshBlock.csr = s.csr := rfl
@[simp] theorem State.freshBlock_mq : s.freshBlock.mq = s.mq := rfl
@[simp] theorem State.freshBlock_br : s.freshBlock.br = s.br := rfl
@[simp] theorem State.freshBlock_res : s.freshBlock.res = s.res := rfl
@[simp] theorem State.freshBlock_cfg : s.freshBlock.cfg = s.cfg := rfl
end

section
variable (k : Category) (e : CxEntry)
@[simp] theorem State.setCtx_par : (s.setCtx k e).par = s.par := rfl
@[simp] theorem State.setCtx_cwmem : (s.setCtx k e).cwmem = s.cwmem := rfl
@[simp] theorem State.setCtx_hostq : (s.setCtx k e).hostq = s.hostq := rfl
@[simp] theorem State.setCtx_csr : (s.setCtx k e).csr = s.csr := rfl
@[simp] theorem State.setCtx_mq : (s.setCtx k e).mq = s.mq := rfl
@[simp] theorem State.setCtx_src : (s.setCtx k e).src = s.src := rfl
@[simp] theorem State.setCtx_bound : (s.setCtx k e).bound = s.bound := rfl
@[simp] theorem State.setCtx_br : (s.setCtx k e).br = s.br := rfl
@[simp] theorem State.setCtx_res : (s.setCtx k e).res = s.res := rfl
@[simp] theorem State.setCtx_cxsel : (s.setCtx k e).cxsel = s.cxsel := rfl
@[simp] theorem State.setCtx_samp : (s.setCtx k e).samp = s.samp := rfl
@[simp] theorem State.setCtx_cells : (s.setCtx k e).cells = s.cells := rfl
@[simp] theorem State.setCtx_cfg : (s.setCtx k e).cfg = s.cfg := rfl
@[simp] theorem State.setCtx_cur : (s.setCtx k e).cur = s.cur := rfl
@[simp] theorem State.setCtx_st : (s.setCtx k e).st = s.st := rfl
@[simp] theorem State.setCtx_free : (s.setCtx k e).free = s.free := rfl
end

section
variable (x y : Nat) (f : SampleFlags)
@[simp] theorem State.setCell_par : (s.setCell x y f).par = s.par := rfl
@[simp] theorem State.setCell_cwmem : (s.setCell x y f).cwmem = s.cwmem := rfl
@[simp] theorem State.setCell_hostq : (s.setCell x y f).hostq = s.hostq := rfl
@[simp] theorem State.setCell_csr : (s.setCell x y f).csr = s.csr := rfl
@[simp] theorem State.setCell_mq : (s.setCell x y f).mq = s.mq := rfl
@[simp] theorem State.setCell_src : (s.setCell x y f).src = s.src := rfl
@[simp] theorem State.setCell_bound : (s.setCell x y f).bound = s.bound := rfl
@[simp] theorem State.setCell_br : (s.setCell x y f).br = s.br := rfl
@[simp] theorem State.setCell_res : (s.setCell x y f).res = s.res := rfl
@[simp] theorem State.setCell_cxsel : (s.setCell x y f).cxsel = s.cxsel := rfl
@[simp] theorem State.setCell_cx : (s.setCell x y f).cx = s.cx := rfl
@[simp] theorem State.setCell_samp : (s.setCell x y f).samp = s.samp := rfl
@[simp] theorem State.setCell_cfg : (s.setCell x y f).cfg = s.cfg := rfl
@[simp] theorem State.setCell_cur : (s.setCell x y f).cur = s.cur := rfl
@[simp] theorem State.setCell_st : (s.setCell x y f).st = s.st := rfl
@[simp] theorem State.setCell_free : (s.setCell x y f).free = s.free := rfl
end

section
variable (x y : Nat) (v : Word)
@[simp] theorem State.sampWrite_par : (s.sampWrite x y v).par = s.par := rfl
@[simp] theorem State.sampWrite_cwmem : (s.sampWrite x y v).cwmem = s.cwmem := rfl
@[simp] theorem State.sampWrite_hostq : (s.sampWrite x y v).hostq = s.hostq := rfl
@[simp] theorem State.sampWrite_csr : (s.sampWrite x y v).csr = s.csr := rfl
@[simp] theorem State.sampWrite_mq : (s.sampWrite x y v).mq = s.mq := rfl
@[simp] theorem State.sampWrite_src : (s.sampWrite x y v).src = s.src := rfl
@[simp] theorem State.sampWrite_bound : (s.sampWrite x y v).bound = s.bound := rfl
@[simp] theorem State.sampWrite_br : (s.sampWrite x y v).br = s.br := rfl
@[simp] theorem State.sampWrite_res : (s.sampWrite x y v).res = s.res := rfl
@[simp] theorem State.sampWrite_cxsel : (s.sampWrite x y v).cxsel = s.cxsel := rfl
@[simp] theorem State.sampWrite_cx : (s.sampWrite x y v).cx = s.cx := rfl
@[simp] theorem State.sampWrite_cells : (s.sampWrite x y v).cells = s.cells := rfl
@[simp] theorem State.sampWrite_cfg : (s.sampWrite x y v).cfg = s.cfg := rfl
@[simp] theorem State.sampWrite_cur : (s.sampWrite x y v).cur = s.cur := rfl
@[simp] theorem State.sampWrite_st : (s.sampWrite x y v).st = s.st := rfl
@[simp] theorem State.sampWrite_free : (s.sampWrite x y v).free = s.free := rfl
end

section
variable (x y : Nat)
@[simp] theorem State.setVis_par : (s.setVis x y).par = s.par := rfl
@[simp] theorem State.setVis_cwmem : (s.setVis x y).cwmem = s.cwmem := rfl
@[simp] theorem State.setVis_hostq : (s.setVis x y).hostq = s.hostq := rfl
@[simp] theorem State.setVis_csr : (s.setVis x y).csr = s.csr := rfl
@[simp] theorem State.setVis_mq : (s.setVis x y).mq = s.mq := rfl
@[simp] theorem State.setVis_src : (s.setVis x y).src = s.src := rfl
@[simp] theorem State.setVis_bound : (s.setVis x y).bound = s.bound := rfl
@[simp] theorem State.setVis_br : (s.setVis x y).br = s.br := rfl
@[simp] theorem State.setVis_res : (s.setVis x y).res = s.res := rfl
@[simp] theorem State.setVis_cxsel : (s.setVis x y).cxsel = s.cxsel := rfl
@[simp] theorem State.setVis_cx : (s.setVis x y).cx = s.cx := rfl
@[simp] theorem State.setVis_samp : (s.setVis x y).samp = s.samp := rfl
@[simp] theorem State.setVis_cfg : (s.setVis x y).cfg = s.cfg := rfl
@[simp] theorem State.setVis_cur : (s.setVis x y).cur = s.cur := rfl
@[simp] theorem State.setVis_st : (s.setVis x y).st = s.st := rfl
@[simp] theorem State.setVis_free : (s.setVis x y).free = s.free := rfl
end

section
variable (x y p : Nat) (sgn : Bool)
@[simp] theorem State.setSig_par : (s.setSig x y p sgn).par = s.par := rfl
@[simp] theorem State.setSig_cwmem : (s.setSig x y p sgn).cwmem = s.cwmem := rfl
@[simp] theorem State.setSig_hostq : (s.setSig x y p sgn).hostq = s.hostq := rfl
@[simp] theorem State.setSig_csr : (s.setSig x y p sgn).csr = s.csr := rfl
@[simp] theorem State.setSig_mq : (s.setSig x y p sgn).mq = s.mq := rfl
@[simp] theorem State.setSig_src : (s.setSig x y p sgn).src = s.src := rfl
@[simp] theorem State.setSig_bound : (s.setSig x y p sgn).bound = s.bound := rfl
@[simp] theorem State.setSig_br : (s.setSig x y p sgn).br = s.br := rfl
@[simp] theorem State.setSig_res : (s.setSig x y p sgn).res = s.res := rfl
@[simp] theorem State.setSig_cxsel : (s.setSig x y p sgn).cxsel = s.cxsel := rfl
@[simp] theorem State.setSig_cx : (s.setSig x y p sgn).cx = s.cx := rfl
@[simp] theorem State.setSig_cfg : (s.setSig x y p sgn).cfg = s.cfg := rfl
@[simp] theorem State.setSig_cur : (s.setSig x y p sgn).cur = s.cur := rfl
@[simp] theorem State.setSig_st : (s.setSig x y p sgn).st = s.st := rfl
@[simp] theorem State.setSig_free : (s.setSig x y p sgn).free = s.free := rfl
end

section
variable (x y p : Nat) (d : Bool)
@[simp] theorem State.refine_par : (s.refine x y p d).par = s.par := rfl
@[simp] theorem State.refine_cwmem : (s.refine x y p d).cwmem = s.cwmem := rfl
@[simp] theorem State.refine_hostq : (s.refine x y p d).hostq = s.hostq := rfl
@[simp] theorem State.refine_csr : (s.refine x y p d).csr = s.csr := rfl
@[simp] theorem State.refine_mq : (s.refine x y p d).mq = s.mq := rfl
@[simp] theorem State.refine_src : (s.refine x y p d).src = s.src := rfl
@[simp] theorem State.refine_bound : (s.refine x y p d).bound = s.bound := rfl
@[simp] theorem State.refine_br : (s.refine x y p d).br = s.br := rfl
@[simp] theorem State.refine_res : (s.refine x y p d).res = s.res := rfl
@[simp] theorem State.refine_cxsel : (s.refine x y p d).cxsel = s.cxsel := rfl
@[simp] theorem State.refine_cx : (s.refine x y p d).cx = s.cx := rfl
@[simp] theorem State.refine_cfg : (s.refine x y p d).cfg = s.cfg := rfl
@[simp] theorem State.refine_cur : (s.refine x y p d).cur = s.cur := rfl
@[simp] theorem State.refine_st : (s.refine x y p d).st = s.st := rfl
@[simp] theorem State.refine_free : (s.refine x y p d).free = s.free := rfl
end

section
@[simp] theorem State.clearVis_par : s.clearVis.par = s.par := rfl
@[simp] theorem State.clearVis_cwmem : s.clearVis.cwmem = s.cwmem := rfl
@[simp] theorem State.clearVis_hostq : s.clearVis.hostq = s.hostq := rfl
@[simp] theorem State.clearVis_csr : s.clearVis.csr = s.csr := rfl
@[simp] theorem State.clearVis_mq : s.clearVis.mq = s.mq := rfl
@[simp] theorem State.clearVis_src : s.clearVis.src = s.src := rfl
@[simp] theorem State.clearVis_bound : s.clearVis.bound = s.bound := rfl
@[simp] theorem State.clearVis_br : s.clearVis.br = s.br := rfl
@[simp] theorem State.clearVis_res : s.clearVis.res = s.res := rfl
@[simp] theorem State.clearVis_cxsel : s.clearVis.cxsel = s.cxsel := rfl
@[simp] theorem State.clearVis_cx : s.clearVis.cx = s.cx := rfl
@[simp] theorem State.clearVis_samp : s.clearVis.samp = s.samp := rfl
@[simp] theorem State.clearVis_cfg : s.clearVis.cfg = s.cfg := rfl
@[simp] theorem State.clearVis_cur : s.clearVis.cur = s.cur := rfl
@[simp] theorem State.clearVis_st : s.clearVis.st = s.st := rfl
@[simp] theorem State.clearVis_free : s.clearVis.free = s.free := rfl
end

section
variable (kind : PassKind) (p : BitVec 5) (raw : Bool)
@[simp] theorem State.advance_par : (s.advance kind p raw).par = s.par := rfl
@[simp] theorem State.advance_cwmem : (s.advance kind p raw).cwmem = s.cwmem := rfl
@[simp] theorem State.advance_hostq : (s.advance kind p raw).hostq = s.hostq := rfl
@[simp] theorem State.advance_csr : (s.advance kind p raw).csr = s.csr := rfl
@[simp] theorem State.advance_mq : (s.advance kind p raw).mq = s.mq := rfl
@[simp] theorem State.advance_src : (s.advance kind p raw).src = s.src := rfl
@[simp] theorem State.advance_bound : (s.advance kind p raw).bound = s.bound := rfl
@[simp] theorem State.advance_br : (s.advance kind p raw).br = s.br := rfl
@[simp] theorem State.advance_res : (s.advance kind p raw).res = s.res := rfl
@[simp] theorem State.advance_cxsel : (s.advance kind p raw).cxsel = s.cxsel := rfl
@[simp] theorem State.advance_cx : (s.advance kind p raw).cx = s.cx := rfl
@[simp] theorem State.advance_samp : (s.advance kind p raw).samp = s.samp := rfl
@[simp] theorem State.advance_cells : (s.advance kind p raw).cells = s.cells := rfl
@[simp] theorem State.advance_cfg : (s.advance kind p raw).cfg = s.cfg := rfl
@[simp] theorem State.advance_st : (s.advance kind p raw).st = s.st := rfl
@[simp] theorem State.advance_free : (s.advance kind p raw).free = s.free := rfl
end

end Sys2Proof.Machine
end

