-- ==== Sys2Proof/Laws/Act.lean ====
section
/-! SUPPORT. Stretches of pseudocode: how a sequence and a loop complete, raise and keep things; what the latch and the
prologue can do. -/

namespace Sys2Proof.Machine

variable {α β γ : Type}

/-- The state a stretch of pseudocode leaves, whether it completes or raises. -/
def Act.state (m : Act α) : State :=
  match m with
  | .done _ s => s
  | .raised _ s => s

@[simp] theorem Act.state_done (a : α) (s : State) : (Act.done a s).state = s := rfl
@[simp] theorem Act.state_raised (e : Err) (s : State) : (Act.raised e s : Act α).state = s := rfl
@[simp] theorem Act.bind_done (a : α) (s : State) (f : α → State → Act β) : (Act.done a s).bind f = f a s := rfl
@[simp] theorem Act.bind_raised (e : Err) (s : State) (f : α → State → Act β) :
    (Act.raised e s : Act α).bind f = .raised e s := rfl

theorem Act.bind_eq_done {m : Act α} {f : α → State → Act β} {b : β} {t : State} :
    m.bind f = .done b t ↔ ∃ a s, m = .done a s ∧ f a s = .done b t := by
  cases m <;> simp

theorem Act.bind_eq_raised {m : Act α} {f : α → State → Act β} {e : Err} {t : State} :
    m.bind f = .raised e t ↔ m = .raised e t ∨ ∃ a s, m = .done a s ∧ f a s = .raised e t := by
  cases m <;> simp

/-- A sequence keeps what both its parts keep. -/
theorem Act.keeps_bind (π : State → γ) {m : Act α} {f : α → State → Act β} {c : γ} (hm : π m.state = c)
    (hf : ∀ a s, π (f a s).state = π s) : π (m.bind f).state = c := by
  cases m with
  | done a s => exact (hf a s).trans hm
  | raised e s => exact hm

/-- A sequence keeps a property that both its parts keep. -/
theorem Act.inv_bind (P : State → Prop) {m : Act α} {f : α → State → Act β} (hm : P m.state)
    (hf : ∀ a s, m = .done a s → P s → P (f a s).state) : P (m.bind f).state := by
  cases m with
  | done a s => exact hf a s rfl hm
  | raised e s => exact hm

/-- A loop keeps what its body keeps. -/
theorem forEach_keeps (π : State → γ) {f : β → State → Act Unit} (h : ∀ b s, π (f b s).state = π s) (l : List β)
    (s : State) : π (forEach f l s).state = π s := by
  induction l generalizing s with
  | nil => rfl
  | cons b bs ih => exact Act.keeps_bind π (h b s) fun _ t => ih t

/-- A loop keeps a property that its body keeps. -/
theorem forEach_inv (P : State → Prop) {f : β → State → Act Unit} {l : List β}
    (h : ∀ b ∈ l, ∀ s, P s → P (f b s).state) {s : State} (hs : P s) : P (forEach f l s).state := by
  induction l generalizing s with
  | nil => exact hs
  | cons b bs ih =>
    exact Act.inv_bind P (h b List.mem_cons_self s hs) fun _ t _ ht =>
      ih (fun c hc => h c (List.mem_cons_of_mem _ hc)) ht

/-- A loop whose body always completes, from states with a property it keeps, completes. -/
theorem forEach_done (P : State → Prop) {f : β → State → Act Unit} {l : List β}
    (h : ∀ b ∈ l, ∀ s, P s → ∃ t, f b s = .done () t ∧ P t) {s : State} (hs : P s) :
    ∃ t, forEach f l s = .done () t ∧ P t := by
  induction l generalizing s with
  | nil => exact ⟨s, rfl, hs⟩
  | cons b bs ih =>
    obtain ⟨t, ht, hP⟩ := h b List.mem_cons_self s hs
    obtain ⟨u, hu, hPu⟩ := ih (fun c hc => h c (List.mem_cons_of_mem _ hc)) hP
    exact ⟨u, by simp [forEach, ht, hu], hPu⟩

theorem forEach_append {f : β → State → Act Unit} (l₁ l₂ : List β) (s : State) :
    forEach f (l₁ ++ l₂) s = (forEach f l₁ s).bind fun _ t => forEach f l₂ t := by
  induction l₁ generalizing s with
  | nil => rfl
  | cons b bs ih =>
    simp only [List.cons_append, forEach]
    cases f b s <;> simp [ih]

/-! ## The latch -/

section
variable (s : State) (e : Err)

/-- The latch writes nothing but the status flags and the free-value marks. -/
theorem State.latch_eq : s.latch e = (s.setSt (s.latch e).st).setFree (s.latch e).free := by
  unfold State.latch; split <;> rfl

@[simp] theorem State.latch_par : (s.latch e).par = s.par := by rw [State.latch_eq]; rfl
@[simp] theorem State.latch_cwmem : (s.latch e).cwmem = s.cwmem := by rw [State.latch_eq]; rfl
@[simp] theorem State.latch_hostq : (s.latch e).hostq = s.hostq := by rw [State.latch_eq]; rfl
@[simp] theorem State.latch_csr : (s.latch e).csr = s.csr := by rw [State.latch_eq]; rfl
@[simp] theorem State.latch_mq : (s.latch e).mq = s.mq := by rw [State.latch_eq]; rfl
@[simp] theorem State.latch_src : (s.latch e).src = s.src := by rw [State.latch_eq]; rfl
@[simp] theorem State.latch_bound : (s.latch e).bound = s.bound := by rw [State.latch_eq]; rfl
@[simp] theorem State.latch_br : (s.latch e).br = s.br := by rw [State.latch_eq]; rfl
@[simp] theorem State.latch_res : (s.latch e).res = s.res := by rw [State.latch_eq]; rfl
@[simp] theorem State.latch_cxsel : (s.latch e).cxsel = s.cxsel := by rw [State.latch_eq]; rfl
@[simp] theorem State.latch_cx : (s.latch e).cx = s.cx := by rw [State.latch_eq]; rfl
@[simp] theorem State.latch_samp : (s.latch e).samp = s.samp := by rw [State.latch_eq]; rfl
@[simp] theorem State.latch_cells : (s.latch e).cells = s.cells := by rw [State.latch_eq]; rfl
@[simp] theorem State.latch_cfg : (s.latch e).cfg = s.cfg := by rw [State.latch_eq]; rfl
@[simp] theorem State.latch_cur : (s.latch e).cur = s.cur := by rw [State.latch_eq]; rfl

@[simp] theorem State.latch_error : (s.latch e).st.error = true := by
  unfold State.latch; split <;> simp_all

@[simp] theorem State.latch_started : (s.latch e).st.started = s.st.started := by
  unfold State.latch; split <;> rfl

@[simp] theorem State.latch_finished : (s.latch e).st.finished = s.st.finished := by
  unfold State.latch; split <;> rfl

@[simp] theorem State.latch_free_zeroed : (s.latch e).free.zeroed = s.free.zeroed := by
  unfold State.latch; split <;> rfl

/-- The first error is latched (60_exceptions.md R342). -/
theorem State.latch_of_safe (h : s.st.error = false) :
    s.latch e = (s.setSt { s.st with error := true, errCode := e.code }).setFree
      { s.free with mq := true, br := true } := by
  simp [State.latch, h]

/-- A later error changes nothing (60_exceptions.md R342). -/
theorem State.latch_of_error (h : s.st.error = true) : s.latch e = s := by
  simp [State.latch, h]

end

/-- Every code of an error is one of 1..11 (60_exceptions.md R341). -/
theorem Err.code_range (e : Err) : 1 ≤ e.code.toNat ∧ e.code.toNat ≤ 11 := by cases e <;> decide

/-! ## The end of a command and the prologue -/

@[simp] theorem Act.outcome_done (a : Unit) (s : State) : (Act.done a s).outcome = .next s := rfl
@[simp] theorem Act.outcome_raised (e : Err) (s : State) :
    (Act.raised e s : Act Unit).outcome = .next (s.latch e) := rfl

/-- The end of a command is a next state: the state the pseudocode left, with the error latched if it raised one. -/
theorem Act.outcome_cases {m : Act Unit} {t : State} (h : m.outcome = .next t) :
    m = .done () t ∨ ∃ e u, m = .raised e u ∧ t = u.latch e := by
  cases m with
  | done a s => simp only [Act.outcome_done, Host.Outcome.next.injEq] at h; exact .inl (by rw [h])
  | raised e s => simp only [Act.outcome_raised, Host.Outcome.next.injEq] at h; exact .inr ⟨e, s, rfl, h.symm⟩

theorem Act.outcome_next (m : Act Unit) : ∃ t, m.outcome = .next t := by
  cases m <;> simp

/-- All a command can do: raise IllegalCommand, be suppressed, complete, or raise an error. -/
theorem runCommand_cases {legal always : Bool} {body : State → Act Unit} {s t : State}
    (h : runCommand legal always body s = .next t) :
    (legal = false ∧ t = s.latch .illegalCommand) ∨
    (legal = true ∧ s.st.error = true ∧ always = false ∧ t = s) ∨
    (legal = true ∧ (s.st.error = false ∨ always = true) ∧
      (body s = .done () t ∨ ∃ e u, body s = .raised e u ∧ t = u.latch e)) := by
  unfold runCommand at h
  split at h
  · exact .inl ⟨‹_›, by simpa using h.symm⟩
  · split at h
    · rename_i h1 h2
      exact .inr (.inl ⟨by simpa using h1, h2.1, h2.2, by simpa using h.symm⟩)
    · rename_i h1 h2
      refine .inr (.inr ⟨by simpa using h1, ?_, Act.outcome_cases h⟩)
      cases hs : s.st.error <;> cases always <;> simp_all

/-- A command always has a next state (60_exceptions.md R340). -/
theorem runCommand_next (legal always : Bool) (body : State → Act Unit) (s : State) :
    ∃ t, runCommand legal always body s = .next t := by
  unfold runCommand
  split
  · exact ⟨_, rfl⟩
  · split
    · exact ⟨_, rfl⟩
    · exact Act.outcome_next _

/-- A legal command with no error latched runs its own steps. -/
theorem runCommand_safe {always : Bool} {body : State → Act Unit} {s : State} (h : s.st.error = false) :
    runCommand true always body s = (body s).outcome := by
  simp [runCommand, h]

/-- A command that always runs, runs its own steps. -/
theorem runCommand_always {body : State → Act Unit} {s : State} :
    runCommand true true body s = (body s).outcome := by
  simp [runCommand]

/-- What a command's steps, the latch included, keep, the command keeps. -/
theorem runCommand_keeps (π : State → γ) {legal always : Bool} {body : State → Act Unit} {s t : State}
    (h : runCommand legal always body s = .next t) (hl : ∀ (u : State) e, π (u.latch e) = π u)
    (hb : π (body s).state = π s) : π t = π s := by
  rcases runCommand_cases h with ⟨-, rfl⟩ | ⟨-, -, -, rfl⟩ | ⟨-, -, hd | ⟨e, u, hr, rfl⟩⟩
  · exact hl _ _
  · rfl
  · rw [hd] at hb; exact hb
  · rw [hr] at hb; exact (hl _ _).trans hb

end Sys2Proof.Machine
end

