-- ==== Sys2Proof/Laws/Source.lean ====
section
/-! SUPPORT. The byte source: logical indices, what a fetch can do, and when it completes. -/

namespace Sys2Proof.Machine

variable {γ : Type}

/-- A logical index has an address exactly below the total (20_memory.md R74). -/
theorem srcAddr_eq_none_iff {rs : List (Word × Word)} {i : Nat} : srcAddr rs i = none ↔ srcTotal rs ≤ i := by
  induction rs generalizing i with
  | nil => simp [srcAddr, srcTotal]
  | cons r rs ih =>
    obtain ⟨b, l⟩ := r
    simp only [srcAddr, srcTotal]
    split
    · simp; omega
    · rw [ih]; omega

theorem srcAddr_isSome_of_lt {rs : List (Word × Word)} {i : Nat} (h : i < srcTotal rs) : ∃ a, srcAddr rs i = some a := by
  cases ha : srcAddr rs i with
  | none => have := srcAddr_eq_none_iff.1 ha; omega
  | some a => exact ⟨a, rfl⟩

theorem srcTotal_append (rs qs : List (Word × Word)) : srcTotal (rs ++ qs) = srcTotal rs + srcTotal qs := by
  induction rs with
  | nil => simp [srcTotal]
  | cons r rs ih => obtain ⟨b, l⟩ := r; simp [srcTotal, ih, Nat.add_assoc]

/-- A fetch of a byte of CWMEM (20_memory.md R75, first case). -/
theorem fetchByte_real {s : State} {a : Nat} (h : srcAddr s.src.ranges s.src.pos.toNat = some a)
    (ha : a < s.par.cwmemSize) :
    fetchByte s = .done (s.cwByte a, false) (s.setSrc { s.src with pos := s.src.pos + 1 }) := by
  simp [fetchByte, h, memRead, ha]

/-- A fetch at an address at or above CWMEM_SIZE (20_memory.md R72). -/
theorem fetchByte_outside {s : State} {a : Nat} (h : srcAddr s.src.ranges s.src.pos.toNat = some a)
    (ha : ¬ a < s.par.cwmemSize) : fetchByte s = .raised .genericIOFailure s := by
  simp [fetchByte, h, memRead, ha]

/-- A header-mode fetch past the end (20_memory.md R75, second case). -/
theorem fetchByte_header {s : State} (h : srcAddr s.src.ranges s.src.pos.toNat = none) (hb : s.bound = .br)
    (hm : s.br.mode = false) : fetchByte s = .raised .genericIOFailure s := by
  simp [fetchByte, h, hb, hm]

/-- A fill byte (20_memory.md R75, third case). -/
theorem fetchByte_fill {s : State} (h : srcAddr s.src.ranges s.src.pos.toNat = none)
    (hb : ¬ (s.bound = .br ∧ s.br.mode = false)) :
    fetchByte s = .done (fillByte, true) (s.setSrc { s.src with filled := true }) := by
  simp only [fetchByte, h, if_neg hb]

/-- All a fetch can do: a byte of CWMEM, a fill byte, or GenericIOFailure with nothing written. -/
theorem fetchByte_cases (s : State) :
    (∃ a, srcAddr s.src.ranges s.src.pos.toNat = some a ∧ a < s.par.cwmemSize ∧
      fetchByte s = .done (s.cwByte a, false) (s.setSrc { s.src with pos := s.src.pos + 1 })) ∨
    (srcAddr s.src.ranges s.src.pos.toNat = none ∧ ¬ (s.bound = .br ∧ s.br.mode = false) ∧
      fetchByte s = .done (fillByte, true) (s.setSrc { s.src with filled := true })) ∨
    fetchByte s = .raised .genericIOFailure s := by
  cases h : srcAddr s.src.ranges s.src.pos.toNat with
  | some a =>
    by_cases ha : a < s.par.cwmemSize
    · exact .inl ⟨a, rfl, ha, fetchByte_real h ha⟩
    · exact .inr (.inr (fetchByte_outside h ha))
  | none =>
    by_cases hb : s.bound = .br ∧ s.br.mode = false
    · exact .inr (.inr (fetchByte_header h hb.1 hb.2))
    · exact .inr (.inl ⟨rfl, hb, fetchByte_fill h hb⟩)

/-- A fetch writes `SRC.POS` and `SRC.FILLED` alone. -/
theorem fetchByte_state (s : State) :
    ∃ p f, (fetchByte s).state = s.setSrc { ranges := s.src.ranges, pos := p, filled := f } := by
  rcases fetchByte_cases s with ⟨a, -, -, h⟩ | ⟨-, -, h⟩ | h
  · exact ⟨_, _, by rw [h]; rfl⟩
  · exact ⟨_, _, by rw [h]; rfl⟩
  · exact ⟨s.src.pos, s.src.filled, by rw [h]; rfl⟩

theorem fetchByte_keeps (π : State → γ) (s : State)
    (h : ∀ p f, π (s.setSrc { ranges := s.src.ranges, pos := p, filled := f }) = π s) :
    π (fetchByte s).state = π s := by
  obtain ⟨p, f, hs⟩ := fetchByte_state s
  rw [hs, h]

/-- A fetch from a readable source completes, unless it is a header-mode fetch past the end (20_memory.md R72, R75). -/
theorem fetchByte_done {s : State} (hr : s.SourceReadable) (hb : ¬ (s.bound = .br ∧ s.br.mode = false)) :
    ∃ b fill p f, fetchByte s = .done (b, fill) (s.setSrc { ranges := s.src.ranges, pos := p, filled := f }) := by
  cases h : srcAddr s.src.ranges s.src.pos.toNat with
  | some a => exact ⟨_, _, _, _, fetchByte_real h (hr _ _ h)⟩
  | none => exact ⟨_, _, _, _, fetchByte_fill h hb⟩

/-- What neither coder writes while it decodes. -/
def State.coderRest (s : State) :=
  (s.par, s.cwmem, s.hostq, s.csr, s.src.ranges, s.bound, s.res, s.cxsel, s.cfg, s.cur, s.st, s.free, s.samp, s.cells)

/-- What the MQ decoder does not write while it decodes, the contexts apart. -/
def State.mqRest (s : State) := (s.coderRest, s.br)

/-- What the bit reader does not write while it reads bits. -/
def State.brRest (s : State) := (s.coderRest, s.mq, s.cx)

theorem SourceReadable_of_coderRest {s t : State} (h : t.coderRest = s.coderRest) (hr : s.SourceReadable) :
    t.SourceReadable := by
  simp only [State.coderRest, Prod.mk.injEq] at h
  simpa [State.SourceReadable, h] using hr

end Sys2Proof.Machine
end

