-- ==== Sys2Proof/Laws/BitReader.lean ====
section
/-! SUPPORT. The bit reader: what a load and a bit read do, keep, and when they complete. -/

namespace Sys2Proof.Machine

/-- A load keeps all but the source position and the reader's own registers. -/
theorem loadByte_brRest (s : State) : (loadByte s).state.brRest = s.brRest := by
  refine Act.keeps_bind State.brRest (fetchByte_keeps State.brRest s fun _ _ => rfl) fun bf t => ?_
  split <;> rfl

theorem refill_brRest (s : State) : (refill s).state.brRest = s.brRest := by
  unfold refill; split
  · exact loadByte_brRest s
  · rfl

theorem readBit_brRest (s : State) : (readBit s).state.brRest = s.brRest :=
  Act.keeps_bind State.brRest (refill_brRest s) fun _ _ => rfl

theorem readBits_brRest (n : Nat) (v : Res) (s : State) : (readBits n v s).state.brRest = s.brRest := by
  induction n generalizing v s with
  | zero => rfl
  | succ n ih => exact Act.keeps_bind State.brRest (readBit_brRest s) fun _ t => ih _ t

theorem skipStuffing_brRest (s : State) : (skipStuffing s).state.brRest = s.brRest := by
  unfold skipStuffing; split
  · exact Act.keeps_bind State.brRest (fetchByte_keeps State.brRest s fun _ _ => rfl) fun _ _ => rfl
  · rfl

/-- The reader never changes its mode while it reads. -/
theorem loadByte_mode (s : State) : (loadByte s).state.br.mode = s.br.mode := by
  refine Act.keeps_bind (fun t => t.br.mode) (fetchByte_keeps (fun t => t.br.mode) s fun _ _ => rfl) fun bf t => ?_
  split <;> rfl

theorem readBit_mode (s : State) : (readBit s).state.br.mode = s.br.mode := by
  refine Act.keeps_bind (fun t => t.br.mode) ?_ fun _ _ => rfl
  unfold refill; split
  · exact loadByte_mode s
  · rfl

/-- A load of a byte of CWMEM that is no stuffing error (41_bit_reader.md R121). -/
theorem loadByte_real {s : State} {a : Nat} (h : srcAddr s.src.ranges s.src.pos.toNat = some a)
    (ha : a < s.par.cwmemSize) (hff : ¬ (s.br.lastFF = true ∧ s.cwByte a = 0xFF)) :
    loadByte s = .done () ((s.setSrc { s.src with pos := s.src.pos + 1 }).setBr
      { s.br with bitsLeft := if s.br.lastFF then 7 else 8, lastFF := s.cwByte a == 0xFF, buf := s.cwByte a }) := by
  simp only [loadByte, fetchByte_real h ha, Act.bind_done, State.setSrc_br]
  rw [if_neg (by simpa using hff)]
  rfl

/-- A load of a real 0xFF after a 0xFF (41_bit_reader.md R123). -/
theorem loadByte_corrupt {s : State} {a : Nat} (h : srcAddr s.src.ranges s.src.pos.toNat = some a)
    (ha : a < s.par.cwmemSize) (hff : s.br.lastFF = true ∧ s.cwByte a = 0xFF) :
    loadByte s = .raised .corruptBitstuffing (s.setSrc { s.src with pos := s.src.pos + 1 }) := by
  simp only [loadByte, fetchByte_real h ha, Act.bind_done, State.setSrc_br]
  rw [if_pos (by simpa using hff)]

/-- A load of a fill byte (41_bit_reader.md R125). -/
theorem loadByte_fill {s : State} (h : srcAddr s.src.ranges s.src.pos.toNat = none)
    (hb : ¬ (s.bound = .br ∧ s.br.mode = false)) :
    loadByte s = .done () ((s.setSrc { s.src with filled := true }).setBr
      { s.br with bitsLeft := if s.br.lastFF then 7 else 8, lastFF := true, buf := 0xFF }) := by
  simp only [loadByte, fetchByte_fill h hb, Act.bind_done]
  rw [if_neg (by simp)]
  rfl

/-- A load raises nothing but CorruptBitstuffing and GenericIOFailure, and then has not touched the reader's registers. -/
theorem loadByte_cases (s : State) :
    (∃ t, loadByte s = .done () t ∧ (t.br.bitsLeft = 7 ∨ t.br.bitsLeft = 8)) ∨
    (∃ e t, loadByte s = .raised e t ∧ t.br = s.br) := by
  rcases fetchByte_cases s with ⟨a, h, ha, -⟩ | ⟨h, hb, -⟩ | h
  · by_cases hff : s.br.lastFF = true ∧ s.cwByte a = 0xFF
    · exact .inr ⟨_, _, loadByte_corrupt h ha hff, rfl⟩
    · refine .inl ⟨_, loadByte_real h ha hff, ?_⟩
      cases s.br.lastFF <;> simp
  · refine .inl ⟨_, loadByte_fill h hb, ?_⟩
    cases s.br.lastFF <;> simp
  · exact .inr ⟨.genericIOFailure, s, by simp [loadByte, h], rfl⟩

/-- A bit of the byte being read, with no load (41_bit_reader.md R127). -/
theorem readBit_of_left {s : State} (h : s.br.bitsLeft ≠ 0) :
    readBit s = .done (s.br.buf.getLsbD (s.br.bitsLeft - 1).toNat)
      (s.setBr { s.br with bitsLeft := s.br.bitsLeft - 1 }) := by
  simp only [readBit, refill, if_neg h, Act.bind_done]

/-- After a load there are bits left. -/
theorem refill_left {s t : State} (h : refill s = .done () t) : t.br.bitsLeft ≠ 0 := by
  unfold refill at h
  split at h
  · rcases loadByte_cases s with ⟨u, hu, hb⟩ | ⟨e, u, hu, -⟩
    · rw [hu] at h; cases h; rcases hb with hb | hb <;> rw [hb] <;> decide
    · rw [hu] at h; cases h
  · cases h; assumption

/-- The reader's position stays inside a source that is too short to wrap, and stuffing stays clean as it reads. -/
structure ReaderClean (s : State) : Prop where
  readable : s.SourceReadable
  clean : s.StuffingClean
  codeword : s.br.mode = true

theorem pos_succ {s : State} {a : Nat} (h : srcAddr s.src.ranges s.src.pos.toNat = some a)
    (ht : srcTotal s.src.ranges < 2 ^ 32) : (s.src.pos + 1).toNat = s.src.pos.toNat + 1 := by
  have : s.src.pos.toNat < srcTotal s.src.ranges := by
    by_contra hc
    rw [srcAddr_eq_none_iff.2 (by omega)] at h
    cases h
  rw [BitVec.toNat_add]
  simp
  omega

/-- A load from a clean reader completes and leaves a clean reader (41_bit_reader.md R123, R125). -/
theorem loadByte_clean {s : State} (h : ReaderClean s) : ∃ t, loadByte s = .done () t ∧ ReaderClean t := by
  obtain ⟨hr, ⟨ht, hff, hpair⟩, hm⟩ := h
  cases ha : srcAddr s.src.ranges s.src.pos.toNat with
  | some a =>
    have hb : s.sourceByte s.src.pos.toNat = some (s.cwByte a) := by simp [State.sourceByte, ha]
    have hn : ¬ (s.br.lastFF = true ∧ s.cwByte a = 0xFF) := fun hc => hff hc.1 (by rw [hb, hc.2])
    have hp := pos_succ ha ht
    refine ⟨_, loadByte_real ha (hr _ _ ha) hn, ⟨hr, ⟨ht, ?_, ?_⟩, hm⟩⟩
    · intro hl
      have hl' : s.cwByte a = 0xFF := by simpa using hl
      have := hpair s.src.pos.toNat (Nat.le_refl _) (by rw [hb, hl'])
      rw [← hp] at this
      exact this
    · intro i hi h1
      have hi' : s.src.pos.toNat ≤ i := by
        have h2 : (s.src.pos + 1).toNat ≤ i := hi
        omega
      exact hpair i hi' h1
  | none =>
    refine ⟨_, loadByte_fill ha (by simp [hm]), ⟨hr, ⟨ht, ?_, ?_⟩, hm⟩⟩
    · intro _
      simp [State.sourceByte, ha]
    · exact hpair

/-- A bit read from a clean reader completes and leaves a clean reader. -/
theorem readBit_clean {s : State} (h : ReaderClean s) : ∃ d t, readBit s = .done d t ∧ ReaderClean t := by
  by_cases hl : s.br.bitsLeft = 0
  · obtain ⟨t, ht, hc⟩ := loadByte_clean h
    exact ⟨t.br.buf.getLsbD (t.br.bitsLeft - 1).toNat,
      t.setBr { t.br with bitsLeft := t.br.bitsLeft - 1 },
      by simp only [readBit, refill, if_pos hl, ht, Act.bind_done],
      ⟨hc.readable, hc.clean, hc.codeword⟩⟩
  · exact ⟨_, _, readBit_of_left hl, ⟨h.readable, h.clean, h.codeword⟩⟩

/-- `n` bit reads from a clean reader complete. -/
theorem readBits_clean (n : Nat) {v : Res} {s : State} (h : ReaderClean s) :
    ∃ w t, readBits n v s = .done w t ∧ ReaderClean t := by
  induction n generalizing v s with
  | zero => exact ⟨v, s, rfl, h⟩
  | succ n ih =>
    obtain ⟨d, t, ht, hc⟩ := readBit_clean h
    obtain ⟨w, u, hu, hcu⟩ := ih (v := (v <<< 1) ||| resOfBit d) hc
    exact ⟨w, u, by simp [readBits, ht, hu], hcu⟩

end Sys2Proof.Machine
end

