-- ==== Sys2Proof/Laws/MqDecoder.lean ====
section
/-! SUPPORT. The MQ decoder: what its procedures keep, when they complete, and the ranges of its registers. -/

namespace Sys2Proof.Machine

variable {γ : Type}

/-- Every LPS estimate is above 0 and below 0x8000 (42_mq_decoder.md R151). -/
theorem qe_range (i : Fin Config.qeEntries) : 0 < (qe i).Qe.toNat ∧ (qe i).Qe.toNat ≤ 0x5601 := by
  revert i; decide

/-- What the MQ decoder does not write when no context is adapted. -/
def State.mqOnlyRest (s : State) := (s.coderRest, s.br, s.cx)

theorem byteIn_rest (s : State) : (byteIn s).state.mqOnlyRest = s.mqOnlyRest := by
  unfold byteIn; split
  · rfl
  · exact Act.keeps_bind State.mqOnlyRest (fetchByte_keeps State.mqOnlyRest s fun _ _ => rfl) fun _ _ => rfl

theorem byteInIfEmpty_rest (s : State) : (byteInIfEmpty s).state.mqOnlyRest = s.mqOnlyRest := by
  unfold byteInIfEmpty; split
  · exact byteIn_rest s
  · rfl

theorem renormLoop_rest (n : Nat) (s : State) : (renormLoop n s).state.mqOnlyRest = s.mqOnlyRest := by
  induction n generalizing s with
  | zero => rfl
  | succ n ih =>
    refine Act.keeps_bind State.mqOnlyRest (byteInIfEmpty_rest s) fun _ t => ?_
    split
    · exact ih _
    · rfl

theorem renormD_rest (s : State) : (renormD s).state.mqOnlyRest = s.mqOnlyRest := renormLoop_rest 16 s

/-- The exchanges write the context of their category, and the LPS exchange `A`. -/
theorem mpsExchange_state (k : Category) (s : State) :
    (mpsExchange k s).2 = s.setCtx k (if s.mq.a < (qe (s.ctx k).I).Qe then (s.ctx k).lps else (s.ctx k).mps) := by
  by_cases h : s.mq.a < (qe (s.ctx k).I).Qe <;> simp [mpsExchange, h]

theorem lpsExchange_state (k : Category) (s : State) :
    (lpsExchange k s).2 = (s.setMq { s.mq with a := (qe (s.ctx k).I).Qe }).setCtx k
      (if s.mq.a < (qe (s.ctx k).I).Qe then (s.ctx k).mps else (s.ctx k).lps) := by
  by_cases h : s.mq.a < (qe (s.ctx k).I).Qe <;> simp [lpsExchange, h]

/-- DECODE keeps all but the decoder's registers, the source position and the contexts (42_mq_decoder.md R161). -/
theorem decodeMq_mqRest (k : Category) (s : State) : (decodeMq k s).state.mqRest = s.mqRest := by
  have hr : ∀ t : State, (renormD t).state.mqRest = t.mqRest := fun t => by
    have := renormD_rest t
    simp only [State.mqOnlyRest, State.mqRest, Prod.mk.injEq] at this ⊢
    exact ⟨this.1, this.2.1⟩
  unfold decodeMq
  simp only
  split
  · split
    · rfl
    · refine Act.keeps_bind State.mqRest ((hr _).trans ?_) fun _ _ => rfl
      rw [mpsExchange_state]; rfl
  · refine Act.keeps_bind State.mqRest ((hr _).trans ?_) fun _ _ => rfl
    rw [lpsExchange_state]; rfl

theorem pterm_rest (s : State) : (pterm s).state.mqOnlyRest = s.mqOnlyRest := by
  have hp : ∀ t : State, (ptermPattern t).state.mqOnlyRest = t.mqOnlyRest := fun t => by
    unfold ptermPattern
    simp only
    split
    · rfl
    · exact Act.keeps_bind State.mqOnlyRest ((renormD_rest _).trans rfl) fun _ _ => rfl
  unfold pterm
  split
  · rfl
  split
  · rfl
  split
  · rfl
  split
  · split
    · refine Act.keeps_bind State.mqOnlyRest (fetchByte_keeps State.mqOnlyRest s fun _ _ => rfl) fun _ t => ?_
      split
      · rfl
      · exact (hp _).trans rfl
    · exact (hp _).trans rfl
  · exact hp s

/-- What INITDEC does not write. -/
def State.initRest (s : State) :=
  (s.par, s.cwmem, s.hostq, s.csr, s.src.ranges, s.bound, s.res, s.cxsel, s.cfg, s.cur, s.st, s.samp, s.cells, s.br,
    s.cx, s.free.count, s.free.br, s.free.zeroed)

@[simp] theorem State.initRest_setMq (s : State) (v : MqRegs) : (s.setMq v).initRest = s.initRest := rfl

theorem initRest_of_mqOnlyRest {s t : State} (h : t.mqOnlyRest = s.mqOnlyRest) : t.initRest = s.initRest := by
  simp only [State.mqOnlyRest, State.coderRest, Prod.mk.injEq] at h
  simp [State.initRest, h]

theorem initDec_rest (s : State) : (initDec s).state.initRest = s.initRest := by
  refine Act.keeps_bind State.initRest
    ((fetchByte_keeps State.initRest _ fun _ _ => rfl).trans (State.initRest_setMq s _)) fun _ t => ?_
  refine Act.keeps_bind State.initRest ((initRest_of_mqOnlyRest (byteIn_rest _)).trans (State.initRest_setMq t _))
    fun _ u => ?_
  rfl

/-! ## Completion -/

/-- The MQ decoder is bound to a readable source: it raises nothing (42_mq_decoder.md R165). -/
structure DecoderClean (s : State) : Prop where
  readable : s.SourceReadable
  bound : s.bound = .mq

theorem DecoderClean.of_coderRest {s t : State} (h : t.coderRest = s.coderRest) (hc : DecoderClean s) :
    DecoderClean t := by
  refine ⟨SourceReadable_of_coderRest h hc.readable, ?_⟩
  simp only [State.coderRest, Prod.mk.injEq] at h
  rw [h.2.2.2.2.2.1, hc.bound]

theorem DecoderClean.of_coderRest_ranges {s t : State} (hp : t.par = s.par) (hr : t.src.ranges = s.src.ranges)
    (hb : t.bound = s.bound) (hc : DecoderClean s) : DecoderClean t :=
  ⟨by simpa [State.SourceReadable, hp, hr] using hc.readable, hb.trans hc.bound⟩

theorem byteIn_done {s : State} (h : DecoderClean s) : ∃ t, byteIn s = .done () t := by
  unfold byteIn; split
  · exact ⟨_, rfl⟩
  · obtain ⟨b, fill, p, f, hf⟩ := fetchByte_done h.readable (by simp [h.bound])
    exact ⟨_, by rw [hf]; rfl⟩

theorem byteInIfEmpty_done {s : State} (h : DecoderClean s) : ∃ t, byteInIfEmpty s = .done () t := by
  unfold byteInIfEmpty; split
  · exact byteIn_done h
  · exact ⟨_, rfl⟩

theorem renormLoop_done (n : Nat) {s : State} (h : DecoderClean s) : ∃ t, renormLoop n s = .done () t := by
  induction n generalizing s with
  | zero => exact ⟨s, rfl⟩
  | succ n ih =>
    obtain ⟨t, ht⟩ := byteInIfEmpty_done h
    have hk : t.mqOnlyRest = s.mqOnlyRest := by have := byteInIfEmpty_rest s; rwa [ht] at this
    have hc : DecoderClean t := h.of_coderRest (congrArg Prod.fst hk)
    simp only [renormLoop, ht, Act.bind_done]
    split
    · exact ih (DecoderClean.of_coderRest (s := t) rfl hc)
    · exact ⟨_, rfl⟩

theorem renormD_done {s : State} (h : DecoderClean s) : ∃ t, renormD s = .done () t := renormLoop_done 16 h

/-- DECODE on a readable source completes (42_mq_decoder.md R165), and the source stays readable. -/
theorem decodeMq_done (k : Category) {s : State} (h : DecoderClean s) :
    ∃ d t, decodeMq k s = .done d t ∧ DecoderClean t := by
  have key : ∃ d t, decodeMq k s = .done d t := by
    unfold decodeMq
    simp only
    split
    · split
      · exact ⟨_, _, rfl⟩
      · obtain ⟨t, ht⟩ := renormD_done (s := (mpsExchange k (s.setMq { s.mq with a := s.mq.a - (qe (s.ctx k).I).Qe })).2)
          (h.of_coderRest (by rw [mpsExchange_state]; rfl))
        exact ⟨_, _, by rw [ht]; rfl⟩
    · obtain ⟨t, ht⟩ := renormD_done (s := (lpsExchange k ((s.setMq { s.mq with a := s.mq.a - (qe (s.ctx k).I).Qe }).setMq
          (s.setMq { s.mq with a := s.mq.a - (qe (s.ctx k).I).Qe }).mq.subtractA)).2)
          (h.of_coderRest (by rw [lpsExchange_state]; rfl))
      exact ⟨_, _, by rw [ht]; rfl⟩
  obtain ⟨d, t, ht⟩ := key
  refine ⟨d, t, ht, h.of_coderRest ?_⟩
  have := congrArg Prod.fst (decodeMq_mqRest k s)
  rwa [ht] at this

/-- A continuation of BYTEIN completes if it always does. -/
theorem byteIn_bind_done {s : State} (h : DecoderClean s) (f : Unit → State → State) :
    ∃ t, ((byteIn s).bind fun x u => .done () (f x u)) = .done () t := by
  obtain ⟨v, hv⟩ := byteIn_done h
  exact ⟨f () v, by rw [hv]; rfl⟩

/-- INITDEC on a readable source completes. -/
theorem initDec_done {s : State} (h : DecoderClean s) : ∃ t, initDec s = .done () t := by
  have h0 : DecoderClean (s.setMq { s.mq with mf := false }) := DecoderClean.of_coderRest_ranges (s := s) rfl rfl rfl h
  obtain ⟨b, fill, p, f, hf⟩ := fetchByte_done h0.readable (by rw [h0.bound]; simp)
  have h1 : DecoderClean ((s.setMq { s.mq with mf := false }).setSrc { ranges := s.src.ranges, pos := p, filled := f }) :=
    DecoderClean.of_coderRest_ranges (s := s) rfl rfl rfl h
  unfold initDec
  rw [hf, Act.bind_done]
  exact byteIn_bind_done (DecoderClean.of_coderRest_ranges (by simp) (by simp) (by simp) h1) _

/-- PTERM on a readable source completes (42_mq_decoder.md R165). -/
theorem pterm_done {s : State} (h : DecoderClean s) : ∃ d t, pterm s = .done d t := by
  have hp : ∀ t : State, DecoderClean t → ∃ d u, ptermPattern t = .done d u := fun t ht => by
    unfold ptermPattern
    simp only
    split
    · exact ⟨_, _, rfl⟩
    · obtain ⟨u, hu⟩ := renormD_done (s := (t.setMq { t.mq with a := t.mq.a - 0x8000#16 >>> (t.mq.ct - 1).toNat }).setMq
        { (t.setMq { t.mq with a := t.mq.a - 0x8000#16 >>> (t.mq.ct - 1).toNat }).mq.subtractA with
          a := 0x8000#16 >>> (t.mq.ct - 1).toNat }) (DecoderClean.of_coderRest (s := t) rfl ht)
      exact ⟨_, _, by rw [hu]; rfl⟩
  unfold pterm
  split
  · exact ⟨_, _, rfl⟩
  split
  · exact ⟨_, _, rfl⟩
  split
  · exact ⟨_, _, rfl⟩
  split
  · split
    · obtain ⟨b, fill, p, f, hf⟩ := fetchByte_done h.readable (by simp [h.bound])
      rw [hf]
      simp only [Act.bind_done]
      split
      · exact ⟨_, _, rfl⟩
      · exact hp _ (DecoderClean.of_coderRest_ranges (s := s) rfl rfl rfl h)
    · exact hp _ (DecoderClean.of_coderRest (s := s) rfl h)
  · exact hp s h

/-! ## Ranges -/

theorem MqRegs.takeByte_ct (r : MqRegs) (b : Byte) : (r.takeByte b).ct = 7 ∨ (r.takeByte b).ct = 8 := by
  unfold MqRegs.takeByte
  split
  · split <;> simp
  · simp

/-- BYTEIN sets `CT` to 7 or 8 (42_mq_decoder.md R155). -/
theorem byteIn_ct {s t : State} (h : byteIn s = .done () t) : t.mq.ct = 7 ∨ t.mq.ct = 8 := by
  unfold byteIn at h
  split at h
  · cases h; simp
  · rw [Act.bind_eq_done] at h
    obtain ⟨bf, u, -, hu⟩ := h
    cases hu
    exact MqRegs.takeByte_ct _ _

/-- What one round of RENORMD needs of `CT`: after the byte-in it is from 1 to 8. -/
theorem byteInIfEmpty_ct {s t : State} (h : byteInIfEmpty s = .done () t) (hs : s.mq.ct.toNat ≤ 8) :
    1 ≤ t.mq.ct.toNat ∧ t.mq.ct.toNat ≤ 8 := by
  unfold byteInIfEmpty at h
  split at h
  · rcases byteIn_ct h with h | h <;> rw [h] <;> decide
  · rename_i hne
    cases h
    refine ⟨?_, hs⟩
    by_contra hc
    exact hne (BitVec.eq_of_toNat_eq (by simp; omega))

theorem takeByte_a (r : MqRegs) (b : Byte) : (r.takeByte b).a = r.a := by
  unfold MqRegs.takeByte
  split
  · split <;> rfl
  · rfl

theorem byteInIfEmpty_a {s t : State} (h : byteInIfEmpty s = .done () t) : t.mq.a = s.mq.a := by
  unfold byteInIfEmpty at h
  split at h
  · unfold byteIn at h
    split at h
    · cases h; rfl
    · rw [Act.bind_eq_done] at h
      obtain ⟨bf, u, hf, hu⟩ := h
      cases hu
      have := fetchByte_keeps (fun x => x.mq) s fun _ _ => rfl
      rw [hf] at this
      rw [State.setMq_mq, takeByte_a]
      exact congrArg MqRegs.a this
  · cases h; rfl

theorem double_ct {r : MqRegs} (h1 : 1 ≤ r.ct.toNat) : r.double.ct.toNat = r.ct.toNat - 1 := by
  have := r.ct.isLt
  have h1' : (1 : BitVec 4).toNat = 1 := rfl
  simp only [MqRegs.double, BitVec.toNat_sub, h1']
  omega

theorem double_a {r : MqRegs} (h : r.a.toNat < 0x8000) : r.double.a.toNat = 2 * r.a.toNat := by
  simp only [MqRegs.double, BitVec.toNat_shiftLeft]
  rw [Nat.shiftLeft_eq]
  omega

/-- RENORMD leaves `A` at 0x8000 or above if its rounds suffice, and `CT` at most 7 (42_mq_decoder.md R164). -/
theorem renormLoop_range (n : Nat) {s t : State} (h : renormLoop n s = .done () t) (ha : s.mq.a.toNat < 0x8000)
    (hn : 0x8000 ≤ s.mq.a.toNat * 2 ^ n) :
    0x8000 ≤ t.mq.a.toNat ∧ (s.mq.ct.toNat ≤ 8 → t.mq.ct.toNat ≤ 7) := by
  induction n generalizing s with
  | zero => simp at hn; omega
  | succ n ih =>
    simp only [renormLoop, Act.bind_eq_done] at h
    obtain ⟨_, u, hu, h⟩ := h
    have hua := byteInIfEmpty_a hu
    have hda := double_a (r := u.mq) (by rw [hua]; exact ha)
    split at h
    · rename_i hlt
      have hlt' : u.mq.double.a.toNat < 0x8000 := by simpa [BitVec.lt_def] using hlt
      obtain ⟨h1, h2⟩ := ih h (by simpa using hlt') (by
        simp only [State.setMq_mq, hda, hua]
        rw [Nat.pow_succ] at hn
        have := Nat.mul_comm 2 (s.mq.a.toNat)
        calc 0x8000 ≤ s.mq.a.toNat * (2 ^ n * 2) := hn
          _ = 2 * s.mq.a.toNat * 2 ^ n := by ring)
      refine ⟨h1, fun hs => h2 ?_⟩
      have := byteInIfEmpty_ct hu hs
      rw [State.setMq_mq, double_ct this.1]
      omega
    · rename_i hge
      cases h
      refine ⟨by simpa [BitVec.lt_def] using hge, fun hs => ?_⟩
      have := byteInIfEmpty_ct hu hs
      rw [State.setMq_mq, double_ct this.1]
      omega

/-- RENORMD from any `A` of 1 to 0x7FFF ends with `A` at 0x8000 or above: its rounds suffice (log 13). -/
theorem renormD_range {s t : State} (h : renormD s = .done () t) (h0 : 0 < s.mq.a.toNat)
    (ha : s.mq.a.toNat < 0x8000) : 0x8000 ≤ t.mq.a.toNat ∧ (s.mq.ct.toNat ≤ 8 → t.mq.ct.toNat ≤ 7) :=
  renormLoop_range 16 h ha (by omega)

end Sys2Proof.Machine
end

