-- ==== Sys2Proof/Laws/Sparse.lean ====
section
/-! SUPPORT. Memories in canonical form: a read after a write, and every operation keeps the form. -/

namespace Sys2Proof.Machine.Sparse

variable {α : Type} {d : α} {m : List (Nat × α)} {j k : Nat} {v : α}

@[simp] theorem get_nil : get d [] k = d := rfl

theorem wf_nil : WF d ([] : List (Nat × α)) := ⟨.nil, by simp⟩

theorem WF.tail {e : Nat × α} (h : WF d (e :: m)) : WF d m :=
  ⟨(List.pairwise_cons.1 h.1).2, fun f hf => h.2 f (List.mem_cons_of_mem _ hf)⟩

/-- A key below every listed key is unlisted. -/
theorem get_of_lt_all (h : ∀ e ∈ m, k < e.1) : get d m k = d := by
  induction m with
  | nil => rfl
  | cons e m ih =>
    obtain ⟨j, u⟩ := e
    have hj : k < j := h (j, u) List.mem_cons_self
    rw [get, if_neg (by omega), ih fun e he => h e (List.mem_cons_of_mem _ he)]

variable [DecidableEq α]

/-- A write is read back. -/
theorem get_set_same (h : WF d m) : get d (set d m k v) k = v := by
  induction m with
  | nil => by_cases hv : v = d <;> simp [set, hv, get]
  | cons e m ih =>
    obtain ⟨j, u⟩ := e
    have hlt := (List.pairwise_cons.1 h.1).1
    simp only [set]
    split
    · rename_i hjk
      rw [get, if_neg (by omega), ih h.tail]
    · split
      · rename_i hjk
        split
        · rename_i hv
          subst hv hjk
          exact get_of_lt_all hlt
        · simp [get]
      · rename_i h1 h2
        have hkj : k < j := by omega
        split
        · rename_i hv
          subst hv
          refine get_of_lt_all ?_
          intro e he
          rcases List.mem_cons.1 he with rfl | he
          · exact hkj
          · exact hkj.trans (hlt e he)
        · simp [get]

/-- A write leaves every other key alone. -/
theorem get_set_other (hjk : j ≠ k) : get d (set d m k v) j = get d m j := by
  induction m with
  | nil => by_cases hv : v = d <;> simp [set, hv, get, Ne.symm hjk]
  | cons e m ih =>
    obtain ⟨i, u⟩ := e
    simp only [set]
    split
    · simp only [get, ih]
    · split
      · rename_i hik
        subst hik
        split <;> simp [get, Ne.symm hjk]
      · split <;> simp [get, Ne.symm hjk]

theorem get_set (h : WF d m) : get d (set d m k v) j = if j = k then v else get d m j := by
  split
  · rename_i hjk
    subst hjk
    exact get_set_same h
  · exact get_set_other ‹_›

theorem mem_set {e : Nat × α} (he : e ∈ set d m k v) : e ∈ m ∨ e = (k, v) := by
  induction m with
  | nil => by_cases hv : v = d <;> simp_all [set]
  | cons f m ih =>
    obtain ⟨i, u⟩ := f
    simp only [set] at he
    split at he
    · rcases List.mem_cons.1 he with rfl | he
      · exact .inl List.mem_cons_self
      · exact (ih he).imp (List.mem_cons_of_mem _) id
    · split at he
      · split at he
        · exact .inl (List.mem_cons_of_mem _ he)
        · exact (List.mem_cons.1 he).elim .inr fun h => .inl (List.mem_cons_of_mem _ h)
      · split at he
        · exact .inl he
        · exact (List.mem_cons.1 he).elim .inr .inl

/-- A write keeps the canonical form. -/
theorem wf_set (h : WF d m) : WF d (set d m k v) := by
  induction m with
  | nil => by_cases hv : v = d <;> simp [set, hv, WF]
  | cons e m ih =>
    obtain ⟨i, u⟩ := e
    have hlt := (List.pairwise_cons.1 h.1).1
    have hu : u ≠ d := h.2 (i, u) List.mem_cons_self
    simp only [set]
    split
    · rename_i hik
      refine ⟨List.pairwise_cons.2 ⟨fun f hf => ?_, (ih h.tail).1⟩, fun f hf => ?_⟩
      · rcases mem_set hf with hf | rfl
        · exact hlt f hf
        · exact hik
      · rcases List.mem_cons.1 hf with rfl | hf
        · exact hu
        · exact (ih h.tail).2 f hf
    · split
      · rename_i hik
        split
        · exact h.tail
        · rename_i hv
          subst hik
          exact ⟨List.pairwise_cons.2 ⟨hlt, h.tail.1⟩, fun f hf =>
            (List.mem_cons.1 hf).elim (fun e => e ▸ hv) (h.tail.2 f)⟩
      · rename_i h1 h2
        split
        · exact h
        · rename_i hv
          refine ⟨List.pairwise_cons.2 ⟨fun f hf => ?_, h.1⟩, fun f hf =>
            (List.mem_cons.1 hf).elim (fun e => e ▸ hv) (h.2 f)⟩
          rcases List.mem_cons.1 hf with rfl | hf
          · exact (by omega : k < i)
          · exact (by omega : k < i).trans (hlt f hf)

variable {f : α → α}

theorem mem_mapCells {e : Nat × α} (he : e ∈ mapCells d f m) : ∃ u, (e.1, u) ∈ m ∧ e.2 = f u ∧ f u ≠ d := by
  induction m with
  | nil => simp [mapCells] at he
  | cons g m ih =>
    obtain ⟨i, u⟩ := g
    simp only [mapCells] at he
    split at he
    · obtain ⟨w, hw, h⟩ := ih he
      exact ⟨w, List.mem_cons_of_mem _ hw, h⟩
    · rename_i hv
      rcases List.mem_cons.1 he with rfl | he
      · exact ⟨u, List.mem_cons_self, rfl, hv⟩
      · obtain ⟨w, hw, h⟩ := ih he
        exact ⟨w, List.mem_cons_of_mem _ hw, h⟩

/-- Mapping the cells keeps the canonical form. -/
theorem wf_mapCells (h : WF d m) : WF d (mapCells d f m) := by
  induction m with
  | nil => exact h
  | cons e m ih =>
    obtain ⟨i, u⟩ := e
    have hlt := (List.pairwise_cons.1 h.1).1
    simp only [mapCells]
    split
    · exact ih h.tail
    · rename_i hv
      refine ⟨List.pairwise_cons.2 ⟨fun g hg => ?_, (ih h.tail).1⟩, fun g hg =>
        (List.mem_cons.1 hg).elim (fun e => e ▸ hv) ((ih h.tail).2 g)⟩
      obtain ⟨w, hw, -⟩ := mem_mapCells hg
      exact hlt (g.1, w) hw

/-- Every cell, listed or not, is mapped by a function that keeps the unlisted value. -/
theorem get_mapCells (h : WF d m) (hf : f d = d) : get d (mapCells d f m) k = f (get d m k) := by
  induction m with
  | nil => simp [mapCells, hf]
  | cons e m ih =>
    obtain ⟨i, u⟩ := e
    have hlt := (List.pairwise_cons.1 h.1).1
    simp only [mapCells]
    split
    · rename_i hv
      rw [ih h.tail]
      by_cases hik : i = k
      · subst hik
        rw [get_of_lt_all hlt, hf, get, if_pos rfl, hv]
      · rw [get, if_neg hik]
    · by_cases hik : i = k
      · simp [get, hik]
      · rw [get, if_neg hik, ih h.tail, get, if_neg hik]

end Sys2Proof.Machine.Sparse
end

