-- ==== Sys2Proof/Laws/Passes.lean ====
section
/-! SUPPORT. Coordinates, sample and flag accesses, the scan order, and what the coding passes keep and when they
complete. -/

namespace Sys2Proof.Machine

/-! ## Coordinates and accesses -/

/-- Coordinates with a column below the stride have different keys (log 10). -/
theorem coordKey_inj {x y x' y' : Nat} (hx : x < Config.maxSide) (hx' : x' < Config.maxSide) :
    coordKey x y = coordKey x' y' ↔ x = x' ∧ y = y' := by
  simp only [coordKey, Config.maxSide] at *
  omega

theorem coordKey_inBlock {c : BlockConfig} {x y : Nat} (hx : x < c.w) (hy : y < c.h) (hw : c.w ≤ Config.maxSide) :
    KeyInBlock c (coordKey x y) := by
  simp only [KeyInBlock, coordKey, Config.maxSide] at *
  omega

section
variable {s : State} {x y x' y' : Nat}

theorem State.cell_setCell {v : SampleFlags} (h : Sparse.WF SampleFlags.clear s.cells) (hx : x < Config.maxSide)
    (hx' : x' < Config.maxSide) :
    (s.setCell x y v).cell x' y' = if x' = x ∧ y' = y then v else s.cell x' y' := by
  simp only [State.cell, State.setCell, State.setCells_cells, Sparse.get_set h, coordKey_inj hx' hx]

theorem State.sampRead_sampWrite {v : Word} (h : Sparse.WF (0 : Word) s.samp) (hx : x < Config.maxSide)
    (hx' : x' < Config.maxSide) :
    (s.sampWrite x y v).sampRead x' y' = if x' = x ∧ y' = y then v else s.sampRead x' y' := by
  simp only [State.sampRead, State.sampWrite, State.setSamp_samp, Sparse.get_set h, coordKey_inj hx' hx]

@[simp] theorem State.sampRead_setCell (v : SampleFlags) : (s.setCell x y v).sampRead x' y' = s.sampRead x' y' := rfl
@[simp] theorem State.cell_sampWrite (v : Word) : (s.sampWrite x y v).cell x' y' = s.cell x' y' := rfl

theorem State.cell_clearVis (h : Sparse.WF SampleFlags.clear s.cells) :
    s.clearVis.cell x y = { s.cell x y with VIS := false } := by
  simp only [State.cell, State.clearVis, State.setCells_cells]
  rw [Sparse.get_mapCells h rfl]

@[simp] theorem State.sampRead_clearVis : s.clearVis.sampRead x y = s.sampRead x y := rfl

end

/-! ## Scan order -/

theorem mem_stripeRows {h y0 y : Nat} : y ∈ stripeRows h y0 ↔ y0 ≤ y ∧ y ≤ y0 + 3 ∧ y < h := by
  simp only [stripeRows, List.mem_filter, List.mem_cons, List.not_mem_nil, or_false, decide_eq_true_eq]
  omega

theorem mem_columns {w h x y0 : Nat} : (x, y0) ∈ columns w h ↔ x < w ∧ y0 < h ∧ y0 % 4 = 0 := by
  simp only [columns, List.mem_flatMap, List.mem_range, List.mem_map, Prod.mk.injEq, Config.stripeH]
  constructor
  · rintro ⟨i, hi, x', hx', rfl, rfl⟩
    omega
  · rintro ⟨hx, hy, hm⟩
    exact ⟨y0 / 4, by omega, x, hx, rfl, by omega⟩

/-- A pass visits exactly the coefficients of the block (44_coding_passes.md R241). -/
theorem mem_scan {w h x y : Nat} : (x, y) ∈ scan w h ↔ x < w ∧ y < h := by
  simp only [scan, List.mem_flatMap, List.mem_map, Prod.mk.injEq]
  constructor
  · rintro ⟨⟨cx, cy⟩, hc, y', hy', rfl, rfl⟩
    exact ⟨(mem_columns.1 hc).1, (mem_stripeRows.1 hy').2.2⟩
  · rintro ⟨hx, hy⟩
    exact ⟨(x, y / 4 * 4), mem_columns.2 ⟨hx, by omega, by omega⟩, y, mem_stripeRows.2 ⟨by omega, by omega, hy⟩, rfl, rfl⟩

theorem mem_columnFrom {h x y0 ystart a b : Nat} :
    (a, b) ∈ columnFrom h x y0 ystart ↔ a = x ∧ y0 ≤ b ∧ b ≤ y0 + 3 ∧ b < h ∧ ystart ≤ b := by
  simp only [columnFrom, List.mem_map, List.mem_filter, mem_stripeRows, Prod.mk.injEq, decide_eq_true_eq]
  constructor
  · rintro ⟨y, ⟨hy, hs⟩, rfl, rfl⟩
    exact ⟨rfl, hy.1, hy.2.1, hy.2.2, hs⟩
  · rintro ⟨rfl, h1, h2, h3, h4⟩
    exact ⟨b, ⟨⟨h1, h2, h3⟩, h4⟩, rfl, rfl⟩

/-! ## Frames -/

/-- What no coding pass writes. -/
def State.passRest (s : State) :=
  (s.par, s.cwmem, s.hostq, s.csr, s.src.ranges, s.bound, s.res, s.cxsel, s.cfg, s.cur, s.st, s.free, s.br.mode)

/-- What a pass of a coder does not write: a raw pass not the MQ registers and contexts, an MQ pass not the bit reader. -/
def State.passFrame (raw : Bool) (s : State) :=
  (s.passRest, (if raw then some (s.mq, s.cx) else none), (if raw then none else some s.br))

theorem decodeMq_passFrame (k : Category) (s : State) : (decodeMq k s).state.passFrame false = s.passFrame false := by
  have h := decodeMq_mqRest k s
  simp only [State.mqRest, State.coderRest, Prod.mk.injEq] at h
  simp [State.passFrame, State.passRest, h]

theorem readBit_passFrame (s : State) : (readBit s).state.passFrame true = s.passFrame true := by
  have h := readBit_brRest s
  simp only [State.brRest, State.coderRest, Prod.mk.injEq] at h
  simp [State.passFrame, State.passRest, h, readBit_mode]

theorem passBit_passFrame (raw : Bool) (k : Category) (s : State) :
    (passBit raw k s).state.passFrame raw = s.passFrame raw := by
  cases raw
  · exact decodeMq_passFrame k s
  · exact readBit_passFrame s

theorem passSign_passFrame (raw : Bool) (x y : Nat) (s : State) :
    (passSign raw x y s).state.passFrame raw = s.passFrame raw := by
  cases raw
  · exact Act.keeps_bind (State.passFrame false) (decodeMq_passFrame _ s) fun _ _ => rfl
  · exact readBit_passFrame s

theorem becomeSignificant_passFrame (raw : Bool) (p x y : Nat) (s : State) :
    (becomeSignificant raw p x y s).state.passFrame raw = s.passFrame raw :=
  Act.keeps_bind (State.passFrame raw) (passSign_passFrame raw x y s) fun _ _ => rfl

theorem spVisit_passFrame (p : Nat) (raw : Bool) (c : Nat × Nat) (s : State) :
    (spVisit p raw c s).state.passFrame raw = s.passFrame raw := by
  unfold spVisit
  split
  · rfl
  split
  · rfl
  refine Act.keeps_bind (State.passFrame raw) (passBit_passFrame raw _ s) fun d t => ?_
  split
  · exact becomeSignificant_passFrame raw p _ _ _
  · rfl

theorem mrVisit_passFrame (p : Nat) (raw : Bool) (c : Nat × Nat) (s : State) :
    (mrVisit p raw c s).state.passFrame raw = s.passFrame raw := by
  unfold mrVisit
  split
  · rfl
  exact Act.keeps_bind (State.passFrame raw) (passBit_passFrame raw _ s) fun d t => rfl

theorem cuVisit_passFrame (p : Nat) (c : Nat × Nat) (s : State) :
    (cuVisit p c s).state.passFrame false = s.passFrame false := by
  unfold cuVisit
  split
  · rfl
  refine Act.keeps_bind (State.passFrame false) (decodeMq_passFrame _ s) fun d t => ?_
  split
  · exact becomeSignificant_passFrame false p _ _ _
  · rfl

theorem runPosition_passFrame (s : State) : (runPosition s).state.passFrame false = s.passFrame false :=
  Act.keeps_bind (State.passFrame false) (decodeMq_passFrame _ s) fun _ t =>
    Act.keeps_bind (State.passFrame false) (decodeMq_passFrame _ t) fun _ _ => rfl

theorem cuColumn_passFrame (p : Nat) (c : Nat × Nat) (s : State) :
    (cuColumn p c s).state.passFrame false = s.passFrame false := by
  unfold cuColumn
  split
  · refine Act.keeps_bind (State.passFrame false) (decodeMq_passFrame _ s) fun d t => ?_
    split
    · rfl
    · exact Act.keeps_bind (State.passFrame false) (runPosition_passFrame t) fun r u =>
        Act.keeps_bind (State.passFrame false) (becomeSignificant_passFrame false p _ _ u) fun _ v =>
          forEach_keeps (State.passFrame false) (fun b w => cuVisit_passFrame p b w) _ v
  · exact forEach_keeps (State.passFrame false) (fun b w => cuVisit_passFrame p b w) _ s

theorem uniformBits_passFrame (n : Nat) (v : BitVec 4) (s : State) :
    (uniformBits n v s).state.passFrame false = s.passFrame false := by
  induction n generalizing v s with
  | zero => rfl
  | succ n ih => exact Act.keeps_bind (State.passFrame false) (decodeMq_passFrame _ s) fun _ t => ih _ t

theorem segSymCheck_passFrame (s : State) : (segSymCheck s).state.passFrame false = s.passFrame false :=
  Act.keeps_bind (State.passFrame false) (uniformBits_passFrame 4 0 s) fun _ _ => rfl

theorem spPass_passFrame (p : Nat) (raw : Bool) (s : State) :
    (spPass p raw s).state.passFrame raw = s.passFrame raw :=
  Act.keeps_bind (State.passFrame raw)
    (forEach_keeps (State.passFrame raw) (fun b t => spVisit_passFrame p raw b t) _ s) fun _ _ => rfl

theorem mrPass_passFrame (p : Nat) (raw : Bool) (s : State) :
    (mrPass p raw s).state.passFrame raw = s.passFrame raw :=
  Act.keeps_bind (State.passFrame raw)
    (forEach_keeps (State.passFrame raw) (fun b t => mrVisit_passFrame p raw b t) _ s) fun _ _ => rfl

theorem cuPass_passFrame (p : Nat) (s : State) : (cuPass p s).state.passFrame false = s.passFrame false := by
  refine Act.keeps_bind (State.passFrame false)
    (forEach_keeps (State.passFrame false) (fun b t => cuColumn_passFrame p b t) _ s) fun _ t => ?_
  split
  · exact segSymCheck_passFrame t.clearVis
  · rfl

/-- Every pass keeps what no pass writes. -/
theorem runPass_passRest (kind : PassKind) (p : BitVec 5) (raw : Bool) (s : State) :
    (runPass kind p raw s).state.passRest = s.passRest := by
  cases kind
  · exact congrArg Prod.fst (spPass_passFrame p.toNat raw s)
  · exact congrArg Prod.fst (mrPass_passFrame p.toNat raw s)
  · exact congrArg Prod.fst (cuPass_passFrame p.toNat s)

/-! ## Completion -/

/-- The coder of a pass is bound to a source it can read without an error. -/
def PassClean (raw : Bool) (s : State) : Prop := if raw then ReaderClean s else DecoderClean s

theorem PassClean.of_same {raw : Bool} {s t : State} (h1 : t.par = s.par) (h2 : t.src = s.src) (h3 : t.bound = s.bound)
    (h4 : t.br = s.br) (h5 : t.cwmem = s.cwmem) (h : PassClean raw s) : PassClean raw t := by
  cases raw
  · exact DecoderClean.of_coderRest_ranges h1 (by rw [h2]) h3 h
  · obtain ⟨hr, hc, hm⟩ := h
    exact ⟨by simpa [State.SourceReadable, h1, h2] using hr,
      by simpa [State.StuffingClean, State.sourceByte, State.cwByte, h2, h4, h5] using hc, by rw [h4]; exact hm⟩

theorem passBit_done {raw : Bool} (k : Category) {s : State} (h : PassClean raw s) :
    ∃ d t, passBit raw k s = .done d t ∧ PassClean raw t := by
  cases raw
  · exact decodeMq_done k h
  · exact readBit_clean h

theorem passSign_done {raw : Bool} (x y : Nat) {s : State} (h : PassClean raw s) :
    ∃ d t, passSign raw x y s = .done d t ∧ PassClean raw t := by
  cases raw
  · obtain ⟨d, t, ht, hc⟩ := decodeMq_done (s.sc x y).1 h
    exact ⟨d ^^ (s.sc x y).2, t, by simp [passSign, ht], hc⟩
  · exact readBit_clean h

theorem becomeSignificant_done {raw : Bool} (p x y : Nat) {s : State} (h : PassClean raw s) :
    ∃ t, becomeSignificant raw p x y s = .done () t ∧ PassClean raw t := by
  obtain ⟨d, t, ht, hc⟩ := passSign_done x y h
  exact ⟨t.setSig x y p d, by simp [becomeSignificant, ht], PassClean.of_same (s := t) rfl rfl rfl rfl rfl hc⟩

theorem spVisit_done (p : Nat) {raw : Bool} (c : Nat × Nat) {s : State} (h : PassClean raw s) :
    ∃ t, spVisit p raw c s = .done () t ∧ PassClean raw t := by
  unfold spVisit
  split
  · exact ⟨s, rfl, h⟩
  split
  · exact ⟨s, rfl, h⟩
  obtain ⟨d, t, ht, hc⟩ := passBit_done (s.zc c.1 c.2) h
  have hv : PassClean raw (t.setVis c.1 c.2) := PassClean.of_same (s := t) rfl rfl rfl rfl rfl hc
  rw [ht, Act.bind_done]
  split
  · exact becomeSignificant_done p _ _ hv
  · exact ⟨_, rfl, hv⟩

theorem mrVisit_done (p : Nat) {raw : Bool} (c : Nat × Nat) {s : State} (h : PassClean raw s) :
    ∃ t, mrVisit p raw c s = .done () t ∧ PassClean raw t := by
  unfold mrVisit
  split
  · exact ⟨s, rfl, h⟩
  obtain ⟨d, t, ht, hc⟩ := passBit_done (s.mrLabel c.1 c.2) h
  exact ⟨t.refine c.1 c.2 p d, by rw [ht, Act.bind_done], PassClean.of_same (s := t) rfl rfl rfl rfl rfl hc⟩

theorem cuVisit_done (p : Nat) (c : Nat × Nat) {s : State} (h : PassClean false s) :
    ∃ t, cuVisit p c s = .done () t ∧ PassClean false t := by
  unfold cuVisit
  split
  · exact ⟨s, rfl, h⟩
  obtain ⟨d, t, ht, hc⟩ := decodeMq_done (s.zc c.1 c.2) h
  rw [ht, Act.bind_done]
  split
  · exact becomeSignificant_done (raw := false) p _ _ hc
  · exact ⟨_, rfl, hc⟩

theorem runPosition_done {s : State} (h : PassClean false s) :
    ∃ r t, runPosition s = .done r t ∧ r < 4 ∧ PassClean false t := by
  obtain ⟨d1, t, ht, hc⟩ := decodeMq_done uniformCategory h
  obtain ⟨d0, u, hu, hcu⟩ := decodeMq_done uniformCategory hc
  refine ⟨2 * d1.toNat + d0.toNat, u, by simp [runPosition, ht, hu], ?_, hcu⟩
  cases d1 <;> cases d0 <;> decide

theorem cuColumn_done (p : Nat) (c : Nat × Nat) {s : State} (h : PassClean false s) :
    ∃ t, cuColumn p c s = .done () t ∧ PassClean false t := by
  unfold cuColumn
  split
  · obtain ⟨d, t, ht, hc⟩ := decodeMq_done runCategory h
    rw [ht, Act.bind_done]
    split
    · exact ⟨_, rfl, hc⟩
    · obtain ⟨r, u, hu, -, hcu⟩ := runPosition_done hc
      obtain ⟨v, hv, hcv⟩ := becomeSignificant_done (raw := false) p c.1 (c.2 + r) hcu
      rw [hu, Act.bind_done, hv, Act.bind_done]
      exact forEach_done (PassClean false) (fun b _ w hw => cuVisit_done p b hw) hcv
  · exact forEach_done (PassClean false) (fun b _ w hw => cuVisit_done p b hw) h

theorem uniformBits_done (n : Nat) {v : BitVec 4} {s : State} (h : PassClean false s) :
    ∃ w t, uniformBits n v s = .done w t ∧ PassClean false t := by
  induction n generalizing v s with
  | zero => exact ⟨v, s, rfl, h⟩
  | succ n ih =>
    obtain ⟨d, t, ht, hc⟩ := decodeMq_done uniformCategory h
    obtain ⟨w, u, hu, hcu⟩ := ih (v := (v <<< 1) ||| (BitVec.ofBool d).setWidth 4) hc
    exact ⟨w, u, by simp [uniformBits, ht, hu], hcu⟩

/-- A significance pass whose coder can read completes without an error signal (44_coding_passes.md R248). -/
theorem spPass_done (p : Nat) {raw : Bool} {s : State} (h : PassClean raw s) :
    ∃ t, spPass p raw s = .done false t ∧ PassClean raw t := by
  obtain ⟨t, ht, hc⟩ := forEach_done (PassClean raw) (l := scan s.cfg.w s.cfg.h)
    (fun b _ w hw => spVisit_done p b hw) h
  exact ⟨t, by simp [spPass, ht], hc⟩

/-- A refinement pass whose coder can read completes without an error signal (44_coding_passes.md R251). -/
theorem mrPass_done (p : Nat) {raw : Bool} {s : State} (h : PassClean raw s) :
    ∃ t, mrPass p raw s = .done false t ∧ PassClean raw t := by
  obtain ⟨t, ht, hc⟩ := forEach_done (PassClean raw) (l := scan s.cfg.w s.cfg.h)
    (fun b _ w hw => mrVisit_done p b hw) h
  exact ⟨t, by simp [mrPass, ht], hc⟩

/-- A cleanup pass whose coder can read completes; without segmentation symbols it signals no error
(44_coding_passes.md R257). -/
theorem cuPass_done (p : Nat) {s : State} (h : PassClean false s) :
    ∃ e t, cuPass p s = .done e t ∧ (s.cfg.segSym = false → e = false) ∧ PassClean false t := by
  obtain ⟨t, ht, hc⟩ := forEach_done (PassClean false) (l := columns s.cfg.w s.cfg.h)
    (fun b _ w hw => cuColumn_done p b hw) h
  have hcfg : t.cfg = s.cfg := by
    have hk := forEach_keeps (State.passFrame false) (fun b w => cuColumn_passFrame p b w)
      (columns s.cfg.w s.cfg.h) s
    rw [ht] at hk
    simp only [State.passFrame, State.passRest, Prod.mk.injEq, Act.state_done] at hk
    exact hk.1.2.2.2.2.2.2.2.2.1
  have hv : PassClean false t.clearVis := PassClean.of_same (s := t) rfl rfl rfl rfl rfl hc
  simp only [cuPass, ht, Act.bind_done, hcfg]
  split
  · obtain ⟨w, u, hu, hcu⟩ := uniformBits_done 4 (v := 0) hv
    exact ⟨w != 0b1010#4, u, by unfold segSymCheck; rw [hu]; rfl, fun hf => by simp_all, hcu⟩
  · exact ⟨false, _, rfl, fun _ => rfl, hv⟩

end Sys2Proof.Machine
end

