-- ==== Sys2Proof/Laws/Block.lean ====
section
/-! SUPPORT. BLK_SEGMENT: what its steps keep, and when they complete. -/

namespace Sys2Proof.Machine

/-! ## Frames -/

/-- What no step of a segment writes before its error, if any, is latched. -/
def State.segRest (s : State) :=
  (s.par, s.cwmem, s.hostq, s.csr, s.res, s.cfg, s.st, s.free.count, s.free.zeroed)

/-- What no step of a segment writes once its coder is bound. -/
def State.boundRest (s : State) := (s.segRest, s.src.ranges, s.bound, s.br.mode, s.free)

theorem segRest_of_initRest {s t : State} (h : t.initRest = s.initRest) : t.segRest = s.segRest := by
  simp only [State.initRest, Prod.mk.injEq] at h
  simp [State.segRest, h]

theorem boundRest_of_passRest {s t : State} (h : t.passRest = s.passRest) : t.boundRest = s.boundRest := by
  simp only [State.passRest, Prod.mk.injEq] at h
  simp [State.boundRest, State.segRest, h]

theorem boundRest_of_mqOnlyRest {s t : State} (h : t.mqOnlyRest = s.mqOnlyRest) : t.boundRest = s.boundRest := by
  simp only [State.mqOnlyRest, State.coderRest, Prod.mk.injEq] at h
  simp [State.boundRest, State.segRest, h]

theorem bindDecoder_segRest (s : State) : (bindDecoder s).state.segRest = s.segRest :=
  (segRest_of_initRest (initDec_rest _)).trans rfl

/-- The coder step keeps the rest of the segment's state and the cursor. -/
theorem coderStep_segRest (raw : Bool) (s : State) :
    (coderStep raw s).state.segRest = s.segRest ∧ (coderStep raw s).state.cur = s.cur ∧
      (coderStep raw s).state.cells = s.cells ∧ (coderStep raw s).state.samp = s.samp := by
  unfold coderStep freshCoder appendSegment
  split
  · split
    · exact ⟨rfl, rfl, rfl, rfl⟩
    · have h := initDec_rest (s.bindSource s.csr.segBase s.csr.segLen .mq)
      refine ⟨bindDecoder_segRest s, ?_⟩
      simp only [State.initRest, Prod.mk.injEq] at h
      exact ⟨h.2.2.2.2.2.2.2.2.2.1, h.2.2.2.2.2.2.2.2.2.2.2.2.1, h.2.2.2.2.2.2.2.2.2.2.2.1⟩
  · by_cases hb : s.bound ≠ (if raw then Bound.br else Bound.mq)
    · simp only [if_pos hb, Act.state_raised, and_self]
    · by_cases hl : s.src.filled = true ∧ 0 < s.csr.segLen.toNat
      · simp only [if_neg hb, if_pos hl, Act.state_raised, and_self]
      · simp only [if_neg hb, if_neg hl, Act.state_done]
        exact ⟨rfl, rfl, rfl, rfl⟩

theorem resetContexts_boundRest (s : State) : s.resetContexts.boundRest = s.boundRest := rfl

theorem segmentReset_boundRest (s : State) : s.segmentReset.boundRest = s.boundRest := by
  unfold State.segmentReset; split <;> rfl

theorem passReset_boundRest (s : State) : s.passReset.boundRest = s.boundRest := by
  unfold State.passReset; split <;> rfl

theorem runPass_boundRest (kind : PassKind) (p : BitVec 5) (raw : Bool) (s : State) :
    (runPass kind p raw s).state.boundRest = s.boundRest :=
  boundRest_of_passRest (runPass_passRest kind p raw s)

theorem segmentPass_boundRest (k : PassKind × BitVec 5) (s : State) :
    (segmentPass k s).state.boundRest = s.boundRest := by
  refine Act.keeps_bind State.boundRest ((runPass_boundRest _ _ _ _).trans (passReset_boundRest s)) fun err t => ?_
  split <;> rfl

theorem terminationCheck_boundRest (s : State) : (terminationCheck s).state.boundRest = s.boundRest := by
  unfold terminationCheck
  split
  · refine Act.keeps_bind State.boundRest (boundRest_of_mqOnlyRest (pterm_rest s)) fun d t => ?_
    split <;> rfl
  · rfl

theorem segmentPasses_boundRest (plan : List (PassKind × BitVec 5)) (s : State) :
    (forEach segmentPass plan s).state.boundRest = s.boundRest :=
  forEach_keeps State.boundRest (fun k t => segmentPass_boundRest k t) plan s

/-- A segment's steps keep what `State.segRest` lists. -/
theorem runSegment_segRest (plan : List (PassKind × BitVec 5)) (raw : Bool) (s : State) :
    (runSegment plan raw s).state.segRest = s.segRest := by
  refine Act.keeps_bind State.segRest (coderStep_segRest raw s).1 fun _ t => ?_
  refine Act.keeps_bind State.segRest ?_ fun _ u => congrArg Prod.fst (terminationCheck_boundRest u)
  exact (congrArg Prod.fst (segmentPasses_boundRest plan _)).trans (congrArg Prod.fst (segmentReset_boundRest t))

theorem segmentBody_segRest (s : State) : (segmentBody s).state.segRest = s.segRest := by
  unfold segmentBody
  split
  · rfl
  · split
    · rfl
    · rfl
    · split
      · rfl
      · exact runSegment_segRest _ _ s

/-! ## The end of BLK_SEGMENT -/

/-- All that ending a segment can do: complete or latch, then the `last` step (45_block_control.md R304). -/
theorem Act.finishSegment_cases (m : Act Unit) (last : Bool) :
    (m = .done () m.state ∧ m.finishSegment last = m.state.finishIf last) ∨
      ∃ e, m = .raised e m.state ∧ m.finishSegment last = (m.state.latch e).finishIf last := by
  cases m with
  | done a s => exact .inl ⟨rfl, rfl⟩
  | raised e s => exact .inr ⟨e, rfl, rfl⟩

theorem State.finishIf_eq (s : State) (last : Bool) :
    s.finishIf last = s.setSt { s.st with finished := s.st.finished || last } := by
  cases last
  · simp [State.finishIf]; rfl
  · simp [State.finishIf]

/-- BLK_SEGMENT always ends by itself: its own `try` catches every raise but the missing block's. -/
theorem execBlkSegment_error (last : Bool) {s : State} (h : s.st.error = true) :
    execBlkSegment last s = .next (s.finishIf (last && s.st.started)) := by
  rw [execBlkSegment, runCommand_always, blkSegment, if_pos h, Act.outcome_done]

theorem execBlkSegment_notStarted (last : Bool) {s : State} (h : s.st.error = false) (hs : s.st.started = false) :
    execBlkSegment last s = .next (s.latch .notReady) := by
  rw [execBlkSegment, runCommand_always, blkSegment, if_neg (by simp [h]), if_pos hs, Act.outcome_raised]

theorem execBlkSegment_started (last : Bool) {s : State} (h : s.st.error = false) (hs : s.st.started = true) :
    execBlkSegment last s = .next ((segmentBody s).finishSegment last) := by
  rw [execBlkSegment, runCommand_always, blkSegment, if_neg (by simp [h]), if_neg (by simp [hs]), Act.outcome_done]

/-- The three ways BLK_SEGMENT can go. -/
theorem execBlkSegment_cases {last : Bool} {s t : State} (h : execBlkSegment last s = .next t) :
    (s.st.error = true ∧ t = s.finishIf (last && s.st.started)) ∨
    (s.st.error = false ∧ s.st.started = false ∧ t = s.latch .notReady) ∨
    (s.st.error = false ∧ s.st.started = true ∧ t = (segmentBody s).finishSegment last) := by
  cases he : s.st.error
  · cases hs : s.st.started
    · rw [execBlkSegment_notStarted last he hs] at h
      simp_all
    · rw [execBlkSegment_started last he hs] at h
      simp_all
  · rw [execBlkSegment_error last he] at h
    simp_all

/-! ## Planning -/

theorem planPasses_length {cfg : BlockConfig} {n : Nat} {last : Option PassKind} {p : BitVec 5}
    {plan : List (PassKind × BitVec 5)} (h : planPasses cfg n last p = some plan) : plan.length = n := by
  induction n generalizing last p plan with
  | zero => simp [planPasses] at h; simp [← h]
  | succ n ih =>
    unfold planPasses at h
    split at h
    · cases h
    · simp only [Option.map_eq_some_iff] at h
      obtain ⟨rest, hr, rfl⟩ := h
      simp [ih hr]

/-- A plan for `m + n` passes is one for `m` and, from the pass that ends it, one for `n`. -/
theorem planPasses_add {cfg : BlockConfig} {m n : Nat} {last : Option PassKind} {p : BitVec 5}
    {plan : List (PassKind × BitVec 5)} (h : planPasses cfg (m + n) last p = some plan) :
    ∃ l₁ l₂, plan = l₁ ++ l₂ ∧ planPasses cfg m last p = some l₁ ∧
      planPasses cfg n ((l₁.getLast?.map Prod.fst).or last) ((l₁.getLast?.map Prod.snd).getD p) = some l₂ := by
  induction m generalizing last p plan with
  | zero => exact ⟨[], plan, rfl, rfl, by simpa using h⟩
  | succ m ih =>
    rw [show m + 1 + n = (m + n) + 1 by omega] at h
    unfold planPasses at h
    split at h
    · cases h
    · rename_i kind q hq
      simp only [Option.map_eq_some_iff] at h
      obtain ⟨rest, hr, rfl⟩ := h
      obtain ⟨l₁, l₂, rfl, h₁, h₂⟩ := ih hr
      refine ⟨(kind, q) :: l₁, l₂, rfl, by unfold planPasses; simp [hq, h₁], ?_⟩
      cases l₁ with
      | nil => simpa using h₂
      | cons a l => 
        rw [List.getLast?_cons_cons]
        have : ∃ z, (a :: l).getLast? = some z := ⟨_, List.getLast?_eq_some_getLast (by simp)⟩
        obtain ⟨z, hz⟩ := this
        rw [hz] at h₂ ⊢
        simpa using h₂

/-! ## Completion -/

/-- A pass whose coder can read completes; only a cleanup pass with segmentation symbols signals an error. -/
theorem runPass_done (kind : PassKind) (p : BitVec 5) {raw : Bool} {s : State} (hk : kind = .cu → raw = false)
    (h : PassClean raw s) :
    ∃ e t, runPass kind p raw s = .done e t ∧ (s.cfg.segSym = false → e = false) ∧ PassClean raw t := by
  cases kind with
  | sp =>
    obtain ⟨t, ht, hc⟩ := spPass_done p.toNat h
    exact ⟨false, t, ht, fun _ => rfl, hc⟩
  | mr =>
    obtain ⟨t, ht, hc⟩ := mrPass_done p.toNat h
    exact ⟨false, t, ht, fun _ => rfl, hc⟩
  | cu =>
    obtain rfl := hk rfl
    exact cuPass_done p.toNat h

theorem rawPass_cu (cfg : BlockConfig) (p : BitVec 5) : rawPass cfg .cu p = false := rfl

theorem PassClean.resetContexts {raw : Bool} {s : State} (h : PassClean raw s) : PassClean raw s.resetContexts :=
  PassClean.of_same (s := s) rfl rfl rfl rfl rfl h

theorem PassClean.passReset {raw : Bool} {s : State} (h : PassClean raw s) : PassClean raw s.passReset := by
  unfold State.passReset; split
  · exact h.resetContexts
  · exact h

theorem PassClean.segmentReset {raw : Bool} {s : State} (h : PassClean raw s) : PassClean raw s.segmentReset := by
  unfold State.segmentReset; split
  · exact h.resetContexts
  · exact h

/-- A pass of a segment whose coder can read completes, or signals a segmentation mismatch. -/
theorem segmentPass_done (k : PassKind × BitVec 5) {s : State} (h : PassClean (rawPass s.cfg k.1 k.2) s) :
    ∃ t, PassClean (rawPass s.cfg k.1 k.2) t ∧
      t.cur = { lastPass := some k.1, plane := k.2, passCount := s.cur.passCount + 1,
                lastType := if rawPass s.cfg k.1 k.2 then .raw else .mq } ∧
      (segmentPass k s = .done () t ∨ (s.cfg.segSym = true ∧ segmentPass k s = .raised .segmentationMismatch t)) := by
  have hcfg : s.passReset.cfg = s.cfg := by
    have := congrArg (fun x => x.1) (passReset_boundRest s)
    simp only [State.boundRest, State.segRest, Prod.mk.injEq] at this
    exact this.2.2.2.2.2.1
  have hcur : s.passReset.cur = s.cur := by unfold State.passReset; split <;> rfl
  obtain ⟨e, t, ht, he, hc⟩ := runPass_done k.1 k.2 (raw := rawPass s.cfg k.1 k.2)
    (fun h => by rw [h]; rfl) h.passReset
  have htc : t.cur = s.cur := by
    have := runPass_passRest k.1 k.2 (rawPass s.cfg k.1 k.2) s.passReset
    rw [ht] at this
    simp only [State.passRest, Prod.mk.injEq, Act.state_done] at this
    rw [this.2.2.2.2.2.2.2.2.2.1, hcur]
  refine ⟨t.advance k.1 k.2 (rawPass s.cfg k.1 k.2), PassClean.of_same (s := t) rfl rfl rfl rfl rfl hc, ?_, ?_⟩
  · simp only [State.advance, State.setCur_cur, htc]
  · unfold segmentPass
    rw [ht, Act.bind_done]
    cases e with
    | false => exact .inl rfl
    | true =>
      refine .inr ⟨?_, rfl⟩
      cases hs : s.cfg.segSym
      · rw [hcfg] at he; exact absurd (he hs) (by simp)
      · rfl

end Sys2Proof.Machine
end

