-- ==== Sys2Proof/Laws/Commands.lean ====
section
/-! SUPPORT. One lemma for each command: what its parts keep, the command keeps. A statement about what a command leaves
alone names a view `π` of the state and cites these. -/

namespace Sys2Proof.Machine

variable {γ : Type} {s t : State}

/-- A view of the state that neither the latch nor a write of RES touches. -/
structure Quiet (π : State → γ) : Prop where
  latch : ∀ (u : State) e, π (u.latch e) = π u
  res : ∀ (u : State) v, π (u.setRes v) = π u

variable {π : State → γ}

/-- A command that returns the value of one stretch of pseudocode keeps what that stretch keeps. -/
theorem Quiet.bind_res {α : Type} (q : Quiet π) {m : Act α} {u : State} (f : α → Res) (h : π m.state = π u) :
    π (m.bind fun a v => .done () (v.setRes (f a)) : Act Unit).state = π u :=
  Act.keeps_bind π h fun a v => q.res v (f a)

theorem execCsrWr_keeps {csr : BitVec 4} {data : Word} (h : execCsrWr csr data s = .next t) (hl : ∀ (u : State) e, π (u.latch e) = π u)
    (hc : ∀ (u : State) v, π (u.setCsr v) = π u) : π t = π s :=
  runCommand_keeps π h hl (hc _ _)

theorem execCsrRd_keeps {csr : BitVec 4} (h : execCsrRd csr s = .next t) (q : Quiet π)
    (hf : ∀ (u : State) v, π (u.setFree v) = π u) : π t = π s := by
  refine runCommand_keeps π h q.latch ?_
  refine (q.res _ _).trans ?_
  unfold State.spendFree
  split
  · exact hf _ _
  · rfl

/-- BLK_START writes what `latchBlock` and `freshBlock` write. -/
theorem execBlkStart_keeps (h : execBlkStart s = .next t) (hl : ∀ (u : State) e, π (u.latch e) = π u)
    (hb : ∀ u : State, π u.latchBlock = π u) (hf : ∀ u : State, π u.freshBlock = π u) : π t = π s := by
  refine runCommand_keeps π h hl ?_
  unfold blkStart
  split
  · exact (hf _).trans (hb _)
  · exact hb _

theorem execBlkSegment_keeps {last : Bool} (h : execBlkSegment last s = .next t)
    (hl : ∀ (u : State) e, π (u.latch e) = π u) (hf : ∀ (u : State) b, π (u.finishIf b) = π u)
    (hb : ∀ u : State, π (segmentBody u).state = π u) : π t = π s := by
  rcases execBlkSegment_cases h with ⟨-, rfl⟩ | ⟨-, -, rfl⟩ | ⟨-, -, rfl⟩
  · exact hf _ _
  · exact hl _ _
  · rcases Act.finishSegment_cases (segmentBody s) last with ⟨-, h⟩ | ⟨e, -, h⟩
    · rw [h, hf, hb]
    · rw [h, hf, hl, hb]

theorem execBrBind_keeps {mode : Bool} (h : execBrBind mode s = .next t) (hl : ∀ (u : State) e, π (u.latch e) = π u)
    (hb : ∀ (u : State) m, π (u.bindReader m) = π u) : π t = π s :=
  runCommand_keeps π h hl (hb _ _)

theorem execBrReadbit_keeps (h : execBrReadbit s = .next t) (q : Quiet π)
    (hb : ∀ u : State, π (readBit u).state = π u) : π t = π s := by
  refine runCommand_keeps π h q.latch ?_
  split
  · exact q.bind_res _ (hb s)
  · rfl

theorem execBrReadbits_keeps {n : BitVec 7} (h : execBrReadbits n s = .next t) (q : Quiet π)
    (hb : ∀ n v (u : State), π (readBits n v u).state = π u) : π t = π s := by
  refine runCommand_keeps π h q.latch ?_
  split
  · exact q.bind_res _ (hb _ _ s)
  · rfl

theorem execBrFinish_keeps (h : execBrFinish s = .next t) (q : Quiet π)
    (hb : ∀ u : State, π (skipStuffing u).state = π u) (hr : ∀ (u : State) v, π (u.setBr v) = π u) : π t = π s := by
  refine runCommand_keeps π h q.latch ?_
  split
  · exact Act.keeps_bind π (hb s) fun _ v => (q.res _ _).trans (hr _ _)
  · rfl

theorem execMqInit_keeps (h : execMqInit s = .next t) (hl : ∀ (u : State) e, π (u.latch e) = π u)
    (hb : ∀ u : State, π (bindDecoder u).state = π u) : π t = π s :=
  runCommand_keeps π h hl (hb s)

theorem execMqDecode_keeps (h : execMqDecode s = .next t) (q : Quiet π)
    (hb : ∀ k (u : State), π (decodeMq k u).state = π u) : π t = π s := by
  refine runCommand_keeps π h q.latch ?_
  split
  · exact q.bind_res _ (hb _ s)
  · rfl

theorem execMqDecodeRaw_keeps (h : execMqDecodeRaw s = .next t) (q : Quiet π)
    (hb : ∀ u : State, π (readBit u).state = π u) : π t = π s := by
  refine runCommand_keeps π h q.latch ?_
  split
  · exact q.bind_res _ (hb s)
  · rfl

theorem execMqPterm_keeps (h : execMqPterm s = .next t) (q : Quiet π) (hb : ∀ u : State, π (pterm u).state = π u) :
    π t = π s := by
  refine runCommand_keeps π h q.latch ?_
  split
  · exact q.bind_res _ (hb s)
  · rfl

theorem execCxReset_keeps (h : execCxReset s = .next t) (hl : ∀ (u : State) e, π (u.latch e) = π u)
    (hb : ∀ u : State, π u.resetContexts = π u) : π t = π s :=
  runCommand_keeps π h hl (hb s)

theorem execCxSelect_keeps {k : BitVec 5} (h : execCxSelect k s = .next t) (hl : ∀ (u : State) e, π (u.latch e) = π u)
    (hb : ∀ (u : State) v, π (u.setCxsel v) = π u) : π t = π s := by
  refine runCommand_keeps π h hl ?_
  split
  · exact hb _ _
  · rfl

theorem execCxRead_keeps (h : execCxRead s = .next t) (q : Quiet π) : π t = π s :=
  runCommand_keeps π h q.latch (q.res _ _)

/-- The pass commands keep what their pass keeps. -/
theorem passCommand_keeps (q : Quiet π) {raw : Bool} {p : BitVec 5} {body : State → Act Bool}
    (hb : ∀ u : State, π (body u).state = π u) : π (passCommand raw p body s).state = π s := by
  unfold passCommand
  split
  · split
    · exact q.bind_res _ (hb s)
    · rfl
  · rfl

theorem execPassSp_keeps {p : BitVec 5} {raw : Bool} (h : execPassSp p raw s = .next t) (q : Quiet π)
    (hb : ∀ u : State, π (spPass p.toNat raw u).state = π u) : π t = π s :=
  runCommand_keeps π h q.latch (passCommand_keeps q hb)

theorem execPassMr_keeps {p : BitVec 5} {raw : Bool} (h : execPassMr p raw s = .next t) (q : Quiet π)
    (hb : ∀ u : State, π (mrPass p.toNat raw u).state = π u) : π t = π s :=
  runCommand_keeps π h q.latch (passCommand_keeps q hb)

theorem execPassCu_keeps {p : BitVec 5} (h : execPassCu p s = .next t) (q : Quiet π)
    (hb : ∀ u : State, π (cuPass p.toNat u).state = π u) : π t = π s :=
  runCommand_keeps π h q.latch (passCommand_keeps q hb)

theorem execNextPass_keeps (h : execNextPass s = .next t) (q : Quiet π) : π t = π s := by
  refine runCommand_keeps π h q.latch ?_
  split
  · exact q.res _ _
  · rfl

end Sys2Proof.Machine
end

