-- ==== Sys2Proof/Laws/Decisions.lean ====
section
/-! SUPPORT. The passes and a segment, told by the commands that do their parts: one decision is that of MQ_DECODE with its
context selected, or of MQ_DECODE_RAW; one coefficient, one column; and a loop is a fold over the states its steps leave. -/

namespace Sys2Proof.Machine

variable {α β : Type}

/-! ## Where a stretch of pseudocode ends -/

/-- The state with the error latched, if one was raised. -/
def Act.ended (m : Act α) : State :=
  match m with
  | .done _ s => s
  | .raised e s => s.latch e

@[simp] theorem Act.ended_done (a : α) (s : State) : (Act.done a s).ended = s := rfl
@[simp] theorem Act.ended_raised (e : Err) (s : State) : (Act.raised e s : Act α).ended = s.latch e := rfl

theorem Act.outcome_eq_ended (m : Act Unit) : m.outcome = .next m.ended := by cases m <;> rfl

/-- A loop ends where the fold of its steps ends, when a step leaves a state with an error alone. -/
theorem forEach_ended (P : State → Prop) {f : β → State → Act Unit} {g : State → β → State} {l : List β}
    (hf : ∀ b ∈ l, ∀ s, P s → (f b s).ended = g s b) (hg : ∀ b (s : State), s.st.error = true → g s b = s)
    (hP : ∀ b ∈ l, ∀ s t, P s → f b s = .done () t → P t) {s : State} (hs : P s) :
    (forEach f l s).ended = l.foldl g s := by
  have herr : ∀ (l : List β) (s : State), s.st.error = true → l.foldl g s = s := by
    intro l
    induction l with
    | nil => intro s _; rfl
    | cons b bs ih => intro s h; rw [List.foldl_cons, hg b s h, ih s h]
  induction l generalizing s with
  | nil => rfl
  | cons b bs ih =>
    have h1 := hf b List.mem_cons_self s hs
    rw [List.foldl_cons, ← h1, forEach]
    cases hb : f b s with
    | done a t =>
      exact ih (fun c hc => hf c (List.mem_cons_of_mem _ hc)) (fun c hc => hP c (List.mem_cons_of_mem _ hc))
        (hP b List.mem_cons_self s t hs hb)
    | raised e t => exact (herr bs _ (State.latch_error t e)).symm

/-! ## CXSEL is nothing to the coders -/

/-- The same pseudocode, from a state with another CXSEL. -/
def Act.withCxsel (m : Act α) (k : Category) : Act α :=
  match m with
  | .done a s => .done a (s.setCxsel k)
  | .raised e s => .raised e (s.setCxsel k)

@[simp] theorem Act.withCxsel_done (a : α) (s : State) (k : Category) :
    (Act.done a s).withCxsel k = .done a (s.setCxsel k) := rfl
@[simp] theorem Act.withCxsel_raised (e : Err) (s : State) (k : Category) :
    (Act.raised e s : Act α).withCxsel k = .raised e (s.setCxsel k) := rfl

/-- A sequence whose parts do not look at CXSEL does not look at it. -/
theorem Act.bind_withCxsel {m m' : Act α} {f : α → State → Act β} (k : Category) (hm : m' = m.withCxsel k)
    (hf : ∀ a s, f a (s.setCxsel k) = (f a s).withCxsel k) : m'.bind f = (m.bind f).withCxsel k := by
  subst hm
  cases m with
  | done a s => exact hf a s
  | raised e s => rfl

theorem fetchByte_setCxsel (s : State) (k : Category) : fetchByte (s.setCxsel k) = (fetchByte s).withCxsel k := by
  rcases fetchByte_cases s with ⟨a, h, ha, hd⟩ | ⟨h, hb, hd⟩ | hd
  · rw [hd, fetchByte_real (s := s.setCxsel k) h ha]; rfl
  · rw [hd, fetchByte_fill (s := s.setCxsel k) h hb]; rfl
  · rw [hd]
    cases h : srcAddr s.src.ranges s.src.pos.toNat with
    | some a =>
      by_cases ha : a < s.par.cwmemSize
      · rw [fetchByte_real h ha] at hd; cases hd
      · rw [fetchByte_outside (s := s.setCxsel k) h ha]; rfl
    | none =>
      by_cases hb : s.bound = .br ∧ s.br.mode = false
      · rw [fetchByte_header (s := s.setCxsel k) h hb.1 hb.2]; rfl
      · rw [fetchByte_fill h hb] at hd; cases hd

theorem byteIn_setCxsel (s : State) (k : Category) : byteIn (s.setCxsel k) = (byteIn s).withCxsel k := by
  unfold byteIn
  rw [State.setCxsel_mq]
  split
  · rfl
  · exact Act.bind_withCxsel k (fetchByte_setCxsel s k) fun _ _ => rfl

theorem renormLoop_setCxsel (n : Nat) (s : State) (k : Category) :
    renormLoop n (s.setCxsel k) = (renormLoop n s).withCxsel k := by
  induction n generalizing s with
  | zero => rfl
  | succ n ih =>
    refine Act.bind_withCxsel k ?_ fun _ t => ?_
    · unfold byteInIfEmpty
      rw [State.setCxsel_mq]
      split
      · exact byteIn_setCxsel s k
      · rfl
    · rw [State.setCxsel_mq]
      split
      · exact ih (t.setMq t.mq.double)
      · rfl

/-- DECODE after its `A <- A - Q` (42_mq_decoder.md R161). -/
def decodeFrom (c : Category) (s : State) : Act Bool :=
  if s.mq.chigh < s.mq.a then
    if 0x8000#16 ≤ s.mq.a then .done (s.ctx c).MPS s
    else (renormD (mpsExchange c s).2).bind fun _ t => .done (mpsExchange c s).1 t
  else
    (renormD (lpsExchange c (s.setMq s.mq.subtractA)).2).bind fun _ t =>
      .done (lpsExchange c (s.setMq s.mq.subtractA)).1 t

theorem decodeMq_eq_decodeFrom (c : Category) (s : State) :
    decodeMq c s = decodeFrom c (s.setMq { s.mq with a := s.mq.a - (qe (s.ctx c).I).Qe }) := rfl

theorem mpsExchange_setCxsel (c : Category) (s : State) (k : Category) :
    mpsExchange c (s.setCxsel k) = ((mpsExchange c s).1, (mpsExchange c s).2.setCxsel k) := by
  by_cases h : s.mq.a < (qe (s.ctx c).I).Qe
  · simp only [mpsExchange, if_pos h, if_pos (show (s.setCxsel k).mq.a < (qe ((s.setCxsel k).ctx c).I).Qe from h)]; rfl
  · simp only [mpsExchange, if_neg h, if_neg (show ¬ (s.setCxsel k).mq.a < (qe ((s.setCxsel k).ctx c).I).Qe from h)]; rfl

theorem lpsExchange_setCxsel (c : Category) (s : State) (k : Category) :
    lpsExchange c (s.setCxsel k) = ((lpsExchange c s).1, (lpsExchange c s).2.setCxsel k) := by
  by_cases h : s.mq.a < (qe (s.ctx c).I).Qe
  · simp only [lpsExchange, if_pos h, if_pos (show (s.setCxsel k).mq.a < (qe ((s.setCxsel k).ctx c).I).Qe from h)]; rfl
  · simp only [lpsExchange, if_neg h, if_neg (show ¬ (s.setCxsel k).mq.a < (qe ((s.setCxsel k).ctx c).I).Qe from h)]; rfl

theorem decodeFrom_setCxsel (c : Category) (s : State) (k : Category) :
    decodeFrom c (s.setCxsel k) = (decodeFrom c s).withCxsel k := by
  unfold decodeFrom
  by_cases h : s.mq.chigh < s.mq.a
  · rw [if_pos h, if_pos (show (s.setCxsel k).mq.chigh < (s.setCxsel k).mq.a from h)]
    by_cases h' : 0x8000#16 ≤ s.mq.a
    · rw [if_pos h', if_pos (show 0x8000#16 ≤ (s.setCxsel k).mq.a from h')]
      rfl
    · rw [if_neg h', if_neg (show ¬ 0x8000#16 ≤ (s.setCxsel k).mq.a from h'), mpsExchange_setCxsel]
      exact Act.bind_withCxsel k (renormLoop_setCxsel 16 _ k) fun _ _ => rfl
  · have hl := lpsExchange_setCxsel c (s.setMq s.mq.subtractA) k
    change lpsExchange c ((s.setCxsel k).setMq (s.setCxsel k).mq.subtractA) = _ at hl
    rw [if_neg h, if_neg (show ¬ (s.setCxsel k).mq.chigh < (s.setCxsel k).mq.a from h), hl]
    exact Act.bind_withCxsel k (renormLoop_setCxsel 16 _ k) fun _ _ => rfl

/-- DECODE takes its context from its argument (42_mq_decoder.md R161). -/
theorem decodeMq_setCxsel (c : Category) (s : State) (k : Category) :
    decodeMq c (s.setCxsel k) = (decodeMq c s).withCxsel k :=
  decodeFrom_setCxsel c (s.setMq { s.mq with a := s.mq.a - (qe (s.ctx c).I).Qe }) k

/-! ## One decision -/

theorem State.after_eq {i : Instr} {s t : State} (h : exec i s = .next t) : s.after i = t := by
  rw [State.after, h]

theorem State.latch_setCxsel (s : State) (e : Err) (k : Category) :
    (s.setCxsel k).latch e = (s.latch e).setCxsel k := by
  unfold State.latch
  rw [State.setCxsel_st]
  split <;> rfl

/-- A bit as RES is 1 exactly when it is 1. -/
theorem resOfBit_eq_one (d : Bool) : (resOfBit d == 1) = d := by cases d <;> rfl

/-- The coder of a decision is bound. -/
abbrev State.DecisionReady (s : State) (raw : Bool) : Prop := if raw then s.bound = .br ∧ s.br.mode = true else s.bound = .mq

theorem coderRest_of_passBit (raw : Bool) (k : Category) (s : State) :
    (passBit raw k s).state.coderRest = s.coderRest := by
  cases raw
  · exact congrArg Prod.fst (decodeMq_mqRest k s)
  · exact congrArg Prod.fst (readBit_brRest s)

/-- What the two commands that make a decision do, CXSEL and RES put back: the decision of the pass, or its error latched. -/
theorem State.decision_eq {s : State} {raw : Bool} (k : Category) (hs : s.Safe) (hr : s.DecisionReady raw) :
    (∀ d t, passBit raw k s = .done d t → s.decision raw k = (d, t)) ∧
      ∀ e t, passBit raw k s = .raised e t → (s.decision raw k).2 = t.latch e := by
  have hrest := coderRest_of_passBit raw k s
  cases raw with
  | false =>
    have hx : exec .mqDecode (s.setCxsel k) = ((decodeMq k (s.setCxsel k)).bind fun d t =>
        .done () (t.setRes (resOfBit d)) : Act Unit).outcome := by
      change execMqDecode (s.setCxsel k) = _
      rw [execMqDecode, runCommand_safe (show (s.setCxsel k).st.error = false from hs),
        if_pos (show (s.setCxsel k).bound = .mq from hr)]
      rfl
    rw [decodeMq_setCxsel] at hx
    change (decodeMq k s).state.coderRest = s.coderRest at hrest
    change (∀ d t, decodeMq k s = .done d t → _) ∧ ∀ e t, decodeMq k s = .raised e t → _
    constructor
    · intro d t hd
      rw [hd] at hx hrest
      simp only [State.coderRest, Act.state_done, Prod.mk.injEq] at hrest
      simp only [State.decision, Bool.false_eq_true, if_false, State.after_eq hx,
        State.setRes_res, resOfBit_eq_one, Prod.mk.injEq, true_and]
      rw [← hrest.2.2.2.2.2.2.1, ← hrest.2.2.2.2.2.2.2.1]
      rfl
    · intro e t he
      rw [he] at hx hrest
      simp only [State.coderRest, Act.state_raised, Prod.mk.injEq] at hrest
      simp only [State.decision, Bool.false_eq_true, if_false, State.after_eq hx, State.latch_setCxsel]
      rw [← hrest.2.2.2.2.2.2.1, ← hrest.2.2.2.2.2.2.2.1]
      unfold State.latch
      split <;> rfl
  | true =>
    have hx : exec .mqDecodeRaw s = ((readBit s).bind fun d t => .done () (t.setRes (resOfBit d)) : Act Unit).outcome := by
      change execMqDecodeRaw s = _
      rw [execMqDecodeRaw, runCommand_safe hs, if_pos (show s.bound = .br ∧ s.br.mode = true from hr)]
    change (readBit s).state.coderRest = s.coderRest at hrest
    change (∀ d t, readBit s = .done d t → _) ∧ ∀ e t, readBit s = .raised e t → _
    constructor
    · intro d t hd
      rw [hd] at hx hrest
      simp only [State.coderRest, Act.state_done, Prod.mk.injEq] at hrest
      simp only [State.decision, if_true, State.after_eq hx, State.setRes_res, resOfBit_eq_one,
        Prod.mk.injEq, true_and]
      rw [← hrest.2.2.2.2.2.2.1, ← hrest.2.2.2.2.2.2.2.1]
      rfl
    · intro e t he
      rw [he] at hx hrest
      simp only [State.coderRest, Act.state_raised, Prod.mk.injEq] at hrest
      simp only [State.decision, if_true, State.after_eq hx]
      rw [← hrest.2.2.2.2.2.2.1, ← hrest.2.2.2.2.2.2.2.1]
      unfold State.latch
      split <;> rfl

/-! ## One coefficient -/

theorem bitWord_eq (bit : Nat) : (1#32 <<< bit) = BitVec.ofNat 32 (2 ^ bit) := by
  apply BitVec.eq_of_toNat_eq
  rw [BitVec.toNat_shiftLeft, BitVec.toNat_ofNat, Nat.shiftLeft_eq]
  simp

theorem significantWord_eq (sgn : Bool) (bit : Nat) : significantWord sgn bit = firstWord sgn bit := by
  have h : (BitVec.ofBool sgn).setWidth 32 <<< 31 = if sgn then 0x80000000 else (0 : Word) := by cases sgn <;> decide
  rw [significantWord, firstWord, bitWord_eq, h]

theorem refineWord_eq (v : Word) (d : Bool) (bit : Nat) :
    v ||| ((BitVec.ofBool d).setWidth 32 <<< bit) = if d then v ||| BitVec.ofNat 32 (2 ^ bit) else v := by
  cases d with
  | false => simp
  | true => rw [if_pos rfl, ← bitWord_eq]; rfl

/-- What a decision leaves alone of the data the passes compute with. -/
theorem passBit_data {raw : Bool} {k : Category} {s : State} {d : Bool} {t : State} (h : passBit raw k s = .done d t) :
    t.cells = s.cells ∧ t.samp = s.samp ∧ t.cfg = s.cfg ∧ t.st = s.st ∧ t.bound = s.bound ∧ t.br.mode = s.br.mode := by
  have h1 := coderRest_of_passBit raw k s
  have h2 : (passBit raw k s).state.br.mode = s.br.mode := by
    cases raw
    · have := congrArg (fun x => x.2.mode) (decodeMq_mqRest k s)
      exact this
    · exact readBit_mode s
  rw [h] at h1 h2
  simp only [State.coderRest, Act.state_done, Prod.mk.injEq] at h1 h2
  simp only [h1, h2, and_self]

theorem DecisionReady_of_eq {raw : Bool} {s t : State} (hb : t.bound = s.bound) (hm : t.br.mode = s.br.mode)
    (h : s.DecisionReady raw) : t.DecisionReady raw := by
  cases raw
  · exact hb.trans h
  · exact ⟨hb.trans h.1, hm.trans h.2⟩

/-- A state from which a pass makes its decisions. -/
structure Deciding (raw : Bool) (s : State) : Prop where
  safe : s.Safe
  ready : s.DecisionReady raw

theorem Deciding.of_passBit {raw : Bool} {k : Category} {s t : State} {d : Bool} (h : Deciding raw s)
    (hd : passBit raw k s = .done d t) : Deciding raw t := by
  obtain ⟨-, -, -, hst, hb, hm⟩ := passBit_data hd
  exact ⟨(congrArg BlockStatus.error hst).trans h.safe, DecisionReady_of_eq hb hm h.ready⟩

/-- Both outcomes of a decision: made, from a state that has changed only in the coder; or an error, latched. -/
theorem Deciding.cases {raw : Bool} {s : State} (k : Category) (h : Deciding raw s) :
    (∃ d t, passBit raw k s = .done d t ∧ s.decision raw k = (d, t) ∧ Deciding raw t) ∨
      ∃ e t, passBit raw k s = .raised e t ∧ (s.decision raw k).2 = t.latch e := by
  obtain ⟨h1, h2⟩ := State.decision_eq k h.safe h.ready
  cases hp : passBit raw k s with
  | done d t => exact .inl ⟨d, t, rfl, h1 d t hp, h.of_passBit hp⟩
  | raised e t => exact .inr ⟨e, t, rfl, h2 e t hp⟩

theorem not_safe_latch (s : State) (e : Err) : ¬ (s.latch e).Safe := by simp [State.Safe]

/-- The sign decision (44_coding_passes.md R242) and SETSIG. -/
theorem becomeSignificant_ended {raw : Bool} (p x y : Nat) {s : State} (h : Deciding raw s) :
    (becomeSignificant raw p x y s).ended = s.signStep raw (p + s.cfg.shift.toNat) x y := by
  have hsign : passSign raw x y s = (passBit raw (s.sc x y).1 s).bind fun d t =>
      .done (if raw then d else d ^^ (s.sc x y).2) t := by
    cases raw
    · rfl
    · change readBit s = (readBit s).bind fun d t => .done d t
      cases readBit s <;> rfl
  rw [becomeSignificant, hsign]
  rcases h.cases (s.sc x y).1 with ⟨d, t, hd, hdec, ht⟩ | ⟨e, t, hd, hdec⟩
  · obtain ⟨hcells, -, hcfg, -⟩ := passBit_data hd
    simp only [hd, Act.bind_done, Act.ended_done, State.signStep, hdec, if_pos ht.safe]
    rw [State.setSig, significantWord_eq, hcfg, State.cell, State.cell, hcells]
  · simp only [hd, Act.bind_raised, Act.ended_raised, State.signStep, hdec, if_neg (not_safe_latch t e)]

theorem spVisit_ended {raw : Bool} (p : Nat) (c : Nat × Nat) {s : State} (h : Deciding raw s) :
    (spVisit p raw c s).ended = s.spStep raw (p + s.cfg.shift.toNat) c := by
  unfold spVisit State.spStep
  by_cases h1 : (s.cell c.1 c.2).SIG = true
  · rw [if_pos h1, if_pos (.inl h1)]; rfl
  by_cases h2 : s.zc c.1 c.2 = 0
  · rw [if_neg h1, if_pos h2, if_pos (.inr h2)]; rfl
  rw [if_neg h1, if_neg h2, if_neg (by simp [h1, h2])]
  rcases h.cases (s.zc c.1 c.2) with ⟨d, t, hd, hdec, ht⟩ | ⟨e, t, hd, hdec⟩
  · obtain ⟨hcells, -, hcfg, -⟩ := passBit_data hd
    have hv : t.setVis c.1 c.2 = t.setCell c.1 c.2 { s.cell c.1 c.2 with VIS := true } := by
      rw [State.setVis, State.cell, State.cell, hcells]
    simp only [hd, Act.bind_done, hdec, if_pos ht.safe, ← hv]
    cases d
    · rfl
    · simp only [if_true]
      rw [becomeSignificant_ended (raw := raw) p c.1 c.2 (s := t.setVis c.1 c.2) ⟨ht.safe, ht.ready⟩,
        State.setVis_cfg, hcfg]
  · simp only [hd, Act.bind_raised, Act.ended_raised, hdec, if_neg (not_safe_latch t e)]

theorem mrVisit_ended {raw : Bool} (p : Nat) (c : Nat × Nat) {s : State} (h : Deciding raw s) :
    (mrVisit p raw c s).ended = s.mrStep raw (p + s.cfg.shift.toNat) c := by
  unfold mrVisit State.mrStep
  split
  · rfl
  rcases h.cases (s.mrLabel c.1 c.2) with ⟨d, t, hd, hdec, ht⟩ | ⟨e, t, hd, hdec⟩
  · obtain ⟨hcells, hsamp, hcfg, -⟩ := passBit_data hd
    simp only [hd, Act.bind_done, hdec, if_pos ht.safe, Act.ended_done]
    have hs : t.sampRead c.1 c.2 = s.sampRead c.1 c.2 := by rw [State.sampRead, State.sampRead, hsamp]
    have hc : t.cell c.1 c.2 = s.cell c.1 c.2 := by rw [State.cell, State.cell, hcells]
    rw [State.refine, hs, hc, hcfg, refineWord_eq]
    rfl
  · simp only [hd, Act.bind_raised, Act.ended_raised, hdec, if_neg (not_safe_latch t e)]

theorem cuVisit_ended (p : Nat) (c : Nat × Nat) {s : State} (h : Deciding false s) :
    (cuVisit p c s).ended = s.cuStep (p + s.cfg.shift.toNat) c := by
  unfold cuVisit State.cuStep
  split
  · rfl
  change ((passBit false (s.zc c.1 c.2) s).bind _).ended = _
  rcases h.cases (s.zc c.1 c.2) with ⟨d, t, hd, hdec, ht⟩ | ⟨e, t, hd, hdec⟩
  · obtain ⟨-, -, hcfg, -⟩ := passBit_data hd
    simp only [hd, Act.bind_done, hdec]
    cases d
    · simp
    · rw [if_pos rfl, if_pos ⟨rfl, ht.safe⟩, becomeSignificant_ended p c.1 c.2 ht, hcfg]
  · simp only [hd, Act.bind_raised, Act.ended_raised, hdec]
    rw [if_neg fun h => not_safe_latch t e h.2]

/-! ## One column, and the segmentation symbol -/

/-- A pass stays ready for its decisions while it keeps what no pass writes. -/
theorem Deciding.of_passRest {raw : Bool} {s t : State} (h : Deciding raw s) (hr : t.passRest = s.passRest) :
    Deciding raw t := by
  simp only [State.passRest, Prod.mk.injEq] at hr
  exact ⟨(by rw [State.Safe, hr.2.2.2.2.2.2.2.2.2.2.1]; exact h.safe), DecisionReady_of_eq (by simp [hr]) (by simp [hr]) h.ready⟩

/-- A step that completes leaves the pass ready for the next one. -/
theorem Deciding.of_step {raw : Bool} {f : State → Act Unit} {s t : State} (h : Deciding raw s)
    (hf : (f s).state.passFrame raw = s.passFrame raw) (hd : f s = .done () t) : Deciding raw t ∧ t.cfg = s.cfg := by
  have hr : t.passRest = s.passRest := by rw [hd] at hf; exact congrArg Prod.fst hf
  refine ⟨h.of_passRest hr, ?_⟩
  simp only [State.passRest, Prod.mk.injEq] at hr
  simp [hr]

/-- A state with an error goes through a decision unchanged. -/
theorem State.decision_error {s : State} (h : s.st.error = true) (raw : Bool) (k : Category) :
    (s.decision raw k).2 = s := by
  have h1 : ∀ u : State, u.st.error = true → u.after .mqDecode = u ∧ u.after .mqDecodeRaw = u := fun u hu =>
    ⟨State.after_eq (by change execMqDecode u = _; simp [execMqDecode, runCommand, hu]),
      State.after_eq (by change execMqDecodeRaw u = _; simp [execMqDecodeRaw, runCommand, hu])⟩
  cases raw
  · simp only [State.decision, Bool.false_eq_true, if_false, (h1 (s.setCxsel k) h).1]; rfl
  · simp only [State.decision, if_true, (h1 s h).2]; rfl

theorem State.signStep_error {s : State} (h : s.st.error = true) (raw : Bool) (bit x y : Nat) :
    s.signStep raw bit x y = s := by
  have hn : ¬ s.Safe := by simp [h]
  simp only [State.signStep, State.decision_error h, if_neg hn]

theorem State.cuStep_error {s : State} (h : s.st.error = true) (bit : Nat) (c : Nat × Nat) : s.cuStep bit c = s := by
  have hn : ¬ s.Safe := by simp [h]
  unfold State.cuStep
  split
  · rfl
  · simp only [State.decision_error h]
    rw [if_neg fun h => hn h.2]

theorem State.spStep_error {s : State} (h : s.st.error = true) (raw : Bool) (bit : Nat) (c : Nat × Nat) :
    s.spStep raw bit c = s := by
  have hn : ¬ s.Safe := by simp [h]
  unfold State.spStep
  split
  · rfl
  · simp only [State.decision_error h, if_neg hn]

theorem State.mrStep_error {s : State} (h : s.st.error = true) (raw : Bool) (bit : Nat) (c : Nat × Nat) :
    s.mrStep raw bit c = s := by
  have hn : ¬ s.Safe := by simp [h]
  unfold State.mrStep
  split
  · rfl
  · simp only [State.decision_error h, if_neg hn]

theorem columnRest_eq (h x y0 ystart : Nat) : columnRest h x y0 ystart = columnFrom h x y0 ystart := by
  rw [columnRest, columnFrom, stripeRows, List.filter_filter]
  congr 2
  funext y
  simp

theorem runMode_eq (s : State) (x y0 : Nat) : s.runMode x y0 = true ↔ s.InRunMode x y0 := by
  have h4 : ∀ P : Nat → Prop, (∀ j < 4, P j) ↔ P 0 ∧ P 1 ∧ P 2 ∧ P 3 := fun P =>
    ⟨fun h => ⟨h 0 (by omega), h 1 (by omega), h 2 (by omega), h 3 (by omega)⟩, fun h j hj => by
      obtain rfl | rfl | rfl | rfl : j = 0 ∨ j = 1 ∨ j = 2 ∨ j = 3 := by omega
      · exact h.1
      · exact h.2.1
      · exact h.2.2.1
      · exact h.2.2.2⟩
  rw [State.InRunMode, h4]
  simp [State.runMode, Config.stripeH, and_assoc]

theorem foldl_cuStep_error (bit : Nat) (l : List (Nat × Nat)) {s : State} (h : s.st.error = true) :
    l.foldl (State.cuStep bit) s = s := by
  induction l with
  | nil => rfl
  | cons c cs ih => rw [List.foldl_cons, State.cuStep_error h, ih]

/-- The rest of a column, coefficient by coefficient. -/
theorem columnFrom_ended (p : Nat) (l : List (Nat × Nat)) {s : State} (h : Deciding false s) :
    (forEach (cuVisit p) l s).ended = l.foldl (State.cuStep (p + s.cfg.shift.toNat)) s := by
  refine forEach_ended (fun t => Deciding false t ∧ t.cfg = s.cfg) ?_ (fun c t ht => State.cuStep_error ht _ c) ?_ ⟨h, rfl⟩
  · rintro c - t ⟨ht, hc⟩
    rw [cuVisit_ended p c ht, hc]
  · rintro c - t u ⟨ht, hc⟩ hd
    obtain ⟨hu, hcu⟩ := ht.of_step (cuVisit_passFrame p c t) hd
    exact ⟨hu, hcu.trans hc⟩

theorem Act.ended_bind_done {m : Act α} {a : α} {t : State} (h : m = .done a t) (f : α → State → Act β) :
    (m.bind f).ended = (f a t).ended := by rw [h]; rfl

/-- One column of a cleanup pass (44_coding_passes.md R256, R257). -/
theorem cuColumn_ended (p : Nat) (c : Nat × Nat) {s : State} (h : Deciding false s) :
    (cuColumn p c s).ended = s.cuColumnStep (p + s.cfg.shift.toNat) c := by
  unfold cuColumn State.cuColumnStep
  by_cases hm : s.InRunMode c.1 c.2
  · rw [if_pos ((runMode_eq s _ _).2 hm), if_pos hm]
    change ((passBit false 17 s).bind _).ended = _
    rcases h.cases 17 with ⟨d, t, hd, hdec, ht⟩ | ⟨e, t, hd, hdec⟩
    · obtain ⟨-, -, hcfg, -⟩ := passBit_data hd
      rw [Act.ended_bind_done hd]
      simp only [hdec]
      cases d
      · simp
      rw [if_neg (by simp), if_pos ⟨rfl, ht.safe⟩]
      change (((passBit false 18 t).bind fun d1 s1 => (passBit false 18 s1).bind fun d0 s2 =>
        .done (2 * d1.toNat + d0.toNat) s2).bind _).ended = _
      rcases ht.cases 18 with ⟨d1, u, hd1, hdec1, hu⟩ | ⟨e, u, hd1, hdec1⟩
      · obtain ⟨-, -, hcfgu, -⟩ := passBit_data hd1
        rcases hu.cases 18 with ⟨d0, v, hd0, hdec0, hv⟩ | ⟨e, v, hd0, hdec0⟩
        · obtain ⟨-, -, hcfgv, -⟩ := passBit_data hd0
          simp only [hd1, hd0, Act.bind_done, hdec1, hdec0]
          have hsig := becomeSignificant_ended p c.1 (c.2 + (2 * d1.toNat + d0.toNat)) hv
          have hvc : v.cfg = s.cfg := hcfgv.trans (hcfgu.trans hcfg)
          rw [hvc] at hsig
          rw [← hsig]
          cases hb : becomeSignificant false p c.1 (c.2 + (2 * d1.toNat + d0.toNat)) v with
          | done a w =>
            obtain ⟨hw, hcw⟩ := hv.of_step (f := becomeSignificant false p c.1 (c.2 + (2 * d1.toNat + d0.toNat)))
              (becomeSignificant_passFrame false p _ _ v) hb
            rw [Act.bind_done, Act.ended_done, columnFrom_ended p _ hw, hcw, hvc, columnRest_eq]
          | raised e w =>
            rw [Act.bind_raised, Act.ended_raised, foldl_cuStep_error _ _ (State.latch_error w e)]
        · simp only [hd1, hd0, Act.bind_done, Act.bind_raised, Act.ended_raised, hdec1, hdec0]
          rw [State.signStep_error (State.latch_error v e), foldl_cuStep_error _ _ (State.latch_error v e)]
      · simp only [hd1, Act.bind_raised, Act.ended_raised, hdec1]
        rw [State.decision_error (State.latch_error u e), State.signStep_error (State.latch_error u e),
          foldl_cuStep_error _ _ (State.latch_error u e)]
    · rw [hd, Act.bind_raised, Act.ended_raised, if_neg (by rw [hdec]; exact fun h => not_safe_latch t e h.2), hdec]
  · rw [if_neg (by rw [runMode_eq]; exact hm), if_neg hm, columnFrom_ended p _ h, columnRest_eq]

theorem State.cuColumnStep_error {s : State} (h : s.st.error = true) (bit : Nat) (c : Nat × Nat) :
    s.cuColumnStep bit c = s := by
  have hn : ¬ s.Safe := by simp [h]
  unfold State.cuColumnStep
  split
  · simp only [State.decision_error h]
    rw [if_neg fun h => hn h.2]
  · exact foldl_cuStep_error bit _ h

/-! ## One pass of a segment, and its termination check -/

theorem contextSteps_eq {s : State} (h : s.Safe) :
    s.contextSteps .segment = s.segmentReset ∧ s.contextSteps .pass = s.passReset := by
  have hx : s.after .cxReset = s.resetContexts := State.after_eq (by
    change execCxReset s = _
    rw [execCxReset, runCommand_safe h]; rfl)
  simp only [State.contextSteps, hx, State.segmentReset, State.passReset, and_self]

/-- A pass command, where its checks pass, is the pass with its error signal in RES (44_coding_passes.md R250, R255,
R260). -/
theorem exec_passInstr {kind : PassKind} {p : BitVec 5} {raw : Bool} {s : State} (hs : s.Safe)
    (hst : s.st.started = true) (hr : s.DecisionReady raw) (hk : kind = .cu → raw = false) (hl : PlaneLegal p)
    (hf : s.PlaneFits p.toNat) :
    exec (passInstr kind p raw) s = ((runPass kind p raw s).bind fun err t => .done () (t.setRes (resOfBit err)) :
      Act Unit).outcome := by
  have hp : ∀ body : State → Act Bool, runCommand (decide (PlaneLegal p)) false (passCommand raw p body) s =
      ((body s).bind fun err t => .done () (t.setRes (resOfBit err)) : Act Unit).outcome := fun body => by
    rw [decide_eq_true hl, runCommand_safe hs, passCommand, if_pos ⟨hst, hr⟩, if_pos hf]
  cases kind with
  | sp => exact hp _
  | mr => exact hp _
  | cu => obtain rfl := hk rfl; exact hp _

/-- One planned pass of BLK_SEGMENT (45_block_control.md R310, R311). -/
theorem segmentPass_ended {k : PassKind × BitVec 5} {s : State} (hs : s.Safe) (hst : s.st.started = true)
    (hr : s.DecisionReady (rawPass s.cfg k.1 k.2)) (hl : PlaneLegal k.2) (hf : s.PlaneFits k.2.toNat) :
    (segmentPass k s).ended = s.plannedPass k := by
  generalize hraw : rawPass s.cfg k.1 k.2 = raw at hr
  have hu : s.passReset.par = s.par ∧ s.passReset.st = s.st ∧ s.passReset.cfg = s.cfg ∧ s.passReset.bound = s.bound ∧
      s.passReset.br = s.br ∧ s.passReset.res = s.res ∧ s.passReset.cur = s.cur := by
    unfold State.passReset; split <;> simp
  obtain ⟨-, hust, hucfg, hub, hubr, hures, hucur⟩ := hu
  have hx := exec_passInstr (kind := k.1) (p := k.2) (raw := raw) (s := s.passReset) (by rw [State.Safe, hust]; exact hs)
    (by rw [hust]; exact hst) (DecisionReady_of_eq hub (by rw [hubr]) hr)
    (fun h => by rw [← hraw, h]; rfl) hl (by simpa only [State.PlaneFits, hucfg] using hf)
  have hrest := runPass_passRest k.1 k.2 raw s.passReset
  simp only [segmentPass, State.plannedPass, hraw, (contextSteps_eq hs).2]
  cases hb : runPass k.1 k.2 raw s.passReset with
  | done err t =>
    rw [hb] at hx hrest
    simp only [State.passRest, Act.state_done, Prod.mk.injEq] at hrest
    obtain ⟨-, -, -, -, -, -, hres, -, -, hcur, htst, -, -⟩ := hrest
    have hsafe : t.Safe := by rw [State.Safe, htst, hust]; exact hs
    have hkeep : (t.setRes (resOfBit err)).setRes s.res = t := by rw [← hures, ← hres]; rfl
    have hadv : t.advance k.1 k.2 raw = t.setCur
        { lastPass := some k.1, plane := k.2, passCount := s.cur.passCount + 1, lastType := if raw then .raw else .mq } := by
      rw [State.advance, hcur, hucur]
    rw [State.after_eq hx, Act.bind_done, hkeep, if_pos (show (t.setRes (resOfBit err)).Safe from hsafe), ← hadv,
      State.setRes_res]
    cases err
    · rfl
    · rw [if_pos (show resOfBit true = 1 from rfl), if_pos rfl, Act.ended_raised,
        State.latch_of_safe _ _ (show (t.advance k.1 k.2 raw).st.error = false from hsafe)]
      rfl
  | raised e t =>
    rw [hb] at hx
    rw [State.after_eq hx, Act.bind_raised, Act.ended_raised, if_neg (not_safe_latch t e)]

/-- The segment ends a codeword segment, as NEXT_PASS tells it (45_block_control.md R312, 44_coding_passes.md R272). -/
theorem endsCodeword_iff {s : State} (hs : s.Safe) (hst : s.st.started = true) :
    s.endsCodeword = true ↔ s.EndsCodeword := by
  have hx : (s.after .nextPass).res = nextPassWord s.cfg (nextPassOf s.cfg s.cur.lastPass s.cur.plane) := by
    rw [State.after_eq (t := s.setRes _) (by
      change execNextPass s = _
      rw [execNextPass, runCommand_safe hs, if_pos hst]; rfl)]
    rfl
  have hw : ∀ (c : PassKind) (p : BitVec 5) (r : Bool),
      c.code.setWidth 64 ||| (p.setWidth 64 <<< 8) ||| (resOfBit r <<< 16) ≠ (0 : Res) ∧
        (c.code.setWidth 64 ||| (p.setWidth 64 <<< 8) ||| (resOfBit r <<< 16) : Res).getLsbD 16 = r := by
    intro c p r
    cases c <;> cases r <;> revert p <;> decide
  rw [State.EndsCodeword, hx, State.endsCodeword]
  cases nextPassOf s.cfg s.cur.lastPass s.cur.plane with
  | none => simp [nextPassWord]
  | some k =>
    obtain ⟨h0, h16⟩ := hw k.1 k.2 (rawPass s.cfg k.1 k.2)
    simp only [nextPassWord, h0, h16, false_or, Bool.or_eq_true, Bool.and_eq_true, bne_iff_ne]

/-- The termination check (45_block_control.md R312). -/
theorem terminationCheck_ended {s : State} (hs : s.Safe) (hst : s.st.started = true)
    (hb : s.cur.lastType = .mq → s.bound = .mq) : (terminationCheck s).ended = s.terminationSteps := by
  unfold terminationCheck State.terminationSteps
  by_cases h : s.cfg.pterm = true ∧ s.cur.lastType = .mq ∧ s.endsCodeword = true
  · rw [if_pos h, if_pos ⟨hs, h.1, h.2.1, (endsCodeword_iff hs hst).1 h.2.2⟩]
    have hx : exec .mqPterm s = ((pterm s).bind fun d t => .done () (t.setRes (resOfBit d)) : Act Unit).outcome := by
      change execMqPterm s = _
      rw [execMqPterm, runCommand_safe hs, if_pos (hb h.2.1)]
    have hrest := pterm_rest s
    cases hp : pterm s with
    | done d t =>
      rw [hp] at hx hrest
      simp only [State.mqOnlyRest, State.coderRest, Act.state_done, Prod.mk.injEq] at hrest
      have hsafe : t.Safe := by rw [State.Safe, hrest.1.2.2.2.2.2.2.2.2.2.2.1]; exact hs
      have hkeep : (t.setRes (resOfBit d)).setRes s.res = t := by rw [← hrest.1.2.2.2.2.2.2.1]; rfl
      dsimp only
      rw [State.after_eq hx, Act.bind_done, hkeep, if_pos (show (t.setRes (resOfBit d)).Safe from hsafe), State.setRes_res]
      cases d
      · rfl
      · rw [if_pos rfl, if_pos (show resOfBit true = 1 from rfl), Act.ended_raised, State.latch_of_safe _ _ hsafe]
        rfl
    | raised e t =>
      rw [hp] at hx
      rw [State.after_eq hx, Act.bind_raised, Act.ended_raised, if_neg (not_safe_latch t e)]
  · rw [if_neg h, if_neg fun h' => h ⟨h'.2.1, h'.2.2.1, (endsCodeword_iff hs hst).2 h'.2.2.2⟩]
    rfl

end Sys2Proof.Machine
end

