-- ==== Sys2Proof/Laws/Decode.lean ====
section
/-! SUPPORT. Command words: their opcode and operand parts, and what the reserved-bit check says. -/

namespace Sys2Proof

/-- The bits of a command word: its operands below bit 26, its opcode above. -/
theorem getLsbD_headWord (o : BitVec 6) (x : BitVec 26) (k : Nat) :
    (headWord o x).getLsbD k = if k < 26 then x.getLsbD k else o.getLsbD (k - 26) := by
  have h := BitVec.getLsbD_append (x := o) (y := x) (i := k)
  unfold headWord
  split <;> simp_all

theorem opcodeOf_headWord (o : BitVec 6) (x : BitVec 26) : opcodeOf (headWord o x) = o := by
  unfold opcodeOf
  ext i hi
  rw [BitVec.getElem_extractLsb', getLsbD_headWord, if_neg (by omega), BitVec.getLsbD_eq_getElem (by omega)]
  simp

theorem setWidth_headWord (o : BitVec 6) (x : BitVec 26) : (headWord o x).setWidth 26 = x := by
  ext i hi
  rw [BitVec.getElem_setWidth, getLsbD_headWord, if_pos hi, BitVec.getLsbD_eq_getElem]

/-- A word is its opcode and its operand part. -/
theorem headWord_opcodeOf (w : Word) : headWord (opcodeOf w) (w.setWidth 26) = w := by
  ext i hi
  rw [← BitVec.getLsbD_eq_getElem, getLsbD_headWord]
  unfold opcodeOf
  split
  · simp_all
  · rw [BitVec.getLsbD_extractLsb', show 26 + (i - 26) = i by omega, BitVec.getLsbD_eq_getElem hi]
    simp
    omega

/-- The low bits of a command word are those of its operand part. -/
theorem extract_headWord (o : BitVec 6) (x : BitVec 26) {k : Nat} (hk : k ≤ 26) :
    (headWord o x).extractLsb' 0 k = x.setWidth k := by
  ext i hi
  rw [BitVec.getElem_extractLsb', getLsbD_headWord, if_pos (by omega), BitVec.getElem_setWidth]
  simp

/-- The operand part of a word whose reserved bits are clear is its operand field, zero-extended. -/
theorem operands_of_reservedClear {n : Nat} {w : Word} (h : reservedClear n w = true) :
    w.setWidth 26 = (w.extractLsb' 0 n).setWidth 26 := by
  unfold reservedClear at h
  rw [beq_iff_eq] at h
  ext i hi
  have hb := congrArg (fun v => v.getLsbD (i - n)) h
  simp only [BitVec.getLsbD_ushiftRight, BitVec.getLsbD_zero] at hb
  simp only [BitVec.getElem_setWidth, BitVec.getLsbD_extractLsb']
  by_cases hin : i < n
  · simp [hin]
  · rw [show n + (i - n) = i by omega] at hb
    simp only [BitVec.getLsbD_setWidth] at hb
    simp_all

theorem reservedClear_headWord (n : Nat) (o : BitVec 6) (x : BitVec 26) :
    reservedClear n (headWord o x) = (x >>> n == 0#26) := by
  rw [reservedClear, setWidth_headWord]

/-- A zero-extended operand leaves the reserved bits clear. -/
theorem reservedClear_operand {n m : Nat} (o : BitVec 6) (v : BitVec n) (h : n ≤ m) :
    reservedClear m (headWord o (v.setWidth 26)) = true := by
  rw [reservedClear_headWord, beq_iff_eq]
  ext i hi
  simp only [BitVec.getElem_ushiftRight, BitVec.getLsbD_setWidth, BitVec.getElem_zero]
  rw [BitVec.getLsbD_of_ge v (m + i) (by omega)]
  simp

end Sys2Proof
end

