-- ==== Sys2Proof/Laws/Invariant.lean ====
section
/-! SUPPORT. What each procedure keeps of the machine's invariant: the counters' ranges, and the memories of the block with
the agreement between sample words and flags. -/

namespace Sys2Proof.Machine

/-! ## The counters -/

/-- The counters depend on the coders' registers alone. -/
theorem CountersInRange.of_same {s t : State} (hm : t.mq.ct = s.mq.ct) (hb : t.br.bitsLeft = s.br.bitsLeft)
    (h : s.CountersInRange) : t.CountersInRange := by
  simp only [State.CountersInRange, hm, hb]
  exact h

theorem fetchByte_counters {s : State} (h : s.CountersInRange) : (fetchByte s).state.CountersInRange := by
  obtain ⟨p, f, hs⟩ := fetchByte_state s
  rw [hs]
  exact h

theorem loadByte_counters {s : State} (h : s.CountersInRange) : (loadByte s).state.CountersInRange := by
  refine Act.inv_bind State.CountersInRange (fetchByte_counters h) fun bf t _ ht => ?_
  split
  · exact ht
  · refine ⟨ht.1, ?_⟩
    show (if t.br.lastFF then (7 : BitVec 4) else 8).toNat ≤ 8
    split <;> decide

theorem readBit_counters {s : State} (h : s.CountersInRange) : (readBit s).state.CountersInRange := by
  have hr : (refill s).state.CountersInRange := by
    unfold refill; split
    · exact loadByte_counters h
    · exact h
  refine Act.inv_bind State.CountersInRange hr fun _ t hd ht => ⟨ht.1, ?_⟩
  have hne := refill_left hd
  have h2 := ht.2
  show (t.br.bitsLeft - 1).toNat ≤ 8
  have h1' : (1 : BitVec 4).toNat = 1 := rfl
  have hpos : 1 ≤ t.br.bitsLeft.toNat := by
    by_contra hc
    exact hne (BitVec.eq_of_toNat_eq (by simp; omega))
  rw [BitVec.toNat_sub, h1']
  have := t.br.bitsLeft.isLt
  omega

theorem readBits_counters (n : Nat) (v : Res) {s : State} (h : s.CountersInRange) :
    (readBits n v s).state.CountersInRange := by
  induction n generalizing v s with
  | zero => exact h
  | succ n ih => exact Act.inv_bind State.CountersInRange (readBit_counters h) fun _ t _ ht => ih _ ht

theorem byteIn_counters {s : State} (h : s.CountersInRange) : (byteIn s).state.CountersInRange := by
  unfold byteIn
  split
  · exact ⟨by simp, h.2⟩
  · refine Act.inv_bind State.CountersInRange (fetchByte_counters h) fun bf t _ ht => ⟨?_, ht.2⟩
    show (t.mq.takeByte bf.1).ct.toNat ≤ 8
    rcases MqRegs.takeByte_ct t.mq bf.1 with h | h <;> rw [h] <;> decide

theorem renormLoop_counters (n : Nat) {s : State} (h : s.CountersInRange) :
    (renormLoop n s).state.CountersInRange := by
  induction n generalizing s with
  | zero => exact h
  | succ n ih =>
    have hb : (byteInIfEmpty s).state.CountersInRange := by
      unfold byteInIfEmpty; split
      · exact byteIn_counters h
      · exact h
    refine Act.inv_bind State.CountersInRange hb fun _ t hd ht => ?_
    have hc := byteInIfEmpty_ct hd h.1
    have hdbl : (t.setMq t.mq.double).CountersInRange := ⟨by rw [State.setMq_mq, double_ct hc.1]; omega, ht.2⟩
    split
    · exact ih hdbl
    · exact hdbl

theorem decodeMq_counters (k : Category) {s : State} (h : s.CountersInRange) :
    (decodeMq k s).state.CountersInRange := by
  unfold decodeMq
  simp only
  split
  · split
    · exact h
    · refine Act.inv_bind State.CountersInRange (renormLoop_counters 16 ?_) fun _ t _ ht => ht
      rw [mpsExchange_state]
      exact h
  · refine Act.inv_bind State.CountersInRange (renormLoop_counters 16 ?_) fun _ t _ ht => ht
    rw [lpsExchange_state]
    exact h

theorem initDec_counters {s : State} (h : s.CountersInRange) : (initDec s).state.CountersInRange := by
  have h0 : (s.setMq { s.mq with mf := false }).CountersInRange := CountersInRange.of_same (s := s) rfl rfl h
  refine Act.inv_bind State.CountersInRange (fetchByte_counters h0) fun bf t _ ht => ?_
  have h1 : (t.setMq { t.mq with b := bf.1, c := (bf.1 ^^^ 0xFF).setWidth 32 <<< 16 }).CountersInRange :=
    CountersInRange.of_same (s := t) (by simp) (by simp) ht
  refine Act.inv_bind State.CountersInRange (byteIn_counters h1) fun _ u hd hu => ?_
  have hc : (u.mq.ct - 7).toNat ≤ 8 := by rcases byteIn_ct hd with h | h <;> rw [h] <;> decide
  rw [Act.state_done]
  exact ⟨by simpa using hc, by simpa using hu.2⟩

theorem ptermPattern_counters {s : State} (h : s.CountersInRange) : (ptermPattern s).state.CountersInRange := by
  unfold ptermPattern
  simp only
  split
  · exact CountersInRange.of_same (s := s) rfl rfl h
  · refine Act.inv_bind State.CountersInRange (renormLoop_counters 16 ?_) fun _ u _ hu => hu
    exact CountersInRange.of_same (s := s) rfl rfl h

theorem pterm_counters {s : State} (h : s.CountersInRange) : (pterm s).state.CountersInRange := by
  have h8 : ∀ t : State, t.CountersInRange → ∀ r : MqRegs, r.ct = 8 → (t.setMq r).CountersInRange := by
    intro t ht r hr
    exact ⟨by rw [State.setMq_mq, hr]; decide, ht.2⟩
  unfold pterm
  split
  · exact h
  split
  · exact h
  split
  · exact h
  split
  · split
    · refine Act.inv_bind State.CountersInRange (fetchByte_counters h) fun bf t _ ht => ?_
      split
      · exact CountersInRange.of_same (s := t) rfl rfl ht
      · exact ptermPattern_counters (h8 t ht _ rfl)
    · exact ptermPattern_counters (h8 s h _ rfl)
  · exact ptermPattern_counters h

/-! ## The block's memories -/

/-- What the passes keep of a started block: its memories in canonical form and inside it, its words in agreement with its
flags, and its size. -/
structure BlockSound (s : State) : Prop where
  samp : Sparse.WF (0 : Word) s.samp
  cells : Sparse.WF SampleFlags.clear s.cells
  sampInside : ∀ e ∈ s.samp, KeyInBlock s.cfg e.1
  cellsInside : ∀ e ∈ s.cells, KeyInBlock s.cfg e.1
  agree : ∀ y < s.cfg.h, ∀ x < s.cfg.w, SampleAgrees (s.cell x y) (s.sampRead x y)
  width : s.cfg.w ≤ Config.maxSide

theorem BlockSound.of_same {s t : State} (h1 : t.samp = s.samp) (h2 : t.cells = s.cells) (h3 : t.cfg = s.cfg)
    (h : BlockSound s) : BlockSound t := by
  obtain ⟨a, b, c, d, e, f⟩ := h
  constructor <;> simp only [State.cell, State.sampRead, h1, h2, h3] <;> assumption

/-- Writing a coefficient's flags keeps a sound block, if they agree with its word. -/
theorem BlockSound.setCell {s : State} {x y : Nat} {f : SampleFlags} (h : BlockSound s) (hx : x < s.cfg.w)
    (hy : y < s.cfg.h) (hf : SampleAgrees f (s.sampRead x y)) : BlockSound (s.setCell x y f) := by
  have hw := h.width
  refine ⟨h.samp, Sparse.wf_set h.cells, h.sampInside, ?_, ?_, h.width⟩
  · intro e he
    rcases Sparse.mem_set he with he | rfl
    · exact h.cellsInside e he
    · exact coordKey_inBlock hx hy hw
  · intro y' hy' x' hx'
    have hx1 : x' < s.cfg.w := hx'
    have hy1 : y' < s.cfg.h := hy'
    rw [State.cell_setCell h.cells (by omega) (by omega), State.sampRead_setCell]
    split
    · rename_i he; obtain ⟨rfl, rfl⟩ := he; exact hf
    · exact h.agree y' hy1 x' hx1

/-- Writing flags and word of a coefficient together keeps a sound block, if they agree. -/
theorem BlockSound.write {s : State} {x y : Nat} {f : SampleFlags} {v : Word} (h : BlockSound s) (hx : x < s.cfg.w)
    (hy : y < s.cfg.h) (hf : SampleAgrees f v) : BlockSound ((s.setCell x y f).sampWrite x y v) := by
  have hw := h.width
  refine ⟨Sparse.wf_set h.samp, Sparse.wf_set h.cells, ?_, ?_, ?_, h.width⟩
  · intro e he
    rcases Sparse.mem_set he with he | rfl
    · exact h.sampInside e he
    · exact coordKey_inBlock hx hy hw
  · intro e he
    rcases Sparse.mem_set he with he | rfl
    · exact h.cellsInside e he
    · exact coordKey_inBlock hx hy hw
  · intro y' hy' x' hx'
    have hx1 : x' < s.cfg.w := hx'
    have hy1 : y' < s.cfg.h := hy'
    rw [State.cell_sampWrite, State.cell_setCell h.cells (by omega) (by omega),
      State.sampRead_sampWrite (s := s.setCell x y f) h.samp (by omega) (by omega)]
    split
    · exact hf
    · exact h.agree y' hy1 x' hx1

/-- The word of a coefficient that becomes significant has its sign and a magnitude (44_coding_passes.md R244). -/
theorem significantWord_agrees (sgn : Bool) {b : Nat} (hb : b ≤ 30) :
    (significantWord sgn b).getLsbD 31 = sgn ∧ (significantWord sgn b).setWidth 31 ≠ 0#31 := by
  have : ∀ b < 31, ∀ sgn, (significantWord sgn b).getLsbD 31 = sgn ∧ (significantWord sgn b).setWidth 31 ≠ 0#31 := by
    decide
  exact this b (by omega) sgn

theorem BlockSound.setSig {s : State} {x y p : Nat} {sgn : Bool} (h : BlockSound s) (hx : x < s.cfg.w)
    (hy : y < s.cfg.h) (hp : s.PlaneFits p) : BlockSound (s.setSig x y p sgn) := by
  refine h.write hx hy ⟨by simp, fun _ => ?_⟩
  exact significantWord_agrees sgn hp

theorem BlockSound.setVis {s : State} {x y : Nat} (h : BlockSound s) (hx : x < s.cfg.w) (hy : y < s.cfg.h) :
    BlockSound (s.setVis x y) :=
  h.setCell hx hy (h.agree y hy x hx)

/-- A refinement bit keeps the sign and does not clear the magnitude (44_coding_passes.md R245). -/
theorem refinedWord_agrees {v : Word} {b : Nat} (d : Bool) (hb : b ≤ 30) (hm : v.setWidth 31 ≠ 0#31) :
    (v ||| ((BitVec.ofBool d).setWidth 32 <<< b)).getLsbD 31 = v.getLsbD 31 ∧
      (v ||| ((BitVec.ofBool d).setWidth 32 <<< b)).setWidth 31 ≠ 0#31 := by
  have hbit : ∀ b < 31, ∀ d, ((BitVec.ofBool d).setWidth 32 <<< b).getLsbD 31 = false := by decide
  refine ⟨by rw [BitVec.getLsbD_or, hbit b (by omega), Bool.or_false], fun hc => hm ?_⟩
  rw [BitVec.setWidth_or] at hc
  exact (BitVec.or_eq_zero_iff.1 hc).1

theorem BlockSound.refine {s : State} {x y p : Nat} {d : Bool} (h : BlockSound s) (hx : x < s.cfg.w) (hy : y < s.cfg.h)
    (hp : s.PlaneFits p) (hs : (s.cell x y).SIG = true) : BlockSound (s.refine x y p d) := by
  have ha := (h.agree y hy x hx).2 hs
  have hr := refinedWord_agrees d hp ha.2
  have : s.refine x y p d = (s.setCell x y { s.cell x y with REF := true }).sampWrite x y
      (s.sampRead x y ||| ((BitVec.ofBool d).setWidth 32 <<< (p + s.cfg.shift.toNat))) := rfl
  rw [this]
  refine h.write hx hy ⟨fun hc => ?_, fun _ => ⟨hr.1.trans ha.1, hr.2⟩⟩
  exact absurd (hs.symm.trans hc) (by simp)

theorem BlockSound.clearVis {s : State} (h : BlockSound s) : BlockSound s.clearVis := by
  refine ⟨h.samp, Sparse.wf_mapCells h.cells, h.sampInside, ?_, ?_, h.width⟩
  · intro e he
    obtain ⟨u, hu, -⟩ := Sparse.mem_mapCells he
    exact h.cellsInside (e.1, u) hu
  · intro y hy x hx
    rw [State.cell_clearVis h.cells, State.sampRead_clearVis]
    exact h.agree y hy x hx

/-! ## The passes -/

/-- What a pass keeps: a sound block, of the same configuration, at a plane that fits, and the counters in range. -/
structure PassSound (cfg : BlockConfig) (p : Nat) (s : State) : Prop where
  block : BlockSound s
  counters : s.CountersInRange
  config : s.cfg = cfg
  plane : s.PlaneFits p

variable {cfg : BlockConfig} {p : Nat}

theorem PassSound.of_same {s t : State} (h1 : t.samp = s.samp) (h2 : t.cells = s.cells) (h3 : t.cfg = s.cfg)
    (h4 : t.CountersInRange) (h : PassSound cfg p s) : PassSound cfg p t :=
  ⟨h.block.of_same h1 h2 h3, h4, h3.trans h.config, by have := h.plane; simpa [State.PlaneFits, h3] using this⟩

theorem decodeMq_passSound (k : Category) {s : State} (h : PassSound cfg p s) : PassSound cfg p (decodeMq k s).state := by
  have hk := decodeMq_mqRest k s
  simp only [State.mqRest, State.coderRest, Prod.mk.injEq] at hk
  exact h.of_same (by simp [hk]) (by simp [hk]) (by simp [hk]) (decodeMq_counters k h.counters)

theorem readBit_passSound {s : State} (h : PassSound cfg p s) : PassSound cfg p (readBit s).state := by
  have hk := readBit_brRest s
  simp only [State.brRest, State.coderRest, Prod.mk.injEq] at hk
  exact h.of_same (by simp [hk]) (by simp [hk]) (by simp [hk]) (readBit_counters h.counters)

theorem passBit_passSound (raw : Bool) (k : Category) {s : State} (h : PassSound cfg p s) :
    PassSound cfg p (passBit raw k s).state := by
  cases raw
  · exact decodeMq_passSound k h
  · exact readBit_passSound h

theorem passSign_passSound (raw : Bool) (x y : Nat) {s : State} (h : PassSound cfg p s) :
    PassSound cfg p (passSign raw x y s).state := by
  cases raw
  · exact Act.inv_bind (PassSound cfg p) (decodeMq_passSound _ h) fun _ t _ ht => ht
  · exact readBit_passSound h

/-- A decision changes no cell and no word. -/
theorem passBit_cells {raw : Bool} {k : Category} {s t : State} {d : Bool} (h : passBit raw k s = .done d t) :
    t.cells = s.cells ∧ t.samp = s.samp ∧ t.cfg = s.cfg := by
  cases raw
  · have hk := decodeMq_mqRest k s
    rw [show decodeMq k s = .done d t from h] at hk
    simp only [State.mqRest, State.coderRest, Prod.mk.injEq, Act.state_done] at hk
    simp [hk]
  · have hk := readBit_brRest s
    rw [show readBit s = .done d t from h] at hk
    simp only [State.brRest, State.coderRest, Prod.mk.injEq, Act.state_done] at hk
    simp [hk]

theorem becomeSignificant_passSound (raw : Bool) {x y : Nat} {s : State} (h : PassSound cfg p s) (hx : x < cfg.w)
    (hy : y < cfg.h) : PassSound cfg p (becomeSignificant raw p x y s).state := by
  refine Act.inv_bind (PassSound cfg p) (passSign_passSound raw x y h) fun sgn t _ ht => ?_
  exact ⟨ht.block.setSig (by rw [ht.config]; exact hx) (by rw [ht.config]; exact hy) ht.plane, ht.counters, ht.config,
    ht.plane⟩

theorem PassSound.setVis {x y : Nat} {s : State} (h : PassSound cfg p s) (hx : x < cfg.w) (hy : y < cfg.h) :
    PassSound cfg p (s.setVis x y) :=
  ⟨h.block.setVis (by rw [h.config]; exact hx) (by rw [h.config]; exact hy), h.counters, h.config, h.plane⟩

theorem spVisit_passSound (raw : Bool) {c : Nat × Nat} {s : State} (h : PassSound cfg p s) (hx : c.1 < cfg.w)
    (hy : c.2 < cfg.h) : PassSound cfg p (spVisit p raw c s).state := by
  unfold spVisit
  split
  · exact h
  split
  · exact h
  refine Act.inv_bind (PassSound cfg p) (passBit_passSound raw _ h) fun d t _ ht => ?_
  split
  · exact becomeSignificant_passSound raw (ht.setVis hx hy) hx hy
  · exact ht.setVis hx hy

theorem mrVisit_passSound (raw : Bool) {c : Nat × Nat} {s : State} (h : PassSound cfg p s) (hx : c.1 < cfg.w)
    (hy : c.2 < cfg.h) : PassSound cfg p (mrVisit p raw c s).state := by
  unfold mrVisit
  split
  · exact h
  rename_i hsig
  refine Act.inv_bind (PassSound cfg p) (passBit_passSound raw _ h) fun d t hd ht => ?_
  have hc : (t.cell c.1 c.2).SIG = true := by
    have he : t.cell c.1 c.2 = s.cell c.1 c.2 := by rw [State.cell, State.cell, (passBit_cells hd).1]
    rw [he]
    by_contra hn
    exact hsig (.inl (by simpa using hn))
  exact ⟨ht.block.refine (by rw [ht.config]; exact hx) (by rw [ht.config]; exact hy) ht.plane hc, ht.counters, ht.config,
    ht.plane⟩

theorem cuVisit_passSound {c : Nat × Nat} {s : State} (h : PassSound cfg p s) (hx : c.1 < cfg.w) (hy : c.2 < cfg.h) :
    PassSound cfg p (cuVisit p c s).state := by
  unfold cuVisit
  split
  · exact h
  refine Act.inv_bind (PassSound cfg p) (decodeMq_passSound _ h) fun d t _ ht => ?_
  split
  · exact becomeSignificant_passSound false ht hx hy
  · exact ht

theorem runPosition_passSound {s : State} (h : PassSound cfg p s) : PassSound cfg p (runPosition s).state :=
  Act.inv_bind (PassSound cfg p) (decodeMq_passSound _ h) fun _ _ _ ht =>
    Act.inv_bind (PassSound cfg p) (decodeMq_passSound _ ht) fun _ _ _ hu => hu

theorem runPosition_lt {s t : State} {r : Nat} (h : runPosition s = .done r t) : r < 4 := by
  unfold runPosition at h
  rw [Act.bind_eq_done] at h
  obtain ⟨d1, u, -, h⟩ := h
  rw [Act.bind_eq_done] at h
  obtain ⟨d0, v, -, h⟩ := h
  simp only [Act.done.injEq] at h
  obtain ⟨rfl, -⟩ := h
  cases d1 <;> cases d0 <;> decide

theorem cuColumn_passSound {c : Nat × Nat} {s : State} (h : PassSound cfg p s) (hx : c.1 < cfg.w) :
    PassSound cfg p (cuColumn p c s).state := by
  have hloop : ∀ ystart (t : State), PassSound cfg p t →
      PassSound cfg p (forEach (cuVisit p) (columnFrom t.cfg.h c.1 c.2 ystart) t).state := by
    intro ystart t ht
    refine forEach_inv (PassSound cfg p) (fun b hb u hu => ?_) ht
    obtain ⟨b1, b2⟩ := b
    rw [mem_columnFrom, ht.config] at hb
    exact cuVisit_passSound hu (by have := hb.1; simp only; omega) (by have := hb.2.2.2.1; simpa using this)
  unfold cuColumn
  split
  · rename_i hrun
    have hh : c.2 + 4 ≤ cfg.h := by
      simp only [State.runMode, Bool.and_eq_true, decide_eq_true_eq] at hrun
      rw [← h.config]
      exact hrun.1
    refine Act.inv_bind (PassSound cfg p) (decodeMq_passSound _ h) fun d t _ ht => ?_
    split
    · exact ht
    · refine Act.inv_bind (PassSound cfg p) (runPosition_passSound ht) fun r u hd hu => ?_
      have hr := runPosition_lt hd
      exact Act.inv_bind (PassSound cfg p) (becomeSignificant_passSound false hu hx (by omega)) fun _ v _ hv =>
        hloop _ v hv
  · exact hloop _ s h

theorem uniformBits_passSound (n : Nat) (v : BitVec 4) {s : State} (h : PassSound cfg p s) :
    PassSound cfg p (uniformBits n v s).state := by
  induction n generalizing v s with
  | zero => exact h
  | succ n ih => exact Act.inv_bind (PassSound cfg p) (decodeMq_passSound _ h) fun _ _ _ ht => ih _ ht

/-- Every pass keeps a sound block, whether it completes or raises. -/
theorem spPass_passSound (raw : Bool) {s : State} (h : PassSound cfg p s) : PassSound cfg p (spPass p raw s).state := by
  refine Act.inv_bind (PassSound cfg p) (forEach_inv (PassSound cfg p) (fun b hb t ht => ?_) h) fun _ _ _ ht => ht
  obtain ⟨x, y⟩ := b
  rw [mem_scan, h.config] at hb
  exact spVisit_passSound raw ht hb.1 hb.2

theorem mrPass_passSound (raw : Bool) {s : State} (h : PassSound cfg p s) : PassSound cfg p (mrPass p raw s).state := by
  refine Act.inv_bind (PassSound cfg p) (forEach_inv (PassSound cfg p) (fun b hb t ht => ?_) h) fun _ _ _ ht => ht
  obtain ⟨x, y⟩ := b
  rw [mem_scan, h.config] at hb
  exact mrVisit_passSound raw ht hb.1 hb.2

theorem cuPass_passSound {s : State} (h : PassSound cfg p s) : PassSound cfg p (cuPass p s).state := by
  refine Act.inv_bind (PassSound cfg p) (forEach_inv (PassSound cfg p) (fun b hb t ht => ?_) h) fun _ t _ ht => ?_
  · obtain ⟨x, y0⟩ := b
    rw [mem_columns, h.config] at hb
    exact cuColumn_passSound ht hb.1
  · have hv : PassSound cfg p t.clearVis := ⟨ht.block.clearVis, ht.counters, ht.config, ht.plane⟩
    split
    · exact Act.inv_bind (PassSound cfg p) (uniformBits_passSound 4 0 hv) fun _ _ _ hu => hu
    · exact hv

/-! ## Segments -/

/-- What a segment's steps keep: a sound block of an accepted configuration, the counters, and the cursor at a pass of the
block's sequence. -/
structure SegmentSound (cfg : BlockConfig) (s : State) : Prop where
  block : BlockSound s
  counters : s.CountersInRange
  config : s.cfg = cfg
  accepted : cfg.p0.toNat + cfg.shift.toNat ≤ 30
  cursor : Cursor.Legal cfg s.cur

theorem SegmentSound.of_same {s t : State} (h1 : t.samp = s.samp) (h2 : t.cells = s.cells) (h3 : t.cfg = s.cfg)
    (h4 : t.CountersInRange) (h5 : t.cur = s.cur) (h : SegmentSound cfg s) : SegmentSound cfg t :=
  ⟨h.block.of_same h1 h2 h3, h4, h3.trans h.config, h.accepted, by rw [h5]; exact h.cursor⟩

/-- The pass that follows a legal cursor is at a plane not above the start plane, and the cursor past it is legal. -/
theorem Cursor.Legal.next {cur : Cursor} {kind : PassKind} {q : BitVec 5} (h : Cursor.Legal cfg cur)
    (hp : cfg.p0.toNat ≤ 30) (hn : nextPassOf cfg cur.lastPass cur.plane = some (kind, q)) :
    q.toNat ≤ cfg.p0.toNat ∧ Cursor.Legal cfg
      { lastPass := some kind, plane := q, passCount := cur.passCount + 1,
        lastType := if rawPass cfg kind q then .raw else .mq } := by
  obtain ⟨h0, hcu, hsp, hmr⟩ := h
  have hone : (1 : BitVec 8).toNat = 1 := rfl
  have htype : ∀ b : Bool, (if b then Coder.raw else Coder.mq).isRaw = b := by decide
  unfold nextPassOf at hn
  split at hn <;> rename_i hl
  · have := h0 hl
    simp only [Option.some.injEq, Prod.mk.injEq] at hn
    obtain ⟨rfl, rfl⟩ := hn
    refine ⟨Nat.le_refl _, by simp, fun _ => ⟨Nat.le_refl _, ?_, rfl⟩, by simp, by simp⟩
    rw [this]
    simp [Cursor.start]
  · obtain ⟨c1, c2, c3⟩ := hcu hl
    split at hn
    · cases hn
    · rename_i hne
      simp only [Option.some.injEq, Prod.mk.injEq] at hn
      obtain ⟨rfl, rfl⟩ := hn
      have hpos : 0 < cur.plane.toNat := by
        by_contra hc
        exact hne (BitVec.eq_of_toNat_eq (by simp; omega))
      have hq : (cur.plane - 1).toNat = cur.plane.toNat - 1 := by
        have := cur.plane.isLt
        have h1 : (1 : BitVec 5).toNat = 1 := rfl
        rw [BitVec.toNat_sub, h1]
        omega
      refine ⟨by omega, by simp, by simp, fun _ => ⟨by simp only; omega, ?_, htype _⟩, by simp⟩
      simp only [BitVec.toNat_add, hone]
      omega
  · obtain ⟨c1, c2, c3⟩ := hsp hl
    simp only [Option.some.injEq, Prod.mk.injEq] at hn
    obtain ⟨rfl, rfl⟩ := hn
    refine ⟨by omega, by simp, by simp, by simp, fun _ => ⟨c1, ?_, htype _⟩⟩
    simp only [BitVec.toNat_add, hone]
    omega
  · obtain ⟨c1, c2, c3⟩ := hmr hl
    simp only [Option.some.injEq, Prod.mk.injEq] at hn
    obtain ⟨rfl, rfl⟩ := hn
    refine ⟨by omega, by simp, fun _ => ⟨by simp only; omega, ?_, rfl⟩, by simp, by simp⟩
    simp only [BitVec.toNat_add, hone]
    omega

theorem runPass_passSound (kind : PassKind) (q : BitVec 5) (raw : Bool) {s : State} (h : PassSound cfg q.toNat s) :
    PassSound cfg q.toNat (runPass kind q raw s).state := by
  cases kind
  · exact spPass_passSound raw h
  · exact mrPass_passSound raw h
  · exact cuPass_passSound h

/-- A pass of a segment that follows the cursor keeps a sound segment, whether it completes or raises; when it completes
the cursor is at it. -/
theorem segmentPass_sound {kind : PassKind} {q : BitVec 5} {s : State} (h : SegmentSound cfg s)
    (hn : nextPassOf cfg s.cur.lastPass s.cur.plane = some (kind, q)) :
    SegmentSound cfg (segmentPass (kind, q) s).state ∧
      ∀ t, segmentPass (kind, q) s = .done () t → t.cur.lastPass = some kind ∧ t.cur.plane = q := by
  have hnext := h.cursor.next (by have := h.accepted; omega) hn
  have hr : SegmentSound cfg s.passReset := by
    unfold State.passReset
    split
    · exact SegmentSound.of_same (s := s) rfl rfl rfl h.counters rfl h
    · exact h
  have hcur : s.passReset.cur = s.cur := by unfold State.passReset; split <;> rfl
  have hps : PassSound cfg q.toNat s.passReset :=
    ⟨hr.block, hr.counters, hr.config, by
      have := h.accepted
      have := hnext.1
      simp only [State.PlaneFits, hr.config, Config.maxPlane]
      omega⟩
  have hrun := runPass_passSound kind q (rawPass s.cfg kind q) hps
  have hrcur : (runPass kind q (rawPass s.cfg kind q) s.passReset).state.cur = s.cur := by
    have := runPass_passRest kind q (rawPass s.cfg kind q) s.passReset
    simp only [State.passRest, Prod.mk.injEq] at this
    rw [this.2.2.2.2.2.2.2.2.2.1, hcur]
  have hadv : ∀ u : State, PassSound cfg q.toNat u → u.cur = s.cur →
      SegmentSound cfg (u.advance kind q (rawPass s.cfg kind q)) := by
    intro u hu hc
    refine ⟨BlockSound.of_same (s := u) rfl rfl rfl hu.block, hu.counters, hu.config, h.accepted, ?_⟩
    simp only [State.advance, State.setCur_cur, hc, h.config]
    exact hnext.2
  unfold segmentPass
  cases hm : runPass kind q (rawPass s.cfg kind q) s.passReset with
  | done err u =>
    rw [hm] at hrun hrcur
    rw [Act.bind_done]
    cases err
    · refine ⟨hadv u hrun hrcur, fun t ht => ?_⟩
      have ht' : u.advance kind q (rawPass s.cfg kind q) = t := by simpa using ht
      rw [← ht']
      exact ⟨rfl, rfl⟩
    · exact ⟨hadv u hrun hrcur, fun t ht => by simp at ht⟩
  | raised e u =>
    rw [hm] at hrun hrcur
    refine ⟨⟨hrun.block, hrun.counters, hrun.config, h.accepted, ?_⟩, fun t ht => by simp at ht⟩
    rw [Act.bind_raised, Act.state_raised, show u.cur = s.cur from hrcur]
    exact h.cursor

/-- The planned passes of a segment keep it sound. -/
theorem segmentPasses_sound {n : Nat} {plan : List (PassKind × BitVec 5)} {s : State} (h : SegmentSound cfg s)
    (hp : planPasses cfg n s.cur.lastPass s.cur.plane = some plan) :
    SegmentSound cfg (forEach segmentPass plan s).state := by
  induction n generalizing plan s with
  | zero =>
    simp only [planPasses, Option.some.injEq] at hp
    rw [← hp]
    exact h
  | succ n ih =>
    unfold planPasses at hp
    split at hp
    · cases hp
    · rename_i kind q hq
      simp only [Option.map_eq_some_iff] at hp
      obtain ⟨rest, hr, rfl⟩ := hp
      have hs := segmentPass_sound h hq
      refine Act.inv_bind (SegmentSound cfg) hs.1 fun _ t ht hts => ?_
      have hc := hs.2 t ht
      exact ih hts (by rw [hc.1, hc.2]; exact hr)

theorem terminationCheck_sound {s : State} (h : SegmentSound cfg s) : SegmentSound cfg (terminationCheck s).state := by
  unfold terminationCheck
  split
  · have hk := pterm_rest s
    simp only [State.mqOnlyRest, State.coderRest, Prod.mk.injEq] at hk
    refine Act.inv_bind (SegmentSound cfg)
      (h.of_same (by simp [hk]) (by simp [hk]) (by simp [hk]) (pterm_counters h.counters) (by simp [hk]))
      fun d t _ ht => ?_
    split <;> exact ht
  · exact h

theorem bindReader_counters {s : State} (mode : Bool) (h : s.CountersInRange) :
    (s.bindReader mode).CountersInRange := ⟨h.1, by show (0 : BitVec 4).toNat ≤ 8; decide⟩

theorem coderStep_sound (raw : Bool) {s : State} (h : SegmentSound cfg s) :
    SegmentSound cfg (coderStep raw s).state := by
  have hk := coderStep_segRest raw s
  simp only [State.segRest, Prod.mk.injEq] at hk
  refine h.of_same hk.2.2.2 hk.2.2.1 hk.1.2.2.2.2.2.1 ?_ hk.2.1
  unfold coderStep freshCoder appendSegment
  have hc := h.counters
  by_cases hf : s.needsFresh raw
  · rw [if_pos hf]
    cases raw
    · exact initDec_counters (s := s.bindSource s.csr.segBase s.csr.segLen .mq) hc
    · exact bindReader_counters true hc
  · rw [if_neg hf]
    by_cases hb : s.bound ≠ (if raw then Bound.br else Bound.mq)
    · rw [if_pos hb]; exact hc
    · rw [if_neg hb]
      split <;> exact hc

/-- A whole segment keeps the block sound and the cursor legal, whatever error it raises. -/
theorem runSegment_sound {n : Nat} {plan : List (PassKind × BitVec 5)} (raw : Bool) {s : State}
    (h : SegmentSound cfg s) (hp : planPasses cfg n s.cur.lastPass s.cur.plane = some plan) :
    SegmentSound cfg (runSegment plan raw s).state := by
  refine Act.inv_bind (SegmentSound cfg) (coderStep_sound raw h) fun _ t ht hts => ?_
  have hcur : t.cur = s.cur := by have := (coderStep_segRest raw s).2.1; rwa [ht] at this
  have hr : SegmentSound cfg t.segmentReset ∧ t.segmentReset.cur = s.cur := by
    unfold State.segmentReset
    split
    · exact ⟨SegmentSound.of_same (s := t) rfl rfl rfl hts.counters rfl hts, hcur⟩
    · exact ⟨hts, hcur⟩
  exact Act.inv_bind (SegmentSound cfg) (segmentPasses_sound hr.1 (by rw [hr.2]; exact hp)) fun _ u _ hu =>
    terminationCheck_sound hu

/-! ## Codeword memory -/

/-- The host's write keeps codeword memory in canonical form. -/
theorem hostWrite_wf {s : State} {addr : Nat} {b : Byte} (h : Memory.wf s.cwmem) :
    Memory.wf (s.hostWrite addr b).cwmem := by
  unfold State.hostWrite
  split
  · exact Sparse.wf_set h
  · exact h

theorem hostWriteAll_wf {s : State} {addr : Nat} {bs : List Byte} (h : Memory.wf s.cwmem) :
    Memory.wf (s.hostWriteAll addr bs).cwmem := by
  induction bs generalizing s addr with
  | nil => exact h
  | cons b bs ih => exact ih (hostWrite_wf h)

/-- Nothing is listed after reset, so every memory has its canonical form. -/
theorem reset_memories : State.reset.MemoriesCanonical := ⟨Sparse.wf_nil, Sparse.wf_nil, Sparse.wf_nil⟩

end Sys2Proof.Machine
end

