-- ==== Sys2Proof/Laws/MqRange.lean ====
section
/-! SUPPORT. The registers of the MQ decoder as numbers: the code register stays below the interval while every byte after
a 0xFF is at most 0x7F or a marker byte (42_mq_decoder.md R164). -/

namespace Sys2Proof.Machine

/-- The code register is below the interval, as numbers. -/
theorem MqRegs.chigh_lt_iff (r : MqRegs) : r.chigh < r.a ↔ r.c.toNat < r.a.toNat * 2 ^ 16 := by
  have h : r.chigh.toNat = r.c.toNat / 2 ^ 16 := by
    have := r.c.isLt
    simp only [MqRegs.chigh, BitVec.extractLsb'_toNat, Nat.shiftRight_eq_div_pow]
    omega
  rw [BitVec.lt_def, h]
  omega

/-- `LowClear` as divisibility. -/
theorem MqRegs.lowClear_iff (r : MqRegs) : r.LowClear ↔ 2 ^ 16 ∣ r.c.toNat * 2 ^ r.ct.toNat := by
  rw [MqRegs.LowClear, Nat.dvd_iff_mod_eq_zero, Nat.mod_mul_mod]

/-- What RENORMD keeps between its steps: `C` below `A`, and no bits below those `CT` counts. -/
structure MqRegs.Below (r : MqRegs) : Prop where
  high : r.c.toNat < r.a.toNat * 2 ^ 16
  low : 2 ^ 16 ∣ r.c.toNat * 2 ^ r.ct.toNat

theorem MqRegs.below_iff (r : MqRegs) : r.Below ↔ r.LowClear ∧ r.chigh < r.a := by
  rw [r.lowClear_iff, r.chigh_lt_iff]
  exact ⟨fun h => ⟨h.2, h.1⟩, fun h => ⟨h.2, h.1⟩⟩

/-- Doubling keeps `C` below `A` and shifts one counted bit out. -/
theorem MqRegs.Below.double {r : MqRegs} (h : r.Below) (ha : r.a.toNat < 0x8000) (hc : 1 ≤ r.ct.toNat) :
    r.double.Below := by
  obtain ⟨hi, lo⟩ := h
  have h1 : r.double.c.toNat = 2 * r.c.toNat := by
    simp only [MqRegs.double, BitVec.toNat_shiftLeft]
    rw [Nat.shiftLeft_eq]
    omega
  have h2 := double_a ha
  have h3 := double_ct hc
  refine ⟨by rw [h1, h2]; omega, ?_⟩
  rw [h1, h3]
  have : 2 * r.c.toNat * 2 ^ (r.ct.toNat - 1) = r.c.toNat * 2 ^ r.ct.toNat := by
    obtain ⟨k, hk⟩ : ∃ k, r.ct.toNat = k + 1 := ⟨r.ct.toNat - 1, by omega⟩
    rw [hk, Nat.add_sub_cancel, Nat.pow_succ]
    ring
  rw [this]
  exact lo

/-- A byte taken when no counted bits are left goes below `C`'s high half, unless its stuffing is wrong. -/
theorem MqRegs.Below.takeByte {r : MqRegs} (h : r.Below) (ha : r.a.toNat < 0x8000) (hc : r.ct = 0) (b : Byte)
    (hb : r.b = 0xFF → b ≤ 0x7F#8 ∨ 0x8F#8 < b) : (r.takeByte b).Below := by
  obtain ⟨hi, lo⟩ := h
  have hlo : 2 ^ 16 ∣ r.c.toNat := by simpa [hc] using lo
  have hbl := b.isLt
  have hcl := r.c.isLt
  unfold MqRegs.takeByte
  split
  · rename_i hff
    split
    · refine ⟨hi, ?_⟩
      exact Dvd.dvd.mul_right hlo _
    · rename_i hm
      have hb7 : b.toNat ≤ 127 := by
        rcases hb hff with h | h
        · simpa [BitVec.le_def] using h
        · exact absurd h hm
      have hcn : (r.c + 0xFE00#32 - (b.setWidth 32 <<< 9)).toNat = r.c.toNat + 512 * (127 - b.toNat) := by
        simp only [BitVec.toNat_sub, BitVec.toNat_add, BitVec.toNat_shiftLeft, BitVec.toNat_setWidth, Nat.shiftLeft_eq,
          BitVec.toNat_ofNat]
        omega
      refine ⟨?_, ?_⟩
      · show (r.c + 0xFE00#32 - (b.setWidth 32 <<< 9)).toNat < _
        rw [hcn]
        show _ < r.a.toNat * _
        omega
      · show 2 ^ 16 ∣ (r.c + 0xFE00#32 - (b.setWidth 32 <<< 9)).toNat * 2 ^ 7
        rw [hcn]
        omega
  · have hcn : (r.c + 0xFF00#32 - (b.setWidth 32 <<< 8)).toNat = r.c.toNat + 256 * (255 - b.toNat) := by
      simp only [BitVec.toNat_sub, BitVec.toNat_add, BitVec.toNat_shiftLeft, BitVec.toNat_setWidth, Nat.shiftLeft_eq,
        BitVec.toNat_ofNat]
      omega
    refine ⟨?_, ?_⟩
    · show (r.c + 0xFF00#32 - (b.setWidth 32 <<< 8)).toNat < _
      rw [hcn]
      show _ < r.a.toNat * _
      omega
    · show 2 ^ 16 ∣ (r.c + 0xFF00#32 - (b.setWidth 32 <<< 8)).toNat * 2 ^ 8
      rw [hcn]
      omega

/-- BYTEIN stores the byte it fetched; only a marker leaves `MF` set. -/
theorem MqRegs.takeByte_b (r : MqRegs) (b : Byte) : (r.takeByte b).b = b := by
  unfold MqRegs.takeByte
  split
  · split <;> rfl
  · rfl

/-- A fetch keeps the bytes after a 0xFF clean. -/
theorem State.MarkerClean.fetch {s t : State} {b : Byte} {fill : Bool} (h : s.MarkerClean)
    (hf : fetchByte s = .done (b, fill) t) (r : MqRegs) (hr : r.b = b) : (t.setMq r).MarkerClean := by
  obtain ⟨⟨ht, hp⟩, hn⟩ := h
  cases ha : srcAddr s.src.ranges s.src.pos.toNat with
  | some a =>
    rcases fetchByte_cases s with ⟨a', ha', hs, hd⟩ | ⟨hc, -, -⟩ | hd
    · rw [hd] at hf
      cases hf
      have hpos := pos_succ ha ht
      refine ⟨⟨ht, hp⟩, ?_⟩
      intro c h1 _ h3
      rw [ha] at ha'
      cases ha'
      have h4 : srcAddr s.src.ranges (s.src.pos.toNat + 1) = some c := by
        rw [← hpos]
        exact h3
      exact hp _ _ _ ha h4 (by rw [← h1]; exact hr.symm)
    · rw [ha] at hc; cases hc
    · rw [hd] at hf; cases hf
  | none =>
    rcases fetchByte_cases s with ⟨a', ha', -, -⟩ | ⟨-, -, hd⟩ | hd
    · rw [ha] at ha'; cases ha'
    · rw [hd] at hf
      cases hf
      refine ⟨⟨ht, hp⟩, ?_⟩
      intro c _ _ h3
      have h4 : srcAddr s.src.ranges s.src.pos.toNat = some c := h3
      rw [ha] at h4
      cases h4
    · rw [hd] at hf; cases hf

theorem fetchByte_mq {s t : State} {b : Byte} {fill : Bool} (hf : fetchByte s = .done (b, fill) t) : t.mq = s.mq := by
  have := fetchByte_keeps (fun x => x.mq) s fun _ _ => rfl
  rwa [hf] at this

/-- A byte fetched from clean bytes after a 0xFF is at most 0x7F or a marker byte. -/
theorem State.MarkerClean.byte {s t : State} {b : Byte} {fill : Bool} (h : s.MarkerClean) (hmf : s.mq.mf = false)
    (hf : fetchByte s = .done (b, fill) t) (hff : s.mq.b = 0xFF) : b ≤ 0x7F#8 ∨ 0x8F#8 < b := by
  rcases fetchByte_cases s with ⟨a', ha', -, hd⟩ | ⟨-, -, hd⟩ | hd
  · rw [hd] at hf
    cases hf
    exact h.2 _ hff hmf ha'
  · rw [hd] at hf
    cases hf
    exact .inr (by decide)
  · rw [hd] at hf; cases hf

/-- BYTEIN on an empty register keeps what RENORMD keeps. -/
theorem byteInIfEmpty_below {s t : State} (h : byteInIfEmpty s = .done () t) (hb : s.mq.Below) (hm : s.MarkerClean)
    (ha : s.mq.a.toNat < 0x8000) : t.mq.Below ∧ t.MarkerClean := by
  unfold byteInIfEmpty at h
  split at h
  · rename_i hc
    have hlo : 2 ^ 16 ∣ s.mq.c.toNat := by simpa [hc] using hb.low
    unfold byteIn at h
    split at h
    · cases h
      refine ⟨⟨hb.high, Dvd.dvd.mul_right hlo _⟩, hm.1, ?_⟩
      intro a h1 h2 h3
      exact hm.2 a h1 h2 h3
    · rename_i hmf
      have hmf : s.mq.mf = false := by simpa using hmf
      rw [Act.bind_eq_done] at h
      obtain ⟨⟨b, fill⟩, u, hf, hu⟩ := h
      cases hu
      have hmq := fetchByte_mq hf
      refine ⟨?_, hm.fetch hf _ (MqRegs.takeByte_b _ _)⟩
      rw [State.setMq_mq, hmq]
      exact hb.takeByte ha hc b (hm.byte hmf hf)
  · cases h
    exact ⟨hb, hm⟩

/-- RENORMD keeps `C` below `A`. -/
theorem renormLoop_below (n : Nat) {s t : State} (h : renormLoop n s = .done () t) (hb : s.mq.Below)
    (hm : s.MarkerClean) (ha : s.mq.a.toNat < 0x8000) (hc : s.mq.ct.toNat ≤ 8) : t.mq.Below ∧ t.MarkerClean := by
  induction n generalizing s with
  | zero => cases h; exact ⟨hb, hm⟩
  | succ n ih =>
    simp only [renormLoop, Act.bind_eq_done] at h
    obtain ⟨_, u, hu, h⟩ := h
    have hua := byteInIfEmpty_a hu
    have huc := byteInIfEmpty_ct hu hc
    obtain ⟨hub, hum⟩ := byteInIfEmpty_below hu hb hm ha
    have hd := hub.double (by rw [hua]; exact ha) huc.1
    have hdm : (u.setMq u.mq.double).MarkerClean := ⟨hum.1, fun a h1 h2 h3 => hum.2 a h1 h2 h3⟩
    split at h
    · rename_i hlt
      refine ih h hd hdm (by simpa [BitVec.lt_def] using hlt) ?_
      rw [State.setMq_mq, double_ct huc.1]
      omega
    · cases h
      exact ⟨hd, hdm⟩

end Sys2Proof.Machine
end

