-- ==== Sys2Proof/Laws/Readable.lean ====
section
/-! SUPPORT. When a byte source can be read: the conditions of Safety.lean reduced to the ranges at hand, so that they
can be decided for a concrete source. -/

namespace Sys2Proof.Machine

/-- The addresses of a source of one range (20_memory.md R74). -/
theorem srcAddr_single (b l : Word) (i : Nat) :
    srcAddr [(b, l)] i = if i < l.toNat then some (b.toNat + i) else none := by
  simp [srcAddr]

/-- The addresses of a source with more ranges behind it. -/
theorem srcAddr_append (rs qs : List (Word × Word)) (i : Nat) :
    srcAddr (rs ++ qs) i = if i < srcTotal rs then srcAddr rs i else srcAddr qs (i - srcTotal rs) := by
  induction rs generalizing i with
  | nil => simp [srcTotal]
  | cons r rs ih =>
    obtain ⟨b, l⟩ := r
    simp only [List.cons_append, srcAddr, srcTotal, ih]
    by_cases h1 : i < l.toNat
    · simp [h1, Nat.lt_of_lt_of_le h1 (Nat.le_add_right _ _)]
    · by_cases h2 : i - l.toNat < srcTotal rs
      · have h3 : i < l.toNat + srcTotal rs := by omega
        simp [h1, h2, h3]
      · have h3 : ¬ i < l.toNat + srcTotal rs := by omega
        simp [h1, h2, h3, Nat.sub_sub]

theorem readable_nil (p : Config.Params) : RangesReadable p [] := by
  intro i a h
  simp [srcAddr] at h

/-- A range that ends in CWMEM is readable. -/
theorem readable_single {p : Config.Params} {b l : Word} (h : b.toNat + l.toNat ≤ p.cwmemSize) :
    RangesReadable p [(b, l)] := by
  intro i a ha
  rw [srcAddr_single] at ha
  split at ha
  · injection ha with ha
    omega
  · cases ha

theorem readable_append {p : Config.Params} {rs qs : List (Word × Word)} (hr : RangesReadable p rs)
    (hq : RangesReadable p qs) : RangesReadable p (rs ++ qs) := by
  intro i a ha
  rw [srcAddr_append] at ha
  split at ha
  · exact hr _ _ ha
  · exact hq _ _ ha

/-- Past the end of the source there is no byte. -/
theorem sourceByte_eq_none {s : State} {i : Nat} (h : srcTotal s.src.ranges ≤ i) : s.sourceByte i = none := by
  simp [State.sourceByte, srcAddr_eq_none_iff.2 h]

/-- Stuffing need be looked at only up to the end of the source. -/
theorem stuffingClean_of_bounded {s : State} (h : srcTotal s.src.ranges < 2 ^ 32)
    (hf : s.br.lastFF = true → s.sourceByte s.src.pos.toNat ≠ some 0xFF)
    (hi : ∀ i < srcTotal s.src.ranges, s.src.pos.toNat ≤ i → s.sourceByte i = some 0xFF →
      s.sourceByte (i + 1) ≠ some 0xFF) : s.StuffingClean := by
  refine ⟨h, hf, fun i hp hb => ?_⟩
  by_cases hlt : i < srcTotal s.src.ranges
  · exact hi i hlt hp hb
  · rw [sourceByte_eq_none (by omega)] at hb
    cases hb

/-- A byte after a 0xFF is at most 0x7F or a marker byte, or absent (42_mq_decoder.md R164). -/
def cleanPair : Option Byte → Option Byte → Bool
  | some a, some b => a != 0xFF || decide (b ≤ 0x7F#8) || decide (0x8F#8 < b)
  | _, _ => true

/-- The pairs of bytes need be looked at only up to the end of the source. -/
theorem rangesMarkerClean_of_bounded {s : State} {rs : List (Word × Word)} (h : srcTotal rs < 2 ^ 32)
    (hi : ∀ i < srcTotal rs, cleanPair ((srcAddr rs i).map s.cwByte) ((srcAddr rs (i + 1)).map s.cwByte) = true) :
    RangesMarkerClean s rs := by
  refine ⟨h, fun i a b ha hb hff => ?_⟩
  have hlt : i < srcTotal rs := by
    by_contra hn
    rw [srcAddr_eq_none_iff.2 (by omega)] at ha
    cases ha
  have := hi i hlt
  simpa [ha, hb, cleanPair, hff] using this

end Sys2Proof.Machine
end

