-- ==== Sys2Proof/Machine/Asm.lean ====
section
/-! DEFINITION. The assembler syntax of 30_encoding.md R101 and the pseudo-instructions of 30_encoding.md R102. The engine
reads neither: an assembler turns a line into command words for the host to deliver. A line is given as its words, cut at
blanks and commas, without its comment (log 19). -/

namespace Sys2Proof.Machine

/-- The pseudo-instructions (30_encoding.md R102). -/
inductive Pseudo where
  /-- `DEC k`. -/
  | dec (k : BitVec 5)
  /-- `SETSEG base, len, n`. -/
  | setseg (base len n : Word)
  /-- `CONFIG W, H, orient, mode`. -/
  | config (w h orient mode : Word)
  /-- `STATUS`. -/
  | status
deriving DecidableEq, Repr

/-- The expansion of a pseudo-instruction (30_encoding.md R102). -/
def Pseudo.expand : Pseudo → List Instr
  | .dec k => [.cxSelect k, .mqDecode]
  | .setseg base len n => [.csrWr 2 base, .csrWr 3 len, .csrWr 4 n]
  | .config w h orient mode => [.csrWr 0 (((h - 1) <<< 10) ||| (w - 1) ||| (orient <<< 20)), .csrWr 1 mode]
  | .status => [.csrRd 5]

/-- The value of a digit in bases up to 16. -/
def digitValue (c : Char) : Option Nat :=
  let n := c.toNat
  if 48 ≤ n ∧ n ≤ 57 then some (n - 48)
  else if 65 ≤ n ∧ n ≤ 70 then some (n - 55)
  else if 97 ≤ n ∧ n ≤ 102 then some (n - 87)
  else none

/-- Read digits of a base behind a value. -/
def digitsFrom (base : Nat) : Nat → List Char → Option Nat
  | v, [] => some v
  | v, c :: cs =>
    match digitValue c with
    | some d => if d < base then digitsFrom base (base * v + d) cs else none
    | none => none

/-- A number, decimal or `0x` hexadecimal (30_encoding.md R101). -/
def parseNumber (cs : List Char) : Option Nat :=
  match cs with
  | '0' :: 'x' :: [] => none
  | '0' :: 'x' :: ds => digitsFrom 16 0 ds
  | [] => none
  | ds => digitsFrom 10 0 ds

/-- The names of a fixed list and their numbers. -/
def lookupName (names : List (String × Nat)) (t : String) : Option Nat :=
  (names.find? fun e => e.1 == t).map fun e => e.2

/-- The CSR names and their indices (10_state.md R43). -/
def csrNames : List (String × Nat) :=
  [("GEOM", 0), ("MODE", 1), ("SEG_BASE", 2), ("SEG_LEN", 3), ("SEG_PASSES", 4), ("STATUS", 5), ("PASSCOUNT", 6),
   ("MQ_A", 7), ("MQ_C", 8), ("MQ_CTB", 9), ("SRC_POS", 10), ("BR_STATE", 11), ("CXSEL", 12)]

/-- The names of the orientations in CONFIG (30_encoding.md R102). -/
def orientNames : List (String × Nat) := [("LL", 0), ("HL", 1), ("LH", 2), ("HH", 3)]

/-- An operand: one of the names of a list, or a number that fits its field. -/
def parseOperand (names : List (String × Nat)) (bits : Nat) (t : String) : Option (BitVec bits) :=
  match (lookupName names t).orElse fun _ => parseNumber t.toList with
  | some n => if n < 2 ^ bits then some (BitVec.ofNat bits n) else none
  | none => none

/-- A line of one command or pseudo-instruction (30_encoding.md R101, R102); `none` if it is no line of the syntax. -/
def assembleLine (line : List String) : Option (List Instr) :=
  match line with
  | ["CSR_WR", c, d] => do return [.csrWr (← parseOperand csrNames 4 c) (← parseOperand [] 32 d)]
  | ["CSR_RD", c] => do return [.csrRd (← parseOperand csrNames 4 c)]
  | ["BLK_START"] => some [.blkStart]
  | ["BLK_SEGMENT"] => some [.blkSegment false]
  | ["BLK_SEGMENT", "last"] => some [.blkSegment true]
  | ["BR_BIND", "header"] => some [.brBind false]
  | ["BR_BIND", "codeword"] => some [.brBind true]
  | ["BR_READBIT"] => some [.brReadbit]
  | ["BR_READBITS", n] => do return [.brReadbits (← parseOperand [] 7 n)]
  | ["BR_FINISH"] => some [.brFinish]
  | ["MQ_INIT"] => some [.mqInit]
  | ["MQ_DECODE"] => some [.mqDecode]
  | ["MQ_DECODE_RAW"] => some [.mqDecodeRaw]
  | ["MQ_PTERM"] => some [.mqPterm]
  | ["CX_RESET"] => some [.cxReset]
  | ["CX_SELECT", k] => do return [.cxSelect (← parseOperand [] 5 k)]
  | ["CX_READ"] => some [.cxRead]
  | ["PASS_SP", p] => do return [.passSp (← parseOperand [] 5 p) false]
  | ["PASS_SP", p, "raw"] => do return [.passSp (← parseOperand [] 5 p) true]
  | ["PASS_MR", p] => do return [.passMr (← parseOperand [] 5 p) false]
  | ["PASS_MR", p, "raw"] => do return [.passMr (← parseOperand [] 5 p) true]
  | ["PASS_CU", p] => do return [.passCu (← parseOperand [] 5 p)]
  | ["NEXT_PASS"] => some [.nextPass]
  | ["DEC", k] => do return (Pseudo.dec (← parseOperand [] 5 k)).expand
  | ["SETSEG", b, l, n] => do
      return (Pseudo.setseg (← parseOperand [] 32 b) (← parseOperand [] 32 l) (← parseOperand [] 32 n)).expand
  | ["CONFIG", w, h, o, m] => do
      return (Pseudo.config (← parseOperand [] 32 w) (← parseOperand [] 32 h) (← parseOperand orientNames 32 o)
        (← parseOperand [] 32 m)).expand
  | ["STATUS"] => some (Pseudo.status.expand)
  | _ => none

/-- The command words of a line (30_encoding.md R101). -/
def assembledWords (line : List String) : Option (List Word) :=
  (assembleLine line).map fun is => is.flatMap encode

end Sys2Proof.Machine
end

