-- ==== Sys2Proof/Tests/Slice0.lean ====
section
/-! SUPPORT. The model's own tests. Expected results are those of spec/95_test_vectors.md (V-…, P…) or are worked out by
hand from the rule named; after them, for every statement of the package, states and operands that meet its hypotheses. -/

namespace Sys2Proof.Tests

open Sys2Proof.Machine

/-! ## Helpers -/

/-- The outcome is a next state with a property. -/
def lands (o : Host.Outcome State Fault Refusal) (p : State → Bool) : Bool :=
  match o with
  | .next t => p t
  | .fault _ => false
  | .refused _ => false

theorem next_of_lands {o : Host.Outcome State Fault Refusal} {p : State → Bool} (h : lands o p = true) :
    ∃ t, o = .next t ∧ p t = true := by
  cases o with
  | next t => exact ⟨t, rfl, h⟩
  | fault r => cases h
  | refused r => cases h

/-- The state after a command. -/
def after (i : Instr) (s : State) : State :=
  match exec i s with
  | .next t => t
  | .fault _ => s
  | .refused _ => s

/-- The state after a few commands. -/
def afterAll (is : List Instr) (s : State) : State := is.foldl (fun s i => after i s) s

/-- Reset, with bytes at address 0 and the segment set to them. -/
def holding (bs : List Byte) : State :=
  (State.reset.hostWriteAll 0 bs).setCsr { State.reset.csr with segLen := BitVec.ofNat 32 bs.length }

/-- A bit reader bound to bytes. -/
def reader (mode : Bool) (bs : List Byte) : State := after (.brBind mode) (holding bs)

/-- An MQ decoder initialised on bytes. -/
def decoder (bs : List Byte) : State := after .mqInit (holding bs)

/-- A decoder with a context selected. -/
def decoderAt (k : Category) (bs : List Byte) : State := (decoder bs).setCxsel k

/-- A block started with GEOM and MODE, with bytes at address 0 and the segment set to them. -/
def block (geom mode : Word) (bs : List Byte) : State :=
  after .blkStart ((holding bs).setCsr { (holding bs).csr with geom := geom, mode := mode })

/-- A block with a segment of `n` passes to come. -/
def segment (geom mode : Word) (n : Nat) (bs : List Byte) : State :=
  let s := block geom mode bs
  s.setCsr { s.csr with segPasses := BitVec.ofNat 32 n }

/-- The block of V-PASS, its decoder initialised. -/
def passBlock : State := after .mqInit (block 0xC03 0x100 [0x19, 0x34, 0x93, 0x0B])

/-- The invariant as a decision, part by part. -/
def invBool (s : State) : Bool :=
  decide s.par.Legal && (decide s.MemoriesCanonical && (decide s.InsideBlock && (decide s.CountersInRange &&
    (decide s.ErrorLegal && (decide s.CsrsLegal && (decide s.ConfigLegal && (decide s.CursorLegal &&
      (decide s.SamplesAgree && decide s.StatusLegal))))))))

theorem inv_of_invBool {s : State} (h : invBool s = true) : s.Inv := by
  simpa only [invBool, Bool.and_eq_true, decide_eq_true_eq] using h

/-- The samples of a block, row by row. -/
def samples (s : State) : List Int := s.sampleBuffer.map sampleValue

/-! ## Well-formedness: an ill-formed command for each check -/

theorem test_wf_csr_write : ¬ (Instr.csrWr 5 0).WellFormed := by decide
theorem test_wf_csr_read : ¬ (Instr.csrRd 13).WellFormed := by decide
theorem test_wf_count : ¬ (Instr.brReadbits 65).WellFormed := by decide
theorem test_wf_category : ¬ (Instr.cxSelect 19).WellFormed := by decide
theorem test_wf_plane :
    ¬ (Instr.passSp 31 true).WellFormed ∧ ¬ (Instr.passMr 31 false).WellFormed ∧ ¬ (Instr.passCu 31).WellFormed := by
  decide

/-! ## Decoding: the words of V-ENC-1 and V-ENC-2, and the encoder on them -/

/-- V-ENC-1. -/
def listedWords : List (List Word × Instr) := [
  ([0x04000000, 0x00000C03], .csrWr 0 0xC03),
  ([0x08000005], .csrRd 5),
  ([0x0C000000], .blkStart),
  ([0x10000000], .blkSegment false),
  ([0x10000001], .blkSegment true),
  ([0x20000000], .brBind false),
  ([0x20000001], .brBind true),
  ([0x24000000], .brReadbit),
  ([0x2800000C], .brReadbits 12),
  ([0x28000040], .brReadbits 64),
  ([0x2C000000], .brFinish),
  ([0x40000000], .mqInit)] ++ [
  ([0x44000000], .mqDecode),
  ([0x48000000], .mqDecodeRaw),
  ([0x4C000000], .mqPterm),
  ([0x60000000], .cxReset),
  ([0x64000012], .cxSelect 18),
  ([0x68000000], .cxRead),
  ([0x80000003], .passSp 3 false),
  ([0x80000023], .passSp 3 true),
  ([0x84000020], .passMr 0 true),
  ([0x8800001E], .passCu 30),
  ([0x8C000000], .nextPass)]

theorem test_decode_listed : ∀ e ∈ listedWords, decode e.1 = .instr e.2 [] := by decide
theorem test_encode_listed : ∀ e ∈ listedWords, encode e.2 = e.1 := by decide

/-- V-ENC-2: each, as the first word after reset, raises IllegalCommand and leaves RES alone. -/
theorem test_illegal_words :
    ∀ ws ∈ ([[0x00000000], [0x14000000], [0xFC000000], [0x0C000001], [0x10000002], [0x64000013], [0x28000041],
        [0x8000001F], [0x0800000D], [0x04000005, 0x00000000]] : List (List Word)),
      lands (step (State.reset.deliver ws)) (fun t => t.statusWord == 0x50004 && t.res == 0 && t.hostq == []) = true := by
  decide

/-- The words of rows of the opcode table, as the table numbers their bits; the data word of a CSR_WR is bits 63..32. -/
theorem test_table_words :
    decodeTableWord 64 0x00000C0304000000 = some (.csrWr 0 0xC03) ∧ decodeTableWord 32 0x80000023 = some (.passSp 3 true) ∧
      lands (step (State.reset.withFetchWord 64 0x00000C0304000000)) (fun t => t.csr.geom == 0xC03) = true := by decide

/-- The pseudo-instructions and lines of 30_encoding.md R101, R102, as the programs P2 to P4 spell them. -/
theorem test_assembler :
    assembledWords ["DEC", "9"] = some [0x64000009, 0x44000000] ∧
      assembledWords ["SETSEG", "0xB", "3", "2"] =
        some [0x04000002, 0x0000000B, 0x04000003, 0x00000003, 0x04000004, 0x00000002] ∧
      assembledWords ["CONFIG", "4", "4", "LL", "0x418"] = some [0x04000000, 0x00000C03, 0x04000001, 0x00000418] ∧
      assembledWords ["PASS_MR", "0", "raw"] = some [0x84000020] := by decide

/-! ## One step of each command -/

/-- 10_state.md R44, R42: reserved bits are not stored. -/
theorem test_csrWr_masks : lands (exec (.csrWr 0 0xFFFFFFFF) State.reset) (fun t => t.csr.geom == 0x003FFFFF) = true := by
  decide
/-- 60_exceptions.md R343: CSR_WR runs with ERROR = 1. -/
theorem test_csrWr_after_error :
    lands (exec (.csrWr 3 7) (State.reset.latch .notReady)) (fun t => t.csr.segLen == 7 && t.st.errCode == 9) = true := by
  decide
/-- V-BR-13, read through STATUS. -/
theorem test_csrRd_status :
    lands (exec (.csrRd 5) (after .brReadbit State.reset)) (fun t => t.res == 0x90004) = true := by decide
/-- V-RST-2: BLK_START leaves the MQ registers. -/
theorem test_csrRd_mq :
    let s := after .blkStart (decoder [0x00, 0x00])
    lands (exec (.csrRd 8) s) (fun t => t.res == 0x7FFF8000) = true ∧
      lands (exec (.csrRd 5) s) (fun t => t.res == 0x1) = true := by decide
/-- V-BLK-4: 64 x 65 is too large. -/
theorem test_blkStart_too_large : (block 0x1003F 0x200 []).statusWord = 0x60004 := by decide
/-- V-BLK-6, V-EXC-5: 64 x 64 with P0 + SHIFT = 30, and an error is cleared. -/
theorem test_blkStart_accepts :
    lands (exec .blkStart ((State.reset.setCsr { State.reset.csr with geom := 0xFC3F, mode := 0x0F0F00 }).latch .notReady))
      (fun t => t.statusWord == 0x1 && t.cfg.w == 64 && t.cfg.h == 64 && t.cfg.p0 == 15 && t.cfg.shift == 15) = true := by
  decide
/-- V-BLK-1: ExcessPasses, and `last` still marks the block finished. -/
theorem test_blkSegment_excess :
    lands (exec (.blkSegment true) (segment 0xC03 0 2 [0, 0, 0, 0]))
      (fun t => t.statusWord == 0x70007 && t.cur.passCount == 0 && t.bound == .none) = true := by decide
/-- V-BLK-12: four passes and the termination check. -/
theorem test_blkSegment_decodes :
    lands (exec (.blkSegment true) (segment 0xC03 0x120 4 [0x19, 0x34, 0x93, 0x0B]))
      (fun t => t.statusWord == 0x353 && t.cur.passCount == 4 &&
        samples t == [0, 0, -2, 0, 0, 0, 0, 0, 0, 3, 0, 0, 0, 0, 0, 1]) = true := by decide +kernel
/-- V-BR-12. -/
theorem test_brBind :
    lands (exec (.brBind true) (State.reset.setCsr { State.reset.csr with segBase := 0x100, segLen := 6 }))
      (fun t => t.bound == .br && t.src.pos == 0 && t.brStateWord == 0x00020000) = true := by decide
/-- V-BR-11: a real 0xFF after a 0xFF. -/
theorem test_brReadbit_corrupt :
    lands (exec .brReadbit (after (.brReadbits 8) (reader true [0xFF, 0xFF])))
      (fun t => t.res == 0xFF && t.statusWord == 0x10024) = true := by decide
/-- P1: bit 7 of the byte FF, behind the byte A5. -/
theorem test_brReadbit :
    lands (exec .brReadbit (after (.brReadbits 8) (reader false [0xA5, 0xFF]))) (fun t => t.res == 1) = true := by decide
/-- V-BR-3b. -/
theorem test_brReadbits_47 :
    lands (exec (.brReadbits 47) (reader false [0x00, 0x01, 0xFF, 0x7F, 0x90, 0x53]))
      (fun t => t.res == 0xFFFF9053 && t.statusWord == 0x20) = true := by decide +kernel
/-- V-BR-2: RES is unchanged by a failing read. -/
theorem test_brReadbits_corrupt :
    lands (exec (.brReadbits 12) ((reader false [0xFF, 0xFF, 0xFF, 0xFF]).setRes 0x123))
      (fun t => t.res == 0x123 && t.statusWord == 0x10024 && t.src.pos == 2) = true := by decide
/-- V-BR-5. -/
theorem test_brFinish_stuffing :
    lands (exec .brFinish (after (.brReadbits 8) (reader false [0xFF, 0x00, 0xA5])))
      (fun t => t.res == 2 && t.src.pos == 2 && t.br.lastFF == false) = true := by decide
/-- V-BR-8. -/
theorem test_brFinish_absent :
    lands (exec .brFinish (after (.brReadbits 8) (reader false [0xFF])))
      (fun t => t.res == 0xFF && t.statusWord == 0x20024) = true := by decide
/-- V-MQ-1. -/
theorem test_mqInit :
    lands (exec .mqInit (holding [0x12, 0x34, 0x56]))
      (fun t => t.mq == { a := 0x8000, c := 0x76E58000, ct := 1, b := 0x34, mf := false } && t.src.pos == 2) = true ∧
    lands (exec .mqInit (holding [0xFF, 0x7F]))
      (fun t => t.mq == { a := 0x8000, c := 0, ct := 0, b := 0x7F, mf := false } && t.src.pos == 2) = true ∧
    lands (exec .mqInit (holding []))
      (fun t => t.mq == { a := 0x8000, c := 0, ct := 1, b := 0xFF, mf := true } && t.src.filled) = true := by decide
/-- V-MQ-10. -/
theorem test_mqInit_outside :
    lands (exec .mqInit { State.reset with par := { State.reset.par with cwmemSize := 4 },
                                           csr := { State.reset.csr with segBase := 3, segLen := 2 } })
      (fun t => t.statusWord == 0x20014 && t.src.pos == 1) = true := by decide
/-- V-MQ-2, step 1: the conditional exchange. -/
theorem test_mqDecode_conditional :
    lands (exec .mqDecode (decoderAt 18 [0x12, 0x34, 0x56]))
      (fun t => t.res == 0 && t.mq == { a := 0xAC02, c := 0x99CD0000, ct := 0, b := 0x34, mf := false } &&
        (t.ctx 18).word == 0x2E) = true := by decide
/-- V-MQ-4, step 3: an LPS in state 6 inverts the MPS. -/
theorem test_mqDecode_switch :
    lands (exec .mqDecode (afterAll [.mqDecode, .mqDecode] (decoderAt 1 [0, 0, 0])))
      (fun t => t.res == 1 && t.mq.a == 0xAC02 && t.mq.c == 0xAC01F800 && t.mq.ct == 5 && (t.ctx 1).word == 0x106) = true := by
  decide
/-- V-MQ-8: the first bit of A5. -/
theorem test_mqDecodeRaw : lands (exec .mqDecodeRaw (reader true [0xA5])) (fun t => t.res == 1) = true := by decide
/-- V-MQ-8: with the MQ decoder bound, NotReady. -/
theorem test_mqDecodeRaw_notReady :
    lands (exec .mqDecodeRaw (decoder [])) (fun t => t.statusWord == 0x90054) = true := by decide
/-- V-MQ-9: the registers before and after a check that passes. -/
theorem test_mqPterm_passes :
    lands (exec .mqPterm ((decoder []).setMq { a := 0xB5C6, c := 0xA1580000, ct := 3, b := 0xFF, mf := true }))
      (fun t => t.res == 0 && t.mq.a == 0x8000 && t.mq.c == 0x2E480000 && t.mq.ct == 1) = true := by decide
/-- 42_mq_decoder.md R163: no 0xFF and no marker reached. -/
theorem test_mqPterm_fails : lands (exec .mqPterm (decoder [0x12, 0x34, 0x56])) (fun t => t.res == 1) = true := by decide
/-- V-CX-1. -/
theorem test_cxReset :
    lands (exec .cxReset ((State.reset.setCtx 17 ⟨46, true⟩).setCxsel 5))
      (fun t => (t.ctx 17).word == 3 && t.cxsel == 0) = true := by decide
/-- V-CX-1. -/
theorem test_cxSelect :
    lands (exec (.cxSelect 18) State.reset) (fun t => t.cxselWord == 18 && (t.ctx t.cxsel).word == 0x2E) = true := by decide
/-- V-EXC-2: suppressed with ERROR = 1. -/
theorem test_cxSelect_suppressed :
    lands (exec (.cxSelect 18) (after .mqDecode State.reset)) (fun t => t.statusWord == 0x90004 && t.cxsel == 0) = true := by
  decide
/-- V-CX-1 and P2 (state 9, MPS 1 reads 109). -/
theorem test_cxRead :
    lands (exec .cxRead State.reset) (fun t => t.res == 4) = true ∧
      lands (exec .cxRead (State.reset.setCtx 0 ⟨9, true⟩)) (fun t => t.res == 0x109) = true := by decide
/-- V-PASS-1. -/
theorem test_passCu :
    lands (exec (.passCu 1) passBlock)
      (fun t => t.res == 0 && t.mq.a == 0x99FF && t.mq.c == 0x0FB00000 && t.mq.ct == 5 && t.src.pos == 4 &&
        samples t == [0, 0, -2, 0, 0, 0, 0, 0, 0, 2, 0, 0, 0, 0, 0, 0]) = true := by decide +kernel
/-- V-PASS-2. -/
theorem test_passSp :
    lands (exec (.passSp 0 false) (after (.passCu 1) passBlock))
      (fun t => t.res == 0 && t.mq.a == 0xFFB0 && t.mq.c == 0xFB000000 && t.mq.ct == 1 &&
        (List.range 4).map (fun x => (t.cell x 0).VIS) == [false, true, false, true] &&
        (List.range 4).map (fun x => (t.cell x 3).VIS) == [true, true, true, false]) = true := by decide +kernel
/-- V-PASS-3. -/
theorem test_passMr :
    lands (exec (.passMr 0 false) (afterAll [.passCu 1, .passSp 0 false] passBlock))
      (fun t => t.res == 0 && t.mq.a == 0xD004 && t.mq.c == 0xAA840000 && t.mq.ct == 6 &&
        samples t == [0, 0, -2, 0, 0, 0, 0, 0, 0, 3, 0, 0, 0, 0, 0, 0]) = true := by decide +kernel
/-- V-PASS-6: plane 11 with SHIFT = 20. -/
theorem test_passSp_plane :
    lands (exec (.passSp 11 false) (after .mqInit (block 0xC03 0x140000 [0, 0, 0, 0])))
      (fun t => t.statusWord == 0x50015) = true := by decide
/-- V-PASS-6: a raw pass with the MQ decoder bound. -/
theorem test_passMr_notReady :
    lands (exec (.passMr 0 true) (after .mqInit (block 0xC03 0 [0, 0, 0, 0]))) (fun t => t.statusWord == 0x90015) = true := by
  decide
/-- V-PASS-6: a cleanup pass with the bit reader bound. -/
theorem test_passCu_notReady :
    lands (exec (.passCu 0) (after (.brBind true) (block 0xC03 0 [0, 0, 0, 0]))) (fun t => t.statusWord == 0x90025) = true := by
  decide
/-- V-NEXT-2: the first pass, and the raw pass behind (CU, 2). -/
theorem test_nextPass :
    let s := block 0xC03 0x510 []
    lands (exec .nextPass s) (fun t => t.res == 0x503) = true ∧
      lands (exec .nextPass (s.setCur { lastPass := some .cu, plane := 2, passCount := 10, lastType := .mq }))
        (fun t => t.res == 0x10101) = true := by decide

/-- V-CX-3: the ZC label from `h`, `v`, `d` for LL and LH, HL, HH. -/
theorem test_zc_table :
    ∀ e ∈ ([(0, 0, 0, 0, 0, 0), (0, 0, 1, 1, 1, 3), (0, 0, 2, 2, 2, 6), (0, 0, 3, 2, 2, 8), (0, 1, 0, 3, 5, 1),
        (0, 2, 0, 4, 8, 2), (1, 0, 0, 5, 3, 1), (1, 0, 1, 6, 3, 4), (1, 1, 0, 7, 7, 2), (2, 0, 0, 8, 4, 2),
        (2, 1, 0, 8, 7, 2), (0, 1, 1, 3, 6, 4), (1, 0, 2, 6, 3, 7), (2, 0, 1, 8, 4, 5)] :
        List (Nat × Nat × Nat × Category × Category × Category)),
      zcOf .LL e.1 e.2.1 e.2.2.1 = e.2.2.2.1 ∧ zcOf .LH e.1 e.2.1 e.2.2.1 = e.2.2.2.1 ∧
        zcOf .HL e.1 e.2.1 e.2.2.1 = e.2.2.2.2.1 ∧ zcOf .HH e.1 e.2.1 e.2.2.1 = e.2.2.2.2.2 := by decide

/-! ## The host's reads of SAMP -/

/-- R35, U3: before the first BLK_START a word is any value, whatever its coordinates. -/
theorem test_samp_before_block :
    State.reset.hostSampRead 5 7 = some (Config.freeSample none 5 7) ∧ State.reset.hostSampRead 1024 0 = none :=
  ⟨rfl, by decide⟩

/-- R302, R303: after BLK_START every word of the block is 0; after a BadConfig with a larger CFG the words of the earlier
block stay, and the others are free values (log 25). -/
theorem test_samp_after_bad_config :
    let s := block 0xC03 0x100 []
    let t := after .blkStart (s.setCsr { s.csr with geom := 0x1003F })
    s.hostSampRead 3 3 = some 0 ∧ s.hostSampRead 4 0 = none ∧ t.statusWord = 0x60004 ∧
      t.hostSampRead 3 3 = some 0 ∧ t.hostSampRead 4 0 = some (Config.freeSample (some (4, 4)) 4 0) :=
  ⟨by decide, by decide, by decide, by decide, rfl⟩

/-- R6: three engines after reset are a legal hardware; none is not. -/
theorem test_pool_reset :
    (Pool.reset { Config.defaultParams with nInstances := 3 } []).Legal ∧
      ¬ (Pool.reset { Config.defaultParams with nInstances := 0 } []).Legal := by decide

/-! ## Witnesses: states and operands that meet the hypotheses of each statement -/

/-- An error latched. -/
def erred : State := State.reset.latch .notReady

/-- The rows of the opcode table by name. -/
def row (m : String) : Option OpcodeRow := opcodeTable.find? fun r => r.mnemonic == m

theorem hyp_DecodeEncodeAgree :
    ∀ i ∈ ([.csrWr 4 0xFFFFFFFF, .csrRd 12, .blkSegment true, .brBind true, .brReadbits 64, .cxSelect 18, .passSp 30 true,
        .passMr 0 true, .passCu 30, .nextPass] : List Instr), i.WellFormed := by decide

theorem hyp_EncodeDecodeAgree :
    decode [0x04000004, 0xFFFFFFFF, 0] = .instr (.csrWr 4 0xFFFFFFFF) [0] ∧
      decode [0x80000037, 0] = .instr (.passSp 23 true) [0] := by decide

theorem hyp_CommandIsItsTableRow :
    (∃ r ∈ opcodeTable, r.covers 0x64000012 = true ∧ decode [0x64000012, 0] = .instr (.cxSelect 18) [0]) ∧
    (∃ r ∈ opcodeTable, r.covers 0x64000013 = true ∧ decode [0x64000013, 0] = .illegal .operandRange [0]) ∧
    ∃ r ∈ opcodeTable, r.covers 0x04000005 = true := by decide

/-- The ends of the ranges of 30_encoding.md R95. -/
theorem hyp_ReservedOpcodesAreIllegal :
    ∀ o ∈ [0x00, 0x05, 0x07, 0x0C, 0x0F, 0x14, 0x17, 0x1B, 0x1F, 0x24, 0x3F],
      (State.reset.setHostq [BitVec.ofNat 32 (o * 2 ^ 26)]).hostq = BitVec.ofNat 32 (o * 2 ^ 26) :: [] ∧
      (let op := (BitVec.ofNat 32 (o * 2 ^ 26)).toNat / 2 ^ 26
       op = 0 ∨ (0x05 ≤ op ∧ op ≤ 0x07) ∨ (0x0C ≤ op ∧ op ≤ 0x0F) ∨ (0x14 ≤ op ∧ op ≤ 0x17) ∨
         (0x1B ≤ op ∧ op ≤ 0x1F) ∨ 0x24 ≤ op) := by decide

theorem hyp_ReservedBitsAreIllegal :
    (∃ r ∈ opcodeTable, (0x0C000001#32).toNat / 2 ^ 26 = r.pattern.toNat / 2 ^ 26 ∧ 0x0C000001#32 &&& r.mask ≠ r.pattern ∧
      r.mnemonic ≠ "CSR_WR") ∧
    (∃ r ∈ opcodeTable, (0x04000010#32).toNat / 2 ^ 26 = r.pattern.toNat / 2 ^ 26 ∧ 0x04000010#32 &&& r.mask ≠ r.pattern ∧
      r.mnemonic = "CSR_WR" ∧ (State.reset.setHostq [0x04000010, 7]).hostq = 0x04000010 :: 7 :: []) := by decide

theorem hyp_OperandsOutOfRangeAreIllegal :
    ∀ i ∈ ([.cxSelect 19, .cxSelect 31, .brReadbits 65, .brReadbits 127, .passSp 31 true, .passMr 31 false, .passCu 31,
        .csrRd 13, .csrRd 15, .csrWr 13 0, .csrWr 5 0, .csrWr 12 0] : List Instr),
      (State.reset.setHostq (encode i)).hostq = encode i ++ [] ∧
      ((∃ k : BitVec 5, 19 ≤ k.toNat ∧ i = .cxSelect k) ∨
        (∃ n : BitVec 7, 65 ≤ n.toNat ∧ i = .brReadbits n) ∨
        (∃ p : BitVec 5, 31 ≤ p.toNat ∧ ((∃ raw, i = .passSp p raw ∨ i = .passMr p raw) ∨ i = .passCu p)) ∨
        (∃ c : BitVec 4, 13 ≤ c.toNat ∧ (i = .csrRd c ∨ ∃ d, i = .csrWr c d)) ∨
        (∃ (c : BitVec 4) (d : Word), 5 ≤ c.toNat ∧ c.toNat ≤ 12 ∧ i = .csrWr c d)) := by
  simp only [List.forall_mem_cons, List.not_mem_nil, false_imp_iff, implies_true, and_true]
  refine ⟨⟨rfl, .inl ⟨19, by decide, rfl⟩⟩, ⟨rfl, .inl ⟨31, by decide, rfl⟩⟩, ⟨rfl, .inr (.inl ⟨65, by decide, rfl⟩)⟩,
    ⟨rfl, .inr (.inl ⟨127, by decide, rfl⟩)⟩, ⟨rfl, .inr (.inr (.inl ⟨31, by decide, .inl ⟨true, .inl rfl⟩⟩))⟩,
    ⟨rfl, .inr (.inr (.inl ⟨31, by decide, .inl ⟨false, .inr rfl⟩⟩))⟩, ⟨rfl, .inr (.inr (.inl ⟨31, by decide, .inr rfl⟩))⟩,
    ⟨rfl, .inr (.inr (.inr (.inl ⟨13, by decide, .inl rfl⟩)))⟩, ⟨rfl, .inr (.inr (.inr (.inl ⟨15, by decide, .inl rfl⟩)))⟩,
    ⟨rfl, .inr (.inr (.inr (.inl ⟨13, by decide, .inr ⟨0, rfl⟩⟩)))⟩,
    ⟨rfl, .inr (.inr (.inr (.inr ⟨5, 0, by decide, by decide, rfl⟩)))⟩,
    ⟨rfl, .inr (.inr (.inr (.inr ⟨12, 0, by decide, by decide, rfl⟩)))⟩⟩

theorem hyp_WordsTakenByOpcode :
    (State.reset.setHostq [0x68000000]).hostq = 0x68000000 :: [] ∧ (0x68000000#32).toNat / 2 ^ 26 ≠ 1 ∧
      (0x04000004#32).toNat / 2 ^ 26 = 1 ∧ (0x04000004#32).toNat % 2 ^ 26 < 5 ∧
      (0x04000005#32).toNat / 2 ^ 26 = 1 ∧ ¬ (0x04000005#32).toNat % 2 ^ 26 < 5 ∧
      (State.reset.setHostq [0x04000004, 7]).hostq = 0x04000004 :: 7 :: [] := by decide

theorem hyp_StepRunsTheDecodedCommand :
    decode (State.reset.setHostq [0x04000004, 7, 0x68000000]).hostq = .instr (.csrWr 4 7) [0x68000000] := by decide

theorem hyp_EngineWaitsForTheHost :
    State.reset.hostq = [] ∧ (0x04000000#32).toNat / 2 ^ 26 = 1 ∧ (0x07FFFFFF#32).toNat / 2 ^ 26 = 1 ∧
      (State.reset.setHostq [0x07FFFFFF]).hostq = [0x07FFFFFF] := by decide

theorem hyp_ErrorSuppressesCommands :
    ¬ (Instr.brReadbits 65).WellFormed ∧ (Instr.mqInit).WellFormed ∧ erred.st.error = true ∧
      (after .mqDecode (block 0 0 [])).st.error = true ∧ (after .mqDecode (block 0 0 [])).st.started = true := by decide

theorem hyp_FirstErrorIsKept :
    erred.st.error = true ∧ lands (exec (.csrRd 13) erred) (fun t => t.st.error && t.st.errCode == 9) = true ∧
      lands (exec (.csrRd 13) State.reset) (fun t => t.st.error && t.st.errCode == 5) = true := by decide

theorem hyp_RaisingCommandsKeepTheResult_raises :
    lands (exec .mqDecode State.reset) (fun t => t.st.error) = true ∧
      lands (exec (.csrRd 13) State.reset) (fun t => t.st.error) = true ∧ ¬ (Instr.csrRd 13).WellFormed := by decide

theorem hyp_RaisingCommandsKeepTheResult_literal :
    let s := reader true [0xFF, 0xFF]
    s.Safe ∧ s.bound = .br ∧ s.br.bitsLeft = 0 ∧ s.br.lastFF = false ∧
      srcAddr s.src.ranges s.src.pos.toNat = some 0 ∧ srcAddr s.src.ranges (s.src.pos + 1).toNat = some 1 ∧
      0 < s.par.cwmemSize ∧ 1 < s.par.cwmemSize ∧ s.cwByte 0 = 0xFF ∧ s.cwByte 1 = 0xFF := by decide

theorem hyp_MissingBlockOrCoderIsNotReady :
    State.reset.Safe ∧ State.reset.bound = .none ∧ State.reset.st.started = false ∧
      (decoder []).Safe ∧ (decoder []).bound = .mq ∧ (reader true []).Safe ∧ (reader true []).bound = .br ∧
      (reader false []).Safe ∧ (reader false []).bound = .br ∧ (reader false []).br.mode = false ∧
      (Instr.brReadbits 64).WellFormed ∧ (Instr.passSp 30 true).WellFormed ∧ (Instr.passCu 30).WellFormed := by decide

theorem hyp_PlanesStayMagnitudeBits :
    (let s := after .mqInit (block 0 0x010000 [])
     s.Safe ∧ s.st.started = true ∧ (30#5).toNat ≤ 30 ∧ 30 < (30#5).toNat + s.cfg.shift.toNat ∧ s.bound = .mq) ∧
    (let s := after (.brBind true) (block 0 0x1E0000 [])
     s.Safe ∧ s.st.started = true ∧ 30 < (1#5).toNat + s.cfg.shift.toNat ∧ s.bound = .br ∧ s.br.mode = true) ∧
    (let s := block 0 0x1E00 []
     s.Inv ∧ s.st.started = true ∧ (planPasses s.cfg 91 s.cur.lastPass s.cur.plane).isSome = true) := by
  refine ⟨by decide, by decide, inv_of_invBool (by decide), by decide, by decide +kernel⟩

theorem hyp_ControlStateWriters :
    lands (exec .cxRead State.reset) (fun _ => true) = true ∧
      lands (exec (.blkSegment false) (segment 0 0 0 [])) (fun t => t.st.started) = true := by decide

theorem hyp_BlockDataWriters :
    lands (exec .nextPass (block 0 0 [])) (fun _ => true) = true ∧ lands (exec .mqInit (holding [])) (fun _ => true) = true := by
  decide

theorem hyp_CoderWriters :
    lands (exec .nextPass (block 0 0 [])) (fun _ => true) = true ∧
      lands (exec .brReadbit (reader true [])) (fun _ => true) = true ∧
      lands (exec .mqDecode (decoder [])) (fun _ => true) = true := by decide

theorem hyp_CsrWriteStoresNamedFields : 5 ≤ (5#4).toNat ∧ 5 ≤ (15#4).toNat := by decide

theorem hyp_ReadOnlyCsrLayouts : 5 ≤ (5#4).toNat ∧ (12#4).toNat ≤ 12 := by decide

theorem hyp_CsrReadReturnsTheRegister :
    ((6#4).toNat ≤ 12 ∧ (6#4).toNat < 7) ∧
    (let s := decoder [1, 2]
     s.Safe ∧ s.free.mq = false ∧ s.free.br = false ∧ (12#4).toNat ≤ 12) ∧
    (erred.st.error = true ∧ 7 ≤ (7#4).toNat ∧ (12#4).toNat ≤ 12) ∧ 13 ≤ (13#4).toNat ∧
    lands (exec .mqInit (after .blkStart erred)) (fun t => decide t.Safe && !t.free.mq) = true ∧
    (after .blkStart erred).free.mq = true ∧ (after .blkStart erred).Safe := by decide

/-- The two sides of the checks: 4096 and 4160 coefficients, P0 + SHIFT = 30 and 31. -/
theorem hyp_BlockStartBeginsAFreshBlock :
    (erred.st.error = true ∧ lands (exec .cxRead erred) (fun _ => true) = true) ∧
    (let c := latchConfig 0xFC3F 0x0F0F00
     c.w * c.h = 4096 ∧ c.p0.toNat + c.shift.toNat = 30) ∧
    (let c := latchConfig 0x1003F 0x0F0F00
     4096 < c.w * c.h) ∧
    (let c := latchConfig 0 0x100F00
     30 < c.p0.toNat + c.shift.toNat) := by decide

theorem hyp_BrBindBindsTheSegment : (holding [0xFF]).Safe := by decide

/-- The clauses in turn: a bit left (8 and 1 left); a byte, after a 0xFF and not; a fill byte; a real 0xFF after a 0xFF; an
address beyond CWMEM_SIZE; the end of a header. -/
theorem hyp_ReadBitReturnsTheNextBit :
    (let s := (reader true [0x80]).setBr { buf := 0x80, bitsLeft := 8, lastFF := false, mode := true }
     s.Safe ∧ s.bound = .br ∧ s.br.mode = true ∧ s.br.bitsLeft ≠ 0) ∧
    (let s := (reader true [0xFF]).setBr { buf := 0xFF, bitsLeft := 1, lastFF := true, mode := true }
     s.Safe ∧ s.bound = .br ∧ s.br.mode = true ∧ s.br.bitsLeft ≠ 0) ∧
    (let s := (reader true [0xFF]).setBr { buf := 0, bitsLeft := 0, lastFF := false, mode := true }
     s.Safe ∧ s.bound = .br ∧ s.br.bitsLeft = 0 ∧ srcAddr s.src.ranges s.src.pos.toNat = some 0 ∧ 0 < s.par.cwmemSize ∧
       ¬ (s.br.lastFF = true ∧ s.cwByte 0 = 0xFF)) ∧
    (let s := (reader true [0x80]).setBr { buf := 0, bitsLeft := 0, lastFF := true, mode := true }
     s.Safe ∧ s.bound = .br ∧ s.br.bitsLeft = 0 ∧ srcAddr s.src.ranges s.src.pos.toNat = some 0 ∧ 0 < s.par.cwmemSize ∧
       ¬ (s.br.lastFF = true ∧ s.cwByte 0 = 0xFF)) ∧
    (let s := reader true []
     s.Safe ∧ s.bound = .br ∧ s.br.bitsLeft = 0 ∧ srcTotal s.src.ranges ≤ s.src.pos.toNat ∧ s.br.mode = true) ∧
    (let s := (reader true [0xFF]).setBr { buf := 0, bitsLeft := 0, lastFF := true, mode := true }
     s.Safe ∧ s.bound = .br ∧ s.br.bitsLeft = 0 ∧ srcAddr s.src.ranges s.src.pos.toNat = some 0 ∧ 0 < s.par.cwmemSize ∧
       s.br.lastFF = true ∧ s.cwByte 0 = 0xFF) ∧
    (let s : State := { reader true [0xFF] with par := { State.reset.par with cwmemSize := 1 },
                                                src := { ranges := [(1, 1)], pos := 0, filled := false } }
     s.Safe ∧ s.bound = .br ∧ s.br.bitsLeft = 0 ∧ srcAddr s.src.ranges s.src.pos.toNat = some 1 ∧ s.par.cwmemSize ≤ 1) ∧
    (let s := reader false []
     s.Safe ∧ s.bound = .br ∧ s.br.bitsLeft = 0 ∧ srcTotal s.src.ranges ≤ s.src.pos.toNat ∧ s.br.mode = false) := by decide

theorem hyp_ReadBitReturnsTheNextBit_notReady :
    State.reset.Safe ∧ State.reset.bound ≠ .br ∧ (reader false []).Safe ∧
      ¬ ((reader false []).bound = .br ∧ (reader false []).br.mode = true) := by decide

/-- Two bits of A5, and no bit. -/
theorem hyp_ReadBitsCollectsBits :
    let s := reader true [0xA5]
    s.Safe ∧ s.bound = .br ∧ (2#7).toNat ≤ 64 ∧ (64#7).toNat ≤ 64 ∧ ReadsBits (0#7).toNat s [] s ∧
      ReadsBits (2#7).toNat s [true, false] (afterAll [.brReadbit, .brReadbit] s) := by
  refine ⟨by decide, by decide, by decide, by decide, ⟨rfl, rfl⟩, ?_⟩
  refine ⟨_, true, [false], rfl, by decide, by decide, rfl, ?_⟩
  exact ⟨_, false, [], rfl, by decide, by decide, rfl, rfl, rfl⟩

theorem hyp_ReadBitsCollectsBits_raises :
    65 ≤ (65#7).toNat ∧ State.reset.Safe ∧ State.reset.bound ≠ .br ∧
      lands (exec (.brReadbits 64) (reader false [0xA5])) (fun t => !decide t.Safe) = true ∧
      lands (exec (.brReadbits 64) (reader true [0xA5])) (fun t => decide t.Safe) = true := by decide +kernel

theorem readable_reader (mode : Bool) : (reader mode [0xFF, 0x7F]).SourceReadable :=
  readable_single (b := 0) (l := 2) (by cases mode <;> decide)

theorem stuffing_reader (mode : Bool) : (reader mode [0xFF, 0x7F]).StuffingClean := by
  cases mode <;> exact stuffingClean_of_bounded (by decide) (by decide) (by decide)

/-- In codeword mode 64 bits; in header mode 14, the most two bytes are sure to hold. -/
theorem hyp_ReadBitsCompletes :
    (let s := reader true [0xFF, 0x7F]
     s.Safe ∧ s.bound = .br ∧ (64#7).toNat ≤ 64 ∧ s.SourceReadable ∧ s.StuffingClean ∧ s.br.mode = true) ∧
    (let s := reader false [0xFF, 0x7F]
     s.Safe ∧ s.bound = .br ∧ s.SourceReadable ∧ s.StuffingClean ∧
       (14#7).toNat ≤ s.br.bitsLeft.toNat + 7 * (srcTotal s.src.ranges - s.src.pos.toNat)) :=
  ⟨⟨by decide, by decide, by decide, readable_reader _, stuffing_reader _, by decide⟩,
    by decide, by decide, readable_reader _, stuffing_reader _, by decide⟩

/-- The clauses in turn: no stuffing byte due; one in CWMEM; a fill byte; the end of a header; beyond CWMEM_SIZE. -/
theorem hyp_BrFinishReleasesTheSource :
    (State.reset.Safe ∧ State.reset.bound ≠ .br) ∧
    (let s := reader true [0xA5]
     s.Safe ∧ s.bound = .br ∧ ¬ (s.br.bitsLeft = 0 ∧ s.br.lastFF = true)) ∧
    (let s := after (.brReadbits 8) (reader true [0xFF, 0x00])
     s.Safe ∧ s.bound = .br ∧ s.br.bitsLeft = 0 ∧ s.br.lastFF = true ∧
       srcAddr s.src.ranges s.src.pos.toNat = some 1 ∧ 1 < s.par.cwmemSize) ∧
    (let s := after (.brReadbits 8) (reader true [0xFF])
     s.Safe ∧ s.bound = .br ∧ s.br.bitsLeft = 0 ∧ s.br.lastFF = true ∧ srcTotal s.src.ranges ≤ s.src.pos.toNat ∧
       s.br.mode = true) ∧
    (let s := after (.brReadbits 8) (reader false [0xFF])
     s.Safe ∧ s.bound = .br ∧ s.br.bitsLeft = 0 ∧ s.br.lastFF = true ∧ srcTotal s.src.ranges ≤ s.src.pos.toNat ∧
       s.br.mode = false) ∧
    (let s : State := { after (.brReadbits 8) (reader true [0xFF, 0x00]) with
                        par := { State.reset.par with cwmemSize := 1 } }
     s.Safe ∧ s.bound = .br ∧ s.br.bitsLeft = 0 ∧ s.br.lastFF = true ∧
       srcAddr s.src.ranges s.src.pos.toNat = some 1 ∧ s.par.cwmemSize ≤ 1) := by decide

theorem hyp_BrFinishIsIdempotent :
    let s := after (.brReadbits 8) (reader false [0xFF, 0x00, 0xA5])
    s.Safe ∧ lands (exec .brFinish s) (fun t => decide t.Safe && t.src.pos == 2) = true := by decide

/-- The byte after the 0xFF at both ends, 0x00 and 0x7F, and a third byte. -/
theorem hyp_SevenBitsAfterFF :
    ∀ b ∈ ([0x00, 0x7F] : List Byte),
      let s := reader true [0xFF, b, 0x3C]
      s.Safe ∧ s.bound = .br ∧ s.br.bitsLeft = 0 ∧ s.br.lastFF = false ∧
        srcAddr s.src.ranges s.src.pos.toNat = some 0 ∧ srcAddr s.src.ranges (s.src.pos + 1).toNat = some 1 ∧
        0 < s.par.cwmemSize ∧ 1 < s.par.cwmemSize ∧ s.cwByte 0 = 0xFF ∧ (s.cwByte 1).toNat ≤ 0x7F ∧
        srcAddr s.src.ranges (s.src.pos + 2).toNat = some 2 ∧ 2 < s.par.cwmemSize := by decide

/-- Segments of no byte, one and two, and a segment whose second byte is beyond CWMEM_SIZE. -/
theorem hyp_MqInitLoadsTheDecoder :
    (∀ bs ∈ ([[], [0xFF], [0xFF, 0x8F], [0xFF, 0x90], [0x7F, 0xFF]] : List (List Byte)),
      let s := holding bs
      s.Safe ∧ (0 < s.csr.segLen.toNat → s.csr.segBase.toNat < s.par.cwmemSize) ∧
        (1 < s.csr.segLen.toNat → s.csr.segBase.toNat + 1 < s.par.cwmemSize)) ∧
    (let s : State := { holding [1, 2] with par := { State.reset.par with cwmemSize := 1 } }
     s.Safe ∧ 1 < s.csr.segLen.toNat ∧ s.par.cwmemSize ≤ s.csr.segBase.toNat + 1) := by decide

/-- The five outcomes in turn; the interval at 0x8000 on the first, `A = Q` on the third and the last. -/
theorem hyp_MqDecodeDecides :
    (State.reset.Safe ∧ State.reset.bound ≠ .mq) ∧
    (let s := (decoder []).setMq { a := 0xD601, c := 0x7FFF0000, ct := 1, b := 0, mf := true }
     let t := s.setCxsel 18
     t.Safe ∧ t.bound = .mq ∧ t.mq.a - (qe (t.ctx t.cxsel).I).Qe = 0x8000 ∧ t.mq.c.extractLsb' 16 16 < 0x8000#16) ∧
    (let s := decoderAt 18 [0xFF, 0x90]
     let a := s.mq.a - (qe (s.ctx s.cxsel).I).Qe
     s.Safe ∧ s.bound = .mq ∧ s.mq.c.extractLsb' 16 16 < a ∧ a < 0x8000 ∧ a < (qe (s.ctx s.cxsel).I).Qe) ∧
    (let s := ((decoder []).setMq { a := 0xAC02, c := 0, ct := 1, b := 0, mf := true }).setCxsel 18
     let a := s.mq.a - (qe (s.ctx s.cxsel).I).Qe
     s.Safe ∧ s.bound = .mq ∧ s.mq.c.extractLsb' 16 16 < a ∧ a < 0x8000 ∧ a = (qe (s.ctx s.cxsel).I).Qe) ∧
    (let s := decoderAt 18 [0x12, 0x34, 0x56]
     let a := s.mq.a - (qe (s.ctx s.cxsel).I).Qe
     s.Safe ∧ s.bound = .mq ∧ a ≤ s.mq.c.extractLsb' 16 16 ∧ a < (qe (s.ctx s.cxsel).I).Qe) ∧
    (let s := ((decoder []).setMq { a := 0xAC02, c := 0x56010000, ct := 1, b := 0, mf := true }).setCxsel 18
     let a := s.mq.a - (qe (s.ctx s.cxsel).I).Qe
     s.Safe ∧ s.bound = .mq ∧ a ≤ s.mq.c.extractLsb' 16 16 ∧ (qe (s.ctx s.cxsel).I).Qe ≤ a) := by decide

theorem hyp_RenormalisationLoops :
    (let s := (decoder []).setMq { a := 1, c := 0, ct := 0, b := 0, mf := true }
     0 < s.mq.a.toNat ∧ s.mq.a.toNat < 0x8000) ∧
    (let s := (decoder []).setMq { a := 0x7FFF, c := 5, ct := 1, b := 0, mf := true }
     0 < s.mq.a.toNat ∧ s.mq.a.toNat < 0x8000 ∧ 15 - Nat.log2 s.mq.a.toNat ≤ s.mq.ct.toNat) := by decide

/-- A marker found; a marker byte 0x90 after a 0xFF; 0x8F after a 0xFF; another byte; a fill byte. -/
theorem hyp_ByteInTakesOneByte :
    ((decoder [0xFF, 0x90]).bound = .mq ∧ (decoder [0xFF, 0x90]).mq.mf = true) ∧
    (∀ b ∈ ([0x90, 0x8F] : List Byte),
      let s := (decoder [0, 0xFF, b])
      s.bound = .mq ∧ s.mq.mf = false ∧ srcAddr s.src.ranges s.src.pos.toNat = some 2 ∧ 2 < s.par.cwmemSize ∧
        s.cwByte 2 = b ∧ s.mq.b = 0xFF) ∧
    (let s := decoder [0, 0, 0xFF]
     s.bound = .mq ∧ s.mq.mf = false ∧ srcAddr s.src.ranges s.src.pos.toNat = some 2 ∧ s.cwByte 2 = 0xFF ∧ s.mq.b ≠ 0xFF) ∧
    (let s := decoder [0, 0]
     s.bound = .mq ∧ s.mq.mf = false ∧ srcTotal s.src.ranges ≤ s.src.pos.toNat ∧ s.mq.b ≠ 0xFF) := by decide

/-- A decoder behind a marker, in a block and without one. -/
theorem hyp_NothingIsFetchedAfterAMarker :
    let s := after .mqInit (block 0 0 [0xFF, 0x90])
    s.Safe ∧ s.bound = .mq ∧ s.mq.mf = true ∧ s.PassReady (30#5).toNat false ∧ (30#5).toNat ≤ 30 :=
  ⟨by decide, by decide, by decide, ⟨by decide, by decide, by decide, by decide, by decide⟩, by decide⟩

/-- The byte to come, 0x7F, follows the last byte fetched, 0xFF. -/
def cleanBytes : State := (holding [0x12, 0xFF, 0x7F]).bindSource 0 3 .mq

theorem clean_cleanBytes : RangesMarkerClean cleanBytes cleanBytes.src.ranges :=
  rangesMarkerClean_of_bounded (by decide) (by decide)

/-- The stretch completes. -/
def completes {α : Type} (m : Act α) : Bool :=
  match m with
  | .done _ _ => true
  | .raised _ _ => false

theorem hyp_DecoderRegistersStayInRange_init :
    RangesMarkerClean cleanBytes cleanBytes.src.ranges ∧ completes (initDec cleanBytes) = true :=
  ⟨clean_cleanBytes, by decide⟩

theorem hyp_DecoderRegistersStayInRange_decode :
    let s := decoder [0x12, 0xFF, 0x7F]
    s.mq.InRange ∧ s.mq.b = 0xFF ∧ s.MarkerClean ∧ s.mq.LowClear ∧ s.mq.chigh < s.mq.a ∧
      completes (decodeMq 0 s) = true := by
  refine ⟨by decide, by decide, ⟨rangesMarkerClean_of_bounded (by decide) (by decide), ?_⟩, by decide, by decide, by decide⟩
  intro a _ _ h
  have : some 2 = some a := h
  injection this with this
  subst this
  decide

/-- The first clauses in turn. -/
theorem hyp_MqPtermChecksTheTermination :
    (State.reset.Safe ∧ State.reset.bound ≠ .mq) ∧
    (let s := decoder [0, 0]
     s.Safe ∧ s.bound = .mq ∧ s.mq.mf = false ∧ s.mq.b ≠ 0xFF) ∧
    (let s := decoder [0, 0xFF]
     s.Safe ∧ s.bound = .mq ∧ s.mq.mf = false ∧ s.mq.b = 0xFF ∧ s.mq.ct ≠ 0) ∧
    (let s := decoder []
     s.Safe ∧ s.bound = .mq ∧ s.mq.mf = true ∧ s.mq.ct = 1) := by decide

/-- Beyond CWMEM_SIZE; bits left 2, 8 and 0 with a marker found, the comparison going both ways; a marker byte 0x90, a
byte 0x8F and a fill byte still to fetch. -/
theorem hyp_MqPtermChecksTheTermination_pattern :
    (let s : State := { (decoder [0, 0xFF, 0x90]).setMq { a := 0x8000, c := 0, ct := 0, b := 0xFF, mf := false } with
                        par := { State.reset.par with cwmemSize := 2 } }
     s.Safe ∧ s.bound = .mq ∧ s.mq.mf = false ∧ s.mq.b = 0xFF ∧ s.mq.ct = 0 ∧
       srcAddr s.src.ranges s.src.pos.toNat = some 2 ∧ s.par.cwmemSize ≤ 2) ∧
    (∀ ct ∈ ([2, 8, 0] : List (BitVec 4)),
      let s := (decoder []).setMq { a := 0xB5C6, c := 0xA1580000, ct := ct, b := 0xFF, mf := true }
      s.Safe ∧ s.bound = .mq ∧ s.mq.mf = true ∧ s.mq.ct ≠ 1) ∧
    (∀ b ∈ ([0x90, 0x8F] : List Byte),
      let s := (decoder [0, 0xFF, b]).setMq { a := 0x8000, c := 0, ct := 0, b := 0xFF, mf := false }
      s.Safe ∧ s.bound = .mq ∧ s.mq.mf = false ∧ s.mq.b = 0xFF ∧ s.mq.ct = 0 ∧
        srcAddr s.src.ranges s.src.pos.toNat = some 2 ∧ 2 < s.par.cwmemSize ∧ s.cwByte 2 = b) ∧
    (let s := (decoder [0, 0xFF]).setMq { a := 0x8000, c := 0, ct := 0, b := 0xFF, mf := false }
     s.Safe ∧ s.bound = .mq ∧ s.mq.mf = false ∧ s.mq.b = 0xFF ∧ s.mq.ct = 0 ∧ srcTotal s.src.ranges ≤ s.src.pos.toNat) ∧
    (0xA158#16 < 0xB5C6#16 - (0x8000#16 >>> 7)) ∧ (0xB5C6#16 - (0x8000#16 >>> 1)) ≤ 0xA158#16 := by decide

theorem hyp_MqCommandsComplete :
    (decoder [0x12, 0x34]).Safe ∧ (decoder [0x12, 0x34]).bound = .mq ∧ (decoder [0x12, 0x34]).SourceReadable ∧
      (holding [0x12, 0x34]).SegmentReadable ∧
      lands (exec .mqDecode State.reset) (fun t => !decide t.Safe && t.st.errCode == 9) = true ∧
      lands (exec .mqInit { holding [1] with par := { State.reset.par with cwmemSize := 1 },
                                             csr := { State.reset.csr with segBase := 1, segLen := 1 } })
        (fun t => !decide t.Safe && t.st.errCode == 2) = true :=
  ⟨by decide, by decide, readable_single (b := 0) (l := 2) (by decide), readable_single (b := 0) (l := 2) (by decide),
    by decide, by decide⟩

/-- Two engines that differ in their samples, their RES and the words delivered to them. -/
theorem hyp_MqResultsDependOnTheDecoderAlone :
    let s := decoder [0x12, 0x34]
    let u := ((s.sampWrite 3 3 7).setRes 99).deliver [0x8C000000]
    s.Safe ∧ u.Safe ∧ s.SameDecoder u ∧ s ≠ u ∧
      lands (exec .mqDecode s) (fun t => decide t.Safe) = true ∧ lands (exec .mqPterm u) (fun t => decide t.Safe) = true :=
  ⟨by decide, by decide, ⟨rfl, rfl, rfl, rfl, by decide, by decide, fun _ _ _ => ⟨rfl, Iff.rfl⟩⟩, by decide, by decide, by decide⟩

theorem hyp_ContextCommands : State.reset.Safe ∧ (18#5).toNat < 19 ∧ 19 ≤ (19#5).toNat := by decide

/-! ### The context model -/

/-- A 3 x 3 block with some coefficients significant, `true` for a negative one. -/
def marked (orient : Orient) (cells : List (Nat × Nat × Bool)) : State :=
  cells.foldl (fun s c => s.setCell c.1 c.2.1 ⟨true, false, false, c.2.2⟩)
    (State.reset.setCfg { State.reset.cfg with w := 3, h := 3, orient := orient })

/-- `h` horizontal, `v` vertical and `d` diagonal neighbours of (1,1). -/
def around (h v d : Nat) : List (Nat × Nat × Bool) :=
  ([(0, 1, false), (2, 1, false)].take h) ++ ([(1, 0, false), (1, 2, false)].take v) ++
    ([(0, 0, false), (2, 0, false), (0, 2, false), (2, 2, false)].take d)

/-- A middle, a corner and, in a causal block, the last row of a stripe. -/
theorem hyp_NeighbourCounts :
    (marked .LL []).InBlock 1 1 ∧ (marked .LL []).InBlock 0 0 ∧ (marked .LL []).InBlock 2 2 ∧
      (block 0x1C02 0x04 []).InBlock 1 3 ∧ (block 0x1C02 0x04 []).cfg.causal = true := by decide

/-- V-CX-4, and the one combination it leaves out, (0,1) of horizontal and vertical. -/
theorem hyp_SignLabels :
    ∀ e ∈ ([([], 0, 0), ([(0, 1, false), (2, 1, true), (1, 0, false)], 0, 1), ([(1, 0, true)], 0, -1),
        ([(0, 1, true), (2, 1, true)], -1, 0), ([(0, 1, false)], 1, 0), ([(0, 1, false), (1, 0, false)], 1, 1),
        ([(0, 1, true), (1, 2, true)], -1, -1), ([(0, 1, false), (1, 0, true)], 1, -1),
        ([(0, 1, true), (1, 0, false)], -1, 1)] : List (List (Nat × Nat × Bool) × Int × Int)),
      let s := marked .LL e.1
      s.InBlock 1 1 ∧ max (-1) (min 1 (s.chiAt 1 ((1 : Nat) - 1 : Int) (1 : Nat) + s.chiAt 1 ((1 : Nat) + 1 : Int) (1 : Nat))) = e.2.1 ∧
        max (-1) (min 1 (s.chiAt 1 (1 : Nat) ((1 : Nat) - 1 : Int) + s.chiAt 1 (1 : Nat) ((1 : Nat) + 1 : Int))) = e.2.2 := by
  decide +kernel

/-- Every combination of counts is met; they do not depend on the orientation. -/
theorem hyp_SignificanceAndRefinementLabels :
    ∀ h < 3, ∀ v < 3, ∀ d < 5,
      let s := marked .HH (around h v d)
      s.hCount 1 1 = h ∧ s.vCount 1 1 = v ∧ s.dCount 1 1 = d := by decide +kernel

theorem hyp_SignificanceAndRefinementLabels_orient :
    (∀ o ∈ ([.LL, .HL, .LH, .HH] : List Orient), (marked o []).cfg.orient = o) ∧ ((marked .LL []).cell 1 1).REF = false ∧
      (((marked .LL []).setCell 1 1 ⟨true, false, true, false⟩).cell 1 1).REF = true := by decide

/-! ### Passes -/

theorem ready_passBlock (p : Nat) (h : p ≤ 30) : passBlock.PassReady p false := by
  refine ⟨by decide, by decide, ?_, by decide, by decide⟩
  have : passBlock.cfg.shift.toNat = 0 := by decide
  omega

theorem clean_passBlock : passBlock.CoderClean false :=
  ⟨readable_single (b := 0) (l := 4) (by decide), nofun⟩

/-- A raw coder in a block. -/
def rawBlock : State := after (.brBind true) (block 0xC03 0x510 [0x46, 0x69, 0x80])

theorem clean_rawBlock : rawBlock.CoderClean true :=
  ⟨readable_single (b := 0) (l := 3) (by decide),
    fun _ => stuffingClean_of_bounded (by decide) (by decide) (by decide)⟩

theorem hyp_PassSpEffect :
    ((30#5).toNat ≤ 30 ∧ passBlock.PassReady (30#5).toNat false ∧ passBlock.Inv ∧ passBlock.CoderClean false) ∧
      rawBlock.PassReady (0#5).toNat true ∧ rawBlock.Inv ∧ rawBlock.CoderClean true :=
  ⟨⟨by decide, ready_passBlock 30 (by decide), inv_of_invBool (by decide +kernel), clean_passBlock⟩,
    ⟨by decide, by decide, by decide, by decide, by decide⟩, inv_of_invBool (by decide +kernel), clean_rawBlock⟩

theorem hyp_PassMrEffect :
    ((0#5).toNat ≤ 30 ∧ passBlock.PassReady (0#5).toNat false ∧ passBlock.Inv ∧ passBlock.CoderClean false) ∧
      rawBlock.PassReady (30#5).toNat true ∧ rawBlock.Inv ∧ rawBlock.CoderClean true :=
  ⟨⟨by decide, ready_passBlock 0 (by decide), inv_of_invBool (by decide +kernel), clean_passBlock⟩,
    ⟨by decide, by decide, by decide, by decide, by decide⟩, inv_of_invBool (by decide +kernel), clean_rawBlock⟩

theorem hyp_PassCuEffect :
    (30#5).toNat ≤ 30 ∧ passBlock.PassReady (30#5).toNat false ∧ passBlock.Inv ∧ passBlock.CoderClean false ∧
      passBlock.cfg.segSym = false :=
  ⟨by decide, ready_passBlock 30 (by decide), inv_of_invBool (by decide +kernel), clean_passBlock, by decide⟩

/-- V-PASS-2: (1,0) has a significant neighbour before the pass and is coded. -/
theorem hyp_SignificancePassMembership :
    let s := after (.passCu 1) passBlock
    s.PassReady (0#5).toNat false ∧ s.Inv ∧ s.InBlock 1 0 ∧ (s.cell 1 0).SIG = false ∧ (s.cell 1 0).VIS = false ∧
      0 < s.hCount 1 0 + s.vCount 1 0 + s.dCount 1 0 ∧
      lands (exec (.passSp 0 false) s) (fun t => decide t.Safe && (t.cell 1 0).VIS) = true := by
  refine ⟨⟨by decide +kernel, by decide +kernel, by decide +kernel, by decide +kernel, by decide⟩,
    inv_of_invBool (by decide +kernel), by decide +kernel, by decide +kernel, by decide +kernel, by decide +kernel, by decide +kernel⟩

/-- Without a block, and with the cursor at every kind of pass; a raw successor at P0 - 4. -/
theorem hyp_NextPassReturnsTheSuccessor :
    (State.reset.Safe ∧ State.reset.st.started = false) ∧
    (let s := block 0 0x510 []
     s.Safe ∧ s.st.started = true ∧ s.cur.lastPass = none) ∧
    (∀ c ∈ ([⟨some .cu, 0, 16, .mq⟩, ⟨some .cu, 2, 10, .mq⟩, ⟨some .sp, 1, 11, .raw⟩, ⟨some .mr, 0, 15, .raw⟩] :
        List Cursor),
      let s := (block 0 0x510 []).setCur c
      s.Safe ∧ s.st.started = true ∧ s.cur.lastPass ≠ none) ∧
    ((2 : Nat) - 1 : Int) ≤ (((block 0 0x510 []).cfg.p0.toNat : Int) - 4) := by decide

/-! ### BLK_SEGMENT -/

/-- Bits 31..8 of SEG_PASSES are reserved: 256 is no pass. -/
theorem hyp_ZeroPassSegmentDoesNothing :
    ∀ n ∈ [0, 256], let s := segment 0xC03 0x200 n [0, 0, 0, 0]
      s.Safe ∧ s.st.started = true ∧ s.st.finished = false ∧ s.csr.segPasses.toNat % 256 = 0 := by decide

/-- A finished block; one pass too many; RESTART and BYPASS spans (V-BLK-7, V-BLK-8). -/
theorem hyp_SegmentChecksComeFirst_plan :
    (let s := after (.blkSegment true) (segment 0xC03 0x200 0 [])
     s.Safe ∧ s.st.started = true ∧ s.st.finished = true) ∧
    (let s := segment 0xC03 0x200 8 []
     s.Safe ∧ s.st.started = true ∧ s.st.finished = false ∧ Cursor.Legal s.cfg s.cur ∧
       3 * s.cfg.p0.toNat + 1 < s.cur.passCount.toNat + s.csr.segPasses.toNat % 256) ∧
    (let s := segment 0xC03 0x201 2 []
     s.Safe ∧ s.st.started = true ∧ s.st.finished = false ∧ s.cfg.restart = true ∧ 1 < s.csr.segPasses.toNat % 256 ∧
       planPasses s.cfg 2 s.cur.lastPass s.cur.plane = some [(.cu, 2), (.sp, 1)]) ∧
    (let s := segment 0xC03 0x410 11 []
     s.Safe ∧ s.st.started = true ∧ s.st.finished = false ∧ s.cfg.bypass = true ∧ (planPasses s.cfg 11 s.cur.lastPass s.cur.plane).map (fun l => (l.head?, l.getLast?)) =
       some (some (.cu, 4), some (.sp, 0)) ∧ rawPass s.cfg .sp 0 ≠ rawPass s.cfg .cu 4) := by decide

/-- A continuation whose coder is gone, and one whose coder has read a fill byte (V-BLK-9). -/
theorem hyp_SegmentChecksComeFirst_coder :
    (let s := after (.brBind true) (after (.blkSegment false) (segment 0 0x100 1 [0x19, 0x34]))
     s.Safe ∧ s.st.started = true ∧ s.st.finished = false ∧ ¬ s.cfg.restart = true ∧ ¬ s.cfg.bypass = true ∧
       s.cur.passCount ≠ 0 ∧ planPasses s.cfg 1 s.cur.lastPass s.cur.plane = some [(.sp, 0)] ∧ s.bound ≠ .mq) ∧
    (let s := after (.blkSegment false) (segment 0xC03 0x100 1 [0x19])
     s.Safe ∧ s.st.started = true ∧ s.st.finished = false ∧ ¬ s.cfg.restart = true ∧ ¬ s.cfg.bypass = true ∧
       s.cur.passCount ≠ 0 ∧ planPasses s.cfg 1 s.cur.lastPass s.cur.plane = some [(.sp, 0)] ∧ s.bound = .mq ∧
       s.src.filled = true ∧ 0 < s.csr.segLen.toNat) := by decide +kernel

/-- V-PASS after its first pass, with one more pass to come and no more bytes. -/
def continued : State :=
  let s := after (.blkSegment false) (segment 0xC03 0x102 1 [0x19, 0x34, 0x93, 0x0B])
  s.setCsr { s.csr with segLen := 0 }

/-- A fresh MQ coder, a fresh raw one, and the bound MQ decoder with no new bytes. -/
theorem hyp_SegmentCompletes :
    (let s := segment 0xC03 0x100 4 [0x19, 0x34, 0x93, 0x0B]
     s.Inv ∧ s.Safe ∧ s.st.started = true ∧ s.st.finished = false ∧
       planPasses s.cfg (s.csr.segPasses.toNat % 256) s.cur.lastPass s.cur.plane =
         some [(.cu, 1), (.sp, 0), (.mr, 0), (.cu, 0)] ∧ ¬ s.cfg.restart = true ∧ ¬ s.cfg.bypass = true ∧
       s.CoderFits false ∧ (s.withSegment false).CoderClean false) ∧
    (let s := (segment 0xC03 0x410 2 [0x46, 0x69, 0x80]).setCur ⟨some .cu, 1, 10, .mq⟩
     s.Inv ∧ s.Safe ∧ s.st.started = true ∧ s.st.finished = false ∧
       planPasses s.cfg (s.csr.segPasses.toNat % 256) s.cur.lastPass s.cur.plane = some [(.sp, 0), (.mr, 0)] ∧
       rawPass s.cfg .sp 0 = true ∧ rawPass s.cfg .mr 0 = true ∧
       s.CoderFits true ∧ (s.withSegment true).CoderClean true) ∧
    (continued.Inv ∧ continued.Safe ∧ continued.st.started = true ∧ continued.st.finished = false ∧
      planPasses continued.cfg (continued.csr.segPasses.toNat % 256) continued.cur.lastPass continued.cur.plane =
        some [(.sp, 0)] ∧ ¬ continued.StartsFresh false ∧ continued.CoderFits false) := by
  refine ⟨⟨inv_of_invBool (by decide +kernel), by decide, by decide, by decide, by decide, by decide, by decide,
    .inl (.inl (by decide)), readable_single (b := 0) (l := 4) (by decide), nofun⟩,
    ⟨inv_of_invBool (by decide +kernel), by decide, by decide, by decide, by decide, by decide, by decide,
      .inl (.inr (.inr (by decide))), readable_single (b := 0) (l := 3) (by decide), fun _ => ?_⟩,
    ⟨inv_of_invBool (by decide +kernel), by decide +kernel, by decide +kernel, by decide +kernel, by decide +kernel,
      by decide +kernel, .inr ⟨by decide +kernel, by decide +kernel, by decide⟩⟩⟩
  exact stuffingClean_of_bounded (by decide) (by decide) (by decide)

theorem hyp_LastContributionFinishesTheBlock :
    (segment 0xC03 0 2 []).st.started = true ∧
      lands (exec (.blkSegment true) (segment 0xC03 0 2 [])) (fun t => t.st.finished && t.st.error) = true := by decide

/-- The four passes of V-PASS as one and three: V-BLK-10. -/
theorem hyp_SplitContributionsDecodeTheSame :
    let s := segment 0xC03 0x100 4 [0x19, 0x34, 0x93, 0x0B]
    s.Inv ∧ s.Safe ∧ s.st.started = true ∧ s.st.finished = false ∧ s.cfg.restart = false ∧ s.cfg.resetCtx = false ∧
      s.cfg.bypass = false ∧ (planPasses s.cfg (1 + 3) s.cur.lastPass s.cur.plane).isSome = true ∧
      lands (exec (.blkSegment false) (s.setCsr { s.csr with segPasses := 1 })) (fun u =>
        lands (exec (.blkSegment false) (u.setCsr { s.csr with segLen := 0, segPasses := 3 })) (fun t => decide t.Safe)) = true := by
  refine ⟨inv_of_invBool (by decide +kernel), by decide, by decide, by decide, by decide, by decide, by decide, by decide,
    by decide +kernel⟩

/-! ### The whole machine -/

/-- A started block with a command to come. -/
theorem hyp_EveryStepKeepsTheInvariant :
    let s := passBlock.deliver [0x88000001]
    s.Inv ∧ lands (step s) invBool = true := by
  refine ⟨inv_of_invBool (by decide +kernel), by decide +kernel⟩

theorem hyp_ResetValues : ∃ r, r ∈ [State.reset, passBlock.hostReset] ∧ ¬ (1 ≤ 0 ∧ 0 ≤ r.cfg.w) := ⟨State.reset, by decide⟩

/-- A write of the value an unplaced byte reads as, and one at the last address. -/
theorem hyp_HostWritesCodewordMemory :
    Memory.wf (holding [1, 2, 3]).cwmem ∧ 2 ^ 32 - 1 < (holding []).par.cwmemSize := by decide

theorem hyp_PoolEnginesRunAsIfAlone :
    let p : Pool :=
      { cwmem := (holding [1, 2]).cwmem, par := { Config.defaultParams with nInstances := 2 },
        engines := [decoder [1, 2], (reader true [1, 2]).deliver [0x24000000]].map fun s =>
          { s with par := { Config.defaultParams with nInstances := 2 } } }
    p.Shared ∧ p.Legal ∧ p.engines[1]?.isSome = true := by decide

end Sys2Proof.Tests
end

section
/-! SUPPORT. Properties of a state that commands keep: what is kept by the parts of a command and by the latch of an error is
kept by the command. -/

namespace Sys2Proof.Machine

variable {P : State → Prop} {s t : State}

/-- A property of a state that neither the latch of an error nor a write of RES takes away. -/
structure Stable (P : State → Prop) : Prop where
  latch : ∀ (u : State) e, P u → P (u.latch e)
  res : ∀ (u : State) v, P u → P (u.setRes v)

/-- A command keeps a stable property that its own steps keep (60_exceptions.md R342, R343). -/
theorem Stable.runCommand (q : Stable P) {legal always : Bool} {body : State → Act Unit}
    (h : runCommand legal always body s = .next t) (hs : P s) (hb : P (body s).state) : P t := by
  rcases runCommand_cases h with ⟨-, rfl⟩ | ⟨-, -, -, rfl⟩ | ⟨-, -, hd | ⟨e, u, hr, rfl⟩⟩
  · exact q.latch s _ hs
  · exact hs
  · rw [hd] at hb; exact hb
  · rw [hr] at hb; exact q.latch u e hb

/-- A command that returns the value of one stretch of pseudocode keeps a stable property that the stretch keeps. -/
theorem Stable.bind_res {α : Type} (q : Stable P) {m : Act α} (f : α → Res) (h : P m.state) :
    P (m.bind fun a v => .done () (v.setRes (f a)) : Act Unit).state :=
  Act.inv_bind P h fun a v _ hv => q.res v (f a) hv

/-- A stretch of pseudocode behind a check keeps a property that it keeps where the check passes. -/
theorem Act.inv_guard {α : Type} {c : Prop} [Decidable c] {m : Act α} {e : Err} (hs : P s) (hm : c → P m.state) :
    P (if c then m else .raised e s).state := by
  split
  · exact hm ‹_›
  · exact hs

/-- The pass commands keep a stable property that their pass keeps where they run it (44_coding_passes.md R250). -/
theorem Stable.passCommand (q : Stable P) {raw : Bool} {p : BitVec 5} {body : State → Act Bool} (hs : P s)
    (hb : s.st.started = true → s.coderReady raw → s.PlaneFits p.toNat → P (body s).state) :
    P (passCommand raw p body s).state :=
  Act.inv_guard hs fun hr => Act.inv_guard hs fun hp => q.bind_res _ (hb hr.1 hr.2 hp)

/-! ## The commands -/

theorem Stable.execCsrWr (q : Stable P) {csr : BitVec 4} {data : Word} (h : execCsrWr csr data s = .next t) (hs : P s)
    (hb : P (s.setCsr (writeCsr s.csr csr data))) : P t :=
  q.runCommand h hs hb

theorem Stable.execCsrRd (q : Stable P) {csr : BitVec 4} (h : execCsrRd csr s = .next t) (hs : P s)
    (hb : P (s.spendFree csr)) : P t :=
  q.runCommand h hs (q.res _ _ hb)

theorem Stable.execBlkStart (q : Stable P) (h : execBlkStart s = .next t) (hs : P s) (hb : P s.latchBlock)
    (hf : s.latchBlock.cfg.Accepted → P s.latchBlock.freshBlock) : P t := by
  refine q.runCommand h hs ?_
  unfold blkStart
  split
  · exact hf ‹_›
  · exact hb

theorem Stable.execBlkSegment (q : Stable P) {last : Bool} (h : execBlkSegment last s = .next t) (hs : P s)
    (hb : s.st.started = true → P (segmentBody s).state)
    (hf : ∀ (u : State) (b : Bool), u.st.started = s.st.started → (b = true → last = true ∧ s.st.started = true) →
      P u → P (u.finishIf b)) : P t := by
  have hst : (segmentBody s).state.st = s.st := by
    have hr := segmentBody_segRest s
    simp only [State.segRest, Prod.mk.injEq] at hr
    obtain ⟨-, -, -, -, -, -, hst, -⟩ := hr
    exact hst
  rcases execBlkSegment_cases h with ⟨-, rfl⟩ | ⟨-, -, rfl⟩ | ⟨-, hstart, rfl⟩
  · exact hf s _ rfl (fun hl => Bool.and_eq_true_iff.1 hl) hs
  · exact q.latch s _ hs
  · rcases Act.finishSegment_cases (segmentBody s) last with ⟨-, he⟩ | ⟨e, -, he⟩
    · rw [he]; exact hf _ _ (by rw [hst]) (fun hl => ⟨hl, hstart⟩) (hb hstart)
    · rw [he]; exact hf _ _ (by rw [State.latch_started, hst]) (fun hl => ⟨hl, hstart⟩) (q.latch _ e (hb hstart))

theorem Stable.execBrBind (q : Stable P) {mode : Bool} (h : execBrBind mode s = .next t) (hs : P s)
    (hb : P (s.bindReader mode)) : P t :=
  q.runCommand h hs hb

theorem Stable.execBrReadbit (q : Stable P) (h : execBrReadbit s = .next t) (hs : P s)
    (hb : s.bound = .br → P (readBit s).state) : P t :=
  q.runCommand h hs (Act.inv_guard hs fun hc => q.bind_res _ (hb hc))

theorem Stable.execBrReadbits (q : Stable P) {n : BitVec 7} (h : execBrReadbits n s = .next t) (hs : P s)
    (hb : s.bound = .br → P (readBits n.toNat 0 s).state) : P t :=
  q.runCommand h hs (Act.inv_guard hs fun hc => q.bind_res _ (hb hc))

theorem Stable.execBrFinish (q : Stable P) (h : execBrFinish s = .next t) (hs : P s)
    (hb : s.bound = .br → P (skipStuffing s).state)
    (hr : ∀ u : State, P u → P (u.setBr { u.br with bitsLeft := 0, lastFF := false })) : P t :=
  q.runCommand h hs (Act.inv_guard hs fun hc => Act.inv_bind P (hb hc) fun _ u _ hu => q.res _ _ (hr u hu))

theorem Stable.execMqInit (q : Stable P) (h : execMqInit s = .next t) (hs : P s) (hb : P (bindDecoder s).state) : P t :=
  q.runCommand h hs hb

theorem Stable.execMqDecode (q : Stable P) (h : execMqDecode s = .next t) (hs : P s)
    (hb : s.bound = .mq → P (decodeMq s.cxsel s).state) : P t :=
  q.runCommand h hs (Act.inv_guard hs fun hc => q.bind_res _ (hb hc))

theorem Stable.execMqDecodeRaw (q : Stable P) (h : execMqDecodeRaw s = .next t) (hs : P s)
    (hb : s.bound = .br → P (readBit s).state) : P t :=
  q.runCommand h hs (Act.inv_guard hs fun hc => q.bind_res _ (hb hc.1))

theorem Stable.execMqPterm (q : Stable P) (h : execMqPterm s = .next t) (hs : P s)
    (hb : s.bound = .mq → P (pterm s).state) : P t :=
  q.runCommand h hs (Act.inv_guard hs fun hc => q.bind_res _ (hb hc))

theorem Stable.execCxReset (q : Stable P) (h : execCxReset s = .next t) (hs : P s) (hb : P s.resetContexts) : P t :=
  q.runCommand h hs hb

theorem Stable.execCxSelect (q : Stable P) {k : BitVec 5} (h : execCxSelect k s = .next t) (hs : P s)
    (hb : ∀ c, P (s.setCxsel c)) : P t := by
  refine q.runCommand h hs ?_
  split
  · exact hb _
  · exact hs

theorem Stable.execCxRead (q : Stable P) (h : execCxRead s = .next t) (hs : P s) : P t :=
  q.runCommand h hs (q.res s _ hs)

theorem Stable.execPassSp (q : Stable P) {p : BitVec 5} {raw : Bool} (h : execPassSp p raw s = .next t) (hs : P s)
    (hb : s.st.started = true → s.coderReady raw → s.PlaneFits p.toNat → P (spPass p.toNat raw s).state) : P t :=
  q.runCommand h hs (q.passCommand hs hb)

theorem Stable.execPassMr (q : Stable P) {p : BitVec 5} {raw : Bool} (h : execPassMr p raw s = .next t) (hs : P s)
    (hb : s.st.started = true → s.coderReady raw → s.PlaneFits p.toNat → P (mrPass p.toNat raw s).state) : P t :=
  q.runCommand h hs (q.passCommand hs hb)

theorem Stable.execPassCu (q : Stable P) {p : BitVec 5} (h : execPassCu p s = .next t) (hs : P s)
    (hb : s.st.started = true → s.coderReady false → s.PlaneFits p.toNat → P (cuPass p.toNat s).state) : P t :=
  q.runCommand h hs (q.passCommand hs hb)

theorem Stable.execNextPass (q : Stable P) (h : execNextPass s = .next t) (hs : P s) : P t := by
  refine q.runCommand h hs ?_
  split
  · exact q.res s _ hs
  · exact hs

end Sys2Proof.Machine
end

section
/-! PROOFS. The invariant: each command keeps it, so each step does, and reset meets it. -/

namespace Sys2Proof.Machine

variable {s t : State}

/-! ## What the invariant depends on -/

/-- An unbound source is empty (10_state.md R28). -/
def State.UnboundEmpty (s : State) : Prop := s.bound = .none → s.src = { ranges := [], pos := 0, filled := false }

theorem State.UnboundEmpty.of_bound (h : s.bound ≠ .none) : s.UnboundEmpty := fun hn => absurd hn h

theorem State.Inv.unboundEmpty (h : s.Inv) : s.UnboundEmpty := by
  obtain ⟨-, -, -, -, -, -, -, -, -, -, hu, -⟩ := h
  exact hu

theorem State.Inv.counters (h : s.Inv) : s.CountersInRange := by
  obtain ⟨-, -, -, hc, -⟩ := h
  exact hc

theorem State.Inv.cursorLegal (h : s.Inv) : s.CursorLegal := by
  obtain ⟨-, -, -, -, -, -, -, hcur, -⟩ := h
  exact hcur

/-- The invariant depends on the coders through their counters and the empty unbound source alone. -/
theorem State.Inv.of_coders (h : s.Inv) (hr : t.segRest = s.segRest) (hcur : t.cur = s.cur) (hsamp : t.samp = s.samp)
    (hcells : t.cells = s.cells) (hc : t.CountersInRange) (hu : t.UnboundEmpty) : t.Inv := by
  obtain ⟨hpar, hmem, hin, -, herr, hcsr, hcfg, hcursor, hagree, hfin, -, hzero⟩ := h
  simp only [State.segRest, Prod.mk.injEq] at hr
  obtain ⟨rpar, rcwmem, -, rcsr, -, rcfg, rst, -, rzero⟩ := hr
  refine ⟨?_, ?_, ?_, hc, ?_, ?_, ?_, ?_, ?_, ?_, hu, ?_⟩
  · rw [rpar]; exact hpar
  · rw [State.MemoriesCanonical, rcwmem, hsamp, hcells]; exact hmem
  · rw [State.InsideBlock, rst, rcfg, hsamp, hcells]; exact hin
  · rw [State.ErrorLegal, rst]; exact herr
  · rw [State.CsrsLegal, rcsr]; exact hcsr
  · rw [State.ConfigLegal, rst, rcfg]; exact hcfg
  · rw [State.CursorLegal, rst, rcfg, hcur]; exact hcursor
  · simp only [State.SamplesAgree, State.cell, State.sampRead, rst, rcfg, hsamp, hcells]; exact hagree
  · rw [rst]; exact hfin
  · rw [rst, rcfg, rzero]; exact hzero

/-- A started block that meets the invariant is sound. -/
theorem State.Inv.blockSound (h : s.Inv) (hs : s.st.started = true) : BlockSound s := by
  obtain ⟨-, ⟨-, hsamp, hcells⟩, hin, -, -, -, ⟨⟨-, hw, -⟩, -⟩, -, hagree, -⟩ := h
  exact ⟨hsamp, hcells, (hin hs).1, (hin hs).2, hagree hs, hw⟩

/-- The invariant depends on the data of a started block through its soundness and the legal cursor alone. -/
theorem State.Inv.of_blockSound (h : s.Inv) (hr : t.segRest = s.segRest) (hb : BlockSound t) (hc : t.CountersInRange)
    (hcur : Cursor.Legal t.cfg t.cur) (hu : t.UnboundEmpty) : t.Inv := by
  obtain ⟨hpar, ⟨hcw, -⟩, -, -, herr, hcsr, hcfg, -, -, hfin, -, hzero⟩ := h
  simp only [State.segRest, Prod.mk.injEq] at hr
  obtain ⟨rpar, rcwmem, -, rcsr, -, rcfg, rst, -, rzero⟩ := hr
  refine ⟨?_, ⟨?_, hb.samp, hb.cells⟩, fun _ => ⟨hb.sampInside, hb.cellsInside⟩, hc, ?_, ?_, ?_, fun _ => hcur,
    fun _ => hb.agree, ?_, hu, ?_⟩
  · rw [rpar]; exact hpar
  · rw [rcwmem]; exact hcw
  · rw [State.ErrorLegal, rst]; exact herr
  · rw [State.CsrsLegal, rcsr]; exact hcsr
  · rw [State.ConfigLegal, rst, rcfg]; exact hcfg
  · rw [rst]; exact hfin
  · rw [rst, rcfg, rzero]; exact hzero

/-! ## The latch and the single registers -/

/-- A latched error has a code of 60_exceptions.md R341, and nothing else of the invariant changes. -/
theorem State.Inv.latch (h : s.Inv) (e : Err) : (s.latch e).Inv := by
  cases he : s.st.error with
  | true => rw [State.latch_of_error s e he]; exact h
  | false =>
    rw [State.latch_of_safe s e he]
    obtain ⟨hpar, hmem, hin, hc, -, hrest⟩ := h
    exact ⟨hpar, hmem, hin, hc, ⟨by simp, fun _ => e.code_range⟩, hrest⟩

theorem stable_inv : Stable State.Inv := ⟨fun _ e h => h.latch e, fun _ _ h => h⟩

theorem State.Inv.setHostq (h : s.Inv) (ws : List Word) : (s.setHostq ws).Inv := h

theorem State.Inv.setCxsel (h : s.Inv) (k : Category) : (s.setCxsel k).Inv := h

theorem State.Inv.resetContexts (h : s.Inv) : s.resetContexts.Inv := h

theorem State.Inv.spendFree (h : s.Inv) (csr : BitVec 4) : (s.spendFree csr).Inv := by
  unfold State.spendFree; split
  · exact h
  · exact h

/-- A masked word has no bit outside its mask. -/
theorem and_and_not_eq_zero (d m : Word) : d &&& m &&& ~~~m = 0 := by
  rw [BitVec.and_assoc]; simp

/-- CSR_WR writes 0 into the reserved fields (10_state.md R42). -/
theorem State.Inv.writeCsr (h : s.Inv) (csr : BitVec 4) (data : Word) : (s.setCsr (writeCsr s.csr csr data)).Inv := by
  obtain ⟨hpar, hmem, hin, hc, herr, hcsr, hrest⟩ := h
  refine ⟨hpar, hmem, hin, hc, herr, ?_, hrest⟩
  obtain ⟨hgeom, hmode, hpasses⟩ := hcsr
  unfold Machine.writeCsr
  simp only [writeMask]
  split
  · exact ⟨and_and_not_eq_zero _ _, hmode, hpasses⟩
  · exact ⟨hgeom, and_and_not_eq_zero _ _, hpasses⟩
  · exact ⟨hgeom, hmode, hpasses⟩
  · exact ⟨hgeom, hmode, hpasses⟩
  · exact ⟨hgeom, hmode, and_and_not_eq_zero _ _⟩
  · exact ⟨hgeom, hmode, hpasses⟩

/-- The `last` step of BLK_SEGMENT finishes a started block only. -/
theorem State.Inv.finishIf (h : s.Inv) {last : Bool} (hl : last = true → s.st.started = true) :
    (s.finishIf last).Inv := by
  cases last with
  | false => exact h
  | true =>
    obtain ⟨hpar, hmem, hin, hc, herr, hcsr, hcfg, hcur, hagree, -, hsrc⟩ := h
    exact ⟨hpar, hmem, hin, hc, herr, hcsr, hcfg, hcur, hagree, fun _ => hl rfl, hsrc⟩

/-! ## Block start -/

/-- The latched sides of a block are from 1 to 1024 (10_state.md R39). -/
theorem latchConfig_sides (geom mode : Word) :
    (1 ≤ (latchConfig geom mode).w ∧ (latchConfig geom mode).w ≤ Config.maxSide) ∧
      1 ≤ (latchConfig geom mode).h ∧ (latchConfig geom mode).h ≤ Config.maxSide := by
  have hw := (geom.extractLsb' 0 10).isLt
  have hh := (geom.extractLsb' 10 10).isLt
  simp only [latchConfig, Config.maxSide]
  omega

theorem State.Inv.latchBlock (h : s.Inv) : s.latchBlock.Inv := by
  obtain ⟨hpar, hmem, -, hc, -, hcsr, -, -, -, -, hsrc, -⟩ := h
  obtain ⟨⟨hw, hw'⟩, hh⟩ := latchConfig_sides s.csr.geom s.csr.mode
  have hns : s.latchBlock.st.started ≠ true := by simp [State.latchBlock]
  have hne : s.latchBlock.st.error ≠ true := by simp [State.latchBlock, State.clearError]
  exact ⟨hpar, hmem, fun hs => absurd hs hns, hc, ⟨fun _ => rfl, fun he => absurd he hne⟩, hcsr,
    ⟨⟨hw, hw', hh⟩, fun hs => absurd hs hns⟩, fun hs => absurd hs hns, fun hs => absurd hs hns,
    fun hf => absurd hf (by simp [State.latchBlock]), hsrc, fun hs => absurd hs hns⟩

/-- The start of the cursor stands before the first pass. -/
theorem cursor_start_legal (cfg : BlockConfig) : Cursor.Legal cfg Cursor.start := by
  simp [Cursor.Legal, Cursor.start]

/-- Every coefficient of a fresh block is insignificant, with the word 0 (45_block_control.md R302). -/
theorem sampleAgrees_fresh : SampleAgrees SampleFlags.clear 0 := ⟨fun _ => ⟨rfl, rfl⟩, by simp [SampleFlags.clear]⟩

theorem State.Inv.freshBlock (h : s.Inv) (ha : s.cfg.Accepted) : s.freshBlock.Inv := by
  obtain ⟨hpar, ⟨hcw, -⟩, -, hc, herr, hcsr, ⟨hsides, -⟩, -⟩ := h
  have hnone {α : Type} {p : Nat × α → Prop} : ∀ e ∈ ([] : List (Nat × α)), p e := by simp
  exact ⟨hpar, ⟨hcw, Sparse.wf_nil, Sparse.wf_nil⟩, fun _ => ⟨hnone, hnone⟩, hc, herr, hcsr,
    ⟨hsides, fun _ => ha⟩, fun _ => cursor_start_legal _, fun _ _ _ _ _ => sampleAgrees_fresh,
    fun _ => rfl, fun _ => rfl, fun _ => rfl⟩

/-! ## The coders -/

/-- A stretch of the bit reader's pseudocode keeps the invariant. -/
theorem State.Inv.of_brRest (h : s.Inv) (hb : s.bound = .br) (hr : t.brRest = s.brRest) (hc : t.CountersInRange) :
    t.Inv := by
  simp only [State.brRest, State.coderRest, Prod.mk.injEq] at hr
  refine h.of_coders ?_ ?_ ?_ ?_ hc (.of_bound ?_) <;> simp [State.segRest, hr, hb]

/-- A stretch of the MQ decoder's pseudocode keeps the invariant. -/
theorem State.Inv.of_mqRest (h : s.Inv) (hb : s.bound = .mq) (hr : t.mqRest = s.mqRest) (hc : t.CountersInRange) :
    t.Inv := by
  simp only [State.mqRest, State.coderRest, Prod.mk.injEq] at hr
  refine h.of_coders ?_ ?_ ?_ ?_ hc (.of_bound ?_) <;> simp [State.segRest, hr, hb]

theorem State.Inv.bindReader (h : s.Inv) (mode : Bool) : (s.bindReader mode).Inv :=
  h.of_coders rfl rfl rfl rfl (bindReader_counters mode h.counters)
    (.of_bound (by simp [State.bindReader, State.bindSource]))

/-- BR_FINISH empties the reader's byte (41_bit_reader.md R130). -/
theorem State.Inv.releaseReader (h : s.Inv) : (s.setBr { s.br with bitsLeft := 0, lastFF := false }).Inv :=
  h.of_coders rfl rfl rfl rfl ⟨h.counters.1, by simp⟩ h.unboundEmpty

theorem pterm_mqRest (s : State) : (pterm s).state.mqRest = s.mqRest := by
  have hr := pterm_rest s
  simp only [State.mqOnlyRest, Prod.mk.injEq] at hr
  rw [State.mqRest, State.mqRest, hr.1, hr.2.1]

/-- MQ_INIT's steps leave the MQ decoder bound and the block's data alone, whether they complete or raise
(42_mq_decoder.md R160). -/
theorem bindDecoder_bound (s : State) :
    (bindDecoder s).state.bound = .mq ∧ (bindDecoder s).state.cur = s.cur ∧ (bindDecoder s).state.samp = s.samp ∧
      (bindDecoder s).state.cells = s.cells := by
  have hr := initDec_rest (s.bindSource s.csr.segBase s.csr.segLen .mq)
  simp only [State.initRest, Prod.mk.injEq] at hr
  obtain ⟨-, -, -, -, -, hbound, -, -, -, hcur, -, hsamp, hcells, -⟩ := hr
  exact ⟨hbound, hcur, hsamp, hcells⟩

theorem bindDecoder_inv (h : s.Inv) : (bindDecoder s).state.Inv := by
  obtain ⟨hbound, hcur, hsamp, hcells⟩ := bindDecoder_bound s
  have hc : (bindDecoder s).state.CountersInRange :=
    initDec_counters (s := s.bindSource s.csr.segBase s.csr.segLen .mq) h.counters
  exact h.of_coders (bindDecoder_segRest s) hcur hsamp hcells hc (.of_bound (by simp [hbound]))

theorem skipStuffing_counters (h : s.CountersInRange) : (skipStuffing s).state.CountersInRange := by
  unfold skipStuffing; split
  · exact Act.inv_bind State.CountersInRange (fetchByte_counters h) fun _ _ _ ht => ht
  · exact h

/-! ## The passes -/

/-- A pass of a started block whose coder is bound keeps the invariant. -/
theorem State.Inv.of_pass (h : s.Inv) (hs : s.st.started = true) (hb : s.bound ≠ .none) {p : Nat}
    (hr : t.passRest = s.passRest) (ht : PassSound s.cfg p t) : t.Inv := by
  have hseg : t.segRest = s.segRest := congrArg Prod.fst (boundRest_of_passRest hr)
  simp only [State.passRest, Prod.mk.injEq] at hr
  obtain ⟨-, -, -, -, -, hbound, -, -, hcfg, hcur, -⟩ := hr
  have hcursor := h.cursorLegal
  exact h.of_blockSound hseg ht.block ht.counters (by rw [hcfg, hcur]; exact hcursor hs)
    (.of_bound (by rw [hbound]; exact hb))

theorem State.coderReady.bound {raw : Bool} (h : s.coderReady raw) : s.bound ≠ .none := by
  cases raw <;> simp_all [State.coderReady]

/-- A ready pass starts from a sound block at a plane that fits. -/
theorem State.Inv.passSound (h : s.Inv) {p : Nat} (hs : s.st.started = true) (hp : s.PlaneFits p) :
    PassSound s.cfg p s := ⟨h.blockSound hs, h.counters, rfl, hp⟩

/-! ## Segments -/

theorem freshCoder_bound (raw : Bool) (s : State) : (freshCoder raw s).state.bound ≠ .none := by
  unfold freshCoder; split
  · simp [State.bindReader, State.bindSource]
  · simp [bindDecoder_bound]

/-- The coder step completes with a coder bound; where it raises with none bound, it has written nothing. -/
theorem coderStep_bound (raw : Bool) (s : State) :
    (∀ t, coderStep raw s = .done () t → t.bound ≠ .none) ∧
      ((coderStep raw s).state.bound ≠ .none ∨ (coderStep raw s).state = s) := by
  unfold coderStep
  split
  · exact ⟨fun t ht => by have := freshCoder_bound raw s; rwa [ht] at this, .inl (freshCoder_bound raw s)⟩
  · by_cases hb : s.bound ≠ (if raw then Bound.br else Bound.mq)
    · simp only [appendSegment, if_pos hb]
      exact ⟨by simp, .inr rfl⟩
    · have hbound : s.bound ≠ .none := by cases raw <;> simp_all
      simp only [appendSegment, if_neg hb]
      split
      · exact ⟨by simp, .inr rfl⟩
      · exact ⟨fun t ht => by cases ht; exact hbound, .inl hbound⟩

/-- What follows the coder step of a segment leaves the binding and the marks as they are. -/
theorem segment_boundRest (plan : List (PassKind × BitVec 5)) (s : State) :
    ((forEach segmentPass plan s.segmentReset).bind fun _ u => terminationCheck u).state.boundRest = s.boundRest :=
  Act.keeps_bind State.boundRest ((segmentPasses_boundRest plan _).trans (segmentReset_boundRest s)) fun _ u =>
    terminationCheck_boundRest u

theorem bound_of_boundRest (h : t.boundRest = s.boundRest) : t.bound = s.bound := by
  simp only [State.boundRest, Prod.mk.injEq] at h
  obtain ⟨-, -, hbound, -⟩ := h
  exact hbound

theorem runSegment_unboundEmpty (plan : List (PassKind × BitVec 5)) (raw : Bool) (h : s.UnboundEmpty) :
    (runSegment plan raw s).state.UnboundEmpty := by
  obtain ⟨hdone, hstate⟩ := coderStep_bound raw s
  refine Act.inv_bind State.UnboundEmpty ?_ fun _ t ht _ => .of_bound ?_
  · rcases hstate with hb | hs
    · exact .of_bound hb
    · rw [hs]; exact h
  · rw [bound_of_boundRest (segment_boundRest plan t)]
    exact hdone t ht

theorem State.Inv.segmentSound (h : s.Inv) (hs : s.st.started = true) : SegmentSound s.cfg s := by
  have hb := h.blockSound hs
  obtain ⟨-, -, -, hc, -, -, ⟨-, hacc⟩, hcursor, -⟩ := h
  exact ⟨hb, hc, rfl, (hacc hs).2, hcursor hs⟩

/-- The planned passes of a started block keep the invariant, whatever error they raise (45_block_control.md R304). -/
theorem segmentBody_inv (h : s.Inv) (hs : s.st.started = true) : (segmentBody s).state.Inv := by
  unfold segmentBody
  split
  · exact h
  split
  · exact h
  · exact h
  rename_i first rest hplan
  split
  · exact h
  have hsound := runSegment_sound (rawPass s.cfg first.1 first.2) (h.segmentSound hs) hplan
  exact h.of_blockSound (runSegment_segRest _ _ s) hsound.block hsound.counters
    (by rw [hsound.config]; exact hsound.cursor) (runSegment_unboundEmpty _ _ h.unboundEmpty)

/-! ## The commands and the step -/

/-- Every command keeps the invariant. -/
theorem exec_inv (i : Instr) (hx : exec i s = .next t) (h : s.Inv) : t.Inv := by
  have q := stable_inv
  cases i with
  | csrWr csr data => exact q.execCsrWr hx h (h.writeCsr csr data)
  | csrRd csr => exact q.execCsrRd hx h (h.spendFree csr)
  | blkStart => exact q.execBlkStart hx h h.latchBlock h.latchBlock.freshBlock
  | blkSegment last =>
    exact q.execBlkSegment hx h (segmentBody_inv h) fun u b hst hb hu => hu.finishIf fun hl => hst.trans (hb hl).2
  | brBind mode => exact q.execBrBind hx h (h.bindReader mode)
  | brReadbit =>
    exact q.execBrReadbit hx h fun hb => h.of_brRest hb (readBit_brRest s) (readBit_counters h.counters)
  | brReadbits n =>
    exact q.execBrReadbits hx h fun hb => h.of_brRest hb (readBits_brRest _ _ s) (readBits_counters _ _ h.counters)
  | brFinish =>
    exact q.execBrFinish hx h (fun hb => h.of_brRest hb (skipStuffing_brRest s) (skipStuffing_counters h.counters))
      fun u hu => hu.releaseReader
  | mqInit => exact q.execMqInit hx h (bindDecoder_inv h)
  | mqDecode =>
    exact q.execMqDecode hx h fun hb => h.of_mqRest hb (decodeMq_mqRest _ s) (decodeMq_counters _ h.counters)
  | mqDecodeRaw =>
    exact q.execMqDecodeRaw hx h fun hb => h.of_brRest hb (readBit_brRest s) (readBit_counters h.counters)
  | mqPterm => exact q.execMqPterm hx h fun hb => h.of_mqRest hb (pterm_mqRest s) (pterm_counters h.counters)
  | cxReset => exact q.execCxReset hx h h.resetContexts
  | cxSelect k => exact q.execCxSelect hx h h.setCxsel
  | cxRead => exact q.execCxRead hx h
  | passSp p raw =>
    exact q.execPassSp hx h fun hs hc hp => h.of_pass hs hc.bound (congrArg Prod.fst (spPass_passFrame p.toNat raw s))
      (spPass_passSound raw (h.passSound hs hp))
  | passMr p raw =>
    exact q.execPassMr hx h fun hs hc hp => h.of_pass hs hc.bound (congrArg Prod.fst (mrPass_passFrame p.toNat raw s))
      (mrPass_passSound raw (h.passSound hs hp))
  | passCu p =>
    exact q.execPassCu hx h fun hs hc hp => h.of_pass hs hc.bound (congrArg Prod.fst (cuPass_passFrame p.toNat s))
      (cuPass_passSound (h.passSound hs hp))
  | nextPass => exact q.execNextPass hx h

/-- Settles O56: the taken words are no part of the invariant, and every command keeps it. -/
theorem everyStepKeepsTheInvariant : Obligations.EveryStepKeepsTheInvariant := by
  unfold Obligations.EveryStepKeepsTheInvariant
  intro s t h hx
  unfold step at hx
  split at hx
  · exact exec_inv _ hx (h.setHostq _)
  · cases hx
    exact (h.setHostq _).latch _
  · cases hx
    exact h

end Sys2Proof.Machine
end

section
/-! PROOFS. The values after reset, and the step of a decoded command. -/

namespace Sys2Proof.Machine

/-- Settles O9: a step is the meaning of the command it fetched. -/
theorem stepRunsTheDecodedCommand : Obligations.StepRunsTheDecodedCommand := by
  unfold Obligations.StepRunsTheDecodedCommand
  intro s i rest h
  simp only [step, State.fetch, h, State.taken]

/-- Settles O57: no block is started after reset, and the registers are at their reset values. -/
theorem resetMeetsTheInvariant : Obligations.ResetMeetsTheInvariant := by
  have hns : State.reset.st.started ≠ true := by decide
  exact ⟨by decide, reset_memories, fun hs => absurd hs hns, by decide, by decide, by decide,
    ⟨by decide, fun hs => absurd hs hns⟩, fun hs => absurd hs hns, fun hs => absurd hs hns,
    by decide, fun _ => rfl, fun hs => absurd hs hns⟩

/-- The entries of the initial context table (43_context_model.md R202). -/
theorem State.ctx_of_initial {s : State} (h : s.cx = initContexts) (k : Category) :
    s.ctx k = { I := if k = 0 then 4 else if k = 17 then 3 else if k = 18 then 46 else 0, MPS := false } := by
  simp only [State.ctx, h, initContexts, Vector.getElem_ofFn, Fin.eta, initContext]
  split
  · rfl
  split
  · rfl
  split <;> rfl

/-- A margin cell is seen with its flags 0 (10_state.md R38). -/
theorem State.seen_margin (s : State) (y : Nat) {u w : Nat}
    (h : ¬ (1 ≤ u ∧ u ≤ s.cfg.w ∧ 1 ≤ w ∧ w ≤ s.cfg.h)) : s.seen y u w = SampleFlags.clear := by
  rw [State.seen, State.paddedCell, if_neg h, ite_self]

/-- Settles O58: both states are `State.reset` but for the parameters and codeword memory. -/
theorem resetValues : Obligations.ResetValues := by
  unfold Obligations.ResetValues
  intro s r hr
  obtain ⟨par, cwmem, rfl⟩ : ∃ par cwmem, r = { State.reset with par := par, cwmem := cwmem } := by
    rcases List.mem_pair.1 hr with rfl | rfl
    · exact ⟨_, _, rfl⟩
    · exact ⟨_, _, rfl⟩
  exact ⟨rfl, rfl, rfl, rfl, rfl, rfl, State.ctx_of_initial rfl, fun y _ _ h => State.seen_margin _ y h, rfl, rfl, rfl,
    rfl⟩

end Sys2Proof.Machine
end

section
/-! PROOFS. Frames: for each command the pieces of the state it may write (10_state.md R58), and that it leaves every other
piece as it is. -/

namespace Sys2Proof.Machine

/-! ## Pieces of the state -/

/-- A piece of the state whose writers 10_state.md R58 names. RES, ERROR, ERRCODE and the model's marks are none: the latch
of an error or a returned value may write them under any command. -/
inductive Piece where
  | par | cwmem | hostq | csr | cfg | started | finished | cur | samp | cells | cx | cxsel | src | ranges | bound | mq | br

/-- A piece has the same value in two states. -/
def Piece.Same (f : Piece) (s t : State) : Prop :=
  match f with
  | .par => t.par = s.par
  | .cwmem => t.cwmem = s.cwmem
  | .hostq => t.hostq = s.hostq
  | .csr => t.csr = s.csr
  | .cfg => t.cfg = s.cfg
  | .started => t.st.started = s.st.started
  | .finished => t.st.finished = s.st.finished
  | .cur => t.cur = s.cur
  | .samp => t.samp = s.samp
  | .cells => t.cells = s.cells
  | .cx => t.cx = s.cx
  | .cxsel => t.cxsel = s.cxsel
  | .src => t.src = s.src
  | .ranges => t.src.ranges = s.src.ranges
  | .bound => t.bound = s.bound
  | .mq => t.mq = s.mq
  | .br => t.br = s.br

/-- What a pass of a coder may write: its coder's registers, with the contexts if that is the MQ decoder, and the block's
data (44_coding_passes.md R250). -/
def passWrites (raw : Bool) : List Piece :=
  [.samp, .cells, .src] ++ (if raw then [.br] else []) ++ (if raw then [] else [.mq, .cx])

/-- What the planned passes of a segment may write. -/
def segmentWrites : List Piece := [.cur, .samp, .cells, .cx, .cxsel, .src, .ranges, .bound, .mq, .br]

/-- The pieces a command may write (10_state.md R58). -/
def commandWrites : Instr → List Piece
  | .csrWr _ _ => [.csr]
  | .csrRd _ => []
  | .blkStart => [.cfg, .started, .finished, .cur, .samp, .cells, .cx, .cxsel, .src, .ranges, .bound]
  | .blkSegment last => segmentWrites ++ (if last then [.finished] else [])
  | .brBind _ => [.src, .ranges, .bound, .br]
  | .brReadbit => [.src, .br]
  | .brReadbits _ => [.src, .br]
  | .brFinish => [.src, .br]
  | .mqInit => [.src, .ranges, .bound, .mq]
  | .mqDecode => [.src, .mq, .cx]
  | .mqDecodeRaw => [.src, .br]
  | .mqPterm => [.src, .mq]
  | .cxReset => [.cx, .cxsel]
  | .cxSelect _ => [.cxsel]
  | .cxRead => []
  | .passSp _ raw => passWrites raw
  | .passMr _ raw => passWrites raw
  | .passCu _ => passWrites false
  | .nextPass => []

variable {s t : State} {f : Piece}

/-- The latch of an error and a write of RES touch no piece. -/
theorem Piece.stable (f : Piece) (s : State) : Stable (f.Same s) := by
  constructor
  · intro u e h; cases f <;> simpa [Piece.Same] using h
  · intro u v h; cases f <;> exact h

theorem Piece.same_refl (f : Piece) (s : State) : f.Same s s := by cases f <;> rfl

/-! ## What the procedures keep, piece by piece -/

theorem Piece.same_of_brRest (h : t.brRest = s.brRest) (hf : f ∉ [.src, .br]) : f.Same s t := by
  simp only [State.brRest, State.coderRest, Prod.mk.injEq] at h
  cases f <;> simp_all [Piece.Same]

theorem Piece.same_of_mqRest (h : t.mqRest = s.mqRest) (hf : f ∉ [.src, .mq, .cx]) : f.Same s t := by
  simp only [State.mqRest, State.coderRest, Prod.mk.injEq] at h
  cases f <;> simp_all [Piece.Same]

theorem Piece.same_of_mqOnlyRest (h : t.mqOnlyRest = s.mqOnlyRest) (hf : f ∉ [.src, .mq]) : f.Same s t := by
  simp only [State.mqOnlyRest, State.coderRest, Prod.mk.injEq] at h
  cases f <;> simp_all [Piece.Same]

theorem Piece.same_of_passFrame {raw : Bool} (h : t.passFrame raw = s.passFrame raw) (hf : f ∉ passWrites raw) :
    f.Same s t := by
  simp only [State.passFrame, State.passRest, Prod.mk.injEq] at h
  cases f <;> cases raw <;> simp_all [Piece.Same, passWrites]

theorem Piece.same_bindDecoder (hf : f ∉ [.src, .ranges, .bound, .mq]) : f.Same s (bindDecoder s).state := by
  have h := initDec_rest (s.bindSource s.csr.segBase s.csr.segLen .mq)
  simp only [State.initRest, Prod.mk.injEq] at h
  cases f <;> simp_all [Piece.Same, bindDecoder]

theorem Piece.same_segmentBody (hf : f ∉ segmentWrites) : f.Same s (segmentBody s).state := by
  have h := segmentBody_segRest s
  simp only [State.segRest, Prod.mk.injEq] at h
  cases f <;> simp_all [Piece.Same, segmentWrites]

theorem Piece.same_finishIf {u : State} {b : Bool} (h : f.Same s u) (hf : b = true → f ≠ .finished) :
    f.Same s (u.finishIf b) := by
  cases b with
  | false => exact h
  | true => cases f <;> simp_all [Piece.Same, State.finishIf]

theorem Piece.same_blkStart (hf : f ∉ commandWrites .blkStart) :
    f.Same s s.latchBlock ∧ f.Same s s.latchBlock.freshBlock := by
  cases f <;> simp_all [Piece.Same, commandWrites]

theorem Piece.same_spendFree (f : Piece) (csr : BitVec 4) : f.Same s (s.spendFree csr) := by
  unfold State.spendFree; split
  · cases f <;> rfl
  · exact f.same_refl s

/-! ## The frame of every command -/

/-- A command leaves every piece as it is but those it may write (10_state.md R58). -/
theorem exec_same (f : Piece) {i : Instr} (h : exec i s = .next t) (hf : f ∉ commandWrites i) : f.Same s t := by
  have q := f.stable s
  have hs := f.same_refl s
  cases i with
  | csrWr csr data => exact q.execCsrWr h hs (by cases f <;> simp_all [Piece.Same, commandWrites])
  | csrRd csr => exact q.execCsrRd h hs (f.same_spendFree csr)
  | blkStart => exact q.execBlkStart h hs (Piece.same_blkStart hf).1 fun _ => (Piece.same_blkStart hf).2
  | blkSegment last =>
    simp only [commandWrites, List.mem_append, not_or] at hf
    obtain ⟨hf, hl⟩ := hf
    exact q.execBlkSegment h hs (fun _ => Piece.same_segmentBody hf) fun u b _ hb hu =>
      Piece.same_finishIf hu fun hbt hfin => hl (by simp [hfin, (hb hbt).1])
  | brBind mode => exact q.execBrBind h hs (by cases f <;> simp_all [Piece.Same, commandWrites])
  | brReadbit => exact q.execBrReadbit h hs fun _ => Piece.same_of_brRest (readBit_brRest s) hf
  | brReadbits n => exact q.execBrReadbits h hs fun _ => Piece.same_of_brRest (readBits_brRest _ _ s) hf
  | brFinish =>
    exact q.execBrFinish h hs (fun _ => Piece.same_of_brRest (skipStuffing_brRest s) hf) fun u hu => by
      cases f <;> simp_all [Piece.Same, commandWrites]
  | mqInit => exact q.execMqInit h hs (Piece.same_bindDecoder hf)
  | mqDecode => exact q.execMqDecode h hs fun _ => Piece.same_of_mqRest (decodeMq_mqRest _ s) hf
  | mqDecodeRaw => exact q.execMqDecodeRaw h hs fun _ => Piece.same_of_brRest (readBit_brRest s) hf
  | mqPterm => exact q.execMqPterm h hs fun _ => Piece.same_of_mqOnlyRest (pterm_rest s) hf
  | cxReset => exact q.execCxReset h hs (by cases f <;> simp_all [Piece.Same, commandWrites])
  | cxSelect k => exact q.execCxSelect h hs fun c => by cases f <;> simp_all [Piece.Same, commandWrites]
  | cxRead => exact q.execCxRead h hs
  | passSp p raw => exact q.execPassSp h hs fun _ _ _ => Piece.same_of_passFrame (spPass_passFrame p.toNat raw s) hf
  | passMr p raw => exact q.execPassMr h hs fun _ _ _ => Piece.same_of_passFrame (mrPass_passFrame p.toNat raw s) hf
  | passCu p => exact q.execPassCu h hs fun _ _ _ => Piece.same_of_passFrame (cuPass_passFrame p.toNat s) hf
  | nextPass => exact q.execNextPass h hs

/-- Settles O17: no command's table entry lists the parameters, codeword memory or the delivered words, and the other
pieces are listed for their writers alone. -/
theorem controlStateWriters : Obligations.ControlStateWriters := by
  unfold Obligations.ControlStateWriters
  intro i s t h
  refine ⟨exec_same .par h ?_, exec_same .cwmem h ?_, exec_same .hostq h ?_, fun hi => exec_same .csr h ?_,
    fun hi => ⟨exec_same .cfg h ?_, exec_same .started h ?_⟩,
    fun hi hi' => ⟨exec_same .cur h ?_, exec_same .finished h ?_⟩, fun last hi hl => exec_same .finished h ?_⟩
  all_goals cases i <;> simp_all [commandWrites, passWrites, segmentWrites]

/-- Settles O18: reads of SAMP and S follow the memories that `exec_same` keeps. -/
theorem blockDataWriters : Obligations.BlockDataWriters := by
  unfold Obligations.BlockDataWriters
  intro i s t h
  refine ⟨fun h1 h2 h3 h4 h5 x y => ⟨?_, ?_⟩, fun h1 h2 h3 h4 h5 h6 h7 => exec_same .cx h ?_,
    fun h1 h2 h3 h4 => exec_same .cxsel h ?_⟩
  · have hw : t.samp = s.samp := exec_same .samp h (by cases i <;> simp_all [commandWrites])
    rw [State.sampRead, State.sampRead, hw]
  · have hw : t.cells = s.cells := exec_same .cells h (by cases i <;> simp_all [commandWrites])
    rw [State.cell, State.cell, hw]
  all_goals cases i <;> simp_all [commandWrites, passWrites]

/-- Settles O19: the coders' registers are pieces of the table of writers, the bound ranges apart from the position. -/
theorem coderWriters : Obligations.CoderWriters := by
  unfold Obligations.CoderWriters
  intro i s t h
  refine ⟨fun h1 h2 h3 h4 => ⟨exec_same .ranges h ?_, exec_same .bound h ?_⟩,
    fun h1 h2 h3 h4 h5 h6 h7 => exec_same .mq h ?_, fun h1 h2 h3 h4 h5 h6 h7 h8 => exec_same .br h ?_,
    fun h1 => exec_same .src h ?_⟩
  all_goals cases i <;> simp_all [commandWrites, passWrites]

end Sys2Proof.Machine
end

section
/-! PROOFS. The CSRs: the layouts of the read-only ones, what CSR_RD returns, and when the registers behind a debug CSR are
"any value". -/

namespace Sys2Proof.Machine

variable {s t : State}

/-! ## Layouts -/

/-- Fields side by side: the upper one starts where the lower one ends. -/
theorem fieldAt_append {n m : Nat} (lo : Nat) (x : BitVec n) (y : BitVec m) :
    fieldAt lo (x ++ y) = fieldAt lo y ||| fieldAt (m + lo) x := by
  ext i hi
  simp only [fieldAt, BitVec.getElem_or, BitVec.getElem_shiftLeft, BitVec.getElem_setWidth, BitVec.getLsbD_append]
  by_cases hlo : i < lo
  · simp [hlo, show i < m + lo by omega]
  · by_cases hm : i - lo < m
    · simp [hlo, hm, show i < m + lo by omega]
    · have hy : y.getLsbD (i - lo) = false := BitVec.getLsbD_of_ge y _ (by omega)
      simp [hlo, hm, hy, show ¬ i < m + lo by omega, show i - lo - m = i - (m + lo) by omega]

/-- A field of zeros is none. -/
theorem fieldAt_zero {n : Nat} (lo : Nat) : fieldAt lo (0#n) = 0#32 := by
  simp [fieldAt]

/-- A field that fills the word is the word. -/
theorem fieldAt_word (w : Word) : fieldAt 0 w = w := by simp [fieldAt]

theorem bitAt_eq (lo : Nat) (b : Bool) : bitAt lo b = fieldAt lo (if b then 1 else 0 : BitVec 1) := by
  cases b <;> rfl

/-- MQ_CTB side by side (10_state.md R53). -/
theorem mqCtbWord_eq (s : State) :
    s.mqCtbWord = fieldAt 0 (0#15 ++ (if s.mq.mf then 1 else 0 : BitVec 1) ++ s.mq.b ++ 0#4 ++ s.mq.ct) := by
  simp only [fieldAt_append, fieldAt_zero]
  simp only [State.mqCtbWord, bitAt_eq, Nat.reduceAdd, BitVec.or_assoc, BitVec.or_zero, BitVec.zero_or]

/-- BR_STATE side by side (10_state.md R55). -/
theorem brStateWord_eq (s : State) :
    s.brStateWord = fieldAt 0 (0#14 ++ (if s.br.mode then 1 else 0 : BitVec 1) ++
      (if s.br.lastFF then 1 else 0 : BitVec 1) ++ s.br.buf ++ 0#4 ++ s.br.bitsLeft) := by
  simp only [fieldAt_append, fieldAt_zero]
  simp only [State.brStateWord, bitAt_eq, Nat.reduceAdd, BitVec.or_assoc, BitVec.or_zero, BitVec.zero_or]

/-- STATUS side by side (10_state.md R48). -/
theorem statusWord_eq (s : State) :
    s.statusWord = fieldAt 0 (0#12 ++ s.st.errCode ++ 0#1 ++ s.cur.plane ++ lastPassCode s.cur.lastPass ++
      (if s.cur.lastType.isRaw then 1 else 0 : BitVec 1) ++ (if s.src.filled then 1 else 0 : BitVec 1) ++ s.bound.code ++
      (if s.fatal then 1 else 0 : BitVec 1) ++ (if s.st.error then 1 else 0 : BitVec 1) ++
      (if s.st.finished then 1 else 0 : BitVec 1) ++ (if s.st.started then 1 else 0 : BitVec 1)) := by
  simp only [fieldAt_append, fieldAt_zero]
  simp only [State.statusWord, bitAt_eq, Nat.reduceAdd, BitVec.or_assoc, BitVec.or_zero, BitVec.zero_or]

/-- The bits above a field at bit 0 read 0. -/
theorem fieldAt_zero_append {n k : Nat} (v : BitVec n) : fieldAt 0 v = fieldAt 0 (0#k ++ v) := by
  rw [fieldAt_append, fieldAt_zero, BitVec.or_zero]

theorem isRaw_eq (c : Coder) : c.isRaw = (c == .raw) := by cases c <;> rfl

/-- Settles O21: each layout is its fields side by side, from bit 0 up. -/
theorem readOnlyCsrLayouts : Obligations.ReadOnlyCsrLayouts := by
  unfold Obligations.ReadOnlyCsrLayouts
  refine ⟨fun s => ⟨?_, ?_, ?_, rfl, ?_, rfl, ?_, ?_⟩, by decide⟩
  · refine (statusWord_eq s).trans ((fieldAt_word _).trans ?_)
    rw [isRaw_eq]
    rcases s.cur.lastPass with _ | _ | _ | _ <;> cases s.bound <;> rfl
  · exact (fieldAt_zero_append s.cur.passCount).trans (fieldAt_word _)
  · exact (fieldAt_zero_append s.mq.a).trans (fieldAt_word _)
  · exact (mqCtbWord_eq s).trans (fieldAt_word _)
  · exact (brStateWord_eq s).trans (fieldAt_word _)
  · exact Nat.mod_eq_of_lt (lt_trans s.cxsel.isLt (by decide))

/-! ## CSR_RD -/

/-- The latch raises its error in the sense of `State.Raises` (60_exceptions.md R342). -/
theorem State.raises_latch (s : State) (e : Err) : s.Raises (s.latch e) e.code := by
  refine ⟨s.latch_eq e, ?_, ?_, s.latch_free_zeroed e⟩
  · cases he : s.st.error with
    | false => rw [s.latch_of_safe e he]; rfl
    | true => rw [s.latch_of_error e he, if_pos rfl, ← he]
  · unfold State.latch; split <;> rfl

/-- CSR_RD of a readable CSR completes in every state (45_block_control.md R301). -/
theorem execCsrRd_eq {csr : BitVec 4} (h : CsrReadable csr) (s : State) :
    exec (.csrRd csr) s = .next ((s.spendFree csr).setRes ((s.csrRead csr).setWidth 64)) := by
  have hl : decide (CsrReadable csr) = true := decide_eq_true h
  show execCsrRd csr s = _
  rw [execCsrRd, hl, runCommand_always, Act.outcome_done]

/-- Which reads of a CSR have the registers' value (10_state.md R50, log 8). -/
theorem csrIsFree_eq_false {c : BitVec 4}
    (h : c.toNat < 7 ∨ (s.Safe ∧ (c.toNat ≤ 9 → s.free.mq = false) ∧ (c.toNat = 11 → s.free.br = false))) :
    s.csrIsFree c = false := by
  unfold State.csrIsFree
  split <;> simp_all [State.Safe]

/-- With ERROR = 1 every debug CSR is any value (10_state.md R50). -/
theorem csrIsFree_of_error {c : BitVec 4} (h7 : 7 ≤ c.toNat) (h12 : c.toNat ≤ 12) (he : s.st.error = true) :
    s.csrIsFree c = true := by
  have hc : c.toNat = 7 ∨ c.toNat = 8 ∨ c.toNat = 9 ∨ c.toNat = 10 ∨ c.toNat = 11 ∨ c.toNat = 12 := by omega
  rcases hc with hc | hc | hc | hc | hc | hc <;> simp [State.csrIsFree, hc, he]

/-- The bits of a debug CSR outside its named fields read 0 (93_implementation_defined.md U4). -/
theorem and_debugMask_fields (w : Word) (c : BitVec 4) :
    (c.toNat = 7 → (w &&& debugMask c).toNat < 2 ^ 16) ∧ (c.toNat = 9 → w &&& debugMask c &&& 0xFFFE00F0 = 0) ∧
      (c.toNat = 11 → w &&& debugMask c &&& 0xFFFC00F0 = 0) ∧ (c.toNat = 12 → (w &&& debugMask c).toNat < 2 ^ 5) := by
  refine ⟨fun h => ?_, fun h => ?_, fun h => ?_, fun h => ?_⟩
  all_goals simp only [debugMask, h]
  · rw [BitVec.toNat_and]
    exact Nat.and_lt_two_pow _ (by decide)
  · rw [BitVec.and_assoc]; simp
  · rw [BitVec.and_assoc]; simp
  · rw [BitVec.toNat_and]
    exact Nat.and_lt_two_pow _ (by decide)

/-! ## The marks of the debug CSRs -/

/-- No register behind a debug CSR has become "any value" from `s` to `u` (log 8). -/
def MarksLe (s u : State) : Prop := (s.free.mq = false → u.free.mq = false) ∧ (s.free.br = false → u.free.br = false)

theorem MarksLe.of_free (h : t.free = s.free) : MarksLe s t := by
  rw [MarksLe, h]; exact ⟨id, id⟩

/-- From `s` to `u` a register behind a debug CSR becomes "any value" only with an error (log 8). -/
def MarksKept (s u : State) : Prop := u.Safe → MarksLe s u

theorem MarksKept.of_free (h : t.free = s.free) : MarksKept s t := fun _ => .of_free h

theorem MarksKept.stable (s : State) : Stable (MarksKept s) :=
  ⟨fun u e _ hu => absurd hu (by simp [State.Safe]), fun _ _ h => h⟩

theorem MarksKept.finishIf {u : State} (h : MarksKept s u) (b : Bool) : MarksKept s (u.finishIf b) := by
  cases b <;> exact h

theorem free_of_coderRest (h : t.coderRest = s.coderRest) : t.free = s.free := by
  simp only [State.coderRest, Prod.mk.injEq] at h
  obtain ⟨-, -, -, -, -, -, -, -, -, -, -, hfree, -⟩ := h
  exact hfree

theorem free_of_boundRest (h : t.boundRest = s.boundRest) : t.free = s.free := by
  simp only [State.boundRest, Prod.mk.injEq] at h
  obtain ⟨-, -, -, -, hfree⟩ := h
  exact hfree

theorem free_of_passFrame {raw : Bool} (h : t.passFrame raw = s.passFrame raw) : t.free = s.free :=
  free_of_boundRest (boundRest_of_passRest (congrArg Prod.fst h))

/-- INITDEC loads the MQ registers where it completes (42_mq_decoder.md R160). -/
theorem initDec_done_mark (h : initDec s = .done () t) : t.free.mq = false := by
  simp only [initDec, Act.bind_eq_done] at h
  obtain ⟨bf, u, -, -, v, -, hd⟩ := h
  cases hd
  rfl

theorem initDec_marksLe (s : State) : MarksLe s (initDec s).state := by
  have hbr : (initDec s).state.free.br = s.free.br := by
    have hr := initDec_rest s
    simp only [State.initRest, Prod.mk.injEq] at hr
    obtain ⟨-, -, -, -, -, -, -, -, -, -, -, -, -, -, -, -, hbr, -⟩ := hr
    exact hbr
  refine ⟨fun hm => ?_, fun hb => hbr.trans hb⟩
  refine Act.inv_bind (fun u => u.free.mq = false) ?_ fun bf u _ hu => Act.inv_bind (fun v => v.free.mq = false) ?_
    fun _ _ _ _ => rfl
  · exact (fetchByte_keeps (fun u => u.free.mq) _ fun _ _ => rfl).trans hm
  · have hr := free_of_coderRest (congrArg Prod.fst (byteIn_rest
      (u.setMq { u.mq with b := bf.1, c := (bf.1 ^^^ 0xFF).setWidth 32 <<< 16 })))
    rw [hr]
    exact hu

theorem coderStep_marksLe (raw : Bool) (s : State) : MarksLe s (coderStep raw s).state := by
  unfold coderStep
  split
  · cases raw with
    | true => exact ⟨id, fun _ => rfl⟩
    | false => exact initDec_marksLe (s.bindSource s.csr.segBase s.csr.segLen .mq)
  · refine .of_free ?_
    unfold appendSegment
    by_cases hb : s.bound ≠ (if raw then Bound.br else Bound.mq)
    · rw [if_pos hb]; rfl
    · rw [if_neg hb]; split <;> rfl

theorem segmentBody_marksLe (s : State) : MarksLe s (segmentBody s).state := by
  unfold segmentBody
  split
  · exact .of_free rfl
  split
  · exact .of_free rfl
  · exact .of_free rfl
  split
  · exact .of_free rfl
  refine Act.inv_bind (MarksLe s) (coderStep_marksLe _ s) fun _ u _ hu => ?_
  rw [MarksLe, free_of_boundRest (segment_boundRest _ u)]
  exact hu

/-- A command that ends without an error makes no register behind a debug CSR "any value" (log 8). -/
theorem exec_marksKept {i : Instr} (h : exec i s = .next t) : MarksKept s t := by
  have q := MarksKept.stable s
  have hs : MarksKept s s := .of_free rfl
  cases i with
  | csrWr csr data => exact q.execCsrWr h hs (.of_free rfl)
  | csrRd csr => exact q.execCsrRd h hs fun _ => by unfold State.spendFree; split <;> exact ⟨id, id⟩
  | blkStart => exact q.execBlkStart h hs (.of_free rfl) fun _ _ => ⟨id, id⟩
  | blkSegment last => exact q.execBlkSegment h hs (fun _ _ => segmentBody_marksLe s) fun _ b _ _ hu => hu.finishIf b
  | brBind mode => exact q.execBrBind h hs fun _ => ⟨id, fun _ => rfl⟩
  | brReadbit => exact q.execBrReadbit h hs fun _ => .of_free (free_of_coderRest (congrArg Prod.fst (readBit_brRest s)))
  | brReadbits n =>
    exact q.execBrReadbits h hs fun _ => .of_free (free_of_coderRest (congrArg Prod.fst (readBits_brRest _ _ s)))
  | brFinish =>
    exact q.execBrFinish h hs (fun _ => .of_free (free_of_coderRest (congrArg Prod.fst (skipStuffing_brRest s))))
      fun _ hu => hu
  | mqInit => exact q.execMqInit h hs fun _ => initDec_marksLe (s.bindSource s.csr.segBase s.csr.segLen .mq)
  | mqDecode => exact q.execMqDecode h hs fun _ => .of_free (free_of_coderRest (congrArg Prod.fst (decodeMq_mqRest _ s)))
  | mqDecodeRaw => exact q.execMqDecodeRaw h hs fun _ => .of_free (free_of_coderRest (congrArg Prod.fst (readBit_brRest s)))
  | mqPterm => exact q.execMqPterm h hs fun _ => .of_free (free_of_coderRest (congrArg Prod.fst (pterm_rest s)))
  | cxReset => exact q.execCxReset h hs (.of_free rfl)
  | cxSelect k => exact q.execCxSelect h hs fun _ => .of_free rfl
  | cxRead => exact q.execCxRead h hs
  | passSp p raw => exact q.execPassSp h hs fun _ _ _ => .of_free (free_of_passFrame (spPass_passFrame p.toNat raw s))
  | passMr p raw => exact q.execPassMr h hs fun _ _ _ => .of_free (free_of_passFrame (mrPass_passFrame p.toNat raw s))
  | passCu p => exact q.execPassCu h hs fun _ _ _ => .of_free (free_of_passFrame (cuPass_passFrame p.toNat s))
  | nextPass => exact q.execNextPass h hs

/-- A command that ends without an error ran its steps to their end. -/
theorem runCommand_done_of_safe {legal always : Bool} {body : State → Act Unit}
    (h : runCommand legal always body s = .next t) (ht : t.Safe) : body s = .done () t := by
  rcases runCommand_cases h with ⟨-, rfl⟩ | ⟨-, he, -, rfl⟩ | ⟨-, -, hd | ⟨e, u, -, rfl⟩⟩
  · exact absurd ht (by simp [State.Safe])
  · exact absurd ht (by simp [State.Safe, he])
  · exact hd
  · exact absurd ht (by simp [State.Safe])

theorem execMqInit_mark (h : execMqInit s = .next t) (ht : t.Safe) : t.free.mq = false := by
  have hd : bindDecoder s = .done () t := runCommand_done_of_safe h ht
  exact initDec_done_mark hd

theorem execBrBind_mark {mode : Bool} (h : execBrBind mode s = .next t) (ht : t.Safe) : t.free.br = false := by
  cases runCommand_done_of_safe h ht
  rfl

/-- Settles O22: a CSR that is not free reads its register; a free one any value in its named fields; and only an error
makes a debug CSR free. -/
theorem csrReadReturnsTheRegister : Obligations.CsrReadReturnsTheRegister := by
  unfold Obligations.CsrReadReturnsTheRegister
  refine ⟨fun s c hc h => ?_, fun s c h7 h12 he => ?_, fun s c hc => ?_, fun i s t _ ht h => ?_, fun s => ?_⟩
  · have hf := csrIsFree_eq_false h
    rw [execCsrRd_eq (Nat.lt_succ_of_le hc)]
    simp [State.spendFree, State.csrRead, hf]
  · have hf := csrIsFree_of_error h7 h12 he
    refine ⟨Config.freeDebug s.free.count &&& debugMask c, s.free.count + 1, ?_, and_debugMask_fields _ c⟩
    rw [execCsrRd_eq (Nat.lt_succ_of_le h12)]
    simp [State.spendFree, State.csrRead, hf]
  · have hl : decide (CsrReadable c) = false := decide_eq_false (by simp only [CsrReadable]; omega)
    refine ⟨s.latch .illegalCommand, ?_, s.raises_latch .illegalCommand⟩
    show execCsrRd c s = _
    rw [execCsrRd, hl]
    rfl
  · obtain ⟨hmq, hbr⟩ := exec_marksKept h ht
    constructor
    · rintro (hm | rfl)
      · exact hmq hm
      · exact execMqInit_mark h ht
    · rintro (hb | ⟨mode, rfl⟩)
      · exact hbr hb
      · exact execBrBind_mark h ht
  · have hall (w : Word) : w &&& 0xFFFFFFFF = w := BitVec.and_allOnes
    exact ⟨rfl, rfl, hall _, hall _, rfl⟩

end Sys2Proof.Machine
end

section
/-! PROOFS. BLK_START: the latched configuration, the fresh block, and that it alone clears ERROR. -/

namespace Sys2Proof.Machine

variable {s t : State}

/-! ## ERROR -/

/-- ERROR = 1, which only BLK_START and reset take away (60_exceptions.md R347). -/
theorem stable_error : Stable fun u => u.st.error = true := ⟨fun u e _ => u.latch_error e, fun _ _ h => h⟩

/-- A command that does not always run keeps ERROR = 1. -/
theorem runCommand_keeps_error {legal : Bool} {body : State → Act Unit} (h : runCommand legal false body s = .next t)
    (he : s.st.error = true) : t.st.error = true := by
  rcases runCommand_cases h with ⟨-, rfl⟩ | ⟨-, -, -, rfl⟩ | ⟨-, hc, -⟩
  · exact s.latch_error _
  · exact he
  · simp [he] at hc

/-- No command but BLK_START clears ERROR (60_exceptions.md R347). -/
theorem exec_keeps_error {i : Instr} (hi : i ≠ .blkStart) (he : s.st.error = true) (h : exec i s = .next t) :
    t.st.error = true := by
  have q := stable_error
  cases i with
  | csrWr csr data => exact q.execCsrWr h he he
  | csrRd csr => exact q.execCsrRd h he (by unfold State.spendFree; split <;> exact he)
  | blkStart => exact absurd rfl hi
  | blkSegment last =>
    rcases execBlkSegment_cases h with ⟨-, rfl⟩ | ⟨hn, -, -⟩ | ⟨hn, -, -⟩
    · rw [State.finishIf_eq]; exact he
    · simp [he] at hn
    · simp [he] at hn
  | _ =>
    simp only [exec, execBrBind, execBrReadbit, execBrReadbits, execBrFinish, execMqInit, execMqDecode, execMqDecodeRaw,
      execMqPterm, execCxReset, execCxSelect, execCxRead, execPassSp, execPassMr, execPassCu, execNextPass] at h
    exact runCommand_keeps_error h he

/-! ## The latched configuration -/

/-- A field of a word from its number. -/
theorem extractLsb'_eq_ofNat (w : Word) (lo len : Nat) : w.extractLsb' lo len = BitVec.ofNat len (w.toNat / 2 ^ lo) := by
  rw [BitVec.extractLsb', Nat.shiftRight_eq_div_pow]

/-- The latched configuration in the numbers that GEOM and MODE write (10_state.md R44, R45). -/
theorem latchConfig_eq (geom mode : Word) :
    latchConfig geom mode =
      { w := geom.toNat % 1024 + 1
        h := geom.toNat / 1024 % 1024 + 1
        orient := orientOf (BitVec.ofNat 2 (geom.toNat / 2 ^ 20))
        restart := mode.toNat.testBit 0
        resetCtx := mode.toNat.testBit 1
        causal := mode.toNat.testBit 2
        segSym := mode.toNat.testBit 3
        bypass := mode.toNat.testBit 4
        pterm := mode.toNat.testBit 5
        validate := mode.toNat.testBit 6
        p0 := BitVec.ofNat 5 (mode.toNat / 2 ^ 8)
        shift := BitVec.ofNat 5 (mode.toNat / 2 ^ 16) } := by
  simp only [latchConfig, extractLsb'_eq_ofNat, BitVec.toNat_ofNat, BitVec.testBit_toNat]
  norm_num

/-! ## The fresh block -/

/-- BLK_START when R303 refuses the configuration: the state after its checks, with BadConfig latched. -/
theorem execBlkStart_refused (s : State) (h : ¬ s.latchBlock.cfg.Accepted) :
    execBlkStart s = .next (s.latchBlock.latch .badConfig) := by
  rw [execBlkStart, runCommand_always, blkStart, if_neg h, Act.outcome_raised]

/-- BLK_START when R303 accepts the configuration. -/
theorem execBlkStart_accepted (s : State) (h : s.latchBlock.cfg.Accepted) :
    execBlkStart s = .next s.latchBlock.freshBlock := by
  rw [execBlkStart, runCommand_always, blkStart, if_pos h, Act.outcome_done]

/-- Starting a fresh block again latches the same configuration and clears STARTED. -/
theorem latchBlock_freshBlock (s : State) :
    s.latchBlock.freshBlock.latchBlock = s.latchBlock.freshBlock.setSt s.latchBlock.st := by
  simp only [State.latchBlock, State.freshBlock, State.clearError, State.setSt, State.setCfg]

/-- A fresh block is started again as it is (45_block_control.md R302). -/
theorem freshBlock_again (s : State) : s.latchBlock.freshBlock.latchBlock.freshBlock = s.latchBlock.freshBlock := by
  rw [latchBlock_freshBlock]
  simp only [State.freshBlock, State.setSt]

theorem execBlkStart_again (s : State) (h : s.latchBlock.cfg.Accepted) :
    execBlkStart s.latchBlock.freshBlock = .next s.latchBlock.freshBlock := by
  have ha : s.latchBlock.freshBlock.latchBlock.cfg.Accepted := by rw [latchBlock_freshBlock]; exact h
  rw [execBlkStart_accepted _ ha, freshBlock_again]

/-- The model's mark is the size of the fresh block (log 25). -/
theorem freshBlock_zeroed (s : State) : s.freshBlock.free.zeroed = some (s.cfg.w, s.cfg.h) := rfl

/-- The host reads 0 at every coordinate of a fresh block (45_block_control.md R302). -/
theorem hostSampRead_freshBlock (s : State) {x y : Nat} (hx : x < s.cfg.w) (hy : y < s.cfg.h) :
    s.freshBlock.hostSampRead x y = some 0 := by
  have hr : s.freshBlock.SampReaches x y := ⟨hx, hy⟩
  have hw : s.freshBlock.hostSampWord x y = 0 := if_pos ⟨hx, hy⟩
  rw [State.hostSampRead, if_pos hr, hw]

/-- Settles O23: BLK_START latches the configuration that GEOM and MODE write, and then either raises BadConfig or starts
the fresh block, which it starts again as it is. -/
theorem blockStartBeginsAFreshBlock : Obligations.BlockStartBeginsAFreshBlock := by
  unfold Obligations.BlockStartBeginsAFreshBlock
  refine ⟨fun i s t hi he h => exec_keeps_error hi he h, fun s => ?_⟩
  intro g m cfg
  have hcfg : s.latchBlock.cfg = cfg := by
    show latchConfig s.csr.geom s.csr.mode = cfg
    exact (latchConfig_eq _ _).trans rfl
  clear_value cfg
  subst hcfg
  constructor
  · intro hbad
    have hna : ¬ s.latchBlock.cfg.Accepted := by
      rintro ⟨harea, hplane⟩
      rcases hbad with hbad | hbad
      · exact absurd harea (Nat.not_le.2 hbad)
      · exact absurd hplane (Nat.not_le.2 hbad)
    refine ⟨_, execBlkStart_refused s hna, ?_, ?_, s.latchBlock.latch_free_zeroed _⟩
    · rw [State.latch_of_safe _ _ rfl]; rfl
    · rw [State.latch_of_safe _ _ rfl]; rfl
  · intro harea hplane
    have ha : s.latchBlock.cfg.Accepted := ⟨harea, hplane⟩
    exact ⟨_, execBlkStart_accepted s ha, execBlkStart_again s ha, rfl, rfl,
      fun x y hx hy => hostSampRead_freshBlock _ hx hy, fun x y => ⟨rfl, rfl⟩, State.ctx_of_initial rfl, rfl, rfl, rfl,
      rfl, by simp [freshBlock_zeroed]⟩

end Sys2Proof.Machine
end

section
/-! PROOFS. Codeword memory: what the host reads back after a write, and engines over one codeword memory that run as each
would alone. -/

namespace Sys2Proof.Machine

variable {s t : State} {p : Pool}

/-! ## The host's accesses -/

/-- A write of codeword memory's own contents is none. -/
@[simp] theorem State.setCwmem_self (s : State) : s.setCwmem s.cwmem = s := rfl

theorem State.hostWrite_inside {addr : Nat} (h : addr < s.par.cwmemSize) (b : Byte) :
    s.hostWrite addr b = s.setCwmem (Sparse.set unplacedByte s.cwmem addr b) := if_pos h

/-- There is no cell at or above CWMEM_SIZE (log 17). -/
theorem State.hostWrite_outside {addr : Nat} (h : ¬ addr < s.par.cwmemSize) (b : Byte) : s.hostWrite addr b = s :=
  if_neg h

/-- The host's write changes nothing of the engine but codeword memory. -/
theorem hostWrite_eq_setCwmem (s : State) (addr : Nat) (b : Byte) :
    s.hostWrite addr b = s.setCwmem (s.hostWrite addr b).cwmem := by
  by_cases h : addr < s.par.cwmemSize
  · rw [State.hostWrite_inside h, State.setCwmem_cwmem]
  · rw [State.hostWrite_outside h, State.setCwmem_self]

@[simp] theorem hostWrite_par (s : State) (addr : Nat) (b : Byte) : (s.hostWrite addr b).par = s.par := by
  rw [hostWrite_eq_setCwmem, State.setCwmem_par]

/-- The byte at an address of CWMEM after the host's write. -/
theorem cwByte_hostWrite (hs : Memory.wf s.cwmem) {a : Nat} (ha : a < s.par.cwmemSize) (addr : Nat) (b : Byte) :
    (s.hostWrite addr b).cwByte a = if a = addr then b else s.cwByte a := by
  by_cases h : addr < s.par.cwmemSize
  · rw [State.hostWrite_inside h, State.cwByte, State.setCwmem_cwmem, Sparse.get_set hs, State.cwByte]
  · rw [State.hostWrite_outside h, if_neg (by omega)]

/-- Settles O59: reads after a write of the sparse memory, with no cell to write at or above CWMEM_SIZE. -/
theorem hostWritesCodewordMemory : Obligations.HostWritesCodewordMemory := by
  unfold Obligations.HostWritesCodewordMemory
  intro s addr b hs
  refine ⟨fun a => ?_, hostWrite_wf hs, hostWrite_eq_setCwmem s addr b⟩
  rw [State.hostRead, hostWrite_par]
  by_cases ha : a < s.par.cwmemSize
  · rw [if_pos ha, if_pos ha, cwByte_hostWrite hs ha]
  · rw [if_neg ha, if_neg ha]

/-! ## Steps read codeword memory and never write it -/

/-- A step leaves codeword memory and the parameters as they are (20_memory.md R71). -/
theorem step_keeps_shared (h : step s = .next t) : t.cwmem = s.cwmem ∧ t.par = s.par := by
  unfold step at h
  split at h
  · obtain ⟨hpar, hcwmem, -⟩ := controlStateWriters _ _ _ h
    exact ⟨hcwmem, hpar⟩
  · cases h
    exact ⟨State.latch_cwmem .., State.latch_par ..⟩
  · cases h
    exact ⟨rfl, rfl⟩

theorem stepped_keeps_shared (s : State) : s.stepped.cwmem = s.cwmem ∧ s.stepped.par = s.par := by
  unfold State.stepped
  split
  · exact step_keeps_shared ‹_›
  · exact ⟨rfl, rfl⟩
  · exact ⟨rfl, rfl⟩

theorem stepped_iterate_keeps_shared (s : State) (n : Nat) :
    (State.stepped^[n] s).cwmem = s.cwmem ∧ (State.stepped^[n] s).par = s.par := by
  induction n generalizing s with
  | zero => exact ⟨rfl, rfl⟩
  | succ n ih =>
    obtain ⟨hcwmem, hpar⟩ := stepped_keeps_shared s
    obtain ⟨hcwmem', hpar'⟩ := ih s.stepped
    exact ⟨hcwmem'.trans hcwmem, hpar'.trans hpar⟩

/-! ## Engines of a pool -/

/-- The pool in which each engine `i` has taken `n i` steps of its own. -/
def Pool.turns (p : Pool) (n : Nat → Nat) : Pool :=
  { p with engines := p.engines.mapIdx fun i s => State.stepped^[n i] s }

/-- The pools that `Pool.turns` describes, engine by engine. -/
theorem Pool.eq_turns {q : Pool} {n : Nat → Nat} (hcwmem : q.cwmem = p.cwmem) (hpar : q.par = p.par)
    (hengines : ∀ i, q.engines[i]? = p.engines[i]?.map State.stepped^[n i]) : q = p.turns n := by
  rw [Pool.turns, List.mapIdx_eq_iff.2 hengines, ← hcwmem, ← hpar]

theorem Pool.turns_zero (p : Pool) : p.turns (fun _ => 0) = p :=
  (Pool.eq_turns rfl rfl fun _ => by simp).symm

/-- Turns of the engines one after another add up, because no engine's steps read another engine. -/
theorem Pool.turns_turns (p : Pool) (m n : Nat → Nat) : (p.turns m).turns n = p.turns fun i => n i + m i := by
  simp [Pool.turns, Function.comp_def, Function.iterate_add_apply]

/-- The engines' own steps leave the shared codeword memory and the parameters shared. -/
theorem Pool.Shared.turns (hp : p.Shared) (n : Nat → Nat) : (p.turns n).Shared := by
  intro s hs
  obtain ⟨i, hi, rfl⟩ := List.mem_mapIdx.1 hs
  obtain ⟨hcwmem, hpar⟩ := hp _ (List.getElem_mem hi)
  obtain ⟨hcwmem', hpar'⟩ := stepped_iterate_keeps_shared p.engines[i] (n i)
  exact ⟨hcwmem'.trans hcwmem, hpar'.trans hpar⟩

/-- A turn of engine `j` is one step of its own: the codeword memory it is given is the one it has. -/
theorem Pool.stepAt_eq_turns (hp : p.Shared) (j : Nat) : p.stepAt j = p.turns fun i => [j].count i := by
  unfold Pool.stepAt
  split
  · rename_i s hs
    have hcwmem : p.cwmem = s.cwmem := (hp s (List.mem_of_getElem? hs)).1.symm
    rw [hcwmem, State.setCwmem_self]
    refine Pool.eq_turns hcwmem.symm rfl fun i => ?_
    rw [List.getElem?_set, List.count_singleton]
    by_cases hij : j = i
    · subst hij
      obtain ⟨hj, rfl⟩ := List.getElem?_eq_some_iff.1 hs
      simp [hj]
    · simp [hij]
  · rename_i hnone
    refine Pool.eq_turns rfl rfl fun i => ?_
    by_cases hij : j = i
    · subst hij
      simp [hnone]
    · simp [hij]

/-- A schedule gives each engine its own turns and nothing else (20_memory.md R83). -/
theorem Pool.run_eq_turns (hp : p.Shared) (schedule : List Nat) : p.run schedule = p.turns fun i => schedule.count i := by
  induction schedule generalizing p with
  | nil => exact p.turns_zero.symm
  | cons j js ih =>
    have hj := Pool.stepAt_eq_turns hp j
    calc p.run (j :: js) = (p.stepAt j).run js := rfl
      _ = (p.turns fun i => [j].count i).turns fun i => js.count i := by rw [hj, ih (hp.turns _)]
      _ = p.turns fun i => (j :: js).count i := by
        simp only [Pool.turns_turns, List.count_cons, List.count_nil, Nat.zero_add]

/-- Settles O60: a run is each engine's own turns, which read the shared codeword memory and never write it. -/
theorem poolEnginesRunAsIfAlone : Obligations.PoolEnginesRunAsIfAlone := by
  unfold Obligations.PoolEnginesRunAsIfAlone
  intro p schedule hp
  rw [Pool.run_eq_turns hp]
  have hshared := hp.turns fun i => schedule.count i
  refine ⟨fun i s hs => ?_, rfl, rfl, hshared, fun ⟨hpar, hlen, _⟩ => ⟨hpar, ?_, hshared⟩⟩
  · simp [Pool.turns, hs]
  · simpa [Pool.turns] using hlen

end Sys2Proof.Machine
end

section
/-! SUPPORT. The words of a command and what the decoder finds in them: the three checks, the encoder and the match and mask
table told by the format of the opcode. -/

namespace Sys2Proof

variable {w d : Word} {ws rest : List Word} {n : Nat} {i : Instr}

/-! ## Opcodes and length -/

/-- The opcode is the number in bits [31:26] (30_encoding.md R91). -/
theorem toNat_opcodeOf (w : Word) : (opcodeOf w).toNat = w.toNat / 2 ^ 26 := by
  rw [opcodeOf, BitVec.extractLsb'_toNat, Nat.shiftRight_eq_div_pow]
  omega

theorem opcodeOf_eq_iff {w v : Word} : opcodeOf w = opcodeOf v ↔ w.toNat / 2 ^ 26 = v.toNat / 2 ^ 26 := by
  rw [← BitVec.toNat_inj, toNat_opcodeOf, toNat_opcodeOf]

theorem takesData_iff : takesData w = true ↔ w.toNat / 2 ^ 26 = 1 := by
  rw [takesData, beq_iff_eq, ← BitVec.toNat_inj, toNat_opcodeOf]
  rfl

theorem takesData_eq_false_iff : takesData w = false ↔ w.toNat / 2 ^ 26 ≠ 1 := by
  rw [← Bool.not_eq_true, takesData_iff]

theorem decode_oneWord (h : takesData w = false) : decode (w :: rest) = decodedOf w 0 rest := by
  simp [decode, h]

theorem decode_twoWords (h : takesData w = true) : decode (w :: d :: rest) = decodedOf w d rest := by
  simp [decode, h]

theorem decode_noData (h : takesData w = true) : decode [w] = .incomplete := by
  simp [decode, h]

/-! ## Formats and the three checks -/

/-- The data word belongs to CSR_WR alone (30_encoding.md R99). -/
theorem formatOf_oneWord (h : takesData w = false) (d : Word) : formatOf w d = formatOf w 0 := by
  unfold formatOf
  split
  case h_1 ho =>
    rw [takesData_eq_false_iff, ← toNat_opcodeOf] at h
    exact absurd ho h
  all_goals rfl

theorem decodeWords_of_none (hf : formatOf w d = none) : decodeWords w d = .error .reservedOpcode := by
  rw [decodeWords, hf]

theorem decodeWords_of_reservedBit (hf : formatOf w d = some (n, i)) (hr : reservedClear n w = false) :
    decodeWords w d = .error .reservedBit := by
  simp [decodeWords, hf, hr]

/-- With the reserved bits clear, the operand ranges decide (30_encoding.md R100). -/
theorem decodeWords_of_clear (hf : formatOf w d = some (n, i)) (hr : reservedClear n w = true) :
    decodeWords w d = if i.wellFormed then .ok i else .error .operandRange := by
  cases hw : i.wellFormed <;> simp [decodeWords, hf, hr, hw]

/-- A command passes all three checks of 30_encoding.md R100. -/
theorem decodeWords_eq_ok (h : decodeWords w d = .ok i) :
    ∃ n, formatOf w d = some (n, i) ∧ reservedClear n w = true ∧ i.WellFormed := by
  cases hf : formatOf w d with
  | none => rw [decodeWords_of_none hf] at h; cases h
  | some f =>
    obtain ⟨n, j⟩ := f
    cases hr : reservedClear n w with
    | false => rw [decodeWords_of_reservedBit hf hr] at h; cases h
    | true =>
      rw [decodeWords_of_clear hf hr] at h
      split at h <;> cases h
      exact ⟨n, rfl, hr, ‹_›⟩

/-- The reserved opcodes (30_encoding.md R95). -/
abbrev ReservedOpcode (op : Nat) : Prop :=
  op = 0 ∨ (0x05 ≤ op ∧ op ≤ 0x07) ∨ (0x0C ≤ op ∧ op ≤ 0x0F) ∨ (0x14 ≤ op ∧ op ≤ 0x17) ∨
    (0x1B ≤ op ∧ op ≤ 0x1F) ∨ 0x24 ≤ op

/-- A reserved opcode has no format (30_encoding.md R95). -/
theorem formatOf_reserved (h : ReservedOpcode (opcodeOf w).toNat) (d : Word) : formatOf w d = none := by
  unfold formatOf
  split
  case h_20 => rfl
  all_goals omega

theorem takesData_reserved (h : ReservedOpcode (opcodeOf w).toNat) : takesData w = false := by
  rw [takesData_eq_false_iff, ← toNat_opcodeOf]
  omega

/-! ## The words a command takes -/

/-- The words of a command: its command word and, for the opcode of CSR_WR, its data word (30_encoding.md R99). -/
def commandWords (w d : Word) : List Word := if takesData w then [w, d] else [w]

/-- The decoder takes the words of one command and applies the three checks to them. -/
theorem decode_commandWords (w d : Word) (rest : List Word) :
    decode (commandWords w d ++ rest) = decodedOf w d rest := by
  unfold commandWords
  cases h : takesData w with
  | true => exact decode_twoWords h
  | false =>
    show decode (w :: rest) = decodedOf w d rest
    rw [decode_oneWord h, decodedOf, decodedOf, decodeWords, decodeWords, formatOf_oneWord h d]

/-- With two words delivered the decoder checks the first, with the second as its data word if it has one. -/
theorem decode_cons_cons (w d : Word) (rest : List Word) :
    ∃ tail, decode (w :: d :: rest) = decodedOf w d tail := by
  cases h : takesData w with
  | true => exact ⟨rest, decode_twoWords h⟩
  | false =>
    have hs : w :: d :: rest = commandWords w d ++ d :: rest := by simp [commandWords, h]
    exact ⟨d :: rest, by rw [hs, decode_commandWords]⟩

theorem commandWords_head {v : Word} (h : w :: ws = commandWords v d ++ rest) : w = v := by
  unfold commandWords at h
  split at h <;> exact (List.cons.inj h).1

/-- Where the decoder finds a command, the stream begins with that command's words. -/
theorem decode_eq_instr (h : decode ws = .instr i rest) :
    ∃ w d, ws = commandWords w d ++ rest ∧ decodeWords w d = .ok i := by
  obtain ⟨w, d, tail, rfl⟩ : ∃ w d tail, ws = commandWords w d ++ tail := by
    match ws, h with
    | [w], h =>
      cases hw : takesData w with
      | true => rw [decode_noData hw] at h; cases h
      | false => exact ⟨w, 0, [], by simp [commandWords, hw]⟩
    | w :: d :: tail, _ =>
      cases hw : takesData w with
      | true => exact ⟨w, d, tail, by simp [commandWords, hw]⟩
      | false => exact ⟨w, 0, d :: tail, by simp [commandWords, hw]⟩
  rw [decode_commandWords, decodedOf] at h
  split at h
  · cases h
    exact ⟨w, d, rfl, ‹_›⟩
  · cases h

/-! ## The encoder and the formats -/

/-- A flag is the word's lowest bit. -/
theorem ofBool_getLsbD_zero (w : Word) : BitVec.ofBool (w.getLsbD 0) = w.extractLsb' 0 1 := by
  ext i hi
  obtain rfl : i = 0 := by omega
  simp

/-- The operand field of PASS_SP and PASS_MR: `raw` above `p` (30_encoding.md R92). -/
theorem ofBool_append_extract (w : Word) :
    BitVec.ofBool (w.getLsbD 5) ++ w.extractLsb' 0 5 = w.extractLsb' 0 6 := by
  ext i hi
  rw [BitVec.getElem_append]
  split
  · simp
  · obtain rfl : i = 5 := by omega
    simp

/-- An operand field of no bits is 0. -/
theorem setWidth_noOperand (v : BitVec 0) : v.setWidth 26 = 0#26 := by
  rw [BitVec.eq_nil v]
  rfl

/-- The words of a command from its opcode and operand part, where the reserved bits are clear. -/
theorem words_of_clear {o : Nat} {x : BitVec 26} (ho : (opcodeOf w).toNat = o) (hr : reservedClear n w = true)
    (hx : x = (w.extractLsb' 0 n).setWidth 26) :
    (if o = 1 then [headWord (BitVec.ofNat 6 o) x, d] else [headWord (BitVec.ofNat 6 o) x]) = commandWords w d := by
  have hw : headWord (BitVec.ofNat 6 o) x = w := by
    rw [hx, ← operands_of_reservedClear hr, ← ho, BitVec.ofNat_toNat, BitVec.setWidth_eq, headWord_opcodeOf]
  have ht : takesData w = decide (o = 1) := by
    rw [Bool.eq_iff_iff, takesData_iff, ← toNat_opcodeOf, ho, decide_eq_true_iff]
  simp only [commandWords, hw, ht, decide_eq_true_iff]

/-- The words of a command in its format, with the reserved bits clear, are its encoding (30_encoding.md R92, R94). -/
theorem encode_of_format (hf : formatOf w d = some (n, i)) (hr : reservedClear n w = true) :
    encode i = commandWords w d := by
  unfold formatOf at hf
  split at hf <;> cases hf
  case h_1 ho | h_2 ho | h_7 ho | h_14 ho | h_18 ho => exact words_of_clear ho hr rfl
  case h_4 ho | h_5 ho => exact words_of_clear ho hr (congrArg _ (ofBool_getLsbD_zero w))
  case h_16 ho | h_17 ho => exact words_of_clear ho hr (congrArg _ (ofBool_append_extract w))
  all_goals exact words_of_clear ‹(opcodeOf w).toNat = _› hr (setWidth_noOperand _).symm

@[simp] theorem extract_operand {n : Nat} (o : BitVec 6) (v : BitVec n) (h : n ≤ 26) :
    (headWord o (v.setWidth 26)).extractLsb' 0 n = v := by
  rw [extract_headWord o _ h, BitVec.setWidth_setWidth_of_le v h, BitVec.setWidth_eq]

@[simp] theorem getElem_flagWord (o : BitVec 6) (b : Bool) : (headWord o ((BitVec.ofBool b).setWidth 26))[0] = b := by
  rw [← BitVec.getLsbD_eq_getElem, getLsbD_headWord]
  simp

@[simp] theorem extract_passWord (o : BitVec 6) (p : BitVec 5) (raw : Bool) :
    (headWord o ((BitVec.ofBool raw ++ p).setWidth 26)).extractLsb' 0 5 = p := by
  have h := extract_headWord o ((BitVec.ofBool raw ++ p).setWidth 26) (k := 5) (by decide)
  rw [h, BitVec.setWidth_setWidth_of_le _ (by decide), BitVec.setWidth_append_eq_right]

@[simp] theorem getElem_passWord (o : BitVec 6) (p : BitVec 5) (raw : Bool) :
    (headWord o ((BitVec.ofBool raw ++ p).setWidth 26))[5] = raw := by
  rw [← BitVec.getLsbD_eq_getElem, getLsbD_headWord, if_pos (by decide), BitVec.getLsbD_setWidth, BitVec.getLsbD_append]
  simp

/-- Every command is the format of its opcode, read from its operand field (30_encoding.md R92 to R94). -/
theorem formatOf_operand (i : Instr) :
    ∃ (o : BitVec 6) (n : Nat) (v : BitVec n) (d : Word), formatOf (headWord o (v.setWidth 26)) d = some (n, i) := by
  cases i with
  | csrWr csr data => exact ⟨0x01, _, csr, data, by simp [formatOf, opcodeOf_headWord]⟩
  | csrRd csr => exact ⟨0x02, _, csr, 0, by simp [formatOf, opcodeOf_headWord]⟩
  | blkStart => exact ⟨0x03, _, 0#0, 0, by simp [formatOf, opcodeOf_headWord]⟩
  | blkSegment last => exact ⟨0x04, _, BitVec.ofBool last, 0, by simp [formatOf, opcodeOf_headWord]⟩
  | brBind mode => exact ⟨0x08, _, BitVec.ofBool mode, 0, by simp [formatOf, opcodeOf_headWord]⟩
  | brReadbit => exact ⟨0x09, _, 0#0, 0, by simp [formatOf, opcodeOf_headWord]⟩
  | brReadbits n => exact ⟨0x0A, _, n, 0, by simp [formatOf, opcodeOf_headWord]⟩
  | brFinish => exact ⟨0x0B, _, 0#0, 0, by simp [formatOf, opcodeOf_headWord]⟩
  | mqInit => exact ⟨0x10, _, 0#0, 0, by simp [formatOf, opcodeOf_headWord]⟩
  | mqDecode => exact ⟨0x11, _, 0#0, 0, by simp [formatOf, opcodeOf_headWord]⟩
  | mqDecodeRaw => exact ⟨0x12, _, 0#0, 0, by simp [formatOf, opcodeOf_headWord]⟩
  | mqPterm => exact ⟨0x13, _, 0#0, 0, by simp [formatOf, opcodeOf_headWord]⟩
  | cxReset => exact ⟨0x18, _, 0#0, 0, by simp [formatOf, opcodeOf_headWord]⟩
  | cxSelect k => exact ⟨0x19, _, k, 0, by simp [formatOf, opcodeOf_headWord]⟩
  | cxRead => exact ⟨0x1A, _, 0#0, 0, by simp [formatOf, opcodeOf_headWord]⟩
  | passSp p raw => exact ⟨0x20, _, BitVec.ofBool raw ++ p, 0, by simp [formatOf, opcodeOf_headWord]⟩
  | passMr p raw => exact ⟨0x21, _, BitVec.ofBool raw ++ p, 0, by simp [formatOf, opcodeOf_headWord]⟩
  | passCu p => exact ⟨0x22, _, p, 0, by simp [formatOf, opcodeOf_headWord]⟩
  | nextPass => exact ⟨0x23, _, 0#0, 0, by simp [formatOf, opcodeOf_headWord]⟩

/-- Every command has a word of its format, with the reserved bits clear, as its encoding (30_encoding.md R92, R94). -/
theorem encode_format (i : Instr) :
    ∃ w d n, encode i = commandWords w d ∧ formatOf w d = some (n, i) ∧ reservedClear n w = true := by
  obtain ⟨o, n, v, d, hf⟩ := formatOf_operand i
  have hr := reservedClear_operand o v le_rfl
  exact ⟨_, d, n, encode_of_format hf hr, hf, hr⟩

/-- The decoder on a command's own words: the command, or IllegalCommand for an operand out of range. -/
theorem decode_encode (i : Instr) (rest : List Word) :
    decode (encode i ++ rest) = if i.wellFormed then .instr i rest else .illegal .operandRange rest := by
  obtain ⟨w, d, n, he, hf, hr⟩ := encode_format i
  rw [he, decode_commandWords, decodedOf, decodeWords_of_clear hf hr]
  cases i.wellFormed <;> rfl

/-! ## The match and mask table -/

/-- The row of a command with `n` operand bits: the opcode's bits, and every bit but the operand bits
(30_encoding.md R94). -/
def formatRow (mnemonic : String) (o : BitVec 6) (n : Nat) : OpcodeRow :=
  ⟨mnemonic, headWord o 0, headWord (BitVec.allOnes 6) (BitVec.allOnes 26 <<< n)⟩

theorem headWord_inj {o p : BitVec 6} {x y : BitVec 26} : headWord o x = headWord p y ↔ o = p ∧ x = y := by
  constructor
  · intro h
    exact ⟨by rw [← opcodeOf_headWord o x, h, opcodeOf_headWord], by rw [← setWidth_headWord o x, h, setWidth_headWord]⟩
  · rintro ⟨rfl, rfl⟩
    rfl

theorem headWord_and (o p : BitVec 6) (x y : BitVec 26) :
    headWord o x &&& headWord p y = headWord (o &&& p) (x &&& y) := by
  ext i hi
  simp only [← BitVec.getLsbD_eq_getElem, BitVec.getLsbD_and, getLsbD_headWord]
  split <;> rfl

/-- The mask of the bits from `n` on finds nothing exactly when a shift by `n` leaves nothing. -/
theorem and_shiftLeft_allOnes_eq_zero_iff (x : BitVec 26) (n : Nat) :
    x &&& (BitVec.allOnes 26 <<< n) = 0#26 ↔ x >>> n = 0#26 := by
  rw [← BitVec.shiftLeft_ushiftRight]
  constructor
  · intro h
    have hlt : x.toNat / 2 ^ n * 2 ^ n < 2 ^ 26 := (Nat.div_mul_le_self _ _).trans_lt x.isLt
    have hb := congrArg BitVec.toNat h
    rw [BitVec.toNat_shiftLeft, BitVec.toNat_ushiftRight, Nat.shiftLeft_eq, Nat.shiftRight_eq_div_pow,
      Nat.mod_eq_of_lt hlt] at hb
    refine BitVec.eq_of_toNat_eq ?_
    rw [BitVec.toNat_ushiftRight, Nat.shiftRight_eq_div_pow]
    simpa using hb
  · intro h
    rw [h, BitVec.zero_shiftLeft]

/-- A row covers the words of its opcode with the reserved bits of its format clear (30_encoding.md R92, R94). -/
theorem formatRow_covers (m : String) (o : BitVec 6) (n : Nat) (w : Word) :
    (formatRow m o n).covers w = true ↔ opcodeOf w = o ∧ reservedClear n w = true := by
  have hw : w &&& (formatRow m o n).mask = headWord (opcodeOf w) (w.setWidth 26 &&& (BitVec.allOnes 26 <<< n)) := by
    have h := headWord_and (opcodeOf w) (BitVec.allOnes 6) (w.setWidth 26) (BitVec.allOnes 26 <<< n)
    rwa [headWord_opcodeOf, BitVec.and_allOnes] at h
  rw [OpcodeRow.covers, beq_iff_eq, hw, formatRow, headWord_inj, reservedClear, beq_iff_eq]
  exact and_congr_right fun _ => and_shiftLeft_allOnes_eq_zero_iff _ n

/-- The format of a word without its operands: the number of operand bits and the mnemonic. -/
def formatName (w d : Word) : Option (Nat × String) := (formatOf w d).map fun f => (f.1, f.2.mnemonic)

/-- The format depends on the opcode alone (30_encoding.md R91). -/
theorem formatName_congr {w v : Word} (h : opcodeOf w = opcodeOf v) (d e : Word) : formatName w d = formatName v e := by
  unfold formatName formatOf
  rw [h]
  split <;> rfl

/-- Every row of the table is that of its opcode's format. -/
theorem opcodeTable_formats : ∀ r ∈ opcodeTable, ∃ n ≤ 7, formatName r.pattern 0 = some (n, r.mnemonic) ∧
    r = formatRow r.mnemonic (opcodeOf r.pattern) n := by decide

/-- Every opcode with a format has a row in the table. -/
theorem opcodeTable_complete : ∀ o : BitVec 6, (formatName (headWord o 0) 0).isSome = true →
    ∃ r ∈ opcodeTable, opcodeOf r.pattern = o := by decide

/-- A row covers words of its opcode alone. -/
theorem opcodeOf_of_covers {r : OpcodeRow} (hr : r ∈ opcodeTable) (hc : r.covers w = true) :
    opcodeOf w = opcodeOf r.pattern := by
  obtain ⟨n, -, -, hrow⟩ := opcodeTable_formats r hr
  rw [hrow] at hc
  exact ((formatRow_covers ..).1 hc).1

/-- No two rows of the table have one opcode. -/
theorem row_eq_of_opcode : ∀ r ∈ opcodeTable, ∀ r' ∈ opcodeTable, opcodeOf r.pattern = opcodeOf r'.pattern → r = r' := by
  decide

/-- CSR_WR is the row of the commands with a data word. -/
theorem mnemonic_eq_csrWr_iff : ∀ r ∈ opcodeTable, r.mnemonic = "CSR_WR" ↔ takesData r.pattern = true := by
  decide

/-- A word with the opcode of a row has that row's format. -/
theorem formatOf_of_row {r : OpcodeRow} (hr : r ∈ opcodeTable) (ho : opcodeOf w = opcodeOf r.pattern) (d : Word) :
    ∃ n i, formatOf w d = some (n, i) ∧ r = formatRow i.mnemonic (opcodeOf w) n := by
  obtain ⟨n, -, hn, hrow⟩ := opcodeTable_formats r hr
  rw [formatName_congr ho.symm 0 d, formatName, Option.map_eq_some_iff] at hn
  obtain ⟨⟨m, i⟩, hf, hni⟩ := hn
  obtain ⟨rfl, hname⟩ := Prod.mk.injEq .. ▸ hni
  exact ⟨m, i, hf, by rw [ho, hname, ← hrow]⟩

/-- The format of a word is a row of the table (30_encoding.md R94). -/
theorem formatRow_mem_opcodeTable (hf : formatOf w d = some (n, i)) :
    formatRow i.mnemonic (opcodeOf w) n ∈ opcodeTable := by
  have hs : (formatName (headWord (opcodeOf w) 0) 0).isSome = true := by
    rw [formatName_congr (opcodeOf_headWord (opcodeOf w) 0) 0 d, formatName, hf]
    rfl
  obtain ⟨r, hr, ho⟩ := opcodeTable_complete _ hs
  obtain ⟨m, j, hf', hrow⟩ := formatOf_of_row hr ho.symm d
  rw [hf] at hf'
  cases hf'
  rwa [← hrow]

end Sys2Proof
end

section
/-! PROOFS. Encoding: the round trip both ways, the match and mask table, the illegal words, and the words a step takes. -/

namespace Sys2Proof.Machine

variable {s : State} {w d : Word} {rest : List Word}

/-! ## Every command has a next state -/

/-- Every command ends in a next state, because its prologue does (60_exceptions.md R340, R343). -/
theorem exec_next (i : Instr) (s : State) : ∃ t, exec i s = .next t := by
  cases i
  all_goals
    simp only [exec, execCsrWr, execCsrRd, execBlkStart, execBlkSegment, execBrBind, execBrReadbit, execBrReadbits,
      execBrFinish, execMqInit, execMqDecode, execMqDecodeRaw, execMqPterm, execCxReset, execCxSelect, execCxRead,
      execPassSp, execPassMr, execPassCu, execNextPass]
    exact runCommand_next ..

/-- No command takes a delivered word (10_state.md R23). -/
theorem exec_hostq {i : Instr} {t : State} (h : exec i s = .next t) : t.hostq = s.hostq := by
  obtain ⟨-, -, hq, -⟩ := controlStateWriters i s t h
  exact hq

/-! ## A step on the delivered words -/

/-- A step on an illegal command takes its words and raises IllegalCommand (30_encoding.md R95 to R97). -/
theorem step_illegal {why : IllegalWord} (h : decode s.hostq = .illegal why rest) :
    ∃ t, step s = .next t ∧ (s.setHostq rest).Raises t 5 := by
  refine ⟨(s.taken rest).illegalWord, ?_, State.raises_latch (s.setHostq rest) .illegalCommand⟩
  rw [step, State.fetch, h]

/-- A step on a whole command, legal or not, leaves the words behind it (30_encoding.md R99). -/
theorem step_takes (h : decode s.hostq = decodedOf w d rest) : ∃ t, step s = .next t ∧ t.hostq = rest := by
  unfold decodedOf at h
  split at h
  case h_1 i _ =>
    obtain ⟨t, ht⟩ := exec_next i (s.setHostq rest)
    exact ⟨t, (stepRunsTheDecodedCommand s i rest h).trans ht, exec_hostq ht⟩
  case h_2 =>
    obtain ⟨t, ht, hraises, -⟩ := step_illegal h
    exact ⟨t, ht, by rw [hraises]; rfl⟩

/-- The command word of a CSR_WR to a writable CSR, from its number (30_encoding.md R92). -/
theorem csrWrWord (ho : w.toNat / 2 ^ 26 = 1) (hlt : w.toNat % 2 ^ 26 < 5) :
    headWord 0x01 ((BitVec.ofNat 4 (w.toNat % 2 ^ 26)).setWidth 26) = w := by
  refine Eq.trans ?_ (headWord_opcodeOf w)
  rw [headWord_inj]
  constructor
  · exact BitVec.eq_of_toNat_eq (by rw [toNat_opcodeOf, ho]; rfl)
  · refine BitVec.eq_of_toNat_eq ?_
    simp only [BitVec.toNat_setWidth, BitVec.toNat_ofNat]
    omega

/-! ## The statements -/

/-- Settles O1: a command's words decode in its format, and a well-formed one passes the range check. -/
theorem decodeEncodeAgree : Obligations.DecodeEncodeAgree := by
  unfold Obligations.DecodeEncodeAgree
  intro i rest h
  rw [decode_encode, if_pos h]

/-- Settles O2: the words that passed the reserved-bit check are the encoding of their format's command. -/
theorem encodeDecodeAgree : Obligations.EncodeDecodeAgree := by
  unfold Obligations.EncodeDecodeAgree
  intro ws rest i h
  obtain ⟨w, d, rfl, hok⟩ := decode_eq_instr h
  obtain ⟨n, hf, hr, hwf⟩ := decodeWords_eq_ok hok
  exact ⟨hwf, by rw [encode_of_format hf hr]⟩

/-- Settles O3: the row of an opcode covers the words with the reserved bits of its format clear. -/
theorem commandIsItsTableRow : Obligations.CommandIsItsTableRow := by
  unfold Obligations.CommandIsItsTableRow
  refine ⟨fun w d rest r hr hc => ?_, fun w ws i tail h => ?_, fun w r hr r' hr' hc hc' => ?_⟩
  · obtain ⟨tail, htail⟩ := decode_cons_cons w d rest
    obtain ⟨n, i, hf, rfl⟩ := formatOf_of_row hr (opcodeOf_of_covers hr hc) d
    rw [htail, decodedOf, decodeWords_of_clear hf ((formatRow_covers ..).1 hc).2]
    cases i.wellFormed
    · exact .inr ⟨tail, rfl⟩
    · exact .inl ⟨i, tail, rfl, rfl⟩
  · obtain ⟨v, d, hws, hok⟩ := decode_eq_instr h
    obtain ⟨n, hf, hr, -⟩ := decodeWords_eq_ok hok
    obtain rfl := commandWords_head hws
    exact ⟨_, formatRow_mem_opcodeTable hf, (formatRow_covers ..).2 ⟨rfl, hr⟩, rfl⟩
  · exact row_eq_of_opcode r hr r' hr' ((opcodeOf_of_covers hr hc).symm.trans (opcodeOf_of_covers hr' hc'))

/-- Settles O5: a reserved opcode has no format, whatever the word's other bits. -/
theorem reservedOpcodesAreIllegal : Obligations.ReservedOpcodesAreIllegal := by
  unfold Obligations.ReservedOpcodesAreIllegal
  intro s w tail hq hop
  have hres : ReservedOpcode (opcodeOf w).toNat := by rw [toNat_opcodeOf]; exact hop
  refine step_illegal (why := .reservedOpcode) ?_
  rw [hq, decode_oneWord (takesData_reserved hres), decodedOf, decodeWords_of_none (formatOf_reserved hres 0)]

/-- Settles O6: the row of a listed opcode covers the words with the reserved bits clear, and no others. -/
theorem reservedBitsAreIllegal : Obligations.ReservedBitsAreIllegal := by
  unfold Obligations.ReservedBitsAreIllegal
  intro s w tail r hr hq ho hmask
  rw [← opcodeOf_eq_iff] at ho
  have hbit (d : Word) : decodeWords w d = .error .reservedBit := by
    obtain ⟨n, i, hf, rfl⟩ := formatOf_of_row hr ho d
    refine decodeWords_of_reservedBit hf (Bool.eq_false_iff.2 fun hclear => hmask ?_)
    exact beq_iff_eq.1 ((formatRow_covers ..).2 ⟨rfl, hclear⟩)
  have hdata : r.mnemonic = "CSR_WR" ↔ takesData w = true := by
    rw [mnemonic_eq_csrWr_iff r hr, takesData, takesData, ho]
  refine ⟨fun hm => ?_, fun hm d rest htail => ?_⟩
  · refine step_illegal (why := .reservedBit) ?_
    rw [hq, decode_oneWord (Bool.eq_false_iff.2 (hm ∘ hdata.2)), decodedOf, hbit]
  · refine step_illegal (why := .reservedBit) ?_
    rw [hq, htail, decode_twoWords (hdata.1 hm), decodedOf, hbit]

/-- Settles O7: an operand out of range passes the other checks and not its own. -/
theorem operandsOutOfRangeAreIllegal : Obligations.OperandsOutOfRangeAreIllegal := by
  unfold Obligations.OperandsOutOfRangeAreIllegal
  intro s i rest hq hi
  have hwf : i.wellFormed = false := by
    rcases hi with ⟨k, hk, rfl⟩ | ⟨n, hn, rfl⟩ | ⟨p, hp, ⟨raw, rfl | rfl⟩ | rfl⟩ | ⟨c, hc, rfl | ⟨d, rfl⟩⟩ |
      ⟨c, d, hc, -, rfl⟩
    · exact decide_eq_false (Nat.not_lt.2 hk)
    · exact decide_eq_false (Nat.not_le.2 hn)
    · exact decide_eq_false (Nat.not_le.2 hp)
    · exact decide_eq_false (Nat.not_le.2 hp)
    · exact decide_eq_false (Nat.not_le.2 hp)
    · exact decide_eq_false (Nat.not_lt.2 hc)
    · exact decide_eq_false (by omega)
    · exact decide_eq_false (Nat.not_lt.2 hc)
  refine step_illegal (why := .operandRange) ?_
  rw [hq, decode_encode, hwf]
  rfl

/-- Settles O8: a command's words are taken whatever becomes of it. -/
theorem wordsTakenByOpcode : Obligations.WordsTakenByOpcode := by
  unfold Obligations.WordsTakenByOpcode
  intro s w tail hq
  refine ⟨fun ho => ?_, fun ho d rest htail => ?_⟩
  · exact step_takes (w := w) (d := 0) (by rw [hq, decode_oneWord (takesData_eq_false_iff.2 ho)])
  · subst htail
    have hdec : decode s.hostq = decodedOf w d rest := by rw [hq, decode_twoWords (takesData_iff.2 ho)]
    refine ⟨step_takes hdec, fun hlt => ?_⟩
    have hwords : w :: d :: rest = encode (.csrWr (BitVec.ofNat 4 (w.toNat % 2 ^ 26)) d) ++ rest := by
      rw [encode, csrWrWord ho hlt]
      rfl
    rw [hq, hwords]
    refine decodeEncodeAgree _ rest (decide_eq_true ?_)
    rw [CsrWritable, BitVec.toNat_ofNat]
    omega

/-- Settles O4: the decoder computes each of the eleven words. -/
theorem listedWordsDecode : Obligations.ListedWordsDecode := by
  unfold Obligations.ListedWordsDecode
  decide

/-- Settles O10: no whole command is decoded, and the step is then the identity. -/
theorem engineWaitsForTheHost : Obligations.EngineWaitsForTheHost := by
  unfold Obligations.EngineWaitsForTheHost
  intro s hs
  have hdec : decode s.hostq = .incomplete := by
    rcases hs with hq | ⟨w, ho, hq⟩
    · rw [hq, decode]
    · rw [hq, decode_noData (takesData_iff.2 ho)]
  rw [step, State.fetch, hdec]

end Sys2Proof.Machine
end

section
/-! PROOFS. The bit reader: one bit and many, the bits of whole bytes, BR_FINISH, and the commands that lack the block or
the coder they need. -/

namespace Sys2Proof.Machine

variable {s t u : State}

/-! ## How a command ends -/

/-- A legal command whose own steps raise NotReady before they write anything (60_exceptions.md R341 code 9). -/
theorem runCommand_notReady {legal always : Bool} {body : State → Act Unit} (hl : legal = true) (hs : s.Safe)
    (hb : body s = .raised .notReady s) : ∃ t, runCommand legal always body s = .next t ∧ s.Raises t 9 :=
  ⟨s.latch .notReady, by rw [hl, runCommand_safe hs, hb, Act.outcome_raised], s.raises_latch .notReady⟩

/-- A pass command without a block or without its coder (44_coding_passes.md R250). -/
theorem passCommand_notReady {raw : Bool} {p : BitVec 5} {body : State → Act Bool}
    (h : ¬ (s.st.started = true ∧ s.coderReady raw)) : passCommand raw p body s = .raised .notReady s :=
  if_neg h

/-- The latch after pseudocode that kept the status flags and RES fails the command (60_exceptions.md R342, R344). -/
theorem State.fails_latch (hs : s.Safe) (hst : u.st = s.st) (hres : u.res = s.res) (e : Err) :
    s.Fails (u.latch e) e.code := by
  rw [u.latch_of_safe e (by rw [hst]; exact hs)]
  exact ⟨by rw [State.setFree_st, State.setSt_st, hst], hres⟩

/-- What the bit reader does not write holds the status flags, BOUND and RES. -/
theorem brRest_fields (h : t.brRest = s.brRest) : t.st = s.st ∧ t.bound = s.bound ∧ t.res = s.res := by
  simp only [State.brRest, State.coderRest, Prod.mk.injEq] at h
  obtain ⟨⟨-, -, -, -, -, hbound, hres, -, -, -, hst, -⟩, -⟩ := h
  exact ⟨hst, hbound, hres⟩

/-- PASS_SP and PASS_MR without a block or without their coder (44_coding_passes.md R250, R255). -/
theorem exec_pass_notReady {i : Instr} {p : BitVec 5} {raw : Bool} (hi : i = .passSp p raw ∨ i = .passMr p raw)
    (hwf : i.WellFormed) (hs : s.Safe) (h : ¬ (s.st.started = true ∧ s.coderReady raw)) :
    ∃ t, exec i s = .next t ∧ s.Raises t 9 := by
  rcases hi with rfl | rfl
  · exact runCommand_notReady hwf hs (passCommand_notReady h)
  · exact runCommand_notReady hwf hs (passCommand_notReady h)

theorem execPassCu_notReady {p : BitVec 5} (hp : PlaneLegal p) (hs : s.Safe)
    (h : ¬ (s.st.started = true ∧ s.coderReady false)) : ∃ t, execPassCu p s = .next t ∧ s.Raises t 9 :=
  runCommand_notReady (decide_eq_true hp) hs (passCommand_notReady h)

theorem execBrReadbit_notReady (hs : s.Safe) (hb : s.bound ≠ .br) :
    ∃ t, execBrReadbit s = .next t ∧ s.Raises t 9 :=
  runCommand_notReady rfl hs (if_neg hb)

theorem execBrReadbits_notReady {n : BitVec 7} (hn : CountLegal n) (hs : s.Safe) (hb : s.bound ≠ .br) :
    ∃ t, execBrReadbits n s = .next t ∧ s.Raises t 9 :=
  runCommand_notReady (decide_eq_true hn) hs (if_neg hb)

theorem execBrFinish_notReady (hs : s.Safe) (hb : s.bound ≠ .br) :
    ∃ t, execBrFinish s = .next t ∧ s.Raises t 9 :=
  runCommand_notReady rfl hs (if_neg hb)

theorem execMqDecodeRaw_notReady (hs : s.Safe) (hb : ¬ (s.bound = .br ∧ s.br.mode = true)) :
    ∃ t, execMqDecodeRaw s = .next t ∧ s.Raises t 9 :=
  runCommand_notReady rfl hs (if_neg hb)

theorem execMqDecode_notReady (hs : s.Safe) (hb : s.bound ≠ .mq) :
    ∃ t, execMqDecode s = .next t ∧ s.Raises t 9 :=
  runCommand_notReady rfl hs (if_neg hb)

theorem execMqPterm_notReady (hs : s.Safe) (hb : s.bound ≠ .mq) :
    ∃ t, execMqPterm s = .next t ∧ s.Raises t 9 :=
  runCommand_notReady rfl hs (if_neg hb)

theorem execNextPass_notReady (hs : s.Safe) (h : s.st.started ≠ true) :
    ∃ t, execNextPass s = .next t ∧ s.Raises t 9 :=
  runCommand_notReady rfl hs (if_neg h)

/-- Settles O15: each of these commands checks its block and its coder before it writes anything. -/
theorem missingBlockOrCoderIsNotReady : Obligations.MissingBlockOrCoderIsNotReady := by
  unfold Obligations.MissingBlockOrCoderIsNotReady
  intro s i hs hwf h
  rcases h with ⟨hb, rfl | rfl⟩ | ⟨hb, rfl | ⟨n, rfl⟩ | rfl⟩ | ⟨hb, rfl | ⟨p, hi⟩⟩ | ⟨hb, p, hi | hi | rfl⟩ |
    ⟨hn, hi⟩
  · exact execMqDecode_notReady hs hb
  · exact execMqPterm_notReady hs hb
  · exact execBrReadbit_notReady hs hb
  · exact execBrReadbits_notReady (of_decide_eq_true hwf) hs hb
  · exact execBrFinish_notReady hs hb
  · exact execMqDecodeRaw_notReady hs hb
  · exact exec_pass_notReady hi hwf hs fun hc => hb hc.2
  · exact exec_pass_notReady (.inl hi) hwf hs fun hc => hb hc.2
  · exact exec_pass_notReady (.inr hi) hwf hs fun hc => hb hc.2
  · exact execPassCu_notReady (of_decide_eq_true hwf) hs fun hc => hb hc.2
  · have hns : s.st.started ≠ true := Bool.eq_false_iff.1 hn
    rcases hi with rfl | ⟨last, rfl⟩ | ⟨p, raw, hi⟩ | ⟨p, rfl⟩
    · exact execNextPass_notReady hs hns
    · exact ⟨_, execBlkSegment_notStarted last hs hn, s.raises_latch .notReady⟩
    · exact exec_pass_notReady hi hwf hs fun hc => hns hc.1
    · exact execPassCu_notReady (of_decide_eq_true hwf) hs fun hc => hns hc.1

/-- Settles O24: BR_BIND is its three writes, and its mark is the model's own. -/
theorem brBindBindsTheSegment : Obligations.BrBindBindsTheSegment := by
  unfold Obligations.BrBindBindsTheSegment
  intro s mode hs
  refine ⟨{ s.free with br := false }, ?_⟩
  show execBrBind mode s = _
  rw [execBrBind, runCommand_safe hs]
  rfl

/-! ## One bit -/

theorem resOfBit_eq_bitResult (d : Bool) : resOfBit d = bitResult d := by cases d <;> rfl

theorem bitResult_inj {d e : Bool} (h : bitResult d = bitResult e) : d = e := by
  revert d e; decide

/-- After a load a bit read goes on from the loaded byte (41_bit_reader.md R127). -/
theorem readBit_of_load (h0 : s.br.bitsLeft = 0) (h : loadByte s = .done () t) : readBit s = readBit t := by
  have hs : refill s = .done () t := by rw [refill, if_pos h0, h]
  have ht : refill t = .done () t := by rw [refill, if_neg (refill_left hs)]
  rw [readBit, readBit, hs, ht]

/-- A load that raises ends the bit read (41_bit_reader.md R127). -/
theorem readBit_of_load_raised {e : Err} (h0 : s.br.bitsLeft = 0) (h : loadByte s = .raised e t) :
    readBit s = .raised e t := by
  rw [readBit, refill, if_pos h0, h, Act.bind_raised]

theorem toNat_bitsLeft_sub_one {b : BitVec 4} (h : b ≠ 0) : (b - 1).toNat = b.toNat - 1 := by
  revert b; decide

/-- The first bit of a loaded byte: bit 7, or bit 6 after a 0xFF (41_bit_reader.md R122, R127). -/
theorem readBit_loaded {b : Byte} {ff f : Bool}
    (ht : t.br = { s.br with bitsLeft := if ff then 7 else 8, lastFF := f, buf := b }) :
    readBit t = .done (b.getLsbD (if ff then 6 else 7))
      (t.setBr { s.br with buf := b, lastFF := f, bitsLeft := if ff then 6 else 7 }) := by
  have hl : t.br.bitsLeft ≠ 0 := by rw [ht]; cases ff <;> simp
  rw [readBit_of_left hl, ht]
  cases ff <;> simp

/-- A bit at a byte boundary, from a byte of CWMEM (41_bit_reader.md R121, R122). -/
theorem readBit_real {a : Nat} (h0 : s.br.bitsLeft = 0) (h : srcAddr s.src.ranges s.src.pos.toNat = some a)
    (ha : a < s.par.cwmemSize) (hff : ¬ (s.br.lastFF = true ∧ s.cwByte a = 0xFF)) :
    readBit s = .done ((s.cwByte a).getLsbD (if s.br.lastFF then 6 else 7))
      ((s.setSrc { s.src with pos := s.src.pos + 1 }).setBr
        { s.br with buf := s.cwByte a, lastFF := s.cwByte a == 0xFF, bitsLeft := if s.br.lastFF then 6 else 7 }) := by
  rw [readBit_of_load h0 (loadByte_real h ha hff)]
  exact readBit_loaded rfl

/-- A bit at a byte boundary, from a fill byte (41_bit_reader.md R125). -/
theorem readBit_fill (h0 : s.br.bitsLeft = 0) (h : srcAddr s.src.ranges s.src.pos.toNat = none)
    (hm : s.br.mode = true) :
    readBit s = .done true ((s.setSrc { s.src with filled := true }).setBr
      { s.br with buf := 0xFF, lastFF := true, bitsLeft := if s.br.lastFF then 6 else 7 }) := by
  rw [readBit_of_load h0 (loadByte_fill h (by simp [hm])), readBit_loaded rfl]
  cases s.br.lastFF <;> rfl

/-- A fetch that raises ends the bit read (20_memory.md R72, R75). -/
theorem readBit_of_fetch_raised {e : Err} (h0 : s.br.bitsLeft = 0) (h : fetchByte s = .raised e t) :
    readBit s = .raised e t :=
  readBit_of_load_raised h0 (by rw [loadByte, h, Act.bind_raised])

/-- BR_READBIT, and MQ_DECODE_RAW in codeword mode, return the bit that is read (42_mq_decoder.md R162). -/
theorem exec_bitRead {i : Instr} (hi : i = .brReadbit ∨ (i = .mqDecodeRaw ∧ s.br.mode = true)) (hs : s.Safe)
    (hb : s.bound = .br) :
    exec i s = ((readBit s).bind fun d t => .done () (t.setRes (bitResult d)) : Act Unit).outcome := by
  simp only [← resOfBit_eq_bitResult]
  rcases hi with rfl | ⟨rfl, hm⟩
  · show execBrReadbit s = _
    rw [execBrReadbit, runCommand_safe hs, if_pos hb]
  · show execMqDecodeRaw s = _
    rw [execMqDecodeRaw, runCommand_safe hs, if_pos ⟨hb, hm⟩]

/-- A bit read that raises fails the command (41_bit_reader.md R127). -/
theorem exec_bitRead_fails {i : Instr} {e : Err} (hi : i = .brReadbit ∨ (i = .mqDecodeRaw ∧ s.br.mode = true))
    (hs : s.Safe) (hb : s.bound = .br) (h : readBit s = .raised e u) : ∃ t, exec i s = .next t ∧ s.Fails t e.code := by
  have hrest := readBit_brRest s
  rw [h] at hrest
  obtain ⟨hst, -, hres⟩ := brRest_fields hrest
  exact ⟨u.latch e, by rw [exec_bitRead hi hs hb, h, Act.bind_raised, Act.outcome_raised], State.fails_latch hs hst hres e⟩

/-- Settles O25: a bit read is that of the byte being read, of a loaded byte, of a fill byte, or the load's error. -/
theorem readBitReturnsTheNextBit : Obligations.ReadBitReturnsTheNextBit := by
  unfold Obligations.ReadBitReturnsTheNextBit
  refine ⟨fun s hs hb => execBrReadbit_notReady hs hb, fun s hs hb => execMqDecodeRaw_notReady hs hb,
    fun s i hi hs hb => ⟨fun hl => ?_, fun a h0 h ha hff => ?_, fun h0 h hm => ?_, fun a h0 h ha hl hff => ?_,
      fun a h0 h ha => ?_, fun h0 h hm => ?_⟩⟩
  · rw [exec_bitRead hi hs hb, readBit_of_left hl, toNat_bitsLeft_sub_one hl]
    rfl
  · rw [exec_bitRead hi hs hb, readBit_real h0 h ha hff]
    rfl
  · rw [exec_bitRead hi hs hb, readBit_fill h0 (srcAddr_eq_none_iff.2 h) hm]
    rfl
  · exact exec_bitRead_fails hi hs hb (readBit_of_load_raised h0 (loadByte_corrupt h ha ⟨hl, hff⟩))
  · exact exec_bitRead_fails hi hs hb (readBit_of_fetch_raised h0 (fetchByte_outside h (Nat.not_lt.2 ha)))
  · exact exec_bitRead_fails hi hs hb
      (readBit_of_fetch_raised h0 (fetchByte_header (srcAddr_eq_none_iff.2 h) hb hm))

/-! ## RES is nothing to the bit reader -/

/-- The same pseudocode, from a state with another RES. -/
def Act.withRes {α : Type} (m : Act α) (r : Res) : Act α :=
  match m with
  | .done a s => .done a (s.setRes r)
  | .raised e s => .raised e (s.setRes r)

/-- A sequence whose parts do not look at RES does not look at it. -/
theorem Act.bind_withRes {α β : Type} {m m' : Act α} {f : α → State → Act β} (r : Res) (hm : m' = m.withRes r)
    (hf : ∀ a s, f a (s.setRes r) = (f a s).withRes r) : m'.bind f = (m.bind f).withRes r := by
  subst hm
  cases m with
  | done a s => exact hf a s
  | raised e s => rfl

theorem fetchByte_setRes (s : State) (r : Res) : fetchByte (s.setRes r) = (fetchByte s).withRes r := by
  unfold fetchByte memRead
  rw [State.setRes_src, State.setRes_par, State.setRes_bound, State.setRes_br]
  split
  · split <;> rfl
  · split <;> rfl

theorem loadByte_setRes (s : State) (r : Res) : loadByte (s.setRes r) = (loadByte s).withRes r := by
  refine Act.bind_withRes r (fetchByte_setRes s r) fun bf t => ?_
  rw [State.setRes_br]
  split <;> rfl

theorem readBit_setRes (s : State) (r : Res) : readBit (s.setRes r) = (readBit s).withRes r := by
  refine Act.bind_withRes r ?_ fun _ _ => rfl
  rw [refill, refill, State.setRes_br]
  split
  · exact loadByte_setRes s r
  · rfl

theorem readBits_setRes (n : Nat) (v : Res) (s : State) (r : Res) :
    readBits n v (s.setRes r) = (readBits n v s).withRes r := by
  induction n generalizing v s with
  | zero => rfl
  | succ n ih => exact Act.bind_withRes r (readBit_setRes s r) fun _ t => ih _ t

/-! ## Many bits -/

/-- One more bit below those read so far (41_bit_reader.md R128). -/
theorem shiftIn_bit (k : Nat) (d : Bool) :
    (BitVec.ofNat 64 k <<< 1) ||| resOfBit d = BitVec.ofNat 64 (2 * k + d.toNat) := by
  have hd : resOfBit d = BitVec.ofNat 64 d.toNat := by cases d <;> rfl
  rw [hd]
  have h0 : (BitVec.ofNat 64 k <<< 1) &&& BitVec.ofNat 64 d.toNat = 0 := by
    ext i hi
    cases i <;> cases d <;> simp
  have hk : BitVec.ofNat 64 k <<< 1 = BitVec.ofNat 64 (2 * k) := by
    rw [BitVec.shiftLeft_eq_mul_twoPow, Nat.mul_comm, BitVec.ofNat_mul]
    rfl
  rw [← BitVec.add_eq_or_of_and_eq_zero _ _ h0, hk, BitVec.ofNat_add]

/-- BR_READBITS with the reader bound, once its `n` reads are known (41_bit_reader.md R128). -/
theorem exec_brReadbits {n : BitVec 7} (hn : CountLegal n) (hs : s.Safe) (hb : s.bound = .br) :
    exec (.brReadbits n) s = ((readBits n.toNat 0 s).bind fun v t => .done () (t.setRes v) : Act Unit).outcome := by
  show execBrReadbits n s = _
  rw [execBrReadbits, decide_eq_true hn, runCommand_safe hs, if_pos hb]

theorem exec_brReadbits_done {n : BitVec 7} {w : Res} (hn : CountLegal n) (hs : s.Safe) (hb : s.bound = .br)
    (h : readBits n.toNat 0 s = .done w t) : exec (.brReadbits n) s = .next (t.setRes w) := by
  rw [exec_brReadbits hn hs hb, h]
  rfl

/-- A bit read that completes leaves no error and the reader bound. -/
theorem readBit_done_ready {d : Bool} (hs : s.Safe) (hb : s.bound = .br) (h : readBit s = .done d t) :
    t.Safe ∧ t.bound = .br := by
  have hrest := readBit_brRest s
  rw [h] at hrest
  obtain ⟨hst, hbound, -⟩ := brRest_fields hrest
  exact ⟨(congrArg (·.error) hst).trans hs, hbound.trans hb⟩

/-- The first of a row of BR_READBITs, by the bit read behind it (41_bit_reader.md R127). -/
theorem readsBits_succ_iff {n : Nat} {ds : List Bool} (hs : s.Safe) (hb : s.bound = .br) :
    ReadsBits (n + 1) s ds u ↔ ∃ d t rest, readBit s = .done d t ∧ ds = d :: rest ∧
      ReadsBits n (t.setRes (bitResult d)) rest u := by
  have hexec := exec_bitRead (s := s) (.inl rfl) hs hb
  constructor
  · rintro ⟨t, d, rest, hx, ht, hres, hds, hrest⟩
    rw [hexec] at hx
    cases hr : readBit s with
    | raised e v =>
      rw [hr] at hx
      cases hx
      simp [State.Safe] at ht
    | done d' v =>
      rw [hr] at hx
      cases hx
      obtain rfl := bitResult_inj hres
      exact ⟨d', v, rest, rfl, hds, hrest⟩
  · rintro ⟨d, t, rest, hr, hds, hrest⟩
    obtain ⟨ht, -⟩ := readBit_done_ready hs hb hr
    exact ⟨t.setRes (bitResult d), d, rest, by rw [hexec, hr]; rfl, ht, rfl, hds, hrest⟩

/-- `n` BR_READBITs in a row are the loop of BR_READBITS, RES apart: the bits they return are those it shifts in, below
the bits of `k` (41_bit_reader.md R128). -/
theorem readBits_of_readsBits {n : Nat} {ds : List Bool} (k : Nat) (r : Res) (hs : s.Safe) (hb : s.bound = .br)
    (h : ReadsBits n s ds u) :
    readBits n (BitVec.ofNat 64 k) (s.setRes r) =
      .done (BitVec.ofNat 64 (ds.foldl (fun v d => 2 * v + d.toNat) k)) (u.setRes r) := by
  induction n generalizing s ds k with
  | zero => obtain ⟨rfl, rfl⟩ := h; rfl
  | succ n ih =>
    obtain ⟨d, t, rest, hr, rfl, hrest⟩ := (readsBits_succ_iff hs hb).1 h
    obtain ⟨ht, htb⟩ := readBit_done_ready hs hb hr
    rw [readBits, readBit_setRes, hr]
    refine Eq.trans ?_ (ih (2 * k + d.toNat) (s := t.setRes (bitResult d)) ht htb hrest)
    rw [← shiftIn_bit]
    rfl

/-- If the loop of BR_READBITS completes, as many BR_READBITs in a row do. -/
theorem readsBits_of_readBits {n : Nat} {v w : Res} (hs : s.Safe) (hb : s.bound = .br)
    (h : readBits n v s = .done w t) : ∃ ds u, ReadsBits n s ds u := by
  induction n generalizing s v t with
  | zero => exact ⟨[], s, rfl, rfl⟩
  | succ n ih =>
    obtain ⟨d, u, hr, h⟩ := Act.bind_eq_done.1 h
    obtain ⟨hus, hub⟩ := readBit_done_ready hs hb hr
    obtain ⟨ds, x, hx⟩ := ih (s := u.setRes (bitResult d)) hus hub (by rw [readBits_setRes, h]; rfl)
    exact ⟨d :: ds, x, (readsBits_succ_iff hs hb).2 ⟨d, u, ds, hr, rfl, hx⟩⟩

/-- BR_READBITS after `n` BR_READBITs in a row that complete (41_bit_reader.md R128). -/
theorem exec_brReadbits_of_readsBits {n : BitVec 7} {ds : List Bool} (hn : CountLegal n) (hs : s.Safe)
    (hb : s.bound = .br) (h : ReadsBits n.toNat s ds u) :
    exec (.brReadbits n) s = .next (u.setRes (BitVec.ofNat 64 (bitsValue ds))) := by
  have hr : readBits n.toNat 0 s = .done (BitVec.ofNat 64 (bitsValue ds)) (u.setRes s.res) :=
    readBits_of_readsBits 0 s.res hs hb h
  rw [exec_brReadbits_done hn hs hb hr]
  rfl

/-- Where the loop of BR_READBITS completes, its bits are those of as many BR_READBITs in a row. -/
theorem readsBits_of_readBits_done {n : Nat} {w : Res} (hs : s.Safe) (hb : s.bound = .br)
    (h : readBits n 0 s = .done w t) :
    ∃ ds u, ReadsBits n s ds u ∧ t.setRes w = u.setRes (BitVec.ofNat 64 (bitsValue ds)) ∧ t.Safe := by
  have hrest := readBits_brRest n 0 s
  obtain ⟨ds, u, hu⟩ := readsBits_of_readBits hs hb h
  have hr : readBits n 0 s = .done (BitVec.ofNat 64 (bitsValue ds)) (u.setRes s.res) :=
    readBits_of_readsBits 0 s.res hs hb hu
  rw [h] at hr hrest
  obtain ⟨hst, -, -⟩ := brRest_fields hrest
  cases hr
  exact ⟨ds, u, hu, rfl, (congrArg (·.error) hst).trans hs⟩

/-- A BR_READBITS that raises leaves RES as it is (41_bit_reader.md R129). -/
theorem brReadbits_raised_res {n : Nat} {v : Res} {e : Err} (h : readBits n v s = .raised e u) :
    (u.latch e).res = s.res := by
  have hrest := readBits_brRest n v s
  rw [h] at hrest
  obtain ⟨-, -, hres⟩ := brRest_fields hrest
  exact (u.latch_res e).trans hres

/-- Settles O26: the loop of BR_READBITS and as many BR_READBITs in a row complete together, with the same bits. -/
theorem readBitsCollectsBits : Obligations.ReadBitsCollectsBits := by
  unfold Obligations.ReadBitsCollectsBits
  refine ⟨fun s n hn => ⟨s.latch .illegalCommand, ?_, s.raises_latch .illegalCommand⟩,
    fun s n hs hb hn => execBrReadbits_notReady hn hs hb,
    fun s n hs hb hn => ⟨fun ds u hu => exec_brReadbits_of_readsBits hn hs hb hu, fun t ht => ?_⟩⟩
  · have hl : decide (CountLegal n) = false := decide_eq_false (Nat.not_le.2 hn)
    show execBrReadbits n s = _
    rw [execBrReadbits, hl]
    rfl
  · rw [exec_brReadbits hn hs hb] at ht
    cases hr : readBits n.toNat 0 s with
    | done w v =>
      rw [hr] at ht
      cases ht
      obtain ⟨ds, u, hu, he, hsafe⟩ := readsBits_of_readBits_done hs hb hr
      exact ⟨fun _ => ⟨ds, u, hu, he⟩, fun hn => absurd hsafe hn⟩
    | raised e v =>
      rw [hr] at ht
      cases ht
      exact ⟨fun hsafe => absurd hsafe (by simp [State.Safe]), fun _ => brReadbits_raised_res hr⟩

/-! ## Enough bits -/

/-- The reader can read `n` more bits: its source is readable and clean, and at its end come fill bytes, or the bytes left
hold the bits, at 7 or more each (41_bit_reader.md R122, R123, R125). -/
structure ReaderHolds (n : Nat) (s : State) : Prop where
  readable : s.SourceReadable
  clean : s.StuffingClean
  enough : s.br.mode = true ∨ n ≤ s.br.bitsLeft.toNat + 7 * (srcTotal s.src.ranges - s.src.pos.toNat)

/-- In a clean source the next byte is no stuffing error (41_bit_reader.md R123). -/
theorem State.StuffingClean.next {a : Nat} (hc : s.StuffingClean)
    (h : srcAddr s.src.ranges s.src.pos.toNat = some a) : ¬ (s.br.lastFF = true ∧ s.cwByte a = 0xFF) := by
  obtain ⟨-, hnext, -⟩ := hc
  rintro ⟨hl, hff⟩
  exact hnext hl (by rw [State.sourceByte, h, Option.map_some, hff])

/-- Stuffing stays clean past the next byte, in header mode as in codeword mode. -/
theorem State.StuffingClean.load {a : Nat} {k : BitVec 4} (hr : s.SourceReadable) (hc : s.StuffingClean)
    (h : srcAddr s.src.ranges s.src.pos.toNat = some a) :
    ((s.setSrc { s.src with pos := s.src.pos + 1 }).setBr
      { s.br with buf := s.cwByte a, lastFF := s.cwByte a == 0xFF, bitsLeft := k }).StuffingClean := by
  have hcode : ReaderClean (s.setBr { s.br with mode := true }) := ⟨hr, hc, rfl⟩
  obtain ⟨t, ht, hclean⟩ := loadByte_clean hcode
  rw [loadByte_real (s := s.setBr { s.br with mode := true }) h (hr _ _ h) (hc.next h)] at ht
  cases ht
  exact hclean.clean

/-- A reader with one bit and `n` more to read completes a bit read, and holds the `n` others. -/
theorem readBit_holds {n : Nat} (h : ReaderHolds (n + 1) s) : ∃ d t, readBit s = .done d t ∧ ReaderHolds n t := by
  obtain ⟨hr, hc, hm | hn⟩ := h
  · obtain ⟨d, t, ht, hclean⟩ := readBit_clean ⟨hr, hc, hm⟩
    exact ⟨d, t, ht, hclean.readable, hclean.clean, .inl hclean.codeword⟩
  · by_cases h0 : s.br.bitsLeft = 0
    · have hz : s.br.bitsLeft.toNat = 0 := by rw [h0]; rfl
      obtain ⟨a, ha⟩ := srcAddr_isSome_of_lt (rs := s.src.ranges) (i := s.src.pos.toNat) (by omega)
      refine ⟨_, _, readBit_real h0 ha (hr _ _ ha) (hc.next ha), hr, hc.load hr ha, .inr ?_⟩
      have hp := pos_succ ha hc.1
      have hl : 6 ≤ (if s.br.lastFF then 6 else 7 : BitVec 4).toNat := by cases s.br.lastFF <;> decide
      simp only [State.setBr_br, State.setBr_src, State.setSrc_src, hp]
      omega
    · refine ⟨_, _, readBit_of_left h0, hr, hc, .inr ?_⟩
      simp only [State.setBr_br, State.setBr_src, toNat_bitsLeft_sub_one h0]
      omega

theorem readBits_holds {n : Nat} {v : Res} (h : ReaderHolds n s) : ∃ w t, readBits n v s = .done w t := by
  induction n generalizing v s with
  | zero => exact ⟨v, s, rfl⟩
  | succ n ih =>
    obtain ⟨d, t, ht, hn⟩ := readBit_holds h
    obtain ⟨w, u, hu⟩ := ih (v := (v <<< 1) ||| resOfBit d) hn
    exact ⟨w, u, by rw [readBits, ht]; exact hu⟩

theorem bitsValue_concat (ds : List Bool) (d : Bool) : bitsValue (ds ++ [d]) = 2 * bitsValue ds + d.toNat := by
  rw [bitsValue, List.foldl_append]
  rfl

/-- Bits write a number below the power of two of their count. -/
theorem bitsValue_lt (ds : List Bool) : bitsValue ds < 2 ^ ds.length := by
  induction ds using List.reverseRecOn with
  | nil => decide
  | append_singleton ds d ih =>
    have hd : d.toNat ≤ 1 := Bool.toNat_le d
    rw [bitsValue_concat, List.length_append, List.length_singleton, Nat.pow_succ]
    omega

theorem length_of_readsBits {n : Nat} {ds : List Bool} (h : ReadsBits n s ds u) : ds.length = n := by
  induction n generalizing s ds with
  | zero => rw [h.1]; rfl
  | succ n ih =>
    obtain ⟨t, d, rest, -, -, -, rfl, hrest⟩ := h
    rw [List.length_cons, ih hrest]

/-- Settles O27: each bit read leaves a reader that holds the others. -/
theorem readBitsCompletes : Obligations.ReadBitsCompletes := by
  unfold Obligations.ReadBitsCompletes
  intro s n hs hb hn hr hc henough
  obtain ⟨w, t, hd⟩ := readBits_holds (v := 0) ⟨hr, hc, henough⟩
  obtain ⟨ds, u, hu, he, hsafe⟩ := readsBits_of_readBits_done hs hb hd
  refine ⟨t.setRes w, exec_brReadbits_done hn hs hb hd, hsafe, ?_⟩
  rw [he, State.setRes_res, BitVec.toNat_ofNat, ← length_of_readsBits hu]
  exact (Nat.mod_le _ _).trans_lt (bitsValue_lt ds)

/-! ## The bits of whole bytes -/

theorem readBits_add (m n : Nat) (v : Res) (s : State) :
    readBits (m + n) v s = (readBits m v s).bind fun w t => readBits n w t := by
  induction m generalizing v s with
  | zero => rw [Nat.zero_add]; rfl
  | succ m ih =>
    rw [Nat.succ_add, readBits, readBits]
    cases readBit s with
    | done d t => exact ih _ t
    | raised e t => rfl

theorem readBits_add_of_done {m n : Nat} {v w : Res} (h : readBits m v s = .done w t) :
    readBits (m + n) v s = readBits n w t := by
  rw [readBits_add, h, Act.bind_done]

/-- All the bits left of the byte being read, its low ones (41_bit_reader.md R120, R127). -/
theorem readBits_left {n : Nat} (k : Nat) (h : s.br.bitsLeft.toNat = n) :
    readBits n (BitVec.ofNat 64 k) s =
      .done (BitVec.ofNat 64 (k * 2 ^ n + s.br.buf.toNat % 2 ^ n)) (s.setBr { s.br with bitsLeft := 0 }) := by
  induction n generalizing s k with
  | zero =>
    have h0 : s.br.bitsLeft = 0 := BitVec.eq_of_toNat_eq h
    rw [readBits, ← h0, Nat.pow_zero, Nat.mod_one, Nat.mul_one]
    rfl
  | succ n ih =>
    have hne : s.br.bitsLeft ≠ 0 := fun h0 => by rw [h0] at h; cases h
    have hsub : (s.br.bitsLeft - 1).toNat = n := by rw [toNat_bitsLeft_sub_one hne, h]; rfl
    have hmod : s.br.buf.toNat % 2 ^ (n + 1) =
        (s.br.buf.getLsbD n).toNat * 2 ^ n + s.br.buf.toNat % 2 ^ n := by
      rw [Nat.mod_pow_succ, ← Nat.toNat_testBit, BitVec.testBit_toNat, Nat.mul_comm, Nat.add_comm]
    have hval : k * 2 ^ (n + 1) + s.br.buf.toNat % 2 ^ (n + 1) =
        (2 * k + (s.br.buf.getLsbD n).toNat) * 2 ^ n + s.br.buf.toNat % 2 ^ n := by
      rw [hmod]; ring
    rw [readBits, readBit_of_left hne, Act.bind_done, hsub, shiftIn_bit, hval]
    exact ih (s := s.setBr { s.br with bitsLeft := s.br.bitsLeft - 1 }) _ hsub

/-- After a load the reads go on from the loaded byte. -/
theorem readBits_of_load {n : Nat} (hn : n ≠ 0) (v : Res) (h0 : s.br.bitsLeft = 0) (h : loadByte s = .done () t) :
    readBits n v s = readBits n v t := by
  cases n with
  | zero => exact absurd rfl hn
  | succ n => rw [readBits, readBits, readBit_of_load h0 h]

/-- The state after the bits of a byte of CWMEM. -/
def State.byteTaken (s : State) (a : Nat) : State :=
  (s.setSrc { s.src with pos := s.src.pos + 1 }).setBr
    { s.br with buf := s.cwByte a, bitsLeft := 0, lastFF := s.cwByte a == 0xFF }

@[simp] theorem State.byteTaken_cwByte (s : State) (a b : Nat) : (s.byteTaken a).cwByte b = s.cwByte b := rfl
@[simp] theorem State.byteTaken_lastFF (s : State) (a : Nat) : (s.byteTaken a).br.lastFF = (s.cwByte a == 0xFF) := rfl

/-- The bits of a byte of CWMEM: its 8, or its 7 low ones after a 0xFF (41_bit_reader.md R122). -/
theorem readBits_byte {a n : Nat} (k : Nat) (h0 : s.br.bitsLeft = 0)
    (h : srcAddr s.src.ranges s.src.pos.toNat = some a) (ha : a < s.par.cwmemSize)
    (hff : ¬ (s.br.lastFF = true ∧ s.cwByte a = 0xFF)) (hn : n = if s.br.lastFF then 7 else 8) :
    readBits n (BitVec.ofNat 64 k) s =
      .done (BitVec.ofNat 64 (k * 2 ^ n + (s.cwByte a).toNat % 2 ^ n)) (s.byteTaken a) := by
  have hne : n ≠ 0 := by rw [hn]; split <;> decide
  rw [readBits_of_load hne _ h0 (loadByte_real h ha hff), readBits_left]
  · rfl
  · rw [hn]; cases s.br.lastFF <;> rfl

theorem ne_FF_of_le_7F {b : Byte} (h : b.toNat ≤ 0x7F) : b ≠ 0xFF := by
  rintro rfl
  exact absurd h (by decide)

/-- The 0xFF and the byte after it, from a byte boundary (41_bit_reader.md R132). -/
theorem readBits_afterFF {a b : Nat} (h0 : s.br.bitsLeft = 0) (hl : s.br.lastFF = false)
    (ha : srcAddr s.src.ranges s.src.pos.toNat = some a) (hb : srcAddr s.src.ranges (s.src.pos + 1).toNat = some b)
    (hac : a < s.par.cwmemSize) (hbc : b < s.par.cwmemSize) (hff : s.cwByte a = 0xFF)
    (hb7 : (s.cwByte b).toNat ≤ 0x7F) :
    readBits (8 + 7) 0 s =
      .done (BitVec.ofNat 64 (0xFF * 2 ^ 7 + (s.cwByte b).toNat)) ((s.byteTaken a).byteTaken b) := by
  have hne : s.cwByte b ≠ 0xFF := ne_FF_of_le_7F hb7
  have h1 := readBits_byte (n := 8) 0 h0 ha hac (by simp [hl]) (by simp [hl])
  have h2 := readBits_byte (s := s.byteTaken a) (n := 7) 0xFF rfl hb hbc (fun h => hne h.2) (by simp [hff])
  rw [hff] at h1
  rw [State.byteTaken_cwByte, Nat.mod_eq_of_lt (show (s.cwByte b).toNat < 2 ^ 7 by omega)] at h2
  exact (readBits_add_of_done (n := 7) h1).trans h2

/-- Settles O30: the bits of three whole bytes, 8, 7 and 8. -/
theorem sevenBitsAfterFF : Obligations.SevenBitsAfterFF := by
  unfold Obligations.SevenBitsAfterFF
  intro s a b hs hbr h0 hl ha hb hac hbc hff hb7
  have h15 := readBits_afterFF h0 hl ha hb hac hbc hff hb7
  have hpos : s.src.pos + 1 + 1 = s.src.pos + 2 := BitVec.add_assoc ..
  refine ⟨⟨_, exec_brReadbits_done (by decide) hs hbr h15, hs, ?_, rfl, hpos⟩, fun c hc hcc => ?_⟩
  · rw [State.setRes_res, BitVec.toNat_ofNat]
    omega
  · have hl2 : ((s.byteTaken a).byteTaken b).br.lastFF = false := beq_false_of_ne (ne_FF_of_le_7F hb7)
    rw [← hpos] at hc
    have h8 := readBits_byte (s := (s.byteTaken a).byteTaken b) (n := 8) (0xFF * 2 ^ 7 + (s.cwByte b).toNat) rfl hc hcc
      (by rw [hl2]; simp) (by rw [hl2]; rfl)
    have h23 := (readBits_add_of_done (n := 8) h15).trans h8
    have hlt : (s.cwByte c).toNat < 2 ^ 8 := (s.cwByte c).isLt
    refine ⟨_, exec_brReadbits_done (by decide) hs hbr h23, hs, ?_⟩
    simp only [State.setRes_res, BitVec.toNat_ofNat, State.byteTaken_cwByte]
    omega

/-! ## BR_FINISH -/

/-- BR_FINISH with the reader bound (41_bit_reader.md R130). -/
theorem exec_brFinish (hs : s.Safe) (hb : s.bound = .br) :
    exec .brFinish s = ((skipStuffing s).bind fun _ t =>
      .done () ((t.setBr { t.br with bitsLeft := 0, lastFF := false }).setRes (t.src.pos.setWidth 64)) :
        Act Unit).outcome := by
  show execBrFinish s = _
  rw [execBrFinish, runCommand_safe hs, if_pos hb]

/-- No stuffing byte is due (41_bit_reader.md R130). -/
theorem skipStuffing_none (h : ¬ (s.br.bitsLeft = 0 ∧ s.br.lastFF = true)) : skipStuffing s = .done () s :=
  if_neg h

/-- The stuffing byte is fetched and not looked at (41_bit_reader.md R130). -/
theorem skipStuffing_due (h0 : s.br.bitsLeft = 0) (hl : s.br.lastFF = true) :
    skipStuffing s = (fetchByte s).bind fun _ t => .done () t :=
  if_pos ⟨h0, hl⟩

theorem exec_brFinish_none (hs : s.Safe) (hb : s.bound = .br) (h : ¬ (s.br.bitsLeft = 0 ∧ s.br.lastFF = true)) :
    exec .brFinish s = .next ((s.setBr { s.br with bitsLeft := 0, lastFF := false }).setRes (s.src.pos.setWidth 64)) := by
  rw [exec_brFinish hs hb, skipStuffing_none h]
  rfl

/-- A fetch of the stuffing byte that raises fails BR_FINISH. -/
theorem exec_brFinish_fails {e : Err} (hs : s.Safe) (hb : s.bound = .br) (h0 : s.br.bitsLeft = 0)
    (hl : s.br.lastFF = true) (h : fetchByte s = .raised e s) : ∃ t, exec .brFinish s = .next t ∧ s.Fails t e.code :=
  ⟨s.latch e, by rw [exec_brFinish hs hb, skipStuffing_due h0 hl, h]; rfl, State.fails_latch hs rfl rfl e⟩

/-- Settles O28: without a stuffing byte due, and with one by what its fetch does. -/
theorem brFinishReleasesTheSource : Obligations.BrFinishReleasesTheSource := by
  unfold Obligations.BrFinishReleasesTheSource
  refine ⟨fun s hs hb => execBrFinish_notReady hs hb, fun s hs hb => ⟨exec_brFinish_none hs hb,
    fun a h0 hl h ha => ?_, fun h0 hl h hm => ?_, fun h0 hl h hm => ?_, fun a h0 hl h ha => ?_⟩⟩
  · rw [exec_brFinish hs hb, skipStuffing_due h0 hl, fetchByte_real h ha]
    rfl
  · rw [exec_brFinish hs hb, skipStuffing_due h0 hl, fetchByte_fill (srcAddr_eq_none_iff.2 h) (by simp [hm])]
    rfl
  · exact exec_brFinish_fails hs hb h0 hl (fetchByte_header (srcAddr_eq_none_iff.2 h) hb hm)
  · exact exec_brFinish_fails hs hb h0 hl (fetchByte_outside h (Nat.not_lt.2 ha))

/-- With ERROR = 1 BR_FINISH does nothing (60_exceptions.md R343). -/
theorem exec_brFinish_error (h : s.st.error = true) : exec .brFinish s = .next s := by
  show execBrFinish s = _
  simp [execBrFinish, runCommand, h]

/-- A state BR_FINISH leaves without an error: the reader bound, no bit left, no 0xFF last, and RES the position
(41_bit_reader.md R130, R131). -/
theorem brFinish_released (h : exec .brFinish s = .next t) (ht : t.Safe) :
    t.bound = .br ∧ t.br.bitsLeft = 0 ∧ t.br.lastFF = false ∧ t.res = t.src.pos.setWidth 64 := by
  change execBrFinish s = .next t at h
  have hd := runCommand_done_of_safe h ht
  split at hd
  · obtain ⟨_, u, hu, hd⟩ := Act.bind_eq_done.1 hd
    have hrest := skipStuffing_brRest s
    rw [hu] at hrest
    obtain ⟨-, hbound, -⟩ := brRest_fields hrest
    cases hd
    exact ⟨hbound.trans ‹_›, rfl, rfl, rfl⟩
  · cases hd

/-- Settles O29: after a first BR_FINISH no stuffing byte is due, and its writes write what is there. -/
theorem brFinishIsIdempotent : Obligations.BrFinishIsIdempotent := by
  unfold Obligations.BrFinishIsIdempotent
  intro s t h
  refine ⟨?_, fun _ ht => ?_⟩
  · cases he : t.st.error with
    | true => exact exec_brFinish_error he
    | false =>
      obtain ⟨hb, h0, hl, hres⟩ := brFinish_released h he
      rw [exec_brFinish_none he hb (by simp [hl]), ← h0, ← hl, ← hres]
      rfl
  · obtain ⟨-, h0, hl, -⟩ := brFinish_released h ht
    exact ⟨h0, hl⟩

end Sys2Proof.Machine
end

section
/-! PROOFS. DECODE as equations, one for each of its branches, and the ranges of the MQ decoder's registers
(42_mq_decoder.md R158 to R161, R164). -/

namespace Sys2Proof.Machine

variable {s t : State} {k : Category}

/-! ## The branches of DECODE -/

/-- `A - Q` for the context `k`, modulo 2^16 (42_mq_decoder.md R161). -/
abbrev State.restOfA (s : State) (k : Category) : Half := s.mq.a - (qe (s.ctx k).I).Qe

/-- DECODE on its MPS path, before the exchange (42_mq_decoder.md R161). -/
def State.upperPart (s : State) (k : Category) : State := s.setMq { s.mq with a := s.restOfA k }

/-- DECODE on its LPS path, with `A <- Q` done and the context not yet adapted (42_mq_decoder.md R159, R161). -/
def State.lowerPart (s : State) (k : Category) : State :=
  s.setMq { s.mq with a := (qe (s.ctx k).I).Qe, c := s.mq.c - ((s.restOfA k).setWidth 32 <<< 16) }

theorem decodeMq_eq_upperPart (k : Category) (s : State) : decodeMq k s = decodeFrom k (s.upperPart k) := rfl

/-- The MPS path with `A` still at 0x8000 or above (42_mq_decoder.md R161). -/
theorem decodeMq_kept (hc : s.mq.chigh < s.restOfA k) (ha : 0x8000#16 ≤ s.restOfA k) :
    decodeMq k s = .done (s.ctx k).MPS (s.upperPart k) := by
  rw [decodeMq_eq_upperPart, decodeFrom, if_pos (show (s.upperPart k).mq.chigh < (s.upperPart k).mq.a from hc),
    if_pos (show 0x8000#16 ≤ (s.upperPart k).mq.a from ha)]
  rfl

/-- The MPS path with `A` below 0x8000 (42_mq_decoder.md R158, R161). -/
theorem decodeMq_upper (hc : s.mq.chigh < s.restOfA k) (ha : s.restOfA k < 0x8000#16) :
    decodeMq k s = (renormD ((s.upperPart k).setCtx k
        (if s.restOfA k < (qe (s.ctx k).I).Qe then (s.ctx k).lps else (s.ctx k).mps))).bind fun _ t =>
      .done (if s.restOfA k < (qe (s.ctx k).I).Qe then !(s.ctx k).MPS else (s.ctx k).MPS) t := by
  have hd : mpsExchange k (s.upperPart k) =
      (if s.restOfA k < (qe (s.ctx k).I).Qe then !(s.ctx k).MPS else (s.ctx k).MPS, (s.upperPart k).setCtx k
        (if s.restOfA k < (qe (s.ctx k).I).Qe then (s.ctx k).lps else (s.ctx k).mps)) :=
    Prod.ext (apply_ite Prod.fst _ _ _) (mpsExchange_state k (s.upperPart k))
  rw [decodeMq_eq_upperPart, decodeFrom, if_pos (show (s.upperPart k).mq.chigh < (s.upperPart k).mq.a from hc),
    if_neg (show ¬ 0x8000#16 ≤ (s.upperPart k).mq.a from BitVec.not_le.2 ha), hd]

/-- The LPS path (42_mq_decoder.md R159, R161). -/
theorem decodeMq_lower (hc : s.restOfA k ≤ s.mq.chigh) :
    decodeMq k s = (renormD ((s.lowerPart k).setCtx k
        (if s.restOfA k < (qe (s.ctx k).I).Qe then (s.ctx k).mps else (s.ctx k).lps))).bind fun _ t =>
      .done (if s.restOfA k < (qe (s.ctx k).I).Qe then (s.ctx k).MPS else !(s.ctx k).MPS) t := by
  have hd : lpsExchange k ((s.upperPart k).setMq (s.upperPart k).mq.subtractA) =
      (if s.restOfA k < (qe (s.ctx k).I).Qe then (s.ctx k).MPS else !(s.ctx k).MPS, (s.lowerPart k).setCtx k
        (if s.restOfA k < (qe (s.ctx k).I).Qe then (s.ctx k).mps else (s.ctx k).lps)) :=
    Prod.ext (apply_ite Prod.fst _ _ _) (lpsExchange_state k _)
  rw [decodeMq_eq_upperPart, decodeFrom,
    if_neg (show ¬ (s.upperPart k).mq.chigh < (s.upperPart k).mq.a from BitVec.not_lt.2 hc), hd]

/-- All DECODE can do: end at once on the MPS path, or adapt the context and renormalise on one of its paths. -/
theorem decodeMq_cases (k : Category) (s : State) :
    (s.mq.chigh < s.restOfA k ∧ 0x8000#16 ≤ s.restOfA k ∧ decodeMq k s = .done (s.ctx k).MPS (s.upperPart k)) ∨
    (s.mq.chigh < s.restOfA k ∧ s.restOfA k < 0x8000#16 ∧ ∃ e d,
      decodeMq k s = (renormD ((s.upperPart k).setCtx k e)).bind fun _ t => .done d t) ∨
    (s.restOfA k ≤ s.mq.chigh ∧ ∃ e d,
      decodeMq k s = (renormD ((s.lowerPart k).setCtx k e)).bind fun _ t => .done d t) := by
  by_cases hc : s.mq.chigh < s.restOfA k
  · by_cases ha : s.restOfA k < 0x8000#16
    · exact .inr (.inl ⟨hc, ha, _, _, decodeMq_upper hc ha⟩)
    · exact .inl ⟨hc, BitVec.not_lt.1 ha, decodeMq_kept hc (BitVec.not_lt.1 ha)⟩
  · exact .inr (.inr ⟨BitVec.not_lt.1 hc, _, _, decodeMq_lower (BitVec.not_lt.1 hc)⟩)

/-- Where a DECODE that renormalises completes, RENORMD did. -/
theorem renormD_of_decode_done {u : State} {d d' : Bool} {m : Act Bool}
    (hm : m = (renormD u).bind fun _ t => .done d t) (h : m = .done d' t) : renormD u = .done () t := by
  rw [hm, Act.bind_eq_done] at h
  obtain ⟨_, v, hv, hd⟩ := h
  cases hd
  exact hv

/-! ## Ranges -/

/-- In DECODE from registers in range `A - Q` does not go below 0 (42_mq_decoder.md R164). -/
theorem MqRegs.InRange.qe_le (h : s.mq.InRange) (k : Category) : (qe (s.ctx k).I).Qe.toNat ≤ s.mq.a.toNat :=
  (qe_range _).2.trans (le_trans (by decide) h.1)

theorem toNat_restOfA (h : s.mq.InRange) (k : Category) :
    (s.restOfA k).toNat = s.mq.a.toNat - (qe (s.ctx k).I).Qe.toNat :=
  BitVec.toNat_sub_of_le (h.qe_le k)

/-- RENORMD brings registers with `CT` at most 7 into range (42_mq_decoder.md R157, R164). -/
theorem renormD_inRange (h : renormD s = .done () t) (h0 : 0 < s.mq.a.toNat) (ha : s.mq.a.toNat < 0x8000)
    (hc : s.mq.ct.toNat ≤ 7) : t.mq.InRange :=
  have hr := renormD_range h h0 ha
  ⟨hr.1, hr.2 (by omega)⟩

/-- DECODE keeps the registers in range (42_mq_decoder.md R164). -/
theorem decodeMq_inRange {d : Bool} (h : s.mq.InRange) (hd : decodeMq k s = .done d t) : t.mq.InRange := by
  have hq := qe_range (s.ctx k).I
  rcases decodeMq_cases k s with ⟨-, ha, hk⟩ | ⟨hc, ha, e, d', hk⟩ | ⟨-, e, d', hk⟩
  · rw [hk] at hd
    cases hd
    exact ⟨ha, h.2⟩
  · exact renormD_inRange (renormD_of_decode_done hk hd) (Nat.zero_lt_of_lt (BitVec.lt_def.1 hc)) ha h.2
  · exact renormD_inRange (renormD_of_decode_done hk hd) hq.1 (Nat.lt_of_le_of_lt hq.2 (by decide)) h.2

/-- The registers before INITDEC's last step, from its two bytes (42_mq_decoder.md R160): `C` holds the first byte
complemented, and BYTEIN has taken the second one. -/
theorem initDec_eq_done (h : initDec s = .done () t) :
    ∃ b₀ fill u v, fetchByte (s.setMq { s.mq with mf := false }) = .done (b₀, fill) u ∧
      byteIn (u.setMq { u.mq with b := b₀, c := (b₀ ^^^ 0xFF).setWidth 32 <<< 16 }) = .done () v ∧
      t = (v.setMq { v.mq with c := v.mq.c <<< 7, ct := v.mq.ct - 7, a := 0x8000 }).setFree
        { v.free with mq := false } := by
  rw [initDec, Act.bind_eq_done] at h
  obtain ⟨⟨b₀, fill⟩, u, hu, h⟩ := h
  rw [Act.bind_eq_done] at h
  obtain ⟨_, v, hv, h⟩ := h
  cases h
  exact ⟨b₀, fill, u, v, hu, hv, rfl⟩

/-- INITDEC sets up registers in range (42_mq_decoder.md R160, R164). -/
theorem initDec_inRange (h : initDec s = .done () t) : t.mq.InRange := by
  obtain ⟨b₀, fill, u, v, -, hv, rfl⟩ := initDec_eq_done h
  refine ⟨le_rfl, ?_⟩
  show (v.mq.ct - 7).toNat ≤ 7
  rcases byteIn_ct hv with hct | hct <;> rw [hct] <;> decide

/-! ## The code register below the interval -/

/-- RENORMD keeps the code register below the interval on clean bytes (42_mq_decoder.md R164). -/
theorem renormD_clean (h : renormD s = .done () t) (hb : s.mq.Below) (hm : s.MarkerClean)
    (ha : s.mq.a.toNat < 0x8000) (hc : s.mq.ct.toNat ≤ 7) : t.MarkerClean ∧ t.mq.Below :=
  (renormLoop_below 16 h hb hm ha (by omega)).symm

/-- The MPS path leaves the code register below the smaller interval. -/
theorem MqRegs.Below.upperPart (hb : s.mq.Below) (hc : s.mq.chigh < s.restOfA k) : (s.upperPart k).mq.Below :=
  ⟨(s.upperPart k).mq.chigh_lt_iff.1 hc, hb.low⟩

theorem toNat_shiftLeft_16 (a : Half) : (a.setWidth 32 <<< 16).toNat = a.toNat * 2 ^ 16 := by
  have := a.isLt
  simp only [BitVec.toNat_shiftLeft, BitVec.toNat_setWidth, Nat.shiftLeft_eq]
  omega

/-- The LPS path takes the upper part from `C`, which leaves it below `Q` (42_mq_decoder.md R161). -/
theorem MqRegs.Below.lowerPart (hb : s.mq.Below) (h : s.mq.InRange) (hc : s.restOfA k ≤ s.mq.chigh) :
    (s.lowerPart k).mq.Below := by
  obtain ⟨high, low⟩ := hb
  have hle : (s.restOfA k).toNat * 2 ^ 16 ≤ s.mq.c.toNat :=
    Nat.not_lt.1 fun hlt => BitVec.not_lt.2 hc ((s.upperPart k).mq.chigh_lt_iff.2 hlt)
  have hsub : (s.lowerPart k).mq.c.toNat = s.mq.c.toNat - (s.restOfA k).toNat * 2 ^ 16 := by
    rw [← toNat_shiftLeft_16] at hle ⊢
    exact BitVec.toNat_sub_of_le hle
  refine ⟨?_, ?_⟩
  · have hrest := toNat_restOfA h k
    have hq := h.qe_le k
    rw [hsub]
    show _ < (qe (s.ctx k).I).Qe.toNat * 2 ^ 16
    omega
  · rw [hsub, Nat.sub_mul]
    exact Nat.dvd_sub low (Dvd.dvd.mul_right (Nat.dvd_mul_left _ _) _)

/-- DECODE keeps the code register below the interval on clean bytes (42_mq_decoder.md R164). -/
theorem decodeMq_clean {d : Bool} (h : s.mq.InRange) (hm : s.MarkerClean) (hb : s.mq.Below)
    (hd : decodeMq k s = .done d t) : t.MarkerClean ∧ t.mq.Below := by
  have hq := qe_range (s.ctx k).I
  rcases decodeMq_cases k s with ⟨hc, -, hk⟩ | ⟨hc, ha, e, d', hk⟩ | ⟨hc, e, d', hk⟩
  · rw [hk] at hd
    cases hd
    exact ⟨hm, hb.upperPart hc⟩
  · exact renormD_clean (renormD_of_decode_done hk hd) (hb.upperPart hc) hm ha h.2
  · exact renormD_clean (renormD_of_decode_done hk hd) (hb.lowerPart h hc) hm
      (Nat.lt_of_le_of_lt hq.2 (by decide)) h.2

/-- A fetch does not look at the MQ registers (20_memory.md R75). -/
theorem fetchByte_setMq {bf : Byte × Bool} (h : fetchByte s = .done bf t) (r : MqRegs) :
    fetchByte (s.setMq r) = .done bf (t.setMq r) := by
  rcases fetchByte_cases s with ⟨a, ha, hs, hd⟩ | ⟨hn, hb, hd⟩ | hd <;> rw [hd] at h <;> cases h
  · exact fetchByte_real (s := s.setMq r) ha hs
  · exact fetchByte_fill (s := s.setMq r) hn hb

/-- A fetch from clean ranges leaves the bytes after a 0xFF clean, whatever byte was fetched before. -/
theorem RangesMarkerClean.fetch {b : Byte} {fill : Bool} (h : RangesMarkerClean s s.src.ranges)
    (hf : fetchByte s = .done (b, fill) t) {r : MqRegs} (hr : r.b = b) : (t.setMq r).MarkerClean := by
  have hm : (s.setMq { s.mq with mf := true }).MarkerClean := ⟨h, fun _ _ hmf => nomatch hmf⟩
  exact hm.fetch (fetchByte_setMq hf _) r hr

/-- BYTEIN's update reads neither `A` nor `CT`. -/
theorem takeByte_eq_of_c_b {r q : MqRegs} (hc : q.c = r.c) (hb : q.b = r.b) (b : Byte) :
    (q.takeByte b).c = (r.takeByte b).c ∧ (q.takeByte b).ct = (r.takeByte b).ct := by
  unfold MqRegs.takeByte
  rw [hc, hb]
  split
  · split <;> exact ⟨rfl, rfl⟩
  · exact ⟨rfl, rfl⟩

/-- INITDEC's two bytes leave the code register below 2^24, and the shift by 7 below 0x8000 (42_mq_decoder.md R160). -/
theorem MqRegs.below_init (r : MqRegs) (b₀ b₁ : Byte) (hclean : b₀ = 0xFF → b₁ ≤ 0x7F#8 ∨ 0x8F#8 < b₁) :
    let q := { r with b := b₀, c := (b₀ ^^^ 0xFF).setWidth 32 <<< 16 : MqRegs }.takeByte b₁
    { q with c := q.c <<< 7, ct := q.ct - 7, a := 0x8000 : MqRegs }.Below := by
  intro q
  let r₀ : MqRegs := { r with a := 0x100, c := (b₀ ^^^ 0xFF).setWidth 32 <<< 16, ct := 0, b := b₀ }
  have hr₀ : r₀.Below := by
    have hc : r₀.c.toNat = (b₀ ^^^ 0xFF).toNat * 2 ^ 16 := by
      have := (b₀ ^^^ 0xFF).isLt
      show ((b₀ ^^^ 0xFF).setWidth 32 <<< 16).toNat = _
      rw [BitVec.toNat_shiftLeft, BitVec.toNat_setWidth, Nat.shiftLeft_eq]
      omega
    have := (b₀ ^^^ 0xFF).isLt
    refine ⟨?_, ?_⟩
    · rw [hc]
      show _ < 0x100 * 2 ^ 16
      omega
    · rw [hc]
      exact Dvd.dvd.mul_right (Nat.dvd_mul_left _ _) _
  obtain ⟨high, low⟩ := hr₀.takeByte (show 0x100 < 0x8000 by decide) rfl b₁ hclean
  obtain ⟨hc, hct⟩ := takeByte_eq_of_c_b (q := r₀)
    (r := { r with b := b₀, c := (b₀ ^^^ 0xFF).setWidth 32 <<< 16 }) rfl rfl b₁
  rw [hc, takeByte_a] at high
  rw [hc, hct] at low
  have hlt : q.c.toNat < 0x100 * 2 ^ 16 := high
  have hshift : (q.c <<< 7).toNat = q.c.toNat * 2 ^ 7 := by
    rw [BitVec.toNat_shiftLeft, Nat.shiftLeft_eq]
    omega
  refine ⟨?_, ?_⟩
  · show (q.c <<< 7).toNat < 0x8000 * 2 ^ 16
    omega
  · show 2 ^ 16 ∣ (q.c <<< 7).toNat * 2 ^ (q.ct - 7).toNat
    have hpow : 2 ^ 7 * 2 ^ (q.ct - 7).toNat = 2 ^ q.ct.toNat := by
      rcases MqRegs.takeByte_ct { r with b := b₀, c := (b₀ ^^^ 0xFF).setWidth 32 <<< 16 } b₁ with h | h <;>
        rw [show q.ct = _ from h] <;> decide
    rw [hshift, Nat.mul_assoc, hpow]
    exact low

/-- A BYTEIN that fetches takes the byte into the registers it found (42_mq_decoder.md R155). -/
theorem byteIn_eq_done (hmf : s.mq.mf = false) (h : byteIn s = .done () t) :
    ∃ b fill u, fetchByte s = .done (b, fill) u ∧ t = u.setMq (s.mq.takeByte b) := by
  rw [byteIn, if_neg (by simp [hmf]), Act.bind_eq_done] at h
  obtain ⟨⟨b, fill⟩, u, hu, h⟩ := h
  cases h
  exact ⟨b, fill, u, hu, by rw [fetchByte_mq hu]⟩

/-- Cleanliness is a matter of the bound bytes and of the last byte fetched. -/
theorem State.MarkerClean.of_same (hsrc : t.src = s.src) (hcw : t.cwmem = s.cwmem) (hb : t.mq.b = s.mq.b)
    (hmf : t.mq.mf = s.mq.mf) (h : s.MarkerClean) : t.MarkerClean := by
  unfold State.MarkerClean RangesMarkerClean State.cwByte at h ⊢
  rw [hsrc, hcw, hb, hmf]
  exact h

/-- INITDEC on clean ranges leaves the code register below the interval (42_mq_decoder.md R160, R164). -/
theorem initDec_clean (hr : RangesMarkerClean s s.src.ranges) (h : initDec s = .done () t) :
    t.MarkerClean ∧ t.mq.Below := by
  obtain ⟨b₀, fill, u, v, hu, hv, rfl⟩ := initDec_eq_done h
  let r : MqRegs := { u.mq with b := b₀, c := (b₀ ^^^ 0xFF).setWidth 32 <<< 16 }
  have hm : (u.setMq r).MarkerClean := RangesMarkerClean.fetch (s := s.setMq { s.mq with mf := false }) hr hu rfl
  have hmf : r.mf = false := congrArg MqRegs.mf (fetchByte_mq hu)
  obtain ⟨b₁, fill₁, w, hw, rfl⟩ := byteIn_eq_done (s := u.setMq r) hmf hv
  have hclean : (w.setMq (r.takeByte b₁)).MarkerClean := hm.fetch hw _ (r.takeByte_b b₁)
  exact ⟨.of_same rfl rfl rfl rfl hclean, MqRegs.below_init u.mq b₀ b₁ fun hff => hm.byte hmf hw hff⟩

/-- Settles O36: RENORMD is entered with `A` from 1 to 0x7FFF, and both paths of DECODE keep `C` below the interval. -/
theorem decoderRegistersStayInRange : Obligations.DecoderRegistersStayInRange := by
  unfold Obligations.DecoderRegistersStayInRange
  refine ⟨fun s t h => initDec_inRange h, fun s t k d hr hd => decodeMq_inRange hr hd, fun s k hr => hr.qe_le k,
    fun s t hr h => ?_, fun s t k d hr hm hl hc hd => ?_⟩
  · obtain ⟨hm, hb⟩ := initDec_clean hr h
    exact ⟨hm, (MqRegs.below_iff _).1 hb⟩
  · obtain ⟨hm', hb⟩ := decodeMq_clean hr hm ((MqRegs.below_iff _).2 ⟨hl, hc⟩) hd
    exact ⟨hm', (MqRegs.below_iff _).1 hb⟩

end Sys2Proof.Machine
end

section
/-! PROOFS. The MQ decoder's procedures and commands: RENORMD and BYTEIN by their cases, and what MQ_INIT, MQ_DECODE and
MQ_PTERM do in each of theirs (42_mq_decoder.md R155, R157 to R163). -/

namespace Sys2Proof.Machine

variable {s t u : State} {k : Category}

/-! ## What the coders keep -/

/-- What the coders do not write while they decode holds the status flags, RES and CXSEL. -/
theorem coderRest_fields (h : t.coderRest = s.coderRest) : t.st = s.st ∧ t.res = s.res ∧ t.cxsel = s.cxsel := by
  simp only [State.coderRest, Prod.mk.injEq] at h
  obtain ⟨-, -, -, -, -, -, hres, hsel, -, -, hst, -⟩ := h
  exact ⟨hst, hres, hsel⟩

theorem decodeMq_fields (k : Category) (s : State) :
    (decodeMq k s).state.st = s.st ∧ (decodeMq k s).state.res = s.res ∧ (decodeMq k s).state.cxsel = s.cxsel :=
  coderRest_fields (congrArg Prod.fst (decodeMq_mqRest k s))

theorem pterm_fields (s : State) :
    (pterm s).state.st = s.st ∧ (pterm s).state.res = s.res ∧ (pterm s).state.cxsel = s.cxsel :=
  coderRest_fields (congrArg Prod.fst (pterm_rest s))

theorem bindDecoder_fields (s : State) :
    (bindDecoder s).state.st = s.st ∧ (bindDecoder s).state.res = s.res := by
  have h := initDec_rest (s.bindSource s.csr.segBase s.csr.segLen .mq)
  simp only [State.initRest, Prod.mk.injEq] at h
  obtain ⟨-, -, -, -, -, -, hres, -, -, -, hst, -⟩ := h
  exact ⟨hst, hres⟩

/-! ## RENORMD -/

/-- Enough rounds are as good as one more (42_mq_decoder.md R157, log 13). -/
theorem renormLoop_succ {n : Nat} (ha : s.mq.a.toNat < 0x8000) (hn : 0x8000 ≤ s.mq.a.toNat * 2 ^ n) :
    renormLoop (n + 1) s = renormLoop n s := by
  induction n generalizing s with
  | zero => omega
  | succ n ih =>
    rw [renormLoop, renormLoop]
    cases hb : byteInIfEmpty s with
    | raised e u => rfl
    | done _ u =>
      have hd := double_a (r := u.mq) (by rw [byteInIfEmpty_a hb]; exact ha)
      rw [Act.bind_done, Act.bind_done]
      split
      · rename_i hlt
        refine ih hlt ?_
        rw [Nat.pow_succ'] at hn
        rw [State.setMq_mq, hd, byteInIfEmpty_a hb, Nat.mul_comm 2, Nat.mul_assoc]
        exact hn
      · rfl

/-- RENORMD is one round of its loop body and itself again (42_mq_decoder.md R157). -/
theorem renormD_eq (h0 : 0 < s.mq.a.toNat) (ha : s.mq.a.toNat < 0x8000) :
    renormD s = (byteInIfEmpty s).bind fun _ u =>
      if u.mq.double.a < 0x8000 then renormD (u.setMq u.mq.double) else .done () (u.setMq u.mq.double) := by
  have hstep : renormD s = renormLoop 17 s := (renormLoop_succ ha (by omega)).symm
  rw [hstep]
  rfl

/-- The registers after `n` doublings. -/
def MqRegs.shifted (r : MqRegs) (n : Nat) : MqRegs :=
  { r with a := r.a <<< n, c := r.c <<< n, ct := r.ct - BitVec.ofNat 4 n }

theorem MqRegs.shifted_double (r : MqRegs) (n : Nat) : r.double.shifted n = r.shifted (n + 1) := by
  have hct : r.ct - 1 - BitVec.ofNat 4 n = r.ct - BitVec.ofNat 4 (n + 1) := by
    rw [Nat.add_comm, BitVec.ofNat_add, BitVec.sub_sub]
    rfl
  rw [MqRegs.shifted, MqRegs.shifted, MqRegs.double, ← BitVec.shiftLeft_add, ← BitVec.shiftLeft_add, hct,
    Nat.add_comm 1]

/-- While bits are left a round of RENORMD is a doubling (42_mq_decoder.md R157). -/
theorem renormD_of_left (h0 : 0 < s.mq.a.toNat) (ha : s.mq.a.toNat < 0x8000) (hct : 1 ≤ s.mq.ct.toNat) :
    renormD s =
      if 2 * s.mq.a.toNat < 0x8000 then renormD (s.setMq s.mq.double) else .done () (s.setMq s.mq.double) := by
  have hne : s.mq.ct ≠ 0 := fun hz => absurd hct (by rw [hz]; decide)
  rw [renormD_eq h0 ha, byteInIfEmpty, if_neg hne, Act.bind_done, ← double_a ha]
  rfl

/-- RENORMD shifts by the fewest places that bring `A` to 0x8000, while `CT` bits suffice (42_mq_decoder.md R157). -/
theorem renormD_shifts {n : Nat} (h0 : 0 < s.mq.a.toNat) (hlt : s.mq.a.toNat * 2 ^ n < 0x8000)
    (hge : 0x8000 ≤ s.mq.a.toNat * 2 ^ (n + 1)) (hct : n + 1 ≤ s.mq.ct.toNat) :
    renormD s = .done () (s.setMq (s.mq.shifted (n + 1))) := by
  induction n generalizing s with
  | zero =>
    rw [renormD_of_left h0 (by omega) hct, if_neg (by omega)]
    rfl
  | succ n ih =>
    rw [Nat.pow_succ', ← Nat.mul_assoc, Nat.mul_comm _ 2] at hlt hge
    have ha : 2 * s.mq.a.toNat < 0x8000 := (Nat.le_mul_of_pos_right _ (Nat.two_pow_pos n)).trans_lt hlt
    have hd := double_a (r := s.mq) (by omega)
    have hc := double_ct (r := s.mq) (by omega)
    rw [renormD_of_left h0 (by omega) (by omega), if_pos ha, ← MqRegs.shifted_double]
    rw [← hd] at hlt hge
    exact ih (s := s.setMq s.mq.double) (show 0 < s.mq.double.a.toNat by omega) hlt hge
      (show n + 1 ≤ s.mq.double.ct.toNat by omega)

/-- Settles O33: one round more is never needed, and a round with bits left is a doubling. -/
theorem renormalisationLoops : Obligations.RenormalisationLoops := by
  unfold Obligations.RenormalisationLoops
  intro s h0 ha
  refine ⟨renormD_eq h0 ha, ?_⟩
  intro n hn
  have hlog : s.mq.a.toNat.log2 < 15 := (Nat.log2_lt (by omega)).2 ha
  obtain ⟨m, hm⟩ : ∃ m, n = m + 1 := ⟨14 - s.mq.a.toNat.log2, by omega⟩
  have hpow : 2 ^ s.mq.a.toNat.log2 * 2 ^ (m + 1) = 0x8000 := by
    rw [← Nat.pow_add, show s.mq.a.toNat.log2 + (m + 1) = 15 by omega]
  have hge : 0x8000 ≤ s.mq.a.toNat * 2 ^ (m + 1) :=
    hpow ▸ Nat.mul_le_mul_right _ (Nat.log2_self_le (by omega))
  have hlt : s.mq.a.toNat * 2 ^ (m + 1) < 2 * 0x8000 := by
    rw [← hpow, ← Nat.mul_assoc, ← Nat.pow_succ']
    exact Nat.mul_lt_mul_of_pos_right Nat.lt_log2_self (Nat.two_pow_pos _)
  rw [Nat.pow_succ', Nat.mul_left_comm] at hlt
  rw [hm]
  exact renormD_shifts h0 (by omega) hge (hm ▸ hn)

/-! ## BYTEIN -/

/-- The fetch of an MQ decoder: the byte, real or fill, and the source after it (20_memory.md R75). -/
def State.Fetches (s : State) (b : Byte) (src : Source) : Prop :=
  (∃ a, srcAddr s.src.ranges s.src.pos.toNat = some a ∧ a < s.par.cwmemSize ∧ b = s.cwByte a ∧
    src = { s.src with pos := s.src.pos + 1 }) ∨
  (srcTotal s.src.ranges ≤ s.src.pos.toNat ∧ b = 0xFF ∧ src = { s.src with filled := true })

theorem State.Fetches.fetchByte {b : Byte} {src : Source} (h : s.Fetches b src) (hb : s.bound = .mq) :
    ∃ fill, fetchByte s = .done (b, fill) (s.setSrc src) := by
  rcases h with ⟨a, ha, hs, rfl, rfl⟩ | ⟨hn, rfl, rfl⟩
  · exact ⟨_, fetchByte_real ha hs⟩
  · exact ⟨_, fetchByte_fill (srcAddr_eq_none_iff.2 hn) (by simp [hb])⟩

/-- A fetch does not look at the MQ registers. -/
theorem State.Fetches.setMq {b : Byte} {src : Source} (h : s.Fetches b src) (r : MqRegs) :
    (s.setMq r).Fetches b src :=
  h

/-- BYTEIN without a marker takes the next byte (42_mq_decoder.md R155). -/
theorem State.Fetches.byteIn {b : Byte} {src : Source} (h : s.Fetches b src) (hb : s.bound = .mq)
    (hmf : s.mq.mf = false) : byteIn s = .done () ((s.setSrc src).setMq (s.mq.takeByte b)) := by
  obtain ⟨fill, hf⟩ := h.fetchByte hb
  rw [Machine.byteIn, if_neg (by simp [hmf]), hf]
  rfl

/-- BYTEIN after a marker fetches nothing (42_mq_decoder.md R156). -/
theorem byteIn_marker (h : s.mq.mf = true) : byteIn s = .done () (s.setMq { s.mq with ct := 8 }) := by
  rw [byteIn, if_pos h]

theorem MqRegs.takeByte_marker {r : MqRegs} {b : Byte} (h : r.b = 0xFF) (hb : 0x8F#8 < b) :
    r.takeByte b = { r with b := b, mf := true, ct := 8 } := by
  rw [MqRegs.takeByte, if_pos h, if_pos hb]

theorem MqRegs.takeByte_stuffed {r : MqRegs} {b : Byte} (h : r.b = 0xFF) (hb : b ≤ 0x8F#8) :
    r.takeByte b = { r with b := b, c := r.c + 0xFE00 - (b.setWidth 32 <<< 9), ct := 7 } := by
  rw [MqRegs.takeByte, if_pos h, if_neg (BitVec.not_lt.2 hb)]

theorem MqRegs.takeByte_plain {r : MqRegs} {b : Byte} (h : r.b ≠ 0xFF) :
    r.takeByte b = { r with b := b, c := r.c + 0xFF00 - (b.setWidth 32 <<< 8), ct := 8 } := by
  rw [MqRegs.takeByte, if_neg h]

/-- Settles O34: BYTEIN is the fetch and the case of its byte. -/
theorem byteInTakesOneByte : Obligations.ByteInTakesOneByte := by
  unfold Obligations.ByteInTakesOneByte
  intro s hb
  refine ⟨byteIn_marker, fun b src hmf hf => ?_⟩
  have hf : s.Fetches b src := hf
  rw [hf.byteIn hb hmf]
  refine ⟨fun hff hm => ?_, fun hff hm => ?_, fun hff => ?_⟩
  · rw [MqRegs.takeByte_marker hff hm]
  · rw [MqRegs.takeByte_stuffed hff hm]
  · rw [MqRegs.takeByte_plain hff]

/-! ## MQ_INIT -/

theorem exec_mqInit (hs : s.Safe) : exec .mqInit s = (bindDecoder s).outcome := by
  show execMqInit s = _
  rw [execMqInit, runCommand_safe hs]

/-- INITDEC between its two fetches (42_mq_decoder.md R160). -/
def State.firstByte (s : State) (b : Byte) (src : Source) : State :=
  (s.setSrc src).setMq { s.mq with mf := false, b := b, c := (b ^^^ 0xFF).setWidth 32 <<< 16 }

theorem State.firstByte_mq (s : State) (b : Byte) (src : Source) :
    (s.firstByte b src).mq = { s.mq with mf := false, b := b, c := (b ^^^ 0xFF).setWidth 32 <<< 16 } := rfl

/-- The last write of the source and of the registers counts. -/
theorem State.setSrc_setMq_overwritten (s : State) (src src' : Source) (r r' : MqRegs) :
    (((s.setSrc src).setMq r).setSrc src').setMq r' = (s.setSrc src').setMq r' := rfl

theorem State.firstByte_bound (s : State) (b : Byte) (src : Source) : (s.firstByte b src).bound = s.bound := by
  rw [State.firstByte, State.setMq_bound, State.setSrc_bound]

/-- INITDEC after its first byte (42_mq_decoder.md R160). -/
theorem initDec_of_fetches {b : Byte} {src : Source} (hb : s.bound = .mq) (h : s.Fetches b src) :
    initDec s = (byteIn (s.firstByte b src)).bind fun _ t =>
      .done () ((t.setMq { t.mq with c := t.mq.c <<< 7, ct := t.mq.ct - 7, a := 0x8000 }).setFree
        { t.free with mq := false }) := by
  obtain ⟨fill, hf⟩ := (h.setMq { s.mq with mf := false }).fetchByte hb
  rw [initDec, hf, Act.bind_done, State.setSrc_mq, State.setMq_mq]
  rfl

/-- The registers INITDEC leaves, case by case of BYTEIN (42_mq_decoder.md R155, R160). -/
theorem initRegs_eq {r : MqRegs} (hmf : r.mf = false) (b₁ : Byte) :
    { r.takeByte b₁ with c := (r.takeByte b₁).c <<< 7, ct := (r.takeByte b₁).ct - 7, a := 0x8000 : MqRegs } =
      { a := 0x8000
        c := (if r.b = 0xFF then (if 0x8F < b₁ then r.c else r.c + 0xFE00 - (b₁.setWidth 32 <<< 9))
              else r.c + 0xFF00 - (b₁.setWidth 32 <<< 8)) <<< 7
        ct := if r.b = 0xFF ∧ b₁ ≤ 0x8F then 0 else 1
        b := b₁
        mf := decide (r.b = 0xFF ∧ 0x8F < b₁) } := by
  by_cases hff : r.b = 0xFF
  · by_cases hm : 0x8F#8 < b₁
    · rw [MqRegs.takeByte_marker hff hm]
      simp [hff, hm, BitVec.not_le.2 hm]
    · rw [MqRegs.takeByte_stuffed hff (BitVec.not_lt.1 hm)]
      simp [hff, hm, BitVec.not_lt.1 hm, hmf]
  · rw [MqRegs.takeByte_plain hff]
    simp [show r.b ≠ 0xFF#8 from hff, hmf]

/-- INITDEC from its two bytes (42_mq_decoder.md R160). -/
theorem initDec_done_of_fetches {b₀ b₁ : Byte} {src₀ src₁ : Source} (hb : s.bound = .mq) (h₀ : s.Fetches b₀ src₀)
    (h₁ : (s.setSrc src₀).Fetches b₁ src₁) :
    let first : Word := (b₀ ^^^ 0xFF).setWidth 32 <<< 16
    initDec s = .done () (((s.setSrc src₁).setMq
      { a := 0x8000
        c := (if b₀ = 0xFF then (if 0x8F < b₁ then first else first + 0xFE00 - (b₁.setWidth 32 <<< 9))
              else first + 0xFF00 - (b₁.setWidth 32 <<< 8)) <<< 7
        ct := if b₀ = 0xFF ∧ b₁ ≤ 0x8F then 0 else 1
        b := b₁
        mf := decide (b₀ = 0xFF ∧ 0x8F < b₁) }).setFree { s.free with mq := false }) := by
  intro first
  have hmf : (s.firstByte b₀ src₀).mq.mf = false := rfl
  have hsnd : (s.firstByte b₀ src₀).Fetches b₁ src₁ := h₁.setMq _
  rw [initDec_of_fetches hb h₀, hsnd.byteIn ((s.firstByte_bound b₀ src₀).trans hb) hmf, Act.bind_done,
    State.setMq_mq, initRegs_eq hmf, State.firstByte_mq, State.firstByte, State.setSrc_setMq_overwritten]
  rfl

/-- The two fetches of INITDEC from a segment in CWMEM: real bytes, then fill bytes (20_memory.md R75). -/
theorem segment_fetches {base len : Word} (h₀ : 0 < len.toNat → base.toNat < s.par.cwmemSize)
    (h₁ : 1 < len.toNat → base.toNat + 1 < s.par.cwmemSize) :
    let u := s.bindSource base len .mq
    ∃ src₀, u.Fetches (if 0 < len.toNat then s.cwByte base.toNat else 0xFF) src₀ ∧
      (u.setSrc src₀).Fetches (if 1 < len.toNat then s.cwByte (base.toNat + 1) else 0xFF)
        { ranges := [(base, len)], pos := if len.toNat < 2 then len else 2, filled := decide (len.toNat < 2) } := by
  intro u
  obtain hlen | hlen | hlen : len.toNat = 0 ∨ len.toNat = 1 ∨ 1 < len.toNat := by omega
  · obtain rfl : len = 0 := BitVec.eq_of_toNat_eq hlen
    have hn : srcTotal [(base, 0)] ≤ 0 := by simp [srcTotal]
    simp only [hlen, lt_irrefl, if_false, Nat.not_lt_zero, Nat.zero_lt_two, if_true, decide_true]
    exact ⟨_, .inr ⟨hn, rfl, rfl⟩, .inr ⟨hn, rfl, rfl⟩⟩
  · obtain rfl : len = 1 := BitVec.eq_of_toNat_eq hlen
    have hn : srcTotal [(base, 1)] ≤ 1 := by simp [srcTotal]
    have ha : srcAddr [(base, 1)] 0 = some base.toNat := rfl
    simp only [hlen, lt_irrefl, if_false, Nat.zero_lt_one, Nat.one_lt_two, if_true, decide_true]
    exact ⟨_, .inl ⟨_, ha, h₀ (by omega), rfl, rfl⟩, .inr ⟨hn, rfl, rfl⟩⟩
  · have ha : ∀ i < 2, srcAddr [(base, len)] i = some (base.toNat + i) := fun i hi => by
      rw [srcAddr_single, if_pos (by omega)]
    rw [if_pos (show 0 < len.toNat by omega), if_pos hlen, if_neg (by omega), decide_eq_false (by omega)]
    exact ⟨_, .inl ⟨_, ha 0 (by omega), h₀ (by omega), rfl, rfl⟩, .inl ⟨_, ha 1 (by omega), h₁ hlen, rfl, rfl⟩⟩

/-- An MQ_INIT whose INITDEC raises fails (60_exceptions.md R342, R344). -/
theorem exec_mqInit_fails {e : Err} (hs : s.Safe) (h : bindDecoder s = .raised e u) :
    ∃ t, exec .mqInit s = .next t ∧ s.Fails t e.code := by
  obtain ⟨hst, hres⟩ := bindDecoder_fields s
  rw [h] at hst hres
  exact ⟨u.latch e, by rw [exec_mqInit hs, h, Act.outcome_raised], State.fails_latch hs hst hres e⟩

/-- A first byte beyond CWMEM_SIZE ends INITDEC (20_memory.md R72). -/
theorem initDec_outside_first {a : Nat} (ha : srcAddr s.src.ranges s.src.pos.toNat = some a)
    (hs : s.par.cwmemSize ≤ a) : ∃ u, initDec s = .raised .genericIOFailure u := by
  refine ⟨s.setMq { s.mq with mf := false }, ?_⟩
  rw [initDec, fetchByte_outside (s := s.setMq { s.mq with mf := false }) ha (Nat.not_lt.2 hs), Act.bind_raised]

/-- A second byte beyond CWMEM_SIZE ends INITDEC (20_memory.md R72). -/
theorem initDec_outside_second {a : Nat} {b : Byte} {src : Source} (hb : s.bound = .mq) (h : s.Fetches b src)
    (ha : srcAddr src.ranges src.pos.toNat = some a) (hs : s.par.cwmemSize ≤ a) :
    ∃ u, initDec s = .raised .genericIOFailure u := by
  have hf : fetchByte (s.firstByte b src) = .raised .genericIOFailure _ := fetchByte_outside ha (Nat.not_lt.2 hs)
  have hsnd : byteIn (s.firstByte b src) = .raised .genericIOFailure (s.firstByte b src) := by
    rw [byteIn, if_neg (show ¬ (s.firstByte b src).mq.mf = true from Bool.false_ne_true), hf, Act.bind_raised]
  exact ⟨_, by rw [initDec_of_fetches hb h, hsnd, Act.bind_raised]⟩

/-- Settles O31: INITDEC on the bound segment, byte by byte. -/
theorem mqInitLoadsTheDecoder : Obligations.MqInitLoadsTheDecoder := by
  unfold Obligations.MqInitLoadsTheDecoder
  intro s hs
  dsimp only
  refine ⟨fun h₀ h₁ => ⟨{ s.free with mq := false }, ?_⟩, fun hout => ?_⟩
  · obtain ⟨src₀, hf₀, hf₁⟩ := segment_fetches (base := s.csr.segBase) (len := s.csr.segLen) h₀ h₁
    rw [exec_mqInit hs, bindDecoder, initDec_done_of_fetches rfl hf₀ hf₁]
    rfl
  · have ha : ∀ i, i < s.csr.segLen.toNat →
        srcAddr [(s.csr.segBase, s.csr.segLen)] i = some (s.csr.segBase.toNat + i) := fun i hi => by
      rw [srcAddr_single, if_pos hi]
    have hraise : ∃ u, bindDecoder s = .raised .genericIOFailure u := by
      by_cases hfirst : 0 < s.csr.segLen.toNat ∧ s.par.cwmemSize ≤ s.csr.segBase.toNat
      · exact initDec_outside_first (ha 0 hfirst.1) hfirst.2
      · obtain ⟨hlen, hsnd⟩ := hout.resolve_left hfirst
        exact initDec_outside_second rfl (.inl ⟨_, ha 0 (by omega), show _ < s.par.cwmemSize by omega, rfl, rfl⟩)
          (ha 1 hlen) hsnd
    obtain ⟨u, hu⟩ := hraise
    exact exec_mqInit_fails hs hu

/-! ## MQ_DECODE -/

theorem exec_mqDecode (hs : s.Safe) (hb : s.bound = .mq) :
    exec .mqDecode s =
      ((decodeMq s.cxsel s).bind fun d t => .done () (t.setRes (bitResult d)) : Act Unit).outcome := by
  simp only [← resOfBit_eq_bitResult]
  show execMqDecode s = _
  rw [execMqDecode, runCommand_safe hs, if_pos hb]

/-- A DECODE that renormalises, as a command (42_mq_decoder.md R161). -/
theorem exec_mqDecode_renorm {d : Bool} (hs : s.Safe) (hb : s.bound = .mq)
    (h : decodeMq s.cxsel s = (renormD u).bind fun _ t => .done d t) : exec .mqDecode s = decodeEnd u d := by
  rw [exec_mqDecode hs hb, h, decodeEnd]
  cases renormD u <;> rfl

/-- DECODE adapts the context of its category alone (42_mq_decoder.md R158, R159). -/
theorem decodeMq_ctx {j : Category} (hj : j ≠ k) (s : State) : (decodeMq k s).state.ctx j = s.ctx j := by
  have hset : ∀ (u : State) e, (u.setCtx k e).ctx j = u.ctx j := fun u e =>
    Vector.getElem_set_ne k.isLt j.isLt fun he => hj (Fin.ext he.symm)
  have hren : ∀ (u : State) d, ((renormD u).bind fun _ t => .done d t : Act Bool).state.ctx j = u.ctx j := fun u d => by
    refine Act.keeps_bind (fun t => t.ctx j) ?_ fun _ _ => rfl
    have hrest := renormD_rest u
    simp only [State.mqOnlyRest, Prod.mk.injEq] at hrest
    obtain ⟨-, -, hcx⟩ := hrest
    rw [State.ctx, hcx, State.ctx]
  rcases decodeMq_cases k s with ⟨-, -, h⟩ | ⟨-, -, e, d, h⟩ | ⟨-, e, d, h⟩
  · rw [h]; rfl
  · rw [h, hren, hset]; rfl
  · rw [h, hren, hset]; rfl

/-- What MQ_DECODE keeps of the contexts and of CXSEL is stable. -/
theorem stable_ctx (p : State) :
    Stable fun u => (∀ j : Category, j ≠ p.cxsel → u.ctx j = p.ctx j) ∧ u.cxsel = p.cxsel :=
  ⟨fun u e h => by simpa only [State.ctx, State.latch_cx, State.latch_cxsel] using h, fun _ _ h => h⟩

/-- Settles O32: each outcome is the branch of DECODE that its conditions select. -/
theorem mqDecodeDecides : Obligations.MqDecodeDecides := by
  unfold Obligations.MqDecodeDecides
  refine ⟨fun s hs hb => execMqDecode_notReady hs hb, fun s hs hb => ?_⟩
  dsimp only
  refine ⟨fun hc ha => ?_, fun hc ha hq => ?_, fun hc ha hq => ?_, fun hc hq => ?_, fun hc hq => ?_, fun t h => ?_⟩
  · rw [exec_mqDecode hs hb, decodeMq_kept hc ha]
    rfl
  · have h := decodeMq_upper hc ha
    rw [if_pos hq, if_pos hq] at h
    exact exec_mqDecode_renorm hs hb h
  · have h := decodeMq_upper hc ha
    rw [if_neg (BitVec.not_lt.2 hq), if_neg (BitVec.not_lt.2 hq)] at h
    exact exec_mqDecode_renorm hs hb h
  · have h := decodeMq_lower hc
    rw [if_pos hq, if_pos hq] at h
    exact exec_mqDecode_renorm hs hb h
  · have h := decodeMq_lower hc
    rw [if_neg (BitVec.not_lt.2 hq), if_neg (BitVec.not_lt.2 hq)] at h
    exact exec_mqDecode_renorm hs hb h
  · obtain ⟨-, -, hsel⟩ := decodeMq_fields s.cxsel s
    exact (stable_ctx s).execMqDecode h ⟨fun _ _ => rfl, rfl⟩ fun _ => ⟨fun j hj => decodeMq_ctx hj s, hsel⟩

/-! ## MQ_PTERM -/

theorem exec_mqPterm (hs : s.Safe) (hb : s.bound = .mq) :
    exec .mqPterm s = ((pterm s).bind fun d t => .done () (t.setRes (bitResult d)) : Act Unit).outcome := by
  simp only [← resOfBit_eq_bitResult]
  show execMqPterm s = _
  rw [execMqPterm, runCommand_safe hs, if_pos hb]

/-- A PTERM that completes, as a command (42_mq_decoder.md R163). -/
theorem exec_mqPterm_done {d : Bool} (hs : s.Safe) (hb : s.bound = .mq) (h : pterm s = .done d t) :
    exec .mqPterm s = .next (t.setRes (bitResult d)) := by
  rw [exec_mqPterm hs hb, h]
  rfl

/-- A PTERM that raises fails the command (60_exceptions.md R342, R344). -/
theorem exec_mqPterm_fails {e : Err} (hs : s.Safe) (hb : s.bound = .mq) (h : pterm s = .raised e u) :
    ∃ t, exec .mqPterm s = .next t ∧ s.Fails t e.code := by
  obtain ⟨hst, hres, -⟩ := pterm_fields s
  rw [h] at hst hres
  exact ⟨u.latch e, by rw [exec_mqPterm hs hb, h, Act.bind_raised, Act.outcome_raised], State.fails_latch hs hst hres e⟩

end Sys2Proof.Machine
end

section
/-! PROOFS. MQ_PTERM by its cases (42_mq_decoder.md R163). -/

namespace Sys2Proof.Machine

variable {s t u : State} {n : Nat}

/-- The decoder with `n` bits left. -/
def State.withBits (s : State) (n : Nat) : State := s.setMq { s.mq with ct := BitVec.ofNat 4 n }

/-- `Q` of the termination pattern with `n` bits left (42_mq_decoder.md R163). -/
abbrev terminationQ (n : Nat) : Half := 0x8000#16 >>> (n - 1)

theorem toNat_ofNat_sub_one (h : 1 ≤ n) (hn : n < 16) : (BitVec.ofNat 4 n - 1).toNat = n - 1 := by
  have : ∀ n < 16, 1 ≤ n → (BitVec.ofNat 4 n - 1).toNat = n - 1 := by decide
  exact this n hn h

/-- The termination pattern is not met: `A` is left reduced (42_mq_decoder.md R163). -/
theorem ptermPattern_fails (h : 2 ≤ n) (hn : n < 16) (hc : u.mq.chigh < u.mq.a - terminationQ n) :
    ptermPattern (u.withBits n) = .done true (u.setMq
      { u.mq with ct := BitVec.ofNat 4 n, a := u.mq.a - terminationQ n }) := by
  have hq : ((u.withBits n).mq.ct - 1).toNat = n - 1 := toNat_ofNat_sub_one (by omega) hn
  rw [ptermPattern, hq]
  exact if_pos hc

/-- The termination pattern is met: RENORMD shifts all bits left but one out (42_mq_decoder.md R163). -/
theorem ptermPattern_holds (h : 2 ≤ n) (hn : n < 16) (hc : u.mq.a - terminationQ n ≤ u.mq.chigh) :
    ptermPattern (u.withBits n) = .done false (u.setMq
      { u.mq with
        ct := 1, a := 0x8000, c := (u.mq.c - ((u.mq.a - terminationQ n).setWidth 32 <<< 16)) <<< (n - 1) }) := by
  have hq : ((u.withBits n).mq.ct - 1).toNat = n - 1 := toNat_ofNat_sub_one (by omega) hn
  obtain ⟨m, rfl⟩ : ∃ m, n = m + 2 := ⟨n - 2, by omega⟩
  have hpow : ∀ k < 16, (0x8000#16 >>> k).toNat * 2 ^ k = 0x8000 := by decide
  have hshift : ∀ k < 16, (0x8000#16 >>> k) <<< k = 0x8000#16 := by decide
  have hbits : ∀ k < 15, BitVec.ofNat 4 (k + 1) - BitVec.ofNat 4 k = 1 := by decide
  let r : MqRegs := { u.mq with
    ct := BitVec.ofNat 4 (m + 2), a := terminationQ (m + 2),
    c := u.mq.c - ((u.mq.a - terminationQ (m + 2)).setWidth 32 <<< 16) }
  have hge : r.a.toNat * 2 ^ (m + 1) = 0x8000 := hpow (m + 1) (by omega)
  have hlt : 2 * (r.a.toNat * 2 ^ m) = 0x8000 := by rw [← hge, Nat.pow_succ', Nat.mul_left_comm]
  have hren : renormD (u.setMq r) = .done () (u.setMq (r.shifted (m + 1))) :=
    renormD_shifts (s := u.setMq r) (Nat.pos_of_mul_pos_right (hge ▸ by decide : 0 < r.a.toNat * 2 ^ (m + 1))) (by
      show r.a.toNat * 2 ^ m < _
      omega) hge.ge (by
      show m + 1 ≤ (BitVec.ofNat 4 (m + 2)).toNat
      rw [BitVec.toNat_ofNat]
      omega)
  have hregs : r.shifted (m + 1) = { r with ct := 1, a := 0x8000, c := r.c <<< (m + 1) } := by
    rw [MqRegs.shifted, show r.a <<< (m + 1) = 0x8000 from hshift (m + 1) (by omega),
      show r.ct - BitVec.ofNat 4 (m + 1) = 1 from hbits (m + 1) (by omega)]
  rw [ptermPattern, hq]
  refine (if_neg (BitVec.not_lt.2 hc)).trans ?_
  show ((renormD (u.setMq r)).bind fun _ t => .done false t) = _
  rw [hren, hregs]
  rfl

/-- No marker byte is reached: the check fails at once (42_mq_decoder.md R163). -/
theorem pterm_unreached (hmf : s.mq.mf = false) (h : s.mq.b ≠ 0xFF ∨ s.mq.ct ≠ 0) : pterm s = .done true s := by
  rw [pterm]
  by_cases hb : s.mq.b ≠ 0xFF
  · rw [if_pos ⟨hb, hmf⟩]
  · rw [if_neg (fun hc => hb hc.1), if_pos ⟨h.resolve_left hb, hmf⟩]

/-- Behind a marker with one bit left the check passes; with others the pattern decides (42_mq_decoder.md R163). -/
theorem pterm_marker (hmf : s.mq.mf = true) :
    pterm s = if s.mq.ct = 1 then .done false s
      else ptermPattern (s.withBits (if s.mq.ct = 0 then 8 else s.mq.ct.toNat)) := by
  have hno : ∀ p : Prop, ¬ (p ∧ s.mq.mf = false) := fun p hc => by rw [hmf] at hc; exact absurd hc.2 (by decide)
  rw [pterm, if_neg (hno _), if_neg (hno _)]
  by_cases h1 : s.mq.ct = 1
  · rw [if_pos h1, if_pos h1]
  · rw [if_neg h1, if_neg h1]
    by_cases h0 : s.mq.ct = 0
    · rw [if_pos h0, if_pos h0, if_neg (by simp [hmf])]
      rfl
    · rw [if_neg h0, if_neg h0, State.withBits, BitVec.ofNat_toNat, BitVec.setWidth_eq]
      rfl

/-- After a 0xFF with no bits left PTERM fetches the byte that may be the marker (42_mq_decoder.md R163). -/
theorem pterm_fetch (hmf : s.mq.mf = false) (hb : s.mq.b = 0xFF) (hct : s.mq.ct = 0) :
    pterm s = (fetchByte s).bind fun bf t =>
      if bf.1 ≤ 0x8F#8 then .done true (t.setMq { t.mq with b := bf.1 })
      else ptermPattern (t.setMq { t.mq with b := bf.1, ct := 8 }) := by
  rw [pterm, if_neg (fun hc => hc.1 hb), if_neg (fun hc => hc.1 hct), if_neg (by rw [hct]; decide), if_pos hct,
    if_pos hmf]

/-- PTERM after its fetch: a byte that is no marker fails the check, a marker is compared with eight bits left. -/
theorem pterm_fetched {b : Byte} {src : Source} (hbound : s.bound = .mq) (hmf : s.mq.mf = false) (hb : s.mq.b = 0xFF)
    (hct : s.mq.ct = 0) (hf : s.Fetches b src) :
    let u := (s.setSrc src).setMq { s.mq with b := b }
    pterm s = if b ≤ 0x8F#8 then .done true u else ptermPattern (u.withBits 8) := by
  obtain ⟨fill, hf⟩ := hf.fetchByte hbound
  rw [pterm_fetch hmf hb hct, hf]
  rfl

/-- What MQ_PTERM compares, from the decoder state `u` with `n` bits left (42_mq_decoder.md R163). -/
theorem exec_mqPterm_pattern (hs : s.Safe) (hb : s.bound = .mq) (h : pterm s = ptermPattern (u.withBits n))
    (hn : 2 ≤ n ∧ n < 16) (ha : u.mq.a = s.mq.a) (hc : u.mq.c = s.mq.c) :
    (s.mq.chigh < s.mq.a - terminationQ n → exec .mqPterm s =
      .next ((u.setMq { u.mq with ct := BitVec.ofNat 4 n, a := s.mq.a - terminationQ n }).setRes 1)) ∧
    (s.mq.a - terminationQ n ≤ s.mq.chigh → exec .mqPterm s =
      .next ((u.setMq { u.mq with
        ct := 1
        a := 0x8000
        c := (s.mq.c - ((s.mq.a - terminationQ n).setWidth 32 <<< 16)) <<< (n - 1) }).setRes 0)) := by
  have hchigh : u.mq.chigh = s.mq.chigh := by rw [MqRegs.chigh, hc]; rfl
  rw [← hchigh, ← ha, ← hc]
  exact ⟨fun hlt => exec_mqPterm_done hs hb (h.trans (ptermPattern_fails hn.1 hn.2 hlt)),
    fun hle => exec_mqPterm_done hs hb (h.trans (ptermPattern_holds hn.1 hn.2 hle))⟩

/-- The bits with which a PTERM behind a marker compares (42_mq_decoder.md R163). -/
theorem bitsLeft_range {ct : BitVec 4} (h : ct ≠ 1) :
    2 ≤ (if ct = 0 then 8 else ct.toNat) ∧ (if ct = 0 then 8 else ct.toNat) < 16 := by
  revert ct
  decide

/-- Settles O37: PTERM's cases, and its comparison from the state of each of the three ways to it. -/
theorem mqPtermChecksTheTermination : Obligations.MqPtermChecksTheTermination := by
  unfold Obligations.MqPtermChecksTheTermination
  refine ⟨fun s hs hb => execMqPterm_notReady hs hb, fun s hs hb => ⟨fun hmf h => ?_, fun hmf h => ?_,
    fun a hmf hff hct ha hout => ?_, fun u hu => ?_⟩⟩
  · exact exec_mqPterm_done hs hb (pterm_unreached hmf h)
  · exact exec_mqPterm_done hs hb (by rw [pterm_marker hmf, if_pos h])
  · have hf := fetchByte_outside ha (Nat.not_lt.2 hout)
    exact exec_mqPterm_fails hs hb (by rw [pterm_fetch hmf hff hct, hf, Act.bind_raised])
  · dsimp only
    rcases hu with ⟨hmf, hct, rfl⟩ | ⟨hmf, hff, hct, hfetch⟩
    · refine ⟨fun hno => absurd (hmf.symm.trans hno) (by decide), fun _ => ?_⟩
      exact exec_mqPterm_pattern hs hb (by rw [pterm_marker hmf, if_neg hct]) (bitsLeft_range hct) rfl rfl
    · obtain ⟨b, src, hf, rfl⟩ : ∃ b src, s.Fetches b src ∧ u = (s.setSrc src).setMq { s.mq with b := b } := by
        rcases hfetch with ⟨a, ha, hin, rfl⟩ | ⟨hend, rfl⟩
        · exact ⟨_, _, .inl ⟨a, ha, hin, rfl, rfl⟩, rfl⟩
        · exact ⟨0xFF, _, .inr ⟨hend, rfl, rfl⟩, by rw [← hff]; rfl⟩
      have hp := pterm_fetched hb hmf hff hct hf
      refine ⟨fun _ hle => exec_mqPterm_done hs hb (hp.trans (if_pos hle)), fun hm => ?_⟩
      have hgt : ¬ b ≤ 0x8F#8 := BitVec.not_le.2 (hm.resolve_left (by simp [hmf]))
      rw [if_pos hct]
      exact exec_mqPterm_pattern hs hb (hp.trans (if_neg hgt)) ⟨by decide, by decide⟩ rfl rfl

end Sys2Proof.Machine
end

section
/-! PROOFS. How the MQ commands and the MQ passes end: what they keep and what they can raise (42_mq_decoder.md R156,
R165), and what they depend on (42_mq_decoder.md R166). -/

namespace Sys2Proof.Machine

variable {α β : Type} {P Q : State → Prop} {E : Err → Prop} {s t u : State}

/-! ## Where a stretch of pseudocode can end -/

/-- The stretch completes in states of `P` alone, and raises errors of `E` alone. -/
def Act.Meets (P : State → Prop) (E : Err → Prop) (m : Act α) : Prop :=
  match m with
  | .done _ t => P t
  | .raised e _ => E e

/-- A sequence ends where its second part can, if that starts where the first part ends. -/
theorem Act.Meets.bind {m : Act α} {f : α → State → Act β} (hm : m.Meets P E) (hf : ∀ a t, P t → (f a t).Meets Q E) :
    (m.bind f).Meets Q E := by
  cases m with
  | done a t => exact hf a t hm
  | raised e t => exact hm

/-- A loop ends where its body keeps it. -/
theorem forEach_meets {f : β → State → Act Unit} (hf : ∀ b t, P t → (f b t).Meets P E) (l : List β) (h : P s) :
    (forEach f l s).Meets P E := by
  induction l generalizing s with
  | nil => exact h
  | cons b bs ih => exact (hf b s h).bind fun _ t ht => ih ht

/-- A stretch that raises nothing completes. -/
theorem Act.Meets.done {m : Act α} (h : m.Meets P fun _ => False) : ∃ a t, m = .done a t ∧ P t := by
  cases m with
  | done a t => exact ⟨a, t, rfl, h⟩
  | raised e t => exact h.elim

/-! ## The MQ decoder -/

/-- A property that the MQ decoder keeps while it decodes: it holds whatever `A`, `C`, `CT` and the contexts are, and
after a fetch whatever all the MQ registers are; a fetch raises errors of `E` alone. -/
structure DecoderKeeps (P : State → Prop) (E : Err → Prop) : Prop where
  regs : ∀ (u : State) (a : Half) (c : Word) (ct : BitVec 4), P u → P (u.setMq { u.mq with a := a, c := c, ct := ct })
  ctx : ∀ (u : State) (k : Category) (e : CxEntry), P u → P (u.setCtx k e)
  fetch : ∀ u : State, P u → u.mq.mf = false → (fetchByte u).Meets (fun t => ∀ r, P (t.setMq r)) E

theorem byteIn_meets (q : DecoderKeeps P E) (h : P s) : (byteIn s).Meets P E := by
  unfold byteIn
  split
  · exact q.regs s s.mq.a s.mq.c 8 h
  · rename_i hmf
    exact (q.fetch s h (by simpa using hmf)).bind fun bf t ht => ht _

theorem byteInIfEmpty_meets (q : DecoderKeeps P E) (h : P s) : (byteInIfEmpty s).Meets P E := by
  unfold byteInIfEmpty
  split
  · exact byteIn_meets q h
  · exact h

theorem renormLoop_meets (q : DecoderKeeps P E) (n : Nat) (h : P s) : (renormLoop n s).Meets P E := by
  induction n generalizing s with
  | zero => exact h
  | succ n ih =>
    refine (byteInIfEmpty_meets q h).bind fun _ t ht => ?_
    have hd : P (t.setMq t.mq.double) := q.regs t _ _ _ ht
    split
    · exact ih hd
    · exact hd

/-- DECODE keeps what the decoder keeps, whichever branch it takes. -/
theorem decodeMq_meets (q : DecoderKeeps P E) (k : Category) (h : P s) : (decodeMq k s).Meets P E := by
  have hren : ∀ (u : State) (d : Bool), P u → ((renormD u).bind fun _ t => .done d t : Act Bool).Meets P E :=
    fun u d hu => (renormLoop_meets q 16 hu).bind fun _ t ht => ht
  rcases decodeMq_cases k s with ⟨-, -, hk⟩ | ⟨-, -, e, d, hk⟩ | ⟨-, e, d, hk⟩ <;> rw [hk]
  · exact q.regs s _ _ _ h
  · exact hren _ d (q.ctx _ k e (q.regs s _ _ _ h))
  · exact hren _ d (q.ctx _ k e (q.regs s _ _ _ h))

theorem ptermPattern_meets (q : DecoderKeeps P E) (h : P s) : (ptermPattern s).Meets P E := by
  rw [ptermPattern]
  dsimp only
  split
  · exact q.regs s _ _ _ h
  · exact (renormLoop_meets q 16 (q.regs s _ _ _ h)).bind fun _ t ht => ht

/-- PTERM keeps what the decoder keeps. -/
theorem pterm_meets (q : DecoderKeeps P E) (h : P s) : (pterm s).Meets P E := by
  cases hmf : s.mq.mf with
  | true =>
    rw [pterm_marker hmf]
    split
    · exact h
    · exact ptermPattern_meets q (q.regs s _ _ _ h)
  | false =>
    by_cases hopen : s.mq.b ≠ 0xFF ∨ s.mq.ct ≠ 0
    · rw [pterm_unreached hmf hopen]
      exact h
    · obtain ⟨hb, hct⟩ := not_or.1 hopen
      rw [pterm_fetch hmf (not_not.1 hb) (not_not.1 hct)]
      refine (q.fetch s h hmf).bind fun bf t ht => ?_
      split
      · exact ht _
      · exact ptermPattern_meets q (ht _)

/-! ## The MQ passes -/

/-- A property that a pass of the MQ decoder keeps: it holds whatever the samples and their flags are. -/
structure PassKeeps (P : State → Prop) (E : Err → Prop) : Prop extends DecoderKeeps P E where
  samp : ∀ u v, P u → P (u.setSamp v)
  cells : ∀ u v, P u → P (u.setCells v)

section
variable (q : PassKeeps P E) (p : Nat)
include q

theorem becomeSignificant_meets (x y : Nat) (h : P s) : (becomeSignificant false p x y s).Meets P E :=
  ((decodeMq_meets q.toDecoderKeeps _ h).bind fun _ _ ht => ht : (passSign false x y s).Meets P E).bind
    fun _ t ht => q.samp _ _ (q.cells t _ ht)

theorem spVisit_meets (c : Nat × Nat) (h : P s) : (spVisit p false c s).Meets P E := by
  unfold spVisit
  split
  · exact h
  split
  · exact h
  refine (decodeMq_meets q.toDecoderKeeps _ h).bind fun d t ht => ?_
  have hv : P (t.setVis c.1 c.2) := q.cells t _ ht
  split
  · exact becomeSignificant_meets q p _ _ hv
  · exact hv

theorem mrVisit_meets (c : Nat × Nat) (h : P s) : (mrVisit p false c s).Meets P E := by
  unfold mrVisit
  split
  · exact h
  exact (decodeMq_meets q.toDecoderKeeps _ h).bind fun _ t ht => q.cells _ _ (q.samp t _ ht)

theorem cuVisit_meets (c : Nat × Nat) (h : P s) : (cuVisit p c s).Meets P E := by
  unfold cuVisit
  split
  · exact h
  refine (decodeMq_meets q.toDecoderKeeps _ h).bind fun d t ht => ?_
  split
  · exact becomeSignificant_meets q p _ _ ht
  · exact ht

omit p in
theorem runPosition_meets (h : P s) : (runPosition s).Meets P E :=
  (decodeMq_meets q.toDecoderKeeps _ h).bind fun _ _ ht =>
    (decodeMq_meets q.toDecoderKeeps _ ht).bind fun _ _ hu => hu

theorem cuColumn_meets (c : Nat × Nat) (h : P s) : (cuColumn p c s).Meets P E := by
  unfold cuColumn
  split
  · refine (decodeMq_meets q.toDecoderKeeps _ h).bind fun d t ht => ?_
    split
    · exact ht
    · exact (runPosition_meets q ht).bind fun r u hu => (becomeSignificant_meets q p _ _ hu).bind fun _ v hv =>
        forEach_meets (fun b w hw => cuVisit_meets q p b hw) _ hv
  · exact forEach_meets (fun b w hw => cuVisit_meets q p b hw) _ h

omit p in
theorem uniformBits_meets (n : Nat) (v : BitVec 4) (h : P s) : (uniformBits n v s).Meets P E := by
  induction n generalizing v s with
  | zero => exact h
  | succ n ih => exact (decodeMq_meets q.toDecoderKeeps _ h).bind fun _ t ht => ih _ ht

/-- Every pass of the MQ decoder keeps what its visits keep (44_coding_passes.md R248, R251, R257). -/
theorem runPass_meets (kind : PassKind) (p : BitVec 5) (h : P s) : (runPass kind p false s).Meets P E := by
  cases kind with
  | sp => exact (forEach_meets (fun b w hw => spVisit_meets q p.toNat b hw) _ h).bind fun _ _ ht => ht
  | mr => exact (forEach_meets (fun b w hw => mrVisit_meets q p.toNat b hw) _ h).bind fun _ _ ht => ht
  | cu =>
    refine (forEach_meets (fun b w hw => cuColumn_meets q p.toNat b hw) _ h).bind fun _ t ht => ?_
    have hv : P t.clearVis := q.cells t _ ht
    split
    · exact (uniformBits_meets q 4 0 hv).bind fun _ _ hu => hu
    · exact hv

end

/-! ## Behind a marker -/

/-- No error, a marker found, and the source and `B` those of `s` (42_mq_decoder.md R156). -/
def State.BehindMarker (s t : State) : Prop := t.Safe ∧ t.src = s.src ∧ t.mq.mf = true ∧ t.mq.b = s.mq.b

/-- Behind a marker the decoder never fetches, so that it raises nothing (42_mq_decoder.md R156). -/
theorem passKeeps_behindMarker (s : State) : PassKeeps s.BehindMarker fun _ => False where
  regs _ _ _ _ h := h
  ctx _ _ _ h := h
  fetch u h hmf := absurd (h.2.2.1.symm.trans hmf) (by decide)
  samp _ _ h := h
  cells _ _ h := h

/-- A command whose result is that of a stretch that raises nothing completes. -/
theorem next_of_meets {m : Act α} {f : α → Res} {o : Host.Outcome State Fault Refusal}
    (ho : o = (m.bind fun a t => .done () (t.setRes (f a)) : Act Unit).outcome) (hm : m.Meets P fun _ => False)
    (hres : ∀ u v, P u → P (u.setRes v)) : ∃ t, o = .next t ∧ P t := by
  obtain ⟨a, t, ht, hP⟩ := hm.done
  exact ⟨t.setRes (f a), by rw [ho, ht]; rfl, hres t _ hP⟩

/-- Settles O35: from behind a marker DECODE, PTERM and the passes stay there and raise nothing. -/
theorem nothingIsFetchedAfterAMarker : Obligations.NothingIsFetchedAfterAMarker := by
  unfold Obligations.NothingIsFetchedAfterAMarker
  intro s i hs hb hmf hi
  have h : s.BehindMarker s := ⟨hs, rfl, hmf, rfl⟩
  have q := passKeeps_behindMarker s
  have hpass : ∀ kind p, s.PassReady p.toNat false → p.toNat ≤ 30 →
      ∃ t, exec (passInstr kind p false) s = .next t ∧ s.BehindMarker t := fun kind p ⟨_, hst, hfits, _⟩ hp =>
    next_of_meets (exec_passInstr hs hst hb (fun _ => rfl) hp hfits) (runPass_meets q kind p h) fun _ _ hu => hu
  rcases hi with rfl | rfl | ⟨p, hready, hp, rfl | rfl | rfl⟩
  · exact next_of_meets (exec_mqDecode hs hb) (decodeMq_meets q.toDecoderKeeps _ h) fun _ _ hu => hu
  · exact next_of_meets (exec_mqPterm hs hb) (pterm_meets q.toDecoderKeeps h) fun _ _ hu => hu
  · exact hpass .sp p hready hp
  · exact hpass .mr p hready hp
  · exact hpass .cu p hready hp

/-! ## What the MQ commands raise -/

/-- A fetch raises GenericIOFailure alone (20_memory.md R72, R75). -/
theorem fetchByte_meets (s : State) : (fetchByte s).Meets (fun _ => True) (· = .genericIOFailure) := by
  rcases fetchByte_cases s with ⟨a, -, -, hd⟩ | ⟨-, -, hd⟩ | hd <;> rw [hd]
  · trivial
  · trivial
  · rfl

/-- While it decodes the decoder raises GenericIOFailure alone (42_mq_decoder.md R165). -/
theorem decoderKeeps_true : DecoderKeeps (fun _ => True) (· = .genericIOFailure) where
  regs _ _ _ _ _ := trivial
  ctx _ _ _ _ := trivial
  fetch u _ _ := by
    have := fetchByte_meets u
    cases hf : fetchByte u with
    | done bf t => exact fun _ => trivial
    | raised e t => rwa [hf] at this

theorem initDec_meets (s : State) : (initDec s).Meets (fun _ => True) (· = .genericIOFailure) :=
  (fetchByte_meets _).bind fun _ _ _ => (byteIn_meets decoderKeeps_true trivial).bind fun _ _ _ => trivial

/-- The error of a command whose own steps keep the status flags (60_exceptions.md R342). -/
theorem errCode_of_meets {m : Act Unit} (h : m.outcome = .next t) (hs : s.Safe) (hst : m.state.st = s.st)
    (hm : m.Meets (fun _ => True) E) (ht : ¬ t.Safe) : ∃ e, E e ∧ t.st.errCode = e.code := by
  rcases Act.outcome_cases h with rfl | ⟨e, u, rfl, rfl⟩
  · exact absurd ((congrArg BlockStatus.error hst).trans hs) ht
  · have hst : u.st = s.st := hst
    rw [State.latch_of_safe u e (by rw [hst]; exact hs)]
    exact ⟨e, hm, rfl⟩

/-- A command that returns the bit of a stretch raises what the stretch raises. -/
theorem errCode_of_bit {m : Act Bool}
    (h : (m.bind fun d t => .done () (t.setRes (bitResult d)) : Act Unit).outcome = .next t) (hs : s.Safe)
    (hst : m.state.st = s.st) (hm : m.Meets (fun _ => True) (· = .genericIOFailure)) (ht : ¬ t.Safe) :
    t.st.errCode = 2 := by
  obtain ⟨e, rfl, he⟩ := errCode_of_meets h hs (Act.keeps_bind (fun u => u.st) hst fun _ _ => rfl)
    (hm.bind fun _ _ _ => trivial) ht
  exact he

/-- A command that found no coder has the code of NotReady (60_exceptions.md R341). -/
theorem errCode_of_notReady {o : Host.Outcome State Fault Refusal} (hs : s.Safe)
    (h : ∃ u, o = .next u ∧ s.Raises u 9) (ho : o = .next t) : t.st.errCode = 9 := by
  obtain ⟨u, hu, -, hst, -⟩ := h
  obtain rfl : u = t := Host.Outcome.next.inj (hu.symm.trans ho)
  rw [hst, if_neg (by rw [hs]; decide)]

theorem mqInit_errCode (hs : s.Safe) (h : exec .mqInit s = .next t) (ht : ¬ t.Safe) : t.st.errCode = 2 := by
  rw [exec_mqInit hs] at h
  obtain ⟨e, rfl, he⟩ := errCode_of_meets h hs (bindDecoder_fields s).1 (initDec_meets _) ht
  exact he

theorem mqDecode_errCode (hs : s.Safe) (hb : s.bound = .mq) (h : exec .mqDecode s = .next t) (ht : ¬ t.Safe) :
    t.st.errCode = 2 := by
  rw [exec_mqDecode hs hb] at h
  exact errCode_of_bit h hs (decodeMq_fields s.cxsel s).1 (decodeMq_meets decoderKeeps_true _ trivial) ht

theorem mqPterm_errCode (hs : s.Safe) (hb : s.bound = .mq) (h : exec .mqPterm s = .next t) (ht : ¬ t.Safe) :
    t.st.errCode = 2 := by
  rw [exec_mqPterm hs hb] at h
  exact errCode_of_bit h hs (pterm_fields s).1 (pterm_meets decoderKeeps_true trivial) ht

/-- A completing stretch that keeps the status flags completes the command that returns its bit. -/
theorem bit_completes {m : Act Bool} {d : Bool} (hs : s.Safe) (hst : m.state.st = s.st) (hd : m = .done d u) :
    ∃ t d, (m.bind fun d t => .done () (t.setRes (bitResult d)) : Act Unit).outcome = .next t ∧ t.Safe ∧
      t.res = bitResult d := by
  subst hd
  exact ⟨u.setRes (bitResult d), d, rfl, (congrArg BlockStatus.error hst).trans hs, rfl⟩

/-- Settles O38: on a readable source no fetch raises, and a fetch and the coder's check are all that can raise. -/
theorem mqCommandsComplete : Obligations.MqCommandsComplete := by
  unfold Obligations.MqCommandsComplete
  refine ⟨fun s hs hb hr => ⟨?_, ?_⟩, fun s hs hr => ?_, fun s t i hs hi h ht => ?_⟩
  · obtain ⟨d, u, hd, -⟩ := decodeMq_done s.cxsel ⟨hr, hb⟩
    rw [exec_mqDecode hs hb]
    exact bit_completes hs (decodeMq_fields s.cxsel s).1 hd
  · obtain ⟨d, u, hd⟩ := pterm_done ⟨hr, hb⟩
    rw [exec_mqPterm hs hb]
    exact bit_completes hs (pterm_fields s).1 hd
  · obtain ⟨u, hu⟩ := initDec_done (s := s.bindSource s.csr.segBase s.csr.segLen .mq) ⟨hr, rfl⟩
    have hd : bindDecoder s = .done () u := hu
    obtain ⟨hst, -⟩ := bindDecoder_fields s
    rw [hd] at hst
    exact ⟨u, by rw [exec_mqInit hs, hd, Act.outcome_done], (congrArg BlockStatus.error hst).trans hs⟩
  · by_cases hinit : i = .mqInit
    · subst hinit
      exact .inl (mqInit_errCode hs h ht)
    by_cases hb : s.bound = .mq
    · rcases hi.resolve_left hinit with rfl | rfl
      · exact .inl (mqDecode_errCode hs hb h ht)
      · exact .inl (mqPterm_errCode hs hb h ht)
    · refine .inr ⟨?_, hinit, hb⟩
      rcases hi.resolve_left hinit with rfl | rfl
      · exact errCode_of_notReady hs (execMqDecode_notReady hs hb) h
      · exact errCode_of_notReady hs (execMqPterm_notReady hs hb) h

/-! ## Two engines -/

/-- Two runs of a stretch end alike: both complete with one value or both raise one error, in states `R` relates. -/
def Act.Same (R : State → State → Prop) (m n : Act α) : Prop :=
  match m, n with
  | .done a s, .done b t => a = b ∧ R s t
  | .raised e s, .raised f t => e = f ∧ R s t
  | .done _ _, .raised _ _ => False
  | .raised _ _, .done _ _ => False

/-- A sequence ends alike if both its parts do. -/
theorem Act.Same.bind {R : State → State → Prop} {m n : Act α} {f : α → State → Act β} (h : m.Same R n)
    (hf : ∀ a s t, R s t → (f a s).Same R (f a t)) : (m.bind f).Same R (n.bind f) := by
  cases m <;> cases n
  · obtain ⟨rfl, hR⟩ := h
    exact hf _ _ _ hR
  · exact h.elim
  · exact h.elim
  · exact h

/-- Two runs that branch alike end alike if both branches do. -/
theorem Act.Same.ite {R : State → State → Prop} {c : Prop} [Decidable c] {m m' n n' : Act α} (hm : c → m.Same R m')
    (hn : ¬ c → n.Same R n') : (if c then m else n).Same R (if c then m' else n') := by
  split
  · exact hm ‹_›
  · exact hn ‹_›

/-- Two engines with the same decoder and the same bound bytes, neither with an error (42_mq_decoder.md R166). -/
structure Twins (s t : State) : Prop where
  same : s.SameDecoder t
  left : s.Safe
  right : t.Safe

namespace Twins

theorem mq_eq (h : Twins s t) : s.mq = t.mq := h.same.1
theorem src_eq (h : Twins s t) : s.src = t.src := h.same.2.2.2.1

theorem ctx_eq (h : Twins s t) (k : Category) : s.ctx k = t.ctx k := by rw [State.ctx, State.ctx, h.same.2.1]

theorem setMq (h : Twins s t) (r : MqRegs) : Twins (s.setMq r) (t.setMq r) :=
  ⟨⟨rfl, h.same.2⟩, h.left, h.right⟩

theorem setCtx (h : Twins s t) (k : Category) (e : CxEntry) : Twins (s.setCtx k e) (t.setCtx k e) := by
  obtain ⟨⟨hmq, hcx, hsel, hrest⟩, hs, ht⟩ := h
  exact ⟨⟨hmq, by rw [State.setCtx, State.setCtx, hcx]; rfl, hsel, hrest⟩, hs, ht⟩

theorem setSrc (h : Twins s t) (src : Source) (hr : src.ranges = s.src.ranges) :
    Twins (s.setSrc src) (t.setSrc src) := by
  obtain ⟨⟨hmq, hcx, hsel, -, hsb, htb, hbytes⟩, hs, ht⟩ := h
  exact ⟨⟨hmq, hcx, hsel, rfl, hsb, htb, fun i a ha => hbytes i a (hr ▸ ha)⟩, hs, ht⟩

theorem fetchByte (h : Twins s t) : (fetchByte s).Same Twins (fetchByte t) := by
  obtain ⟨-, -, -, hsrc, hsb, htb, hbytes⟩ := h.same
  cases ha : srcAddr s.src.ranges s.src.pos.toNat with
  | some a =>
    obtain ⟨hbyte, hsize⟩ := hbytes _ a ha
    by_cases hin : a < s.par.cwmemSize
    · rw [fetchByte_real ha hin, fetchByte_real (hsrc ▸ ha) (hsize.1 hin), hbyte, ← hsrc]
      exact ⟨rfl, h.setSrc _ rfl⟩
    · rw [fetchByte_outside ha hin, fetchByte_outside (hsrc ▸ ha) fun ht => hin (hsize.2 ht)]
      exact ⟨rfl, h⟩
  | none =>
    rw [fetchByte_fill ha (by simp [hsb]), fetchByte_fill (hsrc ▸ ha) (by simp [htb]), ← hsrc]
    exact ⟨rfl, h.setSrc _ rfl⟩

theorem byteIn (h : Twins s t) : (byteIn s).Same Twins (byteIn t) := by
  unfold Machine.byteIn
  rw [← h.mq_eq]
  refine .ite (fun _ => ⟨rfl, h.setMq _⟩) fun _ => h.fetchByte.bind fun bf u v hu => ⟨rfl, ?_⟩
  rw [← hu.mq_eq]
  exact hu.setMq _

theorem byteInIfEmpty (h : Twins s t) : (byteInIfEmpty s).Same Twins (byteInIfEmpty t) := by
  unfold Machine.byteInIfEmpty
  rw [← h.mq_eq]
  exact .ite (fun _ => h.byteIn) fun _ => ⟨rfl, h⟩

theorem renormLoop (n : Nat) (h : Twins s t) : (renormLoop n s).Same Twins (renormLoop n t) := by
  induction n generalizing s t with
  | zero => exact ⟨rfl, h⟩
  | succ n ih =>
    refine h.byteInIfEmpty.bind fun _ u v hu => ?_
    rw [← hu.mq_eq]
    exact .ite (fun _ => ih (hu.setMq _)) fun _ => ⟨rfl, hu.setMq _⟩

/-- A stretch that renormalises and returns a value ends alike. -/
theorem renormD_then (h : Twins s t) (d : Bool) :
    ((renormD s).bind fun _ u => .done d u : Act Bool).Same Twins ((renormD t).bind fun _ u => .done d u) :=
  (h.renormLoop 16).bind fun _ _ _ hu => ⟨rfl, hu⟩

theorem restOfA_eq (h : Twins s t) (k : Category) : s.restOfA k = t.restOfA k := by
  rw [State.restOfA, State.restOfA, h.mq_eq, h.ctx_eq]

theorem upperPart (h : Twins s t) (k : Category) : Twins (s.upperPart k) (t.upperPart k) := by
  rw [State.upperPart, State.upperPart, ← h.restOfA_eq, ← h.mq_eq]
  exact h.setMq _

theorem lowerPart (h : Twins s t) (k : Category) : Twins (s.lowerPart k) (t.lowerPart k) := by
  rw [State.lowerPart, State.lowerPart, ← h.restOfA_eq, ← h.mq_eq, ← h.ctx_eq]
  exact h.setMq _

/-- DECODE ends alike: its branch, its exchange and its renormalisation are those of the same registers. -/
theorem decodeMq (h : Twins s t) (k : Category) : (decodeMq k s).Same Twins (decodeMq k t) := by
  have hrest := h.restOfA_eq k
  have hchigh : s.mq.chigh = t.mq.chigh := congrArg MqRegs.chigh h.mq_eq
  by_cases hc : s.mq.chigh < s.restOfA k
  · have hc' : t.mq.chigh < t.restOfA k := hchigh ▸ hrest ▸ hc
    by_cases ha : s.restOfA k < 0x8000#16
    · rw [decodeMq_upper hc ha, decodeMq_upper hc' (hrest ▸ ha), ← hrest, ← h.ctx_eq]
      exact ((h.upperPart k).setCtx k _).renormD_then _
    · rw [decodeMq_kept hc (BitVec.not_lt.1 ha), decodeMq_kept hc' (hrest ▸ BitVec.not_lt.1 ha), ← h.ctx_eq]
      exact ⟨rfl, h.upperPart k⟩
  · rw [decodeMq_lower (BitVec.not_lt.1 hc), decodeMq_lower (hchigh ▸ hrest ▸ BitVec.not_lt.1 hc), ← hrest, ← h.ctx_eq]
    exact ((h.lowerPart k).setCtx k _).renormD_then _

theorem ptermPattern (h : Twins s t) : (ptermPattern s).Same Twins (ptermPattern t) := by
  rw [Machine.ptermPattern, Machine.ptermPattern, ← h.mq_eq]
  exact .ite (fun _ => ⟨rfl, h.setMq _⟩) fun _ => ((h.setMq _).setMq _).renormD_then false

/-- PTERM ends alike. -/
theorem pterm (h : Twins s t) : (pterm s).Same Twins (pterm t) := by
  have hmq := h.mq_eq
  cases hmf : s.mq.mf with
  | true =>
    rw [pterm_marker hmf, pterm_marker (hmq ▸ hmf), State.withBits, State.withBits, ← hmq]
    exact .ite (fun _ => ⟨rfl, h⟩) fun _ => (h.setMq _).ptermPattern
  | false =>
    by_cases hopen : s.mq.b ≠ 0xFF ∨ s.mq.ct ≠ 0
    · rw [pterm_unreached hmf hopen, pterm_unreached (hmq ▸ hmf) (hmq ▸ hopen)]
      exact ⟨rfl, h⟩
    · obtain ⟨hb, hct⟩ := not_or.1 hopen
      have hb := not_not.1 hb
      have hct := not_not.1 hct
      rw [pterm_fetch hmf hb hct, pterm_fetch (hmq ▸ hmf) (hmq ▸ hb) (hmq ▸ hct)]
      refine h.fetchByte.bind fun bf u v hu => ?_
      rw [← hu.mq_eq]
      exact .ite (fun _ => ⟨rfl, hu.setMq _⟩) fun _ => (hu.setMq _).ptermPattern

end Twins

/-- Two commands that return the bits of stretches that end alike leave the same decoder, result and error. -/
theorem same_of_bits {m n : Act Bool} {t₁ t₂ : State} (h : m.Same Twins n)
    (h₁ : (m.bind fun d t => .done () (t.setRes (bitResult d)) : Act Unit).outcome = .next t₁)
    (h₂ : (n.bind fun d t => .done () (t.setRes (bitResult d)) : Act Unit).outcome = .next t₂) :
    t₁.mq = t₂.mq ∧ t₁.cx = t₂.cx ∧ t₁.src = t₂.src ∧ t₁.st.error = t₂.st.error ∧
      (¬ t₁.Safe → t₁.st.errCode = t₂.st.errCode) ∧ (t₁.Safe → t₁.res = t₂.res) := by
  cases m <;> cases n
  case done.done d u d' v =>
    obtain ⟨rfl, ⟨hmq, hcx, -, hsrc, -⟩, hu, hv⟩ := h
    cases h₁
    cases h₂
    exact ⟨hmq, hcx, hsrc, hu.trans hv.symm, fun hne => absurd hu hne, fun _ => rfl⟩
  case done.raised => exact h.elim
  case raised.done => exact h.elim
  case raised.raised e u e' v =>
    obtain ⟨rfl, ⟨hmq, hcx, -, hsrc, -⟩, hu, hv⟩ := h
    cases h₁
    cases h₂
    rw [State.latch_of_safe u e hu, State.latch_of_safe v e hv]
    exact ⟨hmq, hcx, hsrc, rfl, fun _ => rfl, fun hs => absurd hs (by simp)⟩

/-- Settles O39: DECODE and PTERM end alike from twins. -/
theorem mqResultsDependOnTheDecoderAlone : Obligations.MqResultsDependOnTheDecoderAlone := by
  unfold Obligations.MqResultsDependOnTheDecoderAlone
  intro s₁ s₂ t₁ t₂ i hs₁ hs₂ hsame hi h₁ h₂
  have htwins : Twins s₁ s₂ := ⟨hsame, hs₁, hs₂⟩
  obtain ⟨-, -, hsel, -, hb₁, hb₂, -⟩ := hsame
  rcases hi with rfl | rfl
  · rw [exec_mqDecode hs₁ hb₁] at h₁
    rw [exec_mqDecode hs₂ hb₂, ← hsel] at h₂
    exact same_of_bits (htwins.decodeMq s₁.cxsel) h₁ h₂
  · rw [exec_mqPterm hs₁ hb₁] at h₁
    rw [exec_mqPterm hs₂ hb₂] at h₂
    exact same_of_bits htwins.pterm h₁ h₂

end Sys2Proof.Machine
end

section
/-! PROOFS. The context model: CX_RESET, CX_SELECT and CX_READ, the neighbours at integer coordinates, and the labels. -/

namespace Sys2Proof.Machine

variable {s : State}

/-! ## The commands -/

/-- The word of a context is its state index with the MPS at bit 8 (43_context_model.md R205). -/
theorem CxEntry.word_eq (e : CxEntry) : e.word = BitVec.ofNat 64 ((if e.MPS then 256 else 0) + e.I.val) := by
  obtain ⟨i, m⟩ := e
  cases m <;> revert i <;> decide

theorem exec_cxReset (hs : s.Safe) : exec .cxReset s = .next s.resetContexts := by
  show execCxReset s = _
  rw [execCxReset, runCommand_safe hs, Act.outcome_done]

theorem exec_cxSelect {k : BitVec 5} (hs : s.Safe) (h : k.toNat < 19) :
    exec (.cxSelect k) s = .next (s.setCxsel ⟨k.toNat, h⟩) := by
  show execCxSelect k s = _
  have hc : categoryOf k = some ⟨k.toNat, h⟩ := dif_pos h
  rw [execCxSelect, decide_eq_true (show CategoryLegal k from h), runCommand_safe hs, hc, Act.outcome_done]

/-- A context category out of range is IllegalCommand in every state (30_encoding.md R97). -/
theorem exec_cxSelect_illegal {k : BitVec 5} (h : 19 ≤ k.toNat) :
    exec (.cxSelect k) s = .next (s.latch .illegalCommand) := by
  show execCxSelect k s = _
  rw [execCxSelect, decide_eq_false (show ¬ CategoryLegal k from Nat.not_lt.2 h), runCommand, if_pos rfl]

theorem exec_cxRead (hs : s.Safe) : exec .cxRead s = .next (s.setRes (s.ctx s.cxsel).word) := by
  show execCxRead s = _
  rw [execCxRead, runCommand_safe hs, Act.outcome_done]

/-- Settles O40: each command is its one write, and an illegal category is latched before the state is read. -/
theorem contextCommands : Obligations.ContextCommands := by
  unfold Obligations.ContextCommands
  refine ⟨fun s hs => ⟨s.resetContexts, exec_cxReset hs, rfl, State.ctx_of_initial rfl⟩,
    fun s k hs h => exec_cxSelect hs h,
    fun s k h => ⟨_, exec_cxSelect_illegal h, s.raises_latch .illegalCommand⟩, fun s hs => ?_⟩
  rw [exec_cxRead hs, CxEntry.word_eq]

/-! ## Neighbours -/

/-- A neighbour in padded coordinates is the cell one column to the left and one row up (43_context_model.md R208, R209). -/
theorem State.seen_eq_neighbour (s : State) (y : Nat) {u w : Nat} {i j : Int} (hi : (u : Int) = i + 1)
    (hj : (w : Int) = j + 1) : s.seen y u w = s.neighbour y i j := by
  have hidden : s.causallyHidden y w ↔ s.cfg.causal = true ∧ y % 4 = 3 ∧ j = y + 1 := by
    have hw : w = y + 2 ↔ j = y + 1 := by omega
    rw [State.causallyHidden, hw, Config.stripeH]
  have inside : (1 ≤ u ∧ u ≤ s.cfg.w ∧ 1 ≤ w ∧ w ≤ s.cfg.h) ↔ (0 ≤ i ∧ i < s.cfg.w ∧ 0 ≤ j ∧ j < s.cfg.h) := by
    omega
  rw [State.seen, State.neighbour, State.paddedCell]
  simp only [hidden, inside]
  have hu : u - 1 = i.toNat := by omega
  have hw : w - 1 = j.toNat := by omega
  rw [hu, hw]
  by_cases hc : s.cfg.causal = true ∧ y % 4 = 3 ∧ j = y + 1
  · rw [if_pos hc, if_neg fun h => h.2.2.2.2 hc]
  · rw [if_neg hc]
    exact if_congr ⟨fun ⟨a, b, c, d⟩ => ⟨a, b, c, d, hc⟩, fun ⟨a, b, c, d, _⟩ => ⟨a, b, c, d⟩⟩ rfl rfl

theorem State.sigma_eq_sigmaAt (s : State) (y : Nat) {u w : Nat} {i j : Int} (hi : (u : Int) = i + 1)
    (hj : (w : Int) = j + 1) : s.sigma y u w = s.sigmaAt y i j := by
  rw [State.sigma, State.sigmaAt, s.seen_eq_neighbour y hi hj]
  cases (s.neighbour y i j).SIG <;> rfl

theorem State.chi_eq_chiAt (s : State) (y : Nat) {u w : Nat} {i j : Int} (hi : (u : Int) = i + 1)
    (hj : (w : Int) = j + 1) : (s.seen y u w).chi = s.chiAt y i j := by
  rw [State.chiAt, ← s.seen_eq_neighbour y hi hj, SampleFlags.chi]

/-- Settles O41: each of the eight neighbours is that of the padded coordinates. -/
theorem neighbourCounts : Obligations.NeighbourCounts := by
  unfold Obligations.NeighbourCounts
  intro s x y _
  refine ⟨congrArg₂ (· + ·) ?_ ?_, congrArg₂ (· + ·) ?_ ?_,
    congrArg₂ (· + ·) (congrArg₂ (· + ·) (congrArg₂ (· + ·) ?_ ?_) ?_) ?_⟩
  all_goals exact s.sigma_eq_sigmaAt y (by omega) (by omega)

/-! ## Sign labels -/

theorem clampSign_eq (t : Int) : clampSign t = max (-1) (min 1 t) := by
  unfold clampSign
  split
  · omega
  · split <;> omega

theorem State.hSign_eq (s : State) (x y : Nat) :
    s.hSign x y = max (-1) (min 1 (s.chiAt y (x - 1 : Int) y + s.chiAt y (x + 1 : Int) y)) := by
  rw [State.hSign, clampSign_eq, s.chi_eq_chiAt y (i := (x : Int) - 1) (j := y) (by omega) (by omega),
    s.chi_eq_chiAt y (i := (x : Int) + 1) (j := y) (by omega) (by omega)]

theorem State.vSign_eq (s : State) (x y : Nat) :
    s.vSign x y = max (-1) (min 1 (s.chiAt y x (y - 1 : Int) + s.chiAt y x (y + 1 : Int))) := by
  rw [State.vSign, clampSign_eq, s.chi_eq_chiAt y (i := x) (j := (y : Int) - 1) (by omega) (by omega),
    s.chi_eq_chiAt y (i := x) (j := (y : Int) + 1) (by omega) (by omega)]

theorem State.sc_eq {hc vc : Int} (s : State) (x y : Nat) (hh : s.hSign x y = hc) (hv : s.vSign x y = vc) :
    s.sc x y = scOf hc vc := by
  rw [State.sc, hh, hv]

/-- Settles O42: the label is the table at the clamped sums, and each row is an entry of the table. -/
theorem signLabels : Obligations.SignLabels := by
  unfold Obligations.SignLabels
  intro s x y _
  simp only [← State.hSign_eq, ← State.vSign_eq]
  refine ⟨?_, ?_, ?_, ?_, ?_, ?_, ?_, ?_, ?_⟩ <;> exact fun hh hv => (s.sc_eq x y hh hv).trans (by decide)

/-! ## Significance and refinement labels -/

theorem State.sigma_le_one (s : State) (y u w : Nat) : s.sigma y u w ≤ 1 := Bool.toNat_le _

theorem State.hCount_le (s : State) (x y : Nat) : s.hCount x y ≤ 2 := by
  have := s.sigma_le_one y
  exact Nat.add_le_add (this _ _) (this _ _)

theorem State.vCount_le (s : State) (x y : Nat) : s.vCount x y ≤ 2 := by
  have := s.sigma_le_one y
  exact Nat.add_le_add (this _ _) (this _ _)

theorem State.dCount_le (s : State) (x y : Nat) : s.dCount x y ≤ 4 := by
  have := s.sigma_le_one y
  exact Nat.add_le_add (Nat.add_le_add (Nat.add_le_add (this _ _) (this _ _)) (this _ _)) (this _ _)

/-- The rows of the table for LL and LH (43_context_model.md R210). -/
theorem zcTable_rows (h v d : Nat) :
    (h = 2 → zcTable h v d = 8) ∧ (h = 1 → 1 ≤ v → zcTable h v d = 7) ∧
    (h = 1 → v = 0 → 1 ≤ d → zcTable h v d = 6) ∧ (h = 1 → v = 0 → d = 0 → zcTable h v d = 5) ∧
    (h = 0 → v = 2 → zcTable h v d = 4) ∧ (h = 0 → v = 1 → zcTable h v d = 3) ∧
    (h = 0 → v = 0 → 2 ≤ d → zcTable h v d = 2) ∧ (h = 0 → v = 0 → d = 1 → zcTable h v d = 1) ∧
    (h = 0 → v = 0 → d = 0 → zcTable h v d = 0) := by
  refine ⟨?_, ?_, ?_, ?_, ?_, ?_, ?_, ?_, ?_⟩ <;> simp +contextual [zcTable]

/-- The rows of the table for HH (43_context_model.md R210). -/
theorem zcTableHH_rows (hv d : Nat) :
    (3 ≤ d → zcTableHH hv d = 8) ∧ (d = 2 → 1 ≤ hv → zcTableHH hv d = 7) ∧ (d = 2 → hv = 0 → zcTableHH hv d = 6) ∧
    (d = 1 → 2 ≤ hv → zcTableHH hv d = 5) ∧ (d = 1 → hv = 1 → zcTableHH hv d = 4) ∧
    (d = 1 → hv = 0 → zcTableHH hv d = 3) ∧ (d = 0 → 2 ≤ hv → zcTableHH hv d = 2) ∧
    (d = 0 → hv = 1 → zcTableHH hv d = 1) ∧ (d = 0 → hv = 0 → zcTableHH hv d = 0) := by
  refine ⟨?_, ?_, ?_, ?_, ?_, ?_, ?_, ?_, ?_⟩ <;> simp +contextual [zcTableHH]

/-- The table for LL and LH is the one for HL with `h` and `v` exchanged (43_context_model.md R210). -/
theorem State.zc_eq_zcTable {x y a b : Nat}
    (h : (s.cfg.orient = .LL ∨ s.cfg.orient = .LH) ∧ a = s.hCount x y ∧ b = s.vCount x y ∨
      s.cfg.orient = .HL ∧ a = s.vCount x y ∧ b = s.hCount x y) : s.zc x y = zcTable a b (s.dCount x y) := by
  unfold State.zc
  rcases h with ⟨ho | ho, rfl, rfl⟩ | ⟨ho, rfl, rfl⟩ <;> rw [ho] <;> rfl

theorem State.zc_eq_zcTableHH {x y : Nat} (h : s.cfg.orient = .HH) :
    s.zc x y = zcTableHH (s.hCount x y + s.vCount x y) (s.dCount x y) := by
  unfold State.zc
  rw [h]
  rfl

/-- Settles O43: the labels are the rows of the two tables at the counts, which are sums of bits. -/
theorem significanceAndRefinementLabels : Obligations.SignificanceAndRefinementLabels := by
  unfold Obligations.SignificanceAndRefinementLabels
  intro s x y
  refine ⟨fun a b h => ?_, fun h => ?_, s.hCount_le x y, s.vCount_le x y, s.dCount_le x y, fun hr => ?_, fun hr hn => ?_,
    fun hr hn => ?_⟩
  · rw [State.zc_eq_zcTable h]
    exact zcTable_rows a b (s.dCount x y)
  · rw [State.zc_eq_zcTableHH h]
    exact zcTableHH_rows _ _
  · rw [State.mrLabel, if_pos hr]
  · rw [State.mrLabel, if_neg (by simp [hr]), if_pos hn]
  · rw [State.mrLabel, if_neg (by simp [hr]), if_neg (by omega)]

end Sys2Proof.Machine
end

section
/-! PROOFS. A pass command is the decisions of its pass, one after another: the whole next state of PASS_SP and PASS_CU, up
to the first error if there is one, and the registers a pass command writes. -/

namespace Sys2Proof.Machine

variable {β : Type} {s t u : State} {raw : Bool} {p : BitVec 5}

/-! ## A pass that may run -/

theorem State.PassReady.deciding (h : s.PassReady p.toNat raw) : Deciding raw s := by
  obtain ⟨hs, -, -, hmq, hbr⟩ := h
  cases raw
  · exact ⟨hs, hmq rfl⟩
  · exact ⟨hs, hbr rfl⟩

/-- A ready pass with a coder that can read is clean (42_mq_decoder.md R165, 41_bit_reader.md R123). -/
theorem State.PassReady.passClean (h : s.PassReady p.toNat raw) (hc : s.CoderClean raw) : PassClean raw s := by
  obtain ⟨-, -, -, hmq, hbr⟩ := h
  cases raw
  · exact ⟨hc.1, hmq rfl⟩
  · exact ⟨hc.1, hc.2 rfl, (hbr rfl).2⟩

theorem State.PassReady.checks (h : s.PassReady p.toNat raw) :
    s.Safe ∧ s.st.started = true ∧ s.PlaneFits p.toNat := by
  obtain ⟨hs, hst, hfits, -⟩ := h
  exact ⟨hs, hst, hfits⟩

theorem State.PassReady.passSound (h : s.PassReady p.toNat raw) (hi : s.Inv) : PassSound s.cfg p.toNat s := by
  obtain ⟨-, hst, hfits⟩ := h.checks
  exact hi.passSound hst hfits

/-- A ready PASS_SP is its pass, the error signal in RES (44_coding_passes.md R250). -/
theorem exec_passSp (hp : p.toNat ≤ 30) (h : s.PassReady p.toNat raw) :
    exec (.passSp p raw) s =
      ((spPass p.toNat raw s).bind fun err t => .done () (t.setRes (resOfBit err)) : Act Unit).outcome := by
  obtain ⟨hs, hst, hfits⟩ := h.checks
  exact exec_passInstr (kind := .sp) hs hst h.deciding.ready nofun hp hfits

/-- A ready PASS_CU is its pass, the error signal in RES (44_coding_passes.md R260). -/
theorem exec_passCu (hp : p.toNat ≤ 30) (h : s.PassReady p.toNat false) :
    exec (.passCu p) s =
      ((cuPass p.toNat s).bind fun err t => .done () (t.setRes (resOfBit err)) : Act Unit).outcome := by
  obtain ⟨hs, hst, hfits⟩ := h.checks
  exact exec_passInstr (kind := .cu) hs hst h.deciding.ready (fun _ => rfl) hp hfits

/-- A command that ends without an error ran its pass to the end. -/
theorem pass_done_of_outcome {m : Act Bool}
    (h : (m.bind fun err t => .done () (t.setRes (resOfBit err)) : Act Unit).outcome = .next t) (ht : t.Safe) :
    ∃ err u, m = .done err u ∧ t = u.setRes (resOfBit err) := by
  cases m with
  | done err u => exact ⟨err, u, rfl, by cases h; rfl⟩
  | raised e u => cases h; exact absurd ht (not_safe_latch u e)

/-! ## The loop of a pass -/

/-- The loop of a pass ends where the fold of its steps ends, when each step is its part of the pass told by decisions. -/
theorem forEach_ended_steps {f : β → State → Act Unit} {g : State → β → State} (l : List β)
    (hframe : ∀ b t, (f b t).state.passFrame raw = t.passFrame raw)
    (hstep : ∀ b t, Deciding raw t → t.cfg = s.cfg → (f b t).ended = g t b)
    (herr : ∀ b (t : State), t.st.error = true → g t b = t) (h : Deciding raw s) :
    (forEach f l s).ended = l.foldl g s := by
  refine forEach_ended (fun t => Deciding raw t ∧ t.cfg = s.cfg) (fun b _ t ht => hstep b t ht.1 ht.2) herr ?_ ⟨h, rfl⟩
  rintro b - t u ⟨ht, hcfg⟩ hd
  obtain ⟨hu, hcu⟩ := ht.of_step (hframe b t) hd
  exact ⟨hu, hcu.trans hcfg⟩

/-- The significance pass ends where its steps end, and its command writes RES if none of them raised
(44_coding_passes.md R248, R250). -/
theorem spPass_outcome (p : Nat) (h : Deciding raw s) :
    ((spPass p raw s).bind fun err t => .done () (t.setRes (resOfBit err)) : Act Unit).outcome =
      .next (s.spSteps raw (p + s.cfg.shift.toNat)) := by
  have hended := forEach_ended_steps (scan s.cfg.w s.cfg.h) (fun b t => spVisit_passFrame p raw b t)
    (fun b t ht hc => hc ▸ spVisit_ended p b ht) (fun b t ht => State.spStep_error ht raw _ b) h
  simp only [spPass, State.spSteps, ← hended]
  cases hd : forEach (spVisit p raw) (scan s.cfg.w s.cfg.h) s with
  | done a t =>
    have ht := (h.of_step (forEach_keeps _ (fun b t => spVisit_passFrame p raw b t) _ s) hd).1
    rw [Act.ended_done, if_pos ht.safe]
    rfl
  | raised e t =>
    rw [Act.ended_raised, if_neg (not_safe_latch t e)]
    rfl

/-! ## The segmentation symbol -/

/-- `n` decisions with context 18 below the bits of `v`, the first one on top (44_coding_passes.md R261). -/
def State.uniformSteps : Nat → Nat → State → Nat × State
  | 0, v, s => (v, s)
  | n + 1, v, s => State.uniformSteps n (2 * v + (s.decision false 18).1.toNat) (s.decision false 18).2

theorem State.symbolStep_eq (s : State) : s.symbolStep = State.uniformSteps 4 0 s := by
  refine Prod.ext ?_ rfl
  simp only [State.symbolStep, State.uniformSteps]
  omega

theorem State.symbolStep_lt (s : State) : s.symbolStep.1 < 16 := by
  have bit : ∀ b : Bool, b.toNat ≤ 1 := Bool.toNat_le
  have h1 := bit (s.decision false 18).1
  have h2 := bit ((s.decision false 18).2.decision false 18).1
  have h3 := bit (((s.decision false 18).2.decision false 18).2.decision false 18).1
  have h4 := bit ((((s.decision false 18).2.decision false 18).2.decision false 18).2.decision false 18).1
  simp only [State.symbolStep]
  omega

theorem State.uniformSteps_error (n v : Nat) (h : s.st.error = true) : (State.uniformSteps n v s).2 = s := by
  induction n generalizing v with
  | zero => rfl
  | succ n ih => rw [State.uniformSteps, State.decision_error h]; exact ih _

/-- One more bit of the symbol below those decoded so far. -/
theorem shiftIn_symbol (v : Nat) (d : Bool) :
    (BitVec.ofNat 4 v <<< 1) ||| (BitVec.ofBool d).setWidth 4 = BitVec.ofNat 4 (2 * v + d.toNat) := by
  have h : ∀ (w : BitVec 4) (d : Bool),
      (w <<< 1) ||| (BitVec.ofBool d).setWidth 4 = w + w + BitVec.ofNat 4 d.toNat := by decide
  rw [h, Nat.two_mul, BitVec.ofNat_add, BitVec.ofNat_add]

/-- The decisions of the symbol: the bits read and the state behind them, or the first error. -/
theorem uniformBits_cases (n v : Nat) (h : Deciding false s) :
    (∃ t, uniformBits n (BitVec.ofNat 4 v) s = .done (BitVec.ofNat 4 (State.uniformSteps n v s).1) t ∧
        (State.uniformSteps n v s).2 = t ∧ t.Safe) ∨
      ∃ e t, uniformBits n (BitVec.ofNat 4 v) s = .raised e t ∧ (State.uniformSteps n v s).2 = t.latch e := by
  induction n generalizing v s with
  | zero => exact .inl ⟨s, rfl, rfl, h.safe⟩
  | succ n ih =>
    simp only [uniformBits, State.uniformSteps]
    change (∃ t, (passBit false 18 s).bind _ = _ ∧ _) ∨ ∃ e t, (passBit false 18 s).bind _ = _ ∧ _
    rcases h.cases 18 with ⟨d, t, hd, hdec, ht⟩ | ⟨e, t, hd, hdec⟩
    · simp only [hd, hdec, Act.bind_done, shiftIn_symbol]
      exact ih _ ht
    · exact .inr ⟨e, t, by rw [hd, Act.bind_raised], by
        rw [hdec, State.uniformSteps_error n _ (State.latch_error t e)]⟩

/-- The segmentation-symbol check is the four decisions of the symbol, which is compared with 1010
(44_coding_passes.md R261). -/
theorem segSymCheck_outcome (h : Deciding false s) :
    ((segSymCheck s).bind fun err t => .done () (t.setRes (resOfBit err)) : Act Unit).outcome =
      .next (if s.symbolStep.2.Safe then s.symbolStep.2.setRes (bitResult (s.symbolStep.1 ≠ 10))
        else s.symbolStep.2) := by
  have hlt := s.symbolStep_lt
  rw [State.symbolStep_eq] at hlt ⊢
  have hne : ∀ v < 16, (BitVec.ofNat 4 v != 0b1010#4) = decide (v ≠ 10) := by decide
  simp only [segSymCheck]
  rcases uniformBits_cases 4 0 h with ⟨t, hd, ht, hsafe⟩ | ⟨e, t, hd, ht⟩
  · rw [show (0 : BitVec 4) = BitVec.ofNat 4 0 from rfl, hd, ht, if_pos hsafe, Act.bind_done, Act.bind_done, hne _ hlt,
      resOfBit_eq_bitResult]
    rfl
  · rw [show (0 : BitVec 4) = BitVec.ofNat 4 0 from rfl, hd, ht, if_neg (not_safe_latch t e)]
    rfl

/-- The cleanup pass ends where its steps end (44_coding_passes.md R257, R260). -/
theorem cuPass_outcome (p : Nat) (h : Deciding false s) :
    ((cuPass p s).bind fun err t => .done () (t.setRes (resOfBit err)) : Act Unit).outcome =
      .next (s.cuSteps (p + s.cfg.shift.toNat)) := by
  have hended := forEach_ended_steps (columns s.cfg.w s.cfg.h) (fun b t => cuColumn_passFrame p b t)
    (fun b t ht hc => hc ▸ cuColumn_ended p b ht) (fun b t ht => State.cuColumnStep_error ht _ b) h
  simp only [cuPass, State.cuSteps, ← hended]
  cases hd : forEach (cuColumn p) (columns s.cfg.w s.cfg.h) s with
  | done a t =>
    obtain ⟨ht, hcfg⟩ := h.of_step (forEach_keeps _ (fun b t => cuColumn_passFrame p b t) _ s) hd
    have htv : Deciding false t.clearVis := ⟨ht.safe, ht.ready⟩
    rw [Act.bind_done, Act.ended_done, if_neg (not_not.2 ht.safe), hcfg]
    cases s.cfg.segSym with
    | false => rfl
    | true => exact segSymCheck_outcome htv
  | raised e t =>
    rw [Act.ended_raised, if_pos (not_safe_latch t e)]
    rfl

/-! ## The registers a pass writes -/

/-- What a pass keeps is the frame of its command (44_coding_passes.md R250, R255, R260). -/
theorem State.passFrame_of_passFrame (h : u.passFrame raw = s.passFrame raw) (v : Res) : s.PassFrame raw (u.setRes v) := by
  simp only [State.passFrame, State.passRest, Prod.mk.injEq] at h
  obtain ⟨⟨hpar, hcwmem, hhostq, hcsr, hranges, hbound, hres, hcxsel, hcfg, hcur, hst, hfree, hmode⟩, hmq, hbr⟩ := h
  refine ⟨?_, hranges, hmode, ?_, ?_⟩
  · apply State.ext <;> simp [*]
  · rintro rfl; simpa using hmq
  · rintro rfl; simpa using hbr

end Sys2Proof.Machine
end

section
/-! PROOFS. What a pass does to each coefficient: a visit writes one coefficient at most, and the visits of a loop add up.
Then the significance pass. -/

namespace Sys2Proof.Machine

variable {α β : Type} {s t u : State} {effect : SampleFlags → SampleFlags → Word → Word → Prop} {cfg : BlockConfig}
  {p x y : Nat} {raw : Bool} {f g : SampleFlags} {v w : Word}

/-! ## Where pseudocode that completes ends -/

/-- What holds of the state a stretch leaves holds of the one it completes in. -/
theorem Act.of_done {P : State → Prop} {m : Act α} {a : α} (h : P m.state) (hd : m = .done a t) : P t := by
  subst hd
  exact h

theorem forEach_cons_done {f : β → State → Act Unit} {b : β} {l : List β} :
    forEach f (b :: l) s = .done () t ↔ ∃ u, f b s = .done () u ∧ forEach f l u = .done () t := by
  rw [forEach, Act.bind_eq_done]
  exact ⟨fun ⟨_, u, h⟩ => ⟨u, h⟩, fun ⟨u, h⟩ => ⟨(), u, h⟩⟩

/-- A loop that completes keeps a property that its body keeps where it completes. -/
theorem forEach_done_keeps (P : State → Prop) {f : β → State → Act Unit} {l : List β}
    (h : ∀ b ∈ l, ∀ u v, P u → f b u = .done () v → P v) (hs : P s) (hd : forEach f l s = .done () t) : P t := by
  induction l generalizing s with
  | nil => cases hd; exact hs
  | cons b bs ih =>
    obtain ⟨u, hb, hd⟩ := forEach_cons_done.1 hd
    exact ih (fun c hc => h c (List.mem_cons_of_mem _ hc)) (h b List.mem_cons_self s u hs hb) hd

/-! ## One coefficient written -/

/-- `t` is `s` with the flags and the word of `(x, y)` written and those of no other coordinates. -/
structure State.Rewrites (s : State) (x y : Nat) (f : SampleFlags) (v : Word) (t : State) : Prop where
  flags : t.cell x y = f
  word : t.sampRead x y = v
  others : ∀ x' y', x' < Config.maxSide → ¬ (x' = x ∧ y' = y) →
    t.cell x' y' = s.cell x' y' ∧ t.sampRead x' y' = s.sampRead x' y'

theorem State.Rewrites.trans (h : s.Rewrites x y f v t) (h' : t.Rewrites x y g w u) : s.Rewrites x y g w u where
  flags := h'.flags
  word := h'.word
  others x' y' hx hne := by
    obtain ⟨hc, hv⟩ := h.others x' y' hx hne
    obtain ⟨hc', hv'⟩ := h'.others x' y' hx hne
    exact ⟨hc'.trans hc, hv'.trans hv⟩

theorem State.Rewrites.of_same (hcells : u.cells = s.cells) (hsamp : u.samp = s.samp) (h : u.Rewrites x y f v t) :
    s.Rewrites x y f v t where
  flags := h.flags
  word := h.word
  others x' y' hx hne := by
    obtain ⟨hc, hv⟩ := h.others x' y' hx hne
    exact ⟨by rw [hc, State.cell, State.cell, hcells], by rw [hv, State.sampRead, State.sampRead, hsamp]⟩

theorem State.rewrites_setCell (h : Sparse.WF SampleFlags.clear s.cells) (hx : x < Config.maxSide) (f : SampleFlags) :
    s.Rewrites x y f (s.sampRead x y) (s.setCell x y f) where
  flags := by rw [State.cell_setCell h hx hx, if_pos ⟨rfl, rfl⟩]
  word := rfl
  others x' y' hx' hne := ⟨by rw [State.cell_setCell h hx hx', if_neg hne], rfl⟩

theorem State.rewrites_sampWrite (h : Sparse.WF (0 : Word) s.samp) (hx : x < Config.maxSide) (v : Word) :
    s.Rewrites x y (s.cell x y) v (s.sampWrite x y v) where
  flags := rfl
  word := by rw [State.sampRead_sampWrite h hx hx, if_pos ⟨rfl, rfl⟩]
  others x' y' hx' hne := ⟨rfl, by rw [State.sampRead_sampWrite h hx hx', if_neg hne]⟩

/-! ## Effects -/

/-- An effect that a coefficient left alone has, and that two changes of a coefficient have if each of them has it. -/
structure Composes (effect : SampleFlags → SampleFlags → Word → Word → Prop) : Prop where
  refl : ∀ c v, effect c c v v
  trans : ∀ {c c' c'' v v' v''}, effect c c' v v' → effect c' c'' v' v'' → effect c c'' v v''

/-- A part of a pass: from a sound block to a sound block of the same configuration, every coefficient with the effect. -/
structure PassPart (effect : SampleFlags → SampleFlags → Word → Word → Prop) (cfg : BlockConfig) (p : Nat)
    (s t : State) : Prop where
  before : PassSound cfg p s
  after : PassSound cfg p t
  effect : s.PassEffect effect t

theorem PassPart.of_same (hc : Composes effect) (hs : PassSound cfg p s) (ht : PassSound cfg p t)
    (hcells : t.cells = s.cells) (hsamp : t.samp = s.samp) : PassPart effect cfg p s t := by
  have hsame : ∀ x y, t.cell x y = s.cell x y ∧ t.sampRead x y = s.sampRead x y := fun x y =>
    ⟨by rw [State.cell, State.cell, hcells], by rw [State.sampRead, State.sampRead, hsamp]⟩
  refine ⟨hs, ht, fun x y _ => ?_, fun x y _ _ => hsame x y⟩
  rw [(hsame x y).1, (hsame x y).2]
  exact hc.refl _ _

theorem PassPart.trans (hc : Composes effect) (h : PassPart effect cfg p s t) (h' : PassPart effect cfg p t u) :
    PassPart effect cfg p s u := by
  have hcfg : t.cfg = s.cfg := h.after.config.trans h.before.config.symm
  obtain ⟨hin, hout⟩ := h.effect
  obtain ⟨hin', hout'⟩ := h'.effect
  simp only [State.InBlock, hcfg] at hin' hout'
  refine ⟨h.before, h'.after, fun x y hb => hc.trans (hin x y hb) (hin' x y hb), fun x y hx hb => ?_⟩
  obtain ⟨hcell, hword⟩ := hout x y hx hb
  obtain ⟨hcell', hword'⟩ := hout' x y hx hb
  exact ⟨hcell'.trans hcell, hword'.trans hword⟩

theorem PassPart.of_rewrites (hc : Composes effect) (hs : PassSound cfg p s) (ht : PassSound cfg p t) (hx : x < cfg.w)
    (hy : y < cfg.h) (h : s.Rewrites x y f v t) (he : effect (s.cell x y) f (s.sampRead x y) v) :
    PassPart effect cfg p s t := by
  have hcfg := hs.config
  refine ⟨hs, ht, fun x' y' hb => ?_, fun x' y' hx' hb => h.others x' y' hx' ?_⟩
  · by_cases hxy : x' = x ∧ y' = y
    · obtain ⟨rfl, rfl⟩ := hxy
      rw [h.flags, h.word]
      exact he
    · obtain ⟨hcell, hword⟩ := h.others x' y' (hb.1.trans_le hs.block.width) hxy
      rw [hcell, hword]
      exact hc.refl _ _
  · rintro ⟨rfl, rfl⟩
    exact hb ⟨hcfg ▸ hx, hcfg ▸ hy⟩

/-- The visits of a loop add up (44_coding_passes.md R241). -/
theorem PassPart.forEach (hc : Composes effect) {f : β → State → Act Unit} {l : List β}
    (h : ∀ b ∈ l, ∀ u v, PassSound cfg p u → f b u = .done () v → PassPart effect cfg p u v) (hs : PassSound cfg p s)
    (hd : forEach f l s = .done () t) : PassPart effect cfg p s t :=
  forEach_done_keeps (PassPart effect cfg p s) (fun b hb u v hu hv => hu.trans hc (h b hb u v hu.after hv))
    (.of_same hc hs hs rfl rfl) hd

/-! ## What a visit writes -/

theorem passSign_data {d : Bool} (h : passSign raw x y s = .done d t) :
    t.cells = s.cells ∧ t.samp = s.samp ∧ t.cfg = s.cfg := by
  cases raw with
  | false =>
    obtain ⟨d, u, hd, he⟩ := Act.bind_eq_done.1 h
    cases he
    exact passBit_cells (raw := false) hd
  | true => exact passBit_cells (raw := true) (k := 0) h

/-- A coefficient that becomes significant gets SIG, its sign and its first word (44_coding_passes.md R244). -/
theorem becomeSignificant_rewrites (h : PassSound cfg p s) (hx : x < cfg.w)
    (hd : becomeSignificant raw p x y s = .done () t) :
    ∃ sgn, s.Rewrites x y { s.cell x y with SIG := true, SGN := sgn } (firstWord sgn (p + cfg.shift.toNat)) t := by
  obtain ⟨sgn, u, hu, he⟩ := Act.bind_eq_done.1 hd
  cases he
  obtain ⟨hcells, hsamp, -⟩ := passSign_data hu
  have hsound : PassSound cfg p u := Act.of_done (passSign_passSound raw x y h) hu
  have hblock := hsound.block
  have hside : x < Config.maxSide := hx.trans_le (hsound.config ▸ hblock.width)
  have hcell : u.cell x y = s.cell x y := by rw [State.cell, State.cell, hcells]
  refine ⟨sgn, .of_same hcells hsamp ?_⟩
  rw [State.setSig, significantWord_eq, hsound.config, hcell]
  have hset := u.rewrites_setCell (y := y) hblock.cells hside { s.cell x y with SIG := true, SGN := sgn }
  refine hset.trans ?_
  have hwrite := (u.setCell x y { s.cell x y with SIG := true, SGN := sgn }).rewrites_sampWrite (y := y) hblock.samp hside
    (firstWord sgn (p + cfg.shift.toNat))
  rwa [hset.flags] at hwrite

/-- A visit of the significance pass: the coefficient left alone, or coded, and then VIS set and perhaps the first word
written (44_coding_passes.md R248, R249). -/
theorem spVisit_rewrites {c : Nat × Nat} (h : PassSound cfg p s) (hx : c.1 < cfg.w) (hy : c.2 < cfg.h)
    (hd : spVisit p raw c s = .done () t) :
    (t = s ∧ ((s.cell c.1 c.2).SIG = true ∨ s.zc c.1 c.2 = 0)) ∨
    ((s.cell c.1 c.2).SIG = false ∧ s.zc c.1 c.2 ≠ 0 ∧
      (s.Rewrites c.1 c.2 { s.cell c.1 c.2 with VIS := true } (s.sampRead c.1 c.2) t ∨
        ∃ sgn, s.Rewrites c.1 c.2 { s.cell c.1 c.2 with SIG := true, VIS := true, SGN := sgn }
          (firstWord sgn (p + cfg.shift.toNat)) t)) := by
  unfold spVisit at hd
  split at hd
  · cases hd
    exact .inl ⟨rfl, .inl ‹_›⟩
  split at hd
  · cases hd
    exact .inl ⟨rfl, .inr ‹_›⟩
  rename_i hsig hzc
  refine .inr ⟨Bool.eq_false_iff.2 hsig, hzc, ?_⟩
  obtain ⟨d, u, hu, hd⟩ := Act.bind_eq_done.1 hd
  obtain ⟨hcells, hsamp, -⟩ := passBit_cells hu
  have hsound : PassSound cfg p u := Act.of_done (passBit_passSound raw _ h) hu
  have hcell : u.cell c.1 c.2 = s.cell c.1 c.2 := by rw [State.cell, State.cell, hcells]
  have hword : u.sampRead c.1 c.2 = s.sampRead c.1 c.2 := by rw [State.sampRead, State.sampRead, hsamp]
  have hvis := u.rewrites_setCell (y := c.2) hsound.block.cells (hx.trans_le (hsound.config ▸ hsound.block.width))
    { s.cell c.1 c.2 with VIS := true }
  rw [hword] at hvis
  have hset : u.setVis c.1 c.2 = u.setCell c.1 c.2 { s.cell c.1 c.2 with VIS := true } := by rw [State.setVis, hcell]
  rw [← hset] at hvis
  cases d with
  | false =>
    cases hd
    exact .inl (hvis.of_same hcells hsamp)
  | true =>
    obtain ⟨sgn, hsgn⟩ := becomeSignificant_rewrites (hsound.setVis hx hy) hx hd
    rw [hvis.flags] at hsgn
    exact .inr ⟨sgn, (hvis.trans hsgn).of_same hcells hsamp⟩

/-! ## The significance pass -/

/-- What a significance pass does to a coefficient it may do in parts (44_coding_passes.md R248). -/
theorem spCoefficient_composes (bit : Nat) : Composes (SpCoefficient bit) where
  refl c v := ⟨fun _ => ⟨rfl, rfl⟩, fun h => ⟨rfl, id, fun h' => absurd h' (by simp [h]), fun _ => ⟨rfl, rfl⟩⟩⟩
  trans {c c' c'' v v' v''} h h' := by
    obtain ⟨hkeep, hcode⟩ := h
    obtain ⟨hkeep', hcode'⟩ := h'
    constructor
    · intro hs
      obtain ⟨rfl, rfl⟩ := hkeep hs
      exact hkeep' hs
    · intro hs
      obtain ⟨href, hvis, hsig, hins⟩ := hcode hs
      cases hs' : c'.SIG with
      | true =>
        obtain ⟨rfl, rfl⟩ := hkeep' hs'
        exact hcode hs
      | false =>
        obtain ⟨href', hvis', hsig', hins'⟩ := hcode' hs'
        obtain ⟨hsgn, hword⟩ := hins hs'
        exact ⟨href'.trans href, hvis' ∘ hvis, hsig', fun hs'' => ⟨(hins' hs'').1.trans hsgn, (hins' hs'').2.trans hword⟩⟩

theorem spVisit_part {c : Nat × Nat} (hc : c ∈ scan cfg.w cfg.h) (h : PassSound cfg p s)
    (hd : spVisit p raw c s = .done () t) : PassPart (SpCoefficient (p + cfg.shift.toNat)) cfg p s t := by
  have hcomp := spCoefficient_composes (p + cfg.shift.toNat)
  obtain ⟨hx, hy⟩ := mem_scan.1 hc
  have ht : PassSound cfg p t := Act.of_done (spVisit_passSound raw h hx hy) hd
  rcases spVisit_rewrites h hx hy hd with ⟨rfl, -⟩ | ⟨hsig, -, hw | ⟨sgn, hw⟩⟩
  · exact .of_same hcomp h h rfl rfl
  · exact .of_rewrites hcomp h ht hx hy hw ⟨by simp [hsig], fun _ => by simp [hsig]⟩
  · exact .of_rewrites hcomp h ht hx hy hw ⟨by simp [hsig], fun _ => by simp⟩

/-- Visits of a significance pass that complete, in whatever order (44_coding_passes.md R248). -/
theorem spVisits_part {l : List (Nat × Nat)} (hl : ∀ c ∈ l, c ∈ scan cfg.w cfg.h) (h : PassSound cfg p s)
    (hd : forEach (spVisit p raw) l s = .done () t) : PassPart (SpCoefficient (p + cfg.shift.toNat)) cfg p s t :=
  .forEach (spCoefficient_composes _) (fun c hc _ _ hu hv => spVisit_part (hl c hc) hu hv) h hd

theorem spPass_eq_done {e : Bool} (h : spPass p raw s = .done e t) :
    e = false ∧ forEach (spVisit p raw) (scan s.cfg.w s.cfg.h) s = .done () t := by
  obtain ⟨_, u, hu, he⟩ := Act.bind_eq_done.1 h
  cases he
  exact ⟨rfl, hu⟩

theorem spPass_part {e : Bool} (h : PassSound cfg p s) (hd : spPass p raw s = .done e t) :
    PassPart (SpCoefficient (p + cfg.shift.toNat)) cfg p s t := by
  obtain ⟨-, hd⟩ := spPass_eq_done hd
  rw [h.config] at hd
  exact spVisits_part (fun _ hc => hc) h hd

/-- Settles O45: the pass is the fold of its steps; a clean coder completes it, and the visits of its loop add up. -/
theorem passSpEffect : Obligations.PassSpEffect := by
  unfold Obligations.PassSpEffect
  constructor
  · intro s p raw hp hr
    rw [exec_passSp hp hr]
    exact spPass_outcome p.toNat hr.deciding
  · intro s p raw hp hr hi hc
    obtain ⟨t, ht, -⟩ := spPass_done p.toNat (hr.passClean hc)
    have hframe := spPass_passFrame p.toNat raw s
    rw [ht] at hframe
    refine ⟨t.setRes (resOfBit false), ?_, rfl, State.passFrame_of_passFrame hframe _,
      (spPass_part (hr.passSound hi) ht).effect⟩
    rw [exec_passSp hp hr, ht]
    rfl

end Sys2Proof.Machine
end

section
/-! PROOFS. Which coefficients the significance pass codes: a pass takes no significance away, so a count of significant
neighbours only grows while it runs. -/

namespace Sys2Proof.Machine

variable {s t : State} {cfg : BlockConfig} {p bit x y : Nat} {raw : Bool}

/-! ## Counts of significant neighbours -/

/-- The significant neighbours of a coefficient (43_context_model.md R207). -/
def State.significantNeighbours (s : State) (x y : Nat) : Nat := s.hCount x y + s.vCount x y + s.dCount x y

theorem zcTable_eq_zero_iff {h v d : Nat} : zcTable h v d = 0 ↔ h + v + d = 0 := by
  unfold zcTable
  split_ifs <;> simp <;> omega

theorem zcTableHH_eq_zero_iff {hv d : Nat} : zcTableHH hv d = 0 ↔ hv + d = 0 := by
  unfold zcTableHH
  split_ifs <;> simp <;> omega

/-- Label 0 is that of a coefficient without a significant neighbour, whatever the orientation (43_context_model.md R210). -/
theorem State.zc_eq_zero_iff (s : State) (x y : Nat) : s.zc x y = 0 ↔ s.significantNeighbours x y = 0 := by
  rw [State.significantNeighbours]
  cases ho : s.cfg.orient with
  | LL => rw [State.zc_eq_zcTable (.inl ⟨.inl ho, rfl, rfl⟩), zcTable_eq_zero_iff]
  | LH => rw [State.zc_eq_zcTable (.inl ⟨.inr ho, rfl, rfl⟩), zcTable_eq_zero_iff]
  | HL => rw [State.zc_eq_zcTable (.inr ⟨ho, rfl, rfl⟩), zcTable_eq_zero_iff, Nat.add_comm (s.vCount x y)]
  | HH => rw [State.zc_eq_zcTableHH ho, zcTableHH_eq_zero_iff]

theorem PassPart.inBlock (h : PassPart (SpCoefficient bit) cfg p s t) (hb : s.InBlock x y) : t.InBlock x y := by
  rwa [State.InBlock, h.after.config, ← h.before.config]

/-- A significance pass takes no significance away (44_coding_passes.md R248). -/
theorem PassPart.sig_kept (h : PassPart (SpCoefficient bit) cfg p s t) (hb : s.InBlock x y)
    (hs : (s.cell x y).SIG = true) : (t.cell x y).SIG = true := by
  obtain ⟨hkeep, -⟩ := h.effect.1 x y hb
  rw [(hkeep hs).1, hs]

/-- A significance pass clears no VIS (44_coding_passes.md R248). -/
theorem PassPart.vis_kept (h : PassPart (SpCoefficient bit) cfg p s t) (hb : s.InBlock x y)
    (hv : (s.cell x y).VIS = true) : (t.cell x y).VIS = true := by
  obtain ⟨hkeep, hcode⟩ := h.effect.1 x y hb
  cases hs : (s.cell x y).SIG with
  | true => rw [(hkeep hs).1, hv]
  | false =>
    obtain ⟨-, hvis, -⟩ := hcode hs
    exact hvis hv

theorem PassPart.sigma_le (h : PassPart (SpCoefficient bit) cfg p s t) (u w : Nat) :
    s.sigma y u w ≤ t.sigma y u w := by
  have hcfg : t.cfg = s.cfg := h.after.config.trans h.before.config.symm
  simp only [State.sigma, State.seen, State.paddedCell, State.causallyHidden, hcfg]
  split_ifs with hidden inside
  · exact le_rfl
  · obtain ⟨hu, huw, hw, hwh⟩ := inside
    cases hs : (s.cell (u - 1) (w - 1)).SIG with
    | false => exact Nat.zero_le _
    | true => rw [h.sig_kept ⟨by omega, by omega⟩ hs]
  · exact le_rfl

theorem PassPart.significantNeighbours_le (h : PassPart (SpCoefficient bit) cfg p s t) (x y : Nat) :
    s.significantNeighbours x y ≤ t.significantNeighbours x y := by
  have hle := fun u w => h.sigma_le (y := y) u w
  refine Nat.add_le_add (Nat.add_le_add (Nat.add_le_add (hle _ _) (hle _ _)) (Nat.add_le_add (hle _ _) (hle _ _))) ?_
  exact Nat.add_le_add (Nat.add_le_add (Nat.add_le_add (hle _ _) (hle _ _)) (hle _ _)) (hle _ _)

/-! ## Membership -/

/-- A visit codes an insignificant coefficient with a significant neighbour (44_coding_passes.md R248). -/
theorem spVisit_codes (hx : x < cfg.w) (hy : y < cfg.h) (h : PassSound cfg p s)
    (hd : spVisit p raw (x, y) s = .done () t) (hs : (s.cell x y).SIG = false) (hn : 0 < s.significantNeighbours x y) :
    (t.cell x y).VIS = true := by
  have hzc : s.zc x y ≠ 0 := fun h0 => by have := (s.zc_eq_zero_iff x y).1 h0; omega
  rcases spVisit_rewrites h hx hy hd with ⟨-, hsig | h0⟩ | ⟨-, -, hw | ⟨sgn, hw⟩⟩
  · exact absurd (hs.symm.trans hsig) (by simp)
  · exact absurd h0 hzc
  · rw [hw.flags]
  · rw [hw.flags]

/-- A visit sets VIS of no coefficient without a significant neighbour (44_coding_passes.md R248). -/
theorem spVisit_codes_only {c : Nat × Nat} (hc : c ∈ scan cfg.w cfg.h) (h : PassSound cfg p s)
    (hd : spVisit p raw c s = .done () t) (hx : x < Config.maxSide) (hv : (s.cell x y).VIS = false)
    (hv' : (t.cell x y).VIS = true) : 0 < s.significantNeighbours x y := by
  obtain ⟨hcx, hcy⟩ := mem_scan.1 hc
  have changed : t.cell x y ≠ s.cell x y := fun he => by rw [he, hv] at hv'; cases hv'
  have coded : s.zc c.1 c.2 ≠ 0 → (¬ (x = c.1 ∧ y = c.2) → t.cell x y = s.cell x y) →
      0 < s.significantNeighbours x y := by
    intro hzc hother
    obtain ⟨rfl, rfl⟩ := not_not.1 fun hne => changed (hother hne)
    exact Nat.pos_of_ne_zero fun h0 => hzc ((s.zc_eq_zero_iff _ _).2 h0)
  rcases spVisit_rewrites h hcx hcy hd with ⟨rfl, -⟩ | ⟨-, hzc, hw | ⟨sgn, hw⟩⟩
  · exact absurd rfl changed
  · exact coded hzc fun hne => (hw.others x y hx hne).1
  · exact coded hzc fun hne => (hw.others x y hx hne).1

/-- A pass that completes has coded each insignificant coefficient that had a significant neighbour before it: at its
visit it has that neighbour still, if the pass has not made it significant before. -/
theorem spPass_codes {e : Bool} (h : PassSound cfg p s) (hd : spPass p raw s = .done e t) (hb : s.InBlock x y)
    (hs : (s.cell x y).SIG = false) (hn : 0 < s.significantNeighbours x y) : (t.cell x y).VIS = true := by
  have hx : x < cfg.w := h.config ▸ hb.1
  have hy : y < cfg.h := h.config ▸ hb.2
  obtain ⟨-, hloop⟩ := spPass_eq_done hd
  rw [h.config] at hloop
  obtain ⟨l₁, l₂, hl⟩ := List.append_of_mem (mem_scan.2 ⟨hx, hy⟩)
  have hmem : ∀ c ∈ l₁ ++ (x, y) :: l₂, c ∈ scan cfg.w cfg.h := fun c hc => hl ▸ hc
  rw [hl, forEach_append, Act.bind_eq_done] at hloop
  obtain ⟨_, a, h₁, hloop⟩ := hloop
  obtain ⟨b, hvisit, h₂⟩ := forEach_cons_done.1 hloop
  have before := spVisits_part (fun c hc => hmem c (List.mem_append_left _ hc)) h h₁
  have visit := spVisit_part (mem_scan.2 ⟨hx, hy⟩) before.after hvisit
  have after := spVisits_part (fun c hc => hmem c (List.mem_append_right _ (List.mem_cons_of_mem _ hc))) visit.after h₂
  have hba := before.inBlock hb
  refine after.vis_kept (visit.inBlock hba) ?_
  cases hsa : (a.cell x y).SIG with
  | true =>
    obtain ⟨-, hcode⟩ := before.effect.1 x y hb
    obtain ⟨-, -, hsig, -⟩ := hcode hs
    exact visit.vis_kept hba (hsig hsa).1
  | false => exact spVisit_codes hx hy before.after hvisit hsa (hn.trans_le (before.significantNeighbours_le x y))

/-- A coefficient that a pass has coded has a significant neighbour after it. -/
theorem spPass_codes_only {e : Bool} (h : PassSound cfg p s) (hd : spPass p raw s = .done e t) (hb : s.InBlock x y)
    (hv : (s.cell x y).VIS = false) (hv' : (t.cell x y).VIS = true) : 0 < t.significantNeighbours x y := by
  obtain ⟨-, hloop⟩ := spPass_eq_done hd
  rw [h.config] at hloop
  have hx : x < Config.maxSide := hb.1.trans_le h.block.width
  refine (forEach_done_keeps (fun u => PassSound cfg p u ∧ ((u.cell x y).VIS = true → 0 < u.significantNeighbours x y))
    (fun c hc u v hu hd => ?_) ⟨h, fun hv' => absurd (hv.symm.trans hv') (by simp)⟩ hloop).2 hv'
  obtain ⟨hu, hn⟩ := hu
  have visit := spVisit_part hc hu hd
  refine ⟨visit.after, fun hvv => lt_of_lt_of_le ?_ (visit.significantNeighbours_le x y)⟩
  cases hvu : (u.cell x y).VIS with
  | true => exact hn hvu
  | false => exact spVisit_codes_only hc hu hd hx hvu hvv

/-- Settles O48: the pass that ends without an error is a loop of visits that completes. -/
theorem significancePassMembership : Obligations.SignificancePassMembership := by
  unfold Obligations.SignificancePassMembership
  intro s t p raw hp hr hi h ht x y hb hs
  rw [exec_passSp hp hr] at h
  obtain ⟨e, u, hd, rfl⟩ := pass_done_of_outcome h ht
  have hsound := hr.passSound hi
  have hcodes : 0 < s.significantNeighbours x y → (u.cell x y).VIS = true := spPass_codes hsound hd hb hs
  have honly : (s.cell x y).VIS = false → (u.cell x y).VIS = true → 0 < u.significantNeighbours x y :=
    spPass_codes_only hsound hd hb
  exact ⟨hcodes, honly⟩

end Sys2Proof.Machine
end

section
/-! PROOFS. The cleanup pass: its visits and its run positions add up, and then VIS is cleared everywhere. -/

namespace Sys2Proof.Machine

variable {s t u : State} {cfg : BlockConfig} {p bit x y : Nat}

/-- What the visits of a cleanup pass may do to one coefficient, before VIS is cleared (44_coding_passes.md R244, R257). -/
def CuVisits (bit : Nat) (c c' : SampleFlags) (v v' : Word) : Prop :=
  (c.SIG = true ∨ c.VIS = true → c' = c ∧ v' = v) ∧
  (c.SIG = false ∧ c.VIS = false → c'.REF = c.REF ∧ c'.VIS = false ∧
    (c'.SIG = true → v' = firstWord c'.SGN bit) ∧ (c'.SIG = false → c'.SGN = c.SGN ∧ v' = v))

theorem cuVisits_composes (bit : Nat) : Composes (CuVisits bit) where
  refl c v := ⟨fun _ => ⟨rfl, rfl⟩, fun h => ⟨rfl, h.2, fun h' => absurd (h.1.symm.trans h') (by simp),
    fun _ => ⟨rfl, rfl⟩⟩⟩
  trans {c c' c'' v v' v''} h h' := by
    obtain ⟨hkeep, hcode⟩ := h
    obtain ⟨hkeep', hcode'⟩ := h'
    constructor
    · intro hs
      obtain ⟨rfl, rfl⟩ := hkeep hs
      exact hkeep' hs
    · intro hs
      obtain ⟨href, hvis, hsig, hins⟩ := hcode hs
      cases hs' : c'.SIG with
      | true =>
        obtain ⟨rfl, rfl⟩ := hkeep' (.inl hs')
        exact hcode hs
      | false =>
        obtain ⟨href', hvis', hsig', hins'⟩ := hcode' ⟨hs', hvis⟩
        obtain ⟨hsgn, hword⟩ := hins hs'
        exact ⟨href'.trans href, hvis', hsig', fun hs'' => ⟨(hins' hs'').1.trans hsgn, (hins' hs'').2.trans hword⟩⟩

/-- A decision changes no coefficient. -/
theorem decodeMq_part {k : Category} {d : Bool} (h : PassSound cfg p s) (hd : decodeMq k s = .done d t) :
    PassPart (CuVisits bit) cfg p s t := by
  obtain ⟨hcells, hsamp, -⟩ := passBit_cells (raw := false) hd
  exact .of_same (cuVisits_composes bit) h (Act.of_done (decodeMq_passSound k h) hd) hcells hsamp

/-- An insignificant, unvisited coefficient that becomes significant (44_coding_passes.md R244, R257). -/
theorem becomeSignificant_part (hx : x < cfg.w) (hy : y < cfg.h) (h : PassSound cfg p s)
    (hs : (s.cell x y).SIG = false) (hv : (s.cell x y).VIS = false)
    (hd : becomeSignificant false p x y s = .done () t) : PassPart (CuVisits (p + cfg.shift.toNat)) cfg p s t := by
  obtain ⟨sgn, hw⟩ := becomeSignificant_rewrites h hx hd
  refine .of_rewrites (cuVisits_composes _) h (Act.of_done (becomeSignificant_passSound false h hx hy) hd) hx hy hw ?_
  exact ⟨fun hc => absurd hc (by simp [hs, hv]), fun _ => ⟨rfl, hv, fun _ => rfl, nofun⟩⟩

theorem cuVisit_part {c : Nat × Nat} (hx : c.1 < cfg.w) (hy : c.2 < cfg.h) (h : PassSound cfg p s)
    (hd : cuVisit p c s = .done () t) : PassPart (CuVisits (p + cfg.shift.toNat)) cfg p s t := by
  have hcomp := cuVisits_composes (p + cfg.shift.toNat)
  unfold cuVisit at hd
  split at hd
  · cases hd
    exact .of_same hcomp h h rfl rfl
  rename_i hcoded
  obtain ⟨hsig, hvis⟩ := not_or.1 hcoded
  obtain ⟨d, u, hu, hd⟩ := Act.bind_eq_done.1 hd
  have decided := decodeMq_part (bit := p + cfg.shift.toNat) h hu
  cases d with
  | false =>
    cases hd
    exact decided
  | true =>
    have hcell : u.cell c.1 c.2 = s.cell c.1 c.2 := by
      rw [State.cell, State.cell, (passBit_cells (raw := false) hu).1]
    rw [← hcell, Bool.not_eq_true] at hsig hvis
    exact decided.trans hcomp (becomeSignificant_part hx hy decided.after hsig hvis hd)

/-- The rest of a column, visited row by row. -/
theorem columnFrom_part {y0 ystart : Nat} (hx : x < cfg.w) (h : PassSound cfg p s)
    (hd : forEach (cuVisit p) (columnFrom s.cfg.h x y0 ystart) s = .done () t) :
    PassPart (CuVisits (p + cfg.shift.toNat)) cfg p s t := by
  rw [h.config] at hd
  refine .forEach (cuVisits_composes _) (fun c hc u v hu hv => ?_) h hd
  obtain ⟨rfl, -, -, hy, -⟩ := mem_columnFrom.1 hc
  exact cuVisit_part hx hy hu hv

theorem runPosition_cells {r : Nat} (h : runPosition s = .done r t) : t.cells = s.cells ∧ t.samp = s.samp := by
  obtain ⟨d1, u, hu, h⟩ := Act.bind_eq_done.1 h
  obtain ⟨d0, v, hv, he⟩ := Act.bind_eq_done.1 h
  cases he
  obtain ⟨hcells, hsamp, -⟩ := passBit_cells (raw := false) hu
  obtain ⟨hcells', hsamp', -⟩ := passBit_cells (raw := false) hv
  exact ⟨hcells'.trans hcells, hsamp'.trans hsamp⟩

/-- One column: in run mode the coefficient at the run position, all four being insignificant and unvisited, and the rows
below it; else every row (44_coding_passes.md R256, R257). -/
theorem cuColumn_part {c : Nat × Nat} (hx : c.1 < cfg.w) (h : PassSound cfg p s) (hd : cuColumn p c s = .done () t) :
    PassPart (CuVisits (p + cfg.shift.toNat)) cfg p s t := by
  have hcomp := cuVisits_composes (p + cfg.shift.toNat)
  unfold cuColumn at hd
  split at hd
  · rename_i hrun
    obtain ⟨hrows, hrun⟩ := (runMode_eq s _ _).1 hrun
    rw [h.config] at hrows
    obtain ⟨d, u, hu, hd⟩ := Act.bind_eq_done.1 hd
    have decided := decodeMq_part (bit := p + cfg.shift.toNat) h hu
    split at hd
    · cases hd
      exact decided
    · obtain ⟨r, v, hv, hd⟩ := Act.bind_eq_done.1 hd
      obtain ⟨_, w, hw, hd⟩ := Act.bind_eq_done.1 hd
      obtain ⟨hcells, hsamp⟩ := runPosition_cells hv
      have hsv : PassSound cfg p v := Act.of_done (runPosition_passSound decided.after) hv
      have placed := decided.trans hcomp (.of_same hcomp decided.after hsv hcells hsamp)
      have hr := runPosition_lt hv
      obtain ⟨hsig, hvis, -⟩ := hrun r hr
      have hcell : v.cell c.1 (c.2 + r) = s.cell c.1 (c.2 + r) := by
        rw [State.cell, State.cell, hcells, (passBit_cells (raw := false) hu).1]
      rw [← hcell] at hsig hvis
      have position := becomeSignificant_part hx (by omega) hsv hsig hvis hw
      exact (placed.trans hcomp position).trans hcomp (columnFrom_part hx position.after hd)
  · exact columnFrom_part hx h hd

/-! ## VIS cleared -/

/-- A coefficient that a cleanup pass has visited, with VIS cleared (44_coding_passes.md R257). -/
theorem CuVisits.cleared {c c' : SampleFlags} {v v' : Word} (h : CuVisits bit c c' v v') :
    CuCoefficient bit c { c' with VIS := false } v v' := by
  obtain ⟨hkeep, hcode⟩ := h
  refine ⟨fun hs => ?_, fun hs => ?_⟩
  · obtain ⟨rfl, rfl⟩ := hkeep hs
    exact ⟨rfl, rfl⟩
  · obtain ⟨href, -, hsig, hins⟩ := hcode hs
    exact ⟨href, rfl, hsig, hins⟩

/-- A key that no entry has reads as the value of an unlisted one. -/
theorem sparse_get_of_forall_ne {α : Type} {d : α} {m : List (Nat × α)} {k : Nat} (h : ∀ e ∈ m, e.1 ≠ k) :
    Sparse.get d m k = d := by
  induction m with
  | nil => rfl
  | cons e m ih =>
    obtain ⟨j, v⟩ := e
    rw [Sparse.get, if_neg (h (j, v) List.mem_cons_self), ih fun e he => h e (List.mem_cons_of_mem _ he)]

/-- No cell outside a sound block is written (10_state.md R38). -/
theorem BlockSound.cell_outside (h : BlockSound s) (hx : x < Config.maxSide) (hb : ¬ s.InBlock x y) :
    s.cell x y = SampleFlags.clear := by
  refine sparse_get_of_forall_ne fun e he hk => hb ?_
  obtain ⟨hkx, hky⟩ := h.cellsInside e he
  rw [hk] at hkx hky
  simp only [coordKey, Config.maxSide] at hx hkx hky
  exact ⟨by omega, by omega⟩

/-- The visits of a cleanup pass and then VIS cleared are its effect; outside the block VIS was clear. -/
theorem PassPart.clearVis (h : PassPart (CuVisits bit) cfg p s t) (hcells : u.cells = t.clearVis.cells)
    (hsamp : u.samp = t.samp) : s.PassEffect (CuCoefficient bit) u := by
  obtain ⟨hin, hout⟩ := h.effect
  have hcell : ∀ x y, u.cell x y = { t.cell x y with VIS := false } := fun x y => by
    rw [← State.cell_clearVis h.after.block.cells, State.cell, State.cell, hcells]
  have hword : ∀ x y, u.sampRead x y = t.sampRead x y := fun x y => by rw [State.sampRead, State.sampRead, hsamp]
  refine ⟨fun x y hb => ?_, fun x y hx hb => ?_⟩
  · rw [hcell, hword]
    exact (hin x y hb).cleared
  · obtain ⟨hc, hw⟩ := hout x y hx hb
    rw [hcell, hword, hc, hw, h.before.block.cell_outside hx hb]
    exact ⟨rfl, rfl⟩

theorem uniformBits_cells {n : Nat} {v w : BitVec 4} (h : uniformBits n v s = .done w t) :
    t.cells = s.cells ∧ t.samp = s.samp := by
  induction n generalizing v s with
  | zero => cases h; exact ⟨rfl, rfl⟩
  | succ n ih =>
    obtain ⟨d, u, hu, h⟩ := Act.bind_eq_done.1 h
    obtain ⟨hcells, hsamp, -⟩ := passBit_cells (raw := false) hu
    obtain ⟨hcells', hsamp'⟩ := ih h
    exact ⟨hcells'.trans hcells, hsamp'.trans hsamp⟩

/-- A cleanup pass that completes is its columns, VIS cleared, and nothing more of the block's data. -/
theorem cuPass_eq_done {e : Bool} (h : cuPass p s = .done e t) :
    ∃ u, forEach (cuColumn p) (columns s.cfg.w s.cfg.h) s = .done () u ∧
      t.cells = u.clearVis.cells ∧ t.samp = u.samp := by
  obtain ⟨_, u, hu, hd⟩ := Act.bind_eq_done.1 h
  refine ⟨u, hu, ?_⟩
  split at hd
  · obtain ⟨v, w, hw, he⟩ := Act.bind_eq_done.1 hd
    cases he
    exact uniformBits_cells hw
  · cases hd
    exact ⟨rfl, rfl⟩

theorem cuPass_effect {e : Bool} (h : PassSound cfg p s) (hd : cuPass p s = .done e t) :
    s.PassEffect (CuCoefficient (p + cfg.shift.toNat)) t := by
  obtain ⟨u, hu, hcells, hsamp⟩ := cuPass_eq_done hd
  rw [h.config] at hu
  have visited : PassPart (CuVisits (p + cfg.shift.toNat)) cfg p s u :=
    .forEach (cuVisits_composes _) (fun c hc _ _ hv hd => cuColumn_part (mem_columns.1 hc).1 hv hd) h hu
  exact visited.clearVis hcells hsamp

/-- Settles O47: the pass is the fold of its columns, VIS cleared, and the symbol; a clean coder completes it, and its
visits add up. -/
theorem passCuEffect : Obligations.PassCuEffect := by
  unfold Obligations.PassCuEffect
  constructor
  · intro s p hp hr
    rw [exec_passCu hp hr]
    exact cuPass_outcome p.toNat hr.deciding
  · intro s p hp hr hi hc
    obtain ⟨e, t, ht, he, -⟩ := cuPass_done p.toNat (hr.passClean hc)
    have hframe := cuPass_passFrame p.toNat s
    rw [ht] at hframe
    have heffect := cuPass_effect (hr.passSound hi) ht
    refine ⟨t.setRes (resOfBit e), e, ?_, resOfBit_eq_bitResult e, he, State.passFrame_of_passFrame hframe _, heffect⟩
    rw [exec_passCu hp hr, ht]
    rfl

end Sys2Proof.Machine
end

section
/-! PROOFS. The scan order, the sequence of passes with what NEXT_PASS returns of it, and the planes of its passes. -/

namespace Sys2Proof.Machine

variable {s : State} {cfg : BlockConfig} {p : BitVec 5}

/-! ## The scan order -/

/-- A pass visits `c` before `c'`: an earlier stripe, else an earlier column, else an earlier row (44_coding_passes.md
R241). -/
abbrev ScanBefore (c c' : Nat × Nat) : Prop :=
  c.2 / 4 < c'.2 / 4 ∨ (c.2 / 4 = c'.2 / 4 ∧ (c.1 < c'.1 ∨ (c.1 = c'.1 ∧ c.2 < c'.2)))

theorem ScanBefore.ne {c c' : Nat × Nat} (h : ScanBefore c c') : c ≠ c' := by
  rintro rfl
  unfold ScanBefore at h
  omega

/-- The rows of a stripe, downwards. -/
theorem stripeRows_ordered (h y0 : Nat) : (stripeRows h y0).Pairwise (· < ·) :=
  List.Pairwise.filter _ (by simp)

/-- The stripe columns, stripe by stripe and from left to right. -/
theorem columns_ordered (w h : Nat) :
    (columns w h).Pairwise fun c c' => c.2 < c'.2 ∨ (c.2 = c'.2 ∧ c.1 < c'.1) := by
  rw [columns, List.pairwise_flatMap]
  constructor
  · intro i _
    exact List.pairwise_map.2 (List.pairwise_lt_range.imp fun hx => .inr ⟨rfl, hx⟩)
  · refine List.pairwise_lt_range.imp fun {i j} hij c hc c' hc' => .inl ?_
    obtain ⟨x, -, rfl⟩ := List.mem_map.1 hc
    obtain ⟨x', -, rfl⟩ := List.mem_map.1 hc'
    exact Nat.mul_lt_mul_of_pos_left hij (by decide)

/-- The coefficients of a pass stand in its order: those of one column by their rows, those of two as the columns. -/
theorem scan_ordered (w h : Nat) : (scan w h).Pairwise ScanBefore := by
  rw [scan, List.pairwise_flatMap]
  constructor
  · intro c hc
    obtain ⟨-, -, hc0⟩ := mem_columns.1 hc
    refine List.pairwise_map.2 ((stripeRows_ordered h c.2).imp_of_mem fun {y y'} hy hy' hlt => ?_)
    rw [mem_stripeRows] at hy hy'
    exact .inr ⟨by dsimp only; omega, .inr ⟨rfl, hlt⟩⟩
  · refine (columns_ordered w h).imp_of_mem fun {c c'} hc hc' hlt a ha a' ha' => ?_
    obtain ⟨-, -, hc0⟩ := mem_columns.1 hc
    obtain ⟨-, -, hc0'⟩ := mem_columns.1 hc'
    obtain ⟨y, hy, rfl⟩ := List.mem_map.1 ha
    obtain ⟨y', hy', rfl⟩ := List.mem_map.1 ha'
    rw [mem_stripeRows] at hy hy'
    rcases hlt with hstripe | ⟨hstripe, hcol⟩
    · exact .inl (by dsimp only; omega)
    · exact .inr ⟨by dsimp only; omega, .inl hcol⟩

/-- Settles O44: what the order puts before something is not equal to it, so that nothing is visited twice. -/
theorem scanVisitsEachCoefficientOnce : Obligations.ScanVisitsEachCoefficientOnce := by
  unfold Obligations.ScanVisitsEachCoefficientOnce
  refine fun w h => ⟨fun x y => ?_, scan_ordered w h⟩
  have hnodup : (scan w h).Nodup := (scan_ordered w h).imp ScanBefore.ne
  rw [hnodup.count]
  exact if_congr mem_scan rfl rfl

/-! ## NEXT_PASS -/

theorem exec_nextPass (hs : s.Safe) (hst : s.st.started = true) :
    exec .nextPass s =
      .next (s.setRes (nextPassWord s.cfg (nextPassOf s.cfg s.cur.lastPass s.cur.plane))) := by
  show execNextPass s = _
  rw [execNextPass, runCommand_safe hs, if_pos hst, Act.outcome_done]

/-- The three fields of the result do not overlap (44_coding_passes.md R272). -/
theorem nextPassWord_some (cfg : BlockConfig) (kind : PassKind) (p : BitVec 5) :
    nextPassWord cfg (some (kind, p)) =
      BitVec.ofNat 64 (kind.code.toNat + p.toNat * 2 ^ 8 + if rawPass cfg kind p then 2 ^ 16 else 0) := by
  have fields : ∀ (c : BitVec 2) (p : BitVec 5) (raw : Bool),
      c.setWidth 64 ||| (p.setWidth 64 <<< 8) ||| (resOfBit raw <<< 16) =
        BitVec.ofNat 64 (c.toNat + p.toNat * 2 ^ 8 + if raw then 2 ^ 16 else 0) := by decide
  exact fields kind.code p (rawPass cfg kind p)

/-- Which SP and MR passes are raw, over the integers (44_coding_passes.md R271). -/
theorem rawPass_iff {kind : PassKind} (hk : kind ≠ .cu) :
    rawPass cfg kind p = true ↔ cfg.bypass = true ∧ (p.toNat : Int) ≤ (cfg.p0.toNat : Int) - 4 := by
  have hle : p.toNat + 4 ≤ cfg.p0.toNat ↔ (p.toNat : Int) ≤ (cfg.p0.toNat : Int) - 4 := by omega
  cases kind with
  | cu => exact absurd rfl hk
  | sp => simp [rawPass, hle]
  | mr => simp [rawPass, hle]

/-- The result for a pass that may be raw (44_coding_passes.md R271, R272). -/
theorem nextPassWord_sp_mr {kind : PassKind} (hk : kind ≠ .cu) :
    nextPassWord cfg (some (kind, p)) = BitVec.ofNat 64 (kind.code.toNat + p.toNat * 2 ^ 8 +
      if cfg.bypass = true ∧ (p.toNat : Int) ≤ (cfg.p0.toNat : Int) - 4 then 2 ^ 16 else 0) := by
  rw [nextPassWord_some, if_congr (rawPass_iff hk) rfl rfl]

theorem nextPassWord_cu : nextPassWord cfg (some (.cu, p)) = BitVec.ofNat 64 (3 + p.toNat * 2 ^ 8) :=
  nextPassWord_some cfg .cu p

theorem toNat_sub_one_of_pos (h : 0 < p.toNat) : (p - 1).toNat = p.toNat - 1 := by
  have hone : (1 : BitVec 5).toNat = 1 := rfl
  rw [BitVec.toNat_sub, hone]
  omega

/-- Settles O49: the result is the word of the successor, in each case of the cursor. -/
theorem nextPassReturnsTheSuccessor : Obligations.NextPassReturnsTheSuccessor := by
  unfold Obligations.NextPassReturnsTheSuccessor
  refine ⟨fun s hs hst => execNextPass_notReady hs (Bool.eq_false_iff.1 hst), fun s hs hst => ?_⟩
  have returns : ∀ next, nextPassOf s.cfg s.cur.lastPass s.cur.plane = next →
      exec .nextPass s = .next (s.setRes (nextPassWord s.cfg next)) := fun _ h => h ▸ exec_nextPass hs hst
  refine ⟨fun hl => ?_, fun hl h0 => ?_, fun hl hpos => ?_, fun hl => ?_, fun hl => ?_⟩
  · rw [returns (some (.cu, s.cfg.p0)) (by rw [hl, nextPassOf]), nextPassWord_cu]
  · rw [returns none (by rw [hl, nextPassOf, if_pos (BitVec.eq_of_toNat_eq h0)])]
    rfl
  · have hne : s.cur.plane ≠ 0 := fun h => by simp [h] at hpos
    rw [returns (some (.sp, s.cur.plane - 1)) (by rw [hl, nextPassOf, if_neg hne]),
      nextPassWord_sp_mr (kind := .sp) nofun, toNat_sub_one_of_pos hpos]
    rfl
  · rw [returns (some (.mr, s.cur.plane)) (by rw [hl, nextPassOf]), nextPassWord_sp_mr (kind := .mr) nofun]
    rfl
  · rw [returns (some (.cu, s.cur.plane)) (by rw [hl, nextPassOf]), nextPassWord_cu]

/-! ## The sequence of passes -/

theorem planPasses_succ {last : Option PassKind} {kind : PassKind} {q : BitVec 5} (n : Nat)
    (h : nextPassOf cfg last p = some (kind, q)) :
    planPasses cfg (n + 1) last p = (planPasses cfg n (some kind) q).map fun rest => (kind, q) :: rest := by
  rw [planPasses, h]

theorem planPasses_end {last : Option PassKind} (n : Nat) (h : nextPassOf cfg last p = none) :
    planPasses cfg (n + 1) last p = none := by
  rw [planPasses, h]

/-- The passes of the planes below `q`, from the top down: SP, MR and CU at each (44_coding_passes.md R273). -/
def passesBelow (q : Nat) : List (PassKind × BitVec 5) :=
  (List.range q).reverse.flatMap fun p =>
    [(.sp, BitVec.ofNat 5 p), (.mr, BitVec.ofNat 5 p), (.cu, BitVec.ofNat 5 p)]

theorem passesBelow_succ (q : Nat) :
    passesBelow (q + 1) =
      (.sp, BitVec.ofNat 5 q) :: (.mr, BitVec.ofNat 5 q) :: (.cu, BitVec.ofNat 5 q) :: passesBelow q := by
  rw [passesBelow, List.range_succ, List.reverse_concat, List.flatMap_cons]
  rfl

theorem passesBelow_length (q : Nat) : (passesBelow q).length = 3 * q := by
  induction q with
  | zero => rfl
  | succ q ih => rw [passesBelow_succ, List.length_cons, List.length_cons, List.length_cons, ih, Nat.mul_succ]

theorem nextPassOf_cu_succ {q : Nat} (hq : q + 1 < 32) :
    nextPassOf cfg (some .cu) (BitVec.ofNat 5 (q + 1)) = some (.sp, BitVec.ofNat 5 q) := by
  have hne : BitVec.ofNat 5 (q + 1) ≠ 0 := fun h => by simpa [Nat.mod_eq_of_lt hq] using congrArg BitVec.toNat h
  have hpred : BitVec.ofNat 5 (q + 1) - 1 = BitVec.ofNat 5 q := by
    rw [BitVec.ofNat_add]
    exact BitVec.add_sub_cancel _ _
  rw [nextPassOf, if_neg hne, hpred]

/-- From the CU pass of plane `q` the plans are the beginnings of the passes below it (44_coding_passes.md R270). -/
theorem planPasses_cu {q : Nat} (hq : q < 32) (n : Nat) :
    planPasses cfg n (some .cu) (BitVec.ofNat 5 q) = if n ≤ 3 * q then some ((passesBelow q).take n) else none := by
  induction q generalizing n with
  | zero =>
    cases n with
    | zero => rfl
    | succ n => exact planPasses_end n rfl
  | succ q ih =>
    have hnext := nextPassOf_cu_succ (cfg := cfg) hq
    rw [passesBelow_succ]
    match n with
    | 0 => rfl
    | 1 => rw [planPasses_succ 0 hnext, if_pos (by omega)]; rfl
    | 2 => rw [planPasses_succ 1 hnext, planPasses_succ 0 rfl, if_pos (by omega)]; rfl
    | n + 3 =>
      have hle : n + 3 ≤ 3 * (q + 1) ↔ n ≤ 3 * q := by omega
      rw [planPasses_succ (n + 2) hnext, planPasses_succ (n + 1) rfl, planPasses_succ n rfl, ih (by omega),
        if_congr hle rfl rfl]
      split <;> rfl

theorem planPasses_start (n : Nat) :
    planPasses cfg (n + 1) none 0 =
      if n ≤ 3 * cfg.p0.toNat then some ((.cu, cfg.p0) :: (passesBelow cfg.p0.toNat).take n) else none := by
  have hbelow := planPasses_cu (cfg := cfg) cfg.p0.isLt n
  rw [BitVec.ofNat_toNat, BitVec.setWidth_eq] at hbelow
  rw [planPasses_succ n rfl, hbelow]
  split <;> rfl

/-- Settles O50: behind the CU pass of the start plane a plan takes the passes below it, and there are 3 P0 of them. -/
theorem passSequence : Obligations.PassSequence := by
  unfold Obligations.PassSequence
  refine fun cfg => ⟨?_, fun n => ?_⟩
  · rw [planPasses_start, if_pos le_rfl, ← passesBelow_length, List.take_length]
    rfl
  · cases n with
    | zero => simp [planPasses]
    | succ n => rw [planPasses_start]; simp

/-! ## Planes -/

/-- A legal command whose own steps raise an error before they write anything latches it (60_exceptions.md R342). -/
theorem runCommand_raises {always : Bool} {body : State → Act Unit} {e : Err} (hs : s.Safe)
    (hb : body s = .raised e s) : ∃ t, runCommand true always body s = .next t ∧ s.Raises t e.code :=
  ⟨s.latch e, by rw [runCommand_safe hs, hb, Act.outcome_raised], s.raises_latch e⟩

/-- A pass command with its block and its coder, at a plane that is no magnitude bit (44_coding_passes.md R247). -/
theorem passCommand_illegal {raw : Bool} {body : State → Act Bool} (hst : s.st.started = true) (hr : s.coderReady raw)
    (hp : ¬ s.PlaneFits p.toNat) : passCommand raw p body s = .raised .illegalCommand s := by
  rw [passCommand, if_pos ⟨hst, hr⟩, if_neg hp]

/-- Every pass of a plan is at a plane not above the start plane (44_coding_passes.md R270). -/
theorem planPasses_plane_le {n : Nat} {cur : Cursor} {plan : List (PassKind × BitVec 5)} (hcur : Cursor.Legal cfg cur)
    (hp0 : cfg.p0.toNat ≤ 30) (h : planPasses cfg n cur.lastPass cur.plane = some plan) :
    ∀ k ∈ plan, k.2.toNat ≤ cfg.p0.toNat := by
  induction n generalizing cur plan with
  | zero => cases h; exact nofun
  | succ n ih =>
    cases hn : nextPassOf cfg cur.lastPass cur.plane with
    | none => rw [planPasses_end n hn] at h; cases h
    | some k =>
      obtain ⟨hle, hnext⟩ := hcur.next hp0 hn
      rw [planPasses_succ n hn] at h
      obtain ⟨rest, hrest, rfl⟩ := Option.map_eq_some_iff.1 h
      exact List.forall_mem_cons.2 ⟨hle, ih hnext hrest⟩

/-- Settles O16: the plane is checked before the pass, and a plan of an accepted block stays at or below its start
plane. -/
theorem planesStayMagnitudeBits : Obligations.PlanesStayMagnitudeBits := by
  unfold Obligations.PlanesStayMagnitudeBits
  constructor
  · intro s p raw hs hst hp hhigh
    have hlegal : decide (PlaneLegal p) = true := decide_eq_true hp
    have hfit : ¬ s.PlaneFits p.toNat := Nat.not_le.2 hhigh
    refine ⟨fun hmq hbr => ?_, fun hmq => ?_⟩
    · have hready : s.coderReady raw := by
        cases raw
        · exact hmq rfl
        · exact hbr rfl
      have raises : ∀ body, ∃ t, runCommand (decide (PlaneLegal p)) false (passCommand raw p body) s = .next t ∧
          s.Raises t 5 := fun body => hlegal ▸ runCommand_raises hs (passCommand_illegal hst hready hfit)
      exact ⟨raises _, raises _⟩
    · show ∃ t, execPassCu p s = .next t ∧ s.Raises t 5
      rw [execPassCu, hlegal]
      exact runCommand_raises hs (passCommand_illegal (raw := false) hst hmq hfit)
  · intro s n plan hi hst hplan k hk
    have haccepted := (hi.segmentSound hst).accepted
    have hle := planPasses_plane_le (hi.cursorLegal hst) (by omega) hplan k hk
    omega

end Sys2Proof.Machine
end

section
/-! PROOFS. The magnitude refinement pass: its decisions one after another, and each coefficient it refines, once. -/

namespace Sys2Proof.Machine

variable {β : Type} {s t : State} {cfg : BlockConfig} {p bit x y : Nat} {raw : Bool}

/-! ## The pass as its decisions -/

/-- A ready PASS_MR is its pass, the error signal in RES (44_coding_passes.md R255). -/
theorem exec_passMr {p : BitVec 5} (hp : p.toNat ≤ 30) (h : s.PassReady p.toNat raw) :
    exec (.passMr p raw) s =
      ((mrPass p.toNat raw s).bind fun err t => .done () (t.setRes (resOfBit err)) : Act Unit).outcome := by
  obtain ⟨hs, hst, hfits⟩ := h.checks
  exact exec_passInstr (kind := .mr) hs hst h.deciding.ready nofun hp hfits

/-- A stretch that writes RES at its end, and raises nothing itself, writes it exactly if it ends without an error. -/
theorem Act.ended_bind_setRes {m : Act Unit} (v : Res) (hsafe : ∀ t, m = .done () t → t.Safe) :
    (m.bind fun _ t => .done () (t.setRes v) : Act Unit).ended =
      if m.ended.Safe then m.ended.setRes v else m.ended := by
  cases m with
  | done a t => rw [Act.bind_done, Act.ended_done, Act.ended_done, if_pos (hsafe t rfl)]
  | raised e t => rw [Act.bind_raised, Act.ended_raised, if_neg (not_safe_latch t e)]

theorem mrPass_bind_res (s : State) :
    ((mrPass p raw s).bind fun err t => .done () (t.setRes (resOfBit err)) : Act Unit) =
      (forEach (mrVisit p raw) (scan s.cfg.w s.cfg.h) s).bind fun _ t => .done () (t.setRes 0) := by
  rw [mrPass]
  cases forEach (mrVisit p raw) (scan s.cfg.w s.cfg.h) s <;> rfl

/-- The refinement pass ends where its steps end (44_coding_passes.md R251, R255). -/
theorem mrPass_outcome (p : Nat) (h : Deciding raw s) :
    ((mrPass p raw s).bind fun err t => .done () (t.setRes (resOfBit err)) : Act Unit).outcome =
      .next (s.mrSteps raw (p + s.cfg.shift.toNat)) := by
  have hframe : ∀ c t, (mrVisit p raw c t).state.passFrame raw = t.passFrame raw := mrVisit_passFrame p raw
  have hended := forEach_ended_steps (scan s.cfg.w s.cfg.h) hframe (fun c t ht hcfg => hcfg ▸ mrVisit_ended p c ht)
    (fun c t ht => State.mrStep_error ht raw _ c) h
  have hsafe : ∀ t, forEach (mrVisit p raw) (scan s.cfg.w s.cfg.h) s = .done () t → t.Safe := fun t ht =>
    (h.of_step (forEach_keeps _ hframe _ s) ht).1.safe
  rw [mrPass_bind_res, Act.outcome_eq_ended, Act.ended_bind_setRes 0 hsafe, hended, State.mrSteps]

/-! ## What a visit writes -/

theorem State.rewrites_word_flags (hcells : Sparse.WF SampleFlags.clear s.cells) (hsamp : Sparse.WF (0 : Word) s.samp)
    (hx : x < Config.maxSide) (f : SampleFlags) (v : Word) :
    s.Rewrites x y f v ((s.sampWrite x y v).setCell x y f) := by
  have hwrite := s.rewrites_sampWrite (y := y) hsamp hx v
  have hset := (s.sampWrite x y v).rewrites_setCell (y := y) hcells hx f
  rw [hwrite.word] at hset
  exact hwrite.trans hset

/-- A visit of the refinement pass: the coefficient left alone, or REF set and perhaps the bit of the plane
(44_coding_passes.md R245, R251). -/
theorem mrVisit_rewrites {c : Nat × Nat} (h : PassSound cfg p s) (hx : c.1 < cfg.w)
    (hd : mrVisit p raw c s = .done () t) :
    (t = s ∧ ((s.cell c.1 c.2).SIG = false ∨ (s.cell c.1 c.2).VIS = true)) ∨
    ((s.cell c.1 c.2).SIG = true ∧ (s.cell c.1 c.2).VIS = false ∧ ∃ d : Bool,
      s.Rewrites c.1 c.2 { s.cell c.1 c.2 with REF := true }
        (if d then s.sampRead c.1 c.2 ||| BitVec.ofNat 32 (2 ^ (p + cfg.shift.toNat)) else s.sampRead c.1 c.2) t) := by
  unfold mrVisit at hd
  split at hd
  · cases hd
    exact .inl ⟨rfl, ‹_›⟩
  rename_i hcoded
  obtain ⟨hsig, hvis⟩ := not_or.1 hcoded
  refine .inr ⟨Bool.not_eq_false _ ▸ hsig, Bool.not_eq_true _ ▸ hvis, ?_⟩
  obtain ⟨d, u, hu, he⟩ := Act.bind_eq_done.1 hd
  cases he
  obtain ⟨hcells, hsamp, -⟩ := passBit_cells hu
  have hsound : PassSound cfg p u := Act.of_done (passBit_passSound raw _ h) hu
  have hside : c.1 < Config.maxSide := hx.trans_le (hsound.config ▸ hsound.block.width)
  have hcell : u.cell c.1 c.2 = s.cell c.1 c.2 := by rw [State.cell, State.cell, hcells]
  have hword : u.sampRead c.1 c.2 = s.sampRead c.1 c.2 := by rw [State.sampRead, State.sampRead, hsamp]
  refine ⟨d, .of_same hcells hsamp ?_⟩
  rw [State.refine, hsound.config, refineWord_eq, hcell, hword]
  exact u.rewrites_word_flags hsound.block.cells hsound.block.samp hside _ _

/-! ## What the visits add up to -/

/-- What some of the visits of a refinement pass may have done to one coefficient: nothing, or its refinement
(44_coding_passes.md R245, R251). -/
def MrVisits (bit : Nat) (c c' : SampleFlags) (v v' : Word) : Prop :=
  (c' = c ∧ v' = v) ∨
  (c.SIG = true ∧ c.VIS = false ∧ c' = { c with REF := true } ∧ (v' = v ∨ v' = v ||| BitVec.ofNat 32 (2 ^ bit)))

theorem mrVisits_composes (bit : Nat) : Composes (MrVisits bit) where
  refl _ _ := .inl ⟨rfl, rfl⟩
  trans {c c' c'' v v' v''} h h' := by
    rcases h with ⟨rfl, rfl⟩ | ⟨hsig, hvis, rfl, hv⟩
    · exact h'
    rcases h' with ⟨rfl, rfl⟩ | ⟨-, -, rfl, hv'⟩
    · exact .inr ⟨hsig, hvis, rfl, hv⟩
    · refine .inr ⟨hsig, hvis, rfl, ?_⟩
      rcases hv with rfl | rfl
      · exact hv'
      · refine .inr ?_
        rcases hv' with rfl | rfl
        · rfl
        · rw [BitVec.or_assoc, BitVec.or_self]

theorem MrVisits.ref_kept {c c' : SampleFlags} {v v' : Word} (h : MrVisits bit c c' v v') (hr : c.REF = true) :
    c'.REF = true := by
  rcases h with ⟨rfl, -⟩ | ⟨-, -, rfl, -⟩
  · exact hr
  · rfl

/-- No visit of a refinement pass changes SIG or VIS. -/
theorem MrVisits.coded_kept {c c' : SampleFlags} {v v' : Word} (h : MrVisits bit c c' v v') :
    c'.SIG = c.SIG ∧ c'.VIS = c.VIS := by
  rcases h with ⟨rfl, -⟩ | ⟨-, -, rfl, -⟩ <;> exact ⟨rfl, rfl⟩

/-- Visits that have refined every coefficient of the pass are the pass. -/
theorem MrVisits.mrCoefficient {c c' : SampleFlags} {v v' : Word} (h : MrVisits bit c c' v v')
    (hr : c.SIG = true → c.VIS = false → c'.REF = true) : MrCoefficient bit c c' v v' := by
  constructor
  · rintro hskip
    rcases h with hsame | ⟨hsig, hvis, -⟩
    · exact hsame
    · exact absurd hskip (by simp [hsig, hvis])
  · rintro ⟨hsig, hvis⟩
    rcases h with ⟨rfl, rfl⟩ | ⟨-, -, hflags, hword⟩
    · exact ⟨SampleFlags.ext rfl rfl (hr hsig hvis) rfl, .inl rfl⟩
    · exact ⟨hflags, hword⟩

theorem mrVisit_part {c : Nat × Nat} (hc : c ∈ scan cfg.w cfg.h) (h : PassSound cfg p s)
    (hd : mrVisit p raw c s = .done () t) : PassPart (MrVisits (p + cfg.shift.toNat)) cfg p s t := by
  have hcomp := mrVisits_composes (p + cfg.shift.toNat)
  obtain ⟨hx, hy⟩ := mem_scan.1 hc
  have ht : PassSound cfg p t := Act.of_done (mrVisit_passSound raw h hx hy) hd
  rcases mrVisit_rewrites h hx hd with ⟨rfl, -⟩ | ⟨hsig, hvis, d, hw⟩
  · exact .of_same hcomp h h rfl rfl
  · refine .of_rewrites hcomp h ht hx hy hw (.inr ⟨hsig, hvis, rfl, ?_⟩)
    cases d
    · exact .inl rfl
    · exact .inr rfl

/-- A visit refines a significant coefficient not visited before (44_coding_passes.md R251). -/
theorem mrVisit_refines (hx : x < cfg.w) (h : PassSound cfg p s) (hd : mrVisit p raw (x, y) s = .done () t)
    (hsig : (s.cell x y).SIG = true) (hvis : (s.cell x y).VIS = false) : (t.cell x y).REF = true := by
  rcases mrVisit_rewrites h hx hd with ⟨-, hskip⟩ | ⟨-, -, d, hw⟩
  · exact absurd hskip (by simp [hsig, hvis])
  · rw [hw.flags]

/-! ## The whole pass -/

/-- A loop that completes has reached what one of its steps does and every step keeps. -/
theorem forEach_done_reaches (P Q : State → Prop) {f : β → State → Act Unit} {l : List β} {b : β} (hb : b ∈ l)
    (hP : ∀ c ∈ l, ∀ u v, P u → f c u = .done () v → P v) (hQ : ∀ c ∈ l, ∀ u v, P u → Q u → f c u = .done () v → Q v)
    (hreach : ∀ u v, P u → f b u = .done () v → Q v) (hs : P s) (hd : forEach f l s = .done () t) : Q t := by
  obtain ⟨l₁, l₂, rfl⟩ := List.append_of_mem hb
  rw [forEach_append, Act.bind_eq_done] at hd
  obtain ⟨_, u, hbefore, hd⟩ := hd
  obtain ⟨v, hstep, hafter⟩ := forEach_cons_done.1 hd
  have hu : P u := forEach_done_keeps P (fun c hc => hP c (List.mem_append_left _ hc)) hs hbefore
  have both : P t ∧ Q t := by
    refine forEach_done_keeps (fun w => P w ∧ Q w) (fun c hc w w' hw hd => ?_)
      ⟨hP b hb u v hu hstep, hreach u v hu hstep⟩ hafter
    have hmem : c ∈ l₁ ++ b :: l₂ := List.mem_append_right _ (List.mem_cons_of_mem _ hc)
    exact ⟨hP c hmem w w' hw.1 hd, hQ c hmem w w' hw.1 hw.2 hd⟩
  exact both.2

theorem mrPass_eq_done {e : Bool} (h : mrPass p raw s = .done e t) :
    forEach (mrVisit p raw) (scan s.cfg.w s.cfg.h) s = .done () t := by
  obtain ⟨_, u, hu, he⟩ := Act.bind_eq_done.1 h
  cases he
  exact hu

/-- A loop of visits refines each significant coefficient not visited before that it comes to: up to its visit the
coefficient is unchanged or refined already, and from there on REF stays. -/
theorem mrVisits_refine (h : PassSound cfg p s)
    (hd : forEach (mrVisit p raw) (scan cfg.w cfg.h) s = .done () t) (hb : s.InBlock x y)
    (hsig : (s.cell x y).SIG = true) (hvis : (s.cell x y).VIS = false) : (t.cell x y).REF = true := by
  have hx : x < cfg.w := h.config ▸ hb.1
  have hy : y < cfg.h := h.config ▸ hb.2
  have hcomp := mrVisits_composes (p + cfg.shift.toNat)
  have effectAt : ∀ {u v : State}, PassPart (MrVisits (p + cfg.shift.toNat)) cfg p u v →
      MrVisits (p + cfg.shift.toNat) (u.cell x y) (v.cell x y) (u.sampRead x y) (v.sampRead x y) := fun part =>
    part.effect.1 x y ⟨part.before.config ▸ hx, part.before.config ▸ hy⟩
  refine forEach_done_reaches (PassPart (MrVisits (p + cfg.shift.toNat)) cfg p s) (fun u => (u.cell x y).REF = true)
    (mem_scan.2 ⟨hx, hy⟩) (fun c hc u v hu hv => hu.trans hcomp (mrVisit_part hc hu.after hv))
    (fun c hc u v hu hr hv => (effectAt (mrVisit_part hc hu.after hv)).ref_kept hr) (fun u v hu hv => ?_)
    (.of_same hcomp h h rfl rfl) hd
  obtain ⟨hsig', hvis'⟩ := (effectAt hu).coded_kept
  exact mrVisit_refines hx hu.after hv (hsig'.trans hsig) (hvis'.trans hvis)

theorem mrPass_effect {e : Bool} (h : PassSound cfg p s) (hd : mrPass p raw s = .done e t) :
    s.PassEffect (MrCoefficient (p + cfg.shift.toNat)) t := by
  have hloop := mrPass_eq_done hd
  rw [h.config] at hloop
  have visited : PassPart (MrVisits (p + cfg.shift.toNat)) cfg p s t :=
    .forEach (mrVisits_composes _) (fun c hc _ _ hu hv => mrVisit_part hc hu hv) h hloop
  obtain ⟨hin, hout⟩ := visited.effect
  exact ⟨fun x y hb => (hin x y hb).mrCoefficient (mrVisits_refine h hloop hb), hout⟩

/-- Settles O46: the pass is the fold of its steps; a clean coder completes it, and its visits refine each coefficient
that is significant and was not visited. -/
theorem passMrEffect : Obligations.PassMrEffect := by
  unfold Obligations.PassMrEffect
  constructor
  · intro s p raw hp hr
    rw [exec_passMr hp hr]
    exact mrPass_outcome p.toNat hr.deciding
  · intro s p raw hp hr hi hc
    obtain ⟨t, ht, -⟩ := mrPass_done p.toNat (hr.passClean hc)
    have hframe := mrPass_passFrame p.toNat raw s
    rw [ht] at hframe
    have heffect := mrPass_effect (hr.passSound hi) ht
    refine ⟨t.setRes (resOfBit false), ?_, rfl, State.passFrame_of_passFrame hframe _, heffect⟩
    rw [exec_passMr hp hr, ht]
    rfl

end Sys2Proof.Machine
end

section
/-! PROOFS. CSR_WR, and what BLK_SEGMENT does before it changes anything: its checks, and the `last` step that no error
skips. -/

namespace Sys2Proof.Machine

variable {s t : State} {cfg : BlockConfig} {n : Nat} {last raw : Bool} {e : Err} {plan rest : List (PassKind × BitVec 5)}
  {first : PassKind × BitVec 5}

/-! ## CSR_WR -/

theorem exec_csrWr {csr : BitVec 4} (data : Word) (h : CsrWritable csr) :
    exec (.csrWr csr data) s = .next (s.setCsr (writeCsr s.csr csr data)) := by
  show execCsrWr csr data s = _
  rw [execCsrWr, decide_eq_true h, runCommand_always, Act.outcome_done]

theorem exec_csrWr_illegal {csr : BitVec 4} (data : Word) (h : ¬ CsrWritable csr) :
    exec (.csrWr csr data) s = .next (s.latch .illegalCommand) := by
  show execCsrWr csr data s = _
  rw [execCsrWr, decide_eq_false h]
  rfl

/-- Settles O20: a writable CSR takes the data under its mask, and no other index is writable. -/
theorem csrWriteStoresNamedFields : Obligations.CsrWriteStoresNamedFields := by
  unfold Obligations.CsrWriteStoresNamedFields
  intro s d
  have hall (w : Word) : w &&& 0xFFFFFFFF#32 = w := BitVec.and_allOnes
  refine ⟨exec_csrWr d (by decide), exec_csrWr d (by decide), ?_, ?_, exec_csrWr d (by decide), fun c hc => ?_⟩
  · rw [exec_csrWr d (by decide)]
    simp [writeCsr, writeMask, hall]
  · rw [exec_csrWr d (by decide)]
    simp [writeCsr, writeMask, hall]
  · exact ⟨_, exec_csrWr_illegal d (Nat.not_lt.2 hc), s.raises_latch .illegalCommand⟩

/-! ## The end of BLK_SEGMENT -/

theorem Act.finishSegment_eq (m : Act Unit) (last : Bool) : m.finishSegment last = m.ended.finishIf last := by
  cases m <;> rfl

/-- In a started block without an error BLK_SEGMENT ends where its `try` does, and then makes its `last` step
(45_block_control.md R304). -/
theorem exec_blkSegment (last : Bool) (hs : s.Safe) (hst : s.st.started = true) :
    exec (.blkSegment last) s = .next ((segmentBody s).ended.finishIf last) := by
  rw [← Act.finishSegment_eq]
  exact execBlkSegment_started last hs hst

/-- A view that the latch does not touch is the same where a stretch ends with its error latched. -/
theorem Act.ended_keeps {α γ : Type} (π : State → γ) (hl : ∀ (u : State) e, π (u.latch e) = π u) (m : Act α) :
    π m.ended = π m.state := by
  cases m with
  | done a u => rfl
  | raised e u => exact hl u e

theorem State.finishIf_finished (s : State) (last : Bool) :
    (s.finishIf last).st.finished = (s.st.finished || last) := by
  rw [State.finishIf_eq, State.setSt_st]

/-- The steps of a segment leave the status flags to the latch and the `last` step. -/
theorem segmentBody_st (s : State) : (segmentBody s).state.st = s.st := by
  have h := segmentBody_segRest s
  simp only [State.segRest, Prod.mk.injEq] at h
  obtain ⟨-, -, -, -, -, -, hst, -⟩ := h
  exact hst

/-- Settles O54: the `last` step is made in each of the ways BLK_SEGMENT can go in a started block. -/
theorem lastContributionFinishesTheBlock : Obligations.LastContributionFinishesTheBlock := by
  unfold Obligations.LastContributionFinishesTheBlock
  intro s t last hst hx
  rcases execBlkSegment_cases hx with ⟨-, rfl⟩ | ⟨-, hns, -⟩ | ⟨-, -, rfl⟩
  · rw [State.finishIf_finished, hst, Bool.and_true]
  · exact absurd (hst.symm.trans hns) (by decide)
  · rw [Act.finishSegment_eq, State.finishIf_finished,
      Act.ended_keeps (fun u => u.st.finished) State.latch_finished, segmentBody_st]

/-! ## The plan -/

theorem State.segPassCount_eq (s : State) : s.segPassCount = s.csr.segPasses.toNat % 256 := by
  simp [State.segPassCount]

theorem segmentBody_finished (h : s.st.finished = true) : segmentBody s = .raised .sequenceError s := by
  rw [segmentBody, if_pos h]

theorem segmentBody_excess (hf : s.st.finished = false)
    (hp : planPasses s.cfg (s.csr.segPasses.toNat % 256) s.cur.lastPass s.cur.plane = none) :
    segmentBody s = .raised .excessPasses s := by
  rw [segmentBody, if_neg (by simp [hf]), s.segPassCount_eq, hp]

theorem segmentBody_empty (hf : s.st.finished = false) (hn : s.csr.segPasses.toNat % 256 = 0) :
    segmentBody s = .done () s := by
  rw [segmentBody, if_neg (by simp [hf]), s.segPassCount_eq, hn, planPasses]

theorem segmentBody_planned (hf : s.st.finished = false)
    (hp : planPasses s.cfg (s.csr.segPasses.toNat % 256) s.cur.lastPass s.cur.plane = some (first :: rest)) :
    segmentBody s = if spansTwo s.cfg first rest then .raised .segmentSpan s
      else runSegment (first :: rest) (rawPass s.cfg first.1 first.2) s := by
  rw [segmentBody, if_neg (by simp [hf]), s.segPassCount_eq, hp]

/-- Settles O51: the plan is empty. -/
theorem zeroPassSegmentDoesNothing : Obligations.ZeroPassSegmentDoesNothing := by
  unfold Obligations.ZeroPassSegmentDoesNothing
  intro s last hs hst hf hn
  rw [exec_blkSegment last hs hst, segmentBody_empty hf hn]
  rfl

/-- A segment spans two codeword segments with RESTART and two passes, or with BYPASS and two coders
(45_block_control.md R307). -/
theorem spansTwo_iff : spansTwo cfg first rest = true ↔
    (cfg.restart = true ∧ rest ≠ []) ∨
      (cfg.bypass = true ∧ ∃ k ∈ rest, rawPass cfg k.1 k.2 ≠ rawPass cfg first.1 first.2) := by
  simp [spansTwo, bne_iff_ne]

theorem needsFresh_iff : s.needsFresh raw = true ↔ s.StartsFresh raw := by
  simp [State.needsFresh, State.StartsFresh, bne_iff_ne, or_assoc]

/-! ## How many passes are left -/

theorem planPasses_cu_eq_none (q : BitVec 5) : planPasses cfg n (some .cu) q = none ↔ 3 * q.toNat < n := by
  have h := planPasses_cu (cfg := cfg) q.isLt n
  rw [BitVec.ofNat_toNat, BitVec.setWidth_eq] at h
  rw [h]
  split <;> simp <;> omega

theorem planPasses_mr_eq_none (q : BitVec 5) : planPasses cfg n (some .mr) q = none ↔ 3 * q.toNat + 1 < n := by
  cases n with
  | zero => simp [planPasses]
  | succ n => rw [planPasses_succ n rfl, Option.map_eq_none_iff, planPasses_cu_eq_none]; omega

theorem planPasses_sp_eq_none (q : BitVec 5) : planPasses cfg n (some .sp) q = none ↔ 3 * q.toNat + 2 < n := by
  cases n with
  | zero => simp [planPasses]
  | succ n => rw [planPasses_succ n rfl, Option.map_eq_none_iff, planPasses_mr_eq_none]; omega

/-- From a legal cursor a plan runs past the end exactly when PASSCOUNT would (44_coding_passes.md R273,
45_block_control.md R306). -/
theorem planPasses_eq_none_iff {cur : Cursor} (h : Cursor.Legal cfg cur) :
    planPasses cfg n cur.lastPass cur.plane = none ↔ 3 * cfg.p0.toNat + 1 < cur.passCount.toNat + n := by
  obtain ⟨hstart, hcu, hsp, hmr⟩ := h
  cases hl : cur.lastPass with
  | none =>
    rw [hstart hl]
    exact ((passSequence cfg).2 n).trans (by simp [Cursor.start])
  | some kind =>
    cases kind with
    | cu => obtain ⟨hle, hcount, -⟩ := hcu hl; rw [planPasses_cu_eq_none]; omega
    | sp => obtain ⟨hlt, hcount, -⟩ := hsp hl; rw [planPasses_sp_eq_none]; omega
    | mr => obtain ⟨hlt, hcount, -⟩ := hmr hl; rw [planPasses_mr_eq_none]; omega

/-! ## The checks -/

/-- A segment that raises before it changes anything is rejected (60_exceptions.md R342, R345). -/
theorem exec_blkSegment_rejected (last : Bool) (hs : s.Safe) (hst : s.st.started = true)
    (h : segmentBody s = .raised e s) :
    ∃ t, exec (.blkSegment last) s = .next t ∧ s.SegmentRejected t last e.code := by
  refine ⟨_, exec_blkSegment last hs hst, ?_⟩
  rw [h, Act.ended_raised, s.latch_of_safe e hs, State.finishIf_eq]
  exact ⟨rfl, rfl⟩

/-- A segment whose append raises raises it (45_block_control.md R309). -/
theorem runSegment_append_raised (hn : ¬ s.StartsFresh raw) (h : appendSegment raw s = .raised e s) :
    runSegment plan raw s = .raised e s := by
  rw [runSegment, coderStep, if_neg (needsFresh_iff.not.2 hn), h, Act.bind_raised]

theorem appendSegment_notReady (h : s.bound ≠ if raw then .br else .mq) :
    appendSegment raw s = .raised .notReady s := if_pos h

theorem appendSegment_late (hb : s.bound = if raw then .br else .mq) (hf : s.src.filled = true)
    (hl : 0 < s.csr.segLen.toNat) : appendSegment raw s = .raised .lateAppend s := by
  rw [appendSegment, if_neg (not_not.2 hb), if_pos ⟨hf, hl⟩]

/-- Settles O52: each check raises in a state that nothing before it has changed. -/
theorem segmentChecksComeFirst : Obligations.SegmentChecksComeFirst := by
  unfold Obligations.SegmentChecksComeFirst
  intro s last hs hst
  refine ⟨fun hf => exec_blkSegment_rejected last hs hst (segmentBody_finished hf), fun hf => ⟨fun hcur hn => ?_, ?_⟩⟩
  · exact exec_blkSegment_rejected last hs hst (segmentBody_excess hf ((planPasses_eq_none_iff hcur).2 hn))
  intro first rest hplan raw spans
  have hlen : 1 < s.csr.segPasses.toNat % 256 ↔ rest ≠ [] := by
    rw [← planPasses_length hplan, List.length_cons, ← List.length_pos_iff]
    omega
  have hspans : spansTwo s.cfg first rest = true ↔ spans := by rw [spansTwo_iff, ← hlen]
  have hbody := segmentBody_planned hf hplan
  refine ⟨fun h => ?_, fun h hfresh => ?_⟩
  · rw [if_pos (hspans.2 h)] at hbody
    exact exec_blkSegment_rejected last hs hst hbody
  rw [if_neg (hspans.not.2 h)] at hbody
  refine ⟨fun hb => ?_, fun hb hfill hpos => ?_⟩
  · exact exec_blkSegment_rejected last hs hst
      (hbody.trans (runSegment_append_raised hfresh (appendSegment_notReady hb)))
  · exact exec_blkSegment_rejected last hs hst
      (hbody.trans (runSegment_append_raised hfresh (appendSegment_late hb hfill hpos)))

end Sys2Proof.Machine
end

section
/-! PROOFS. BLK_SEGMENT is its parts: the coder step, the context reset, the planned passes and the termination check, each
told by its command, up to the first error; and it completes when its coder can read the segment. -/

namespace Sys2Proof.Machine

variable {α β : Type} {s t u : State} {cfg : BlockConfig} {n : Nat} {last raw : Bool} {e : Err}
  {plan : List (PassKind × BitVec 5)} {first final k : PassKind × BitVec 5} {P : State → Prop} {E : Err → Prop}

/-! ## A state with an error goes through every part unchanged -/

theorem State.contextSteps_error (h : s.st.error = true) (resetAt : Config.CtxResetAt) :
    s.contextSteps resetAt = s := by
  have hx : s.after .cxReset = s := State.after_eq (by
    show execCxReset s = _
    simp [execCxReset, runCommand, h])
  rw [State.contextSteps, hx, ite_self]

/-- A pass command with an error latched changes nothing, whatever its plane. -/
theorem exec_passInstr_error (h : s.st.error = true) (kind : PassKind) (p : BitVec 5) (raw : Bool) :
    exec (passInstr kind p raw) s = .next s := by
  have hrun : ∀ (legal : Bool) (body : State → Act Unit), runCommand legal false body s = .next s := by
    intro legal body
    cases legal
    · exact congrArg _ (s.latch_of_error _ h)
    · exact (if_neg (by decide)).trans (if_pos ⟨h, rfl⟩)
  cases kind
  · exact hrun _ _
  · exact hrun _ _
  · exact hrun _ _

theorem State.plannedPass_error (h : s.st.error = true) (k : PassKind × BitVec 5) : s.plannedPass k = s := by
  rw [State.plannedPass, State.contextSteps_error h, State.after_eq (exec_passInstr_error h _ _ _)]
  exact if_neg (by simp [h])

theorem foldl_plannedPass_error (plan : List (PassKind × BitVec 5)) (h : s.st.error = true) :
    plan.foldl State.plannedPass s = s := by
  induction plan with
  | nil => rfl
  | cons k ks ih => rw [List.foldl_cons, State.plannedPass_error h, ih]

theorem State.terminationSteps_error (h : s.st.error = true) : s.terminationSteps = s :=
  if_neg fun ⟨hs, _⟩ => absurd (hs.symm.trans h) (by decide)

/-- A sequence ends where its second part, told from the state the first part leaves, ends. -/
theorem Act.ended_bind {m : Act α} {f : α → State → Act β} {g : State → State}
    (hf : ∀ a t, m = .done a t → (f a t).ended = g t) (hg : ∀ t : State, t.st.error = true → g t = t) :
    (m.bind f).ended = g m.ended := by
  cases m with
  | done a t => exact hf a t rfl
  | raised e t => exact (hg _ (State.latch_error t e)).symm

/-! ## The plan -/

/-- Without BYPASS no pass is raw (44_coding_passes.md R271). -/
theorem rawPass_of_no_bypass (h : cfg.bypass = false) (kind : PassKind) (p : BitVec 5) : rawPass cfg kind p = false := by
  cases kind <;> simp [rawPass, h]

/-- The passes of a plan that uses one coder under BYPASS use one coder. -/
theorem rawPass_of_bypass (hb : cfg.bypass = true → rawPass cfg k.1 k.2 = rawPass cfg first.1 first.2) :
    rawPass cfg k.1 k.2 = rawPass cfg first.1 first.2 := by
  cases h : cfg.bypass
  · rw [rawPass_of_no_bypass h, rawPass_of_no_bypass h]
  · exact hb h

/-- A segment with a legal plan inside one codeword segment runs the plan (45_block_control.md R304). -/
theorem segmentBody_eq_runSegment (hf : s.st.finished = false)
    (hp : planPasses s.cfg (s.csr.segPasses.toNat % 256) s.cur.lastPass s.cur.plane = some plan)
    (hfirst : plan.head? = some first) (hr : s.cfg.restart = true → plan.length = 1)
    (hb : ∀ k ∈ plan, rawPass s.cfg k.1 k.2 = rawPass s.cfg first.1 first.2) :
    segmentBody s = runSegment plan (rawPass s.cfg first.1 first.2) s := by
  obtain ⟨rest, rfl⟩ := List.head?_eq_some_iff.1 hfirst
  rw [segmentBody_planned hf hp, if_neg]
  rw [spansTwo_iff]
  rintro (⟨hre, hne⟩ | ⟨-, k, hk, hne⟩)
  · exact hne (List.length_eq_zero_iff.1 (Nat.succ_inj.1 (hr hre)))
  · exact hne (hb k (List.mem_cons_of_mem _ hk))

/-! ## What the parts keep -/

/-- What no part of a segment writes once its coder is bound, field by field. -/
theorem boundRest_fields (h : t.boundRest = s.boundRest) :
    t.cfg = s.cfg ∧ t.st = s.st ∧ t.res = s.res ∧ t.bound = s.bound ∧ t.br.mode = s.br.mode ∧
      t.src.ranges = s.src.ranges := by
  simp only [State.boundRest, State.segRest, Prod.mk.injEq] at h
  obtain ⟨⟨-, -, -, -, hres, hcfg, hst, -⟩, hranges, hbound, hmode, -⟩ := h
  exact ⟨hcfg, hst, hres, hbound, hmode, hranges⟩

/-- What a coder step that completes leaves alone. -/
theorem coderStep_done_fields (h : coderStep raw s = .done () t) :
    t.cfg = s.cfg ∧ t.st = s.st ∧ t.res = s.res ∧ t.cur = s.cur := by
  obtain ⟨hrest, hcur, -⟩ := coderStep_segRest raw s
  rw [h] at hrest hcur
  simp only [State.segRest, Act.state_done, Prod.mk.injEq] at hrest
  obtain ⟨-, -, -, -, hres, hcfg, hst, -⟩ := hrest
  exact ⟨hcfg, hst, hres, hcur⟩

theorem segmentReset_cur (s : State) : s.segmentReset.cur = s.cur := by
  unfold State.segmentReset; split <;> rfl

/-! ## The coder step -/

/-- The coder of a segment: the bit reader for raw passes, else the MQ decoder (45_block_control.md R308, R309). -/
abbrev coderOf (raw : Bool) : Bound := if raw then .br else .mq

/-- Where the coder step completes the segment's coder is bound. -/
theorem coderStep_done_bound (h : coderStep raw s = .done () t) : t.bound = coderOf raw := by
  unfold coderStep at h
  split at h
  · cases raw
    · exact Act.of_done (P := fun u => u.bound = .mq) (bindDecoder_bound s).1 h
    · cases h; rfl
  · unfold appendSegment at h
    by_cases hb : s.bound ≠ coderOf raw
    · rw [if_pos hb] at h; cases h
    · rw [if_neg hb] at h
      split at h
      · cases h
      · cases h; exact not_not.1 hb

/-- The append of a segment whose bound coder can take it (45_block_control.md R309). -/
theorem appendSegment_fits (hb : s.bound = coderOf raw) (hl : s.src.filled = true → s.csr.segLen = 0) :
    appendSegment raw s =
      .done () (s.setSrc { s.src with ranges := s.src.ranges ++ [(s.csr.segBase, s.csr.segLen)] }) := by
  rw [appendSegment, if_neg (not_not.2 hb), if_neg]
  rintro ⟨hfill, hpos⟩
  simp [hl hfill] at hpos

/-- The coder step: a fresh coder by its own command, or the append (45_block_control.md R308, R309). -/
theorem coderStep_ended (hs : s.Safe) (hfits : s.CoderFits raw) : (coderStep raw s).ended = s.coderSteps raw := by
  by_cases hfresh : s.StartsFresh raw
  · rw [coderStep, if_pos (needsFresh_iff.2 hfresh), State.coderSteps, if_pos hfresh]
    cases raw with
    | false =>
      exact (State.after_eq ((exec_mqInit hs).trans (Act.outcome_eq_ended _))).symm
    | true =>
      have hx : exec (.brBind true) s = .next (s.bindReader true) := by
        show execBrBind true s = _
        rw [execBrBind, runCommand_safe hs, Act.outcome_done]
      exact (State.after_eq hx).symm
  · obtain ⟨hb, hl, -⟩ := hfits.resolve_left hfresh
    rw [coderStep, if_neg (needsFresh_iff.not.2 hfresh), State.coderSteps, if_neg hfresh, appendSegment_fits hb hl,
      Act.ended_done]

/-- A coder step that completes leaves the segment's coder ready for its decisions. -/
theorem coderStep_deciding (hs : s.Safe) (hfits : s.CoderFits raw) (h : coderStep raw s = .done () t) :
    Deciding raw t := by
  obtain ⟨-, hst, -, -⟩ := coderStep_done_fields h
  have hbound := coderStep_done_bound h
  refine ⟨(congrArg BlockStatus.error hst).trans hs, ?_⟩
  cases raw with
  | false => exact hbound
  | true =>
    refine ⟨hbound, ?_⟩
    by_cases hfresh : s.StartsFresh true
    · rw [coderStep, if_pos (needsFresh_iff.2 hfresh)] at h
      cases h; rfl
    · obtain ⟨hb, hl, hmode⟩ := hfits.resolve_left hfresh
      rw [coderStep, if_neg (needsFresh_iff.not.2 hfresh), appendSegment_fits hb hl] at h
      cases h; exact hmode rfl

/-! ## The planned passes -/

/-- A pass that completes leaves the cursor at it (45_block_control.md R311). -/
theorem segmentPass_done_cur (h : segmentPass k s = .done () t) :
    t.cur = { lastPass := some k.1, plane := k.2, passCount := s.cur.passCount + 1,
              lastType := if rawPass s.cfg k.1 k.2 then .raw else .mq } := by
  obtain ⟨err, u, hu, h⟩ := Act.bind_eq_done.1 h
  have hcur : u.cur = s.cur := by
    have hrest := runPass_passRest k.1 k.2 (rawPass s.cfg k.1 k.2) s.passReset
    rw [hu] at hrest
    simp only [State.passRest, Act.state_done, Prod.mk.injEq] at hrest
    obtain ⟨-, -, -, -, -, -, -, -, -, hcur, -⟩ := hrest
    rw [hcur]
    unfold State.passReset; split <;> rfl
  cases err
  · cases h
    rw [State.advance, State.setCur_cur, hcur]
  · cases h

/-- The planned passes, where they complete, leave the cursor at the last one (45_block_control.md R311). -/
theorem segmentPasses_done_cur (h : forEach segmentPass plan s = .done () t) (hl : plan.getLast? = some final) :
    t.cur = { lastPass := some final.1, plane := final.2, passCount := s.cur.passCount + BitVec.ofNat 8 plan.length,
              lastType := if rawPass s.cfg final.1 final.2 then .raw else .mq } := by
  induction plan generalizing s with
  | nil => cases hl
  | cons k ks ih =>
    obtain ⟨u, hu, h⟩ := forEach_cons_done.1 h
    have hcur := segmentPass_done_cur hu
    have hcfg : u.cfg = s.cfg := by
      have hrest := segmentPass_boundRest k s
      rw [hu] at hrest
      exact (boundRest_fields hrest).1
    cases ks with
    | nil =>
      cases hl
      cases h
      exact hcur
    | cons k' ks =>
      rw [List.getLast?_cons_cons] at hl
      have hcount : s.cur.passCount + 1 + BitVec.ofNat 8 (k' :: ks).length =
          s.cur.passCount + BitVec.ofNat 8 (k :: k' :: ks).length := by
        rw [List.length_cons (a := k), BitVec.ofNat_add, BitVec.add_assoc, BitVec.add_comm 1]
        rfl
      rw [ih h hl, hcur, hcfg, hcount]

/-- The planned passes, each by its pass command (45_block_control.md R310, R311). -/
theorem segmentPasses_ended (hd : Deciding raw s) (hst : s.st.started = true)
    (hraw : ∀ k ∈ plan, rawPass s.cfg k.1 k.2 = raw) (hplane : ∀ k ∈ plan, k.2.toNat + s.cfg.shift.toNat ≤ 30) :
    (forEach segmentPass plan s).ended = plan.foldl State.plannedPass s := by
  refine forEach_ended (fun t => Deciding raw t ∧ t.st.started = true ∧ t.cfg = s.cfg) ?_
    (fun k t ht => State.plannedPass_error ht k) ?_ ⟨hd, hst, rfl⟩
  · rintro k hk t ⟨ht, hstt, hcfg⟩
    have hle := hplane k hk
    exact segmentPass_ended ht.safe hstt (by rw [hcfg, hraw k hk]; exact ht.ready) (show k.2.toNat ≤ 30 by omega)
      (by rw [State.PlaneFits, hcfg]; exact hle)
  · rintro k - t u ⟨ht, hstt, hcfg⟩ hu
    have hrest := segmentPass_boundRest k t
    rw [hu] at hrest
    obtain ⟨hc, hstu, -, hb, hm, -⟩ := boundRest_fields hrest
    exact ⟨⟨(congrArg BlockStatus.error hstu).trans ht.safe, DecisionReady_of_eq hb hm ht.ready⟩,
      (congrArg BlockStatus.started hstu).trans hstt, hc.trans hcfg⟩

/-! ## The whole segment -/

/-- Behind the planned passes the coder of the last one is bound. -/
theorem segmentPasses_done_coder (hd : Deciding raw s) (hraw : ∀ k ∈ plan, rawPass s.cfg k.1 k.2 = raw)
    (hne : plan ≠ []) (h : forEach segmentPass plan s = .done () t) :
    t.Safe ∧ t.st.started = s.st.started ∧ (t.cur.lastType = .mq → t.bound = .mq) := by
  have hrest := segmentPasses_boundRest plan s
  rw [h] at hrest
  obtain ⟨-, hst, -, hb, -⟩ := boundRest_fields hrest
  refine ⟨(congrArg BlockStatus.error hst).trans hd.safe, congrArg BlockStatus.started hst, ?_⟩
  rw [segmentPasses_done_cur h (List.getLast?_eq_some_getLast hne), hraw _ (List.getLast_mem hne)]
  intro hmq
  have hready := hd.ready
  cases raw
  · exact hb.trans hready
  · cases hmq

/-- A segment is its parts, each by its command (45_block_control.md R304, R308 to R312). -/
theorem runSegment_ended (hs : s.Safe) (hst : s.st.started = true) (hfits : s.CoderFits raw) (hne : plan ≠ [])
    (hraw : ∀ k ∈ plan, rawPass s.cfg k.1 k.2 = raw) (hplane : ∀ k ∈ plan, k.2.toNat + s.cfg.shift.toNat ≤ 30) :
    (runSegment plan raw s).ended = s.segmentSteps plan raw := by
  rw [State.segmentSteps, ← coderStep_ended hs hfits]
  refine Act.ended_bind (g := fun v => (plan.foldl State.plannedPass (v.contextSteps .segment)).terminationSteps)
    (fun _ v hv => ?_) fun v hv => ?_
  · obtain ⟨hcfg, hstv, -, -⟩ := coderStep_done_fields hv
    have hdv := coderStep_deciding hs hfits hv
    obtain ⟨hcfg', hst', -, hb', hm', -⟩ := boundRest_fields (segmentReset_boundRest v)
    have hd : Deciding raw v.segmentReset :=
      ⟨(congrArg BlockStatus.error hst').trans hdv.safe, DecisionReady_of_eq hb' hm' hdv.ready⟩
    have hc : v.segmentReset.cfg = s.cfg := hcfg'.trans hcfg
    have hstarted : v.segmentReset.st.started = true := by rw [hst']; exact (congrArg BlockStatus.started hstv).trans hst
    rw [(contextSteps_eq hdv.safe).1, ← segmentPasses_ended hd hstarted (hc ▸ hraw) (hc ▸ hplane)]
    refine Act.ended_bind (fun _ w hw => ?_) fun w hw => State.terminationSteps_error hw
    obtain ⟨hsafe, hstw, hbw⟩ := segmentPasses_done_coder hd (hc ▸ hraw) hne hw
    exact terminationCheck_ended hsafe (hstw.trans hstarted) hbw
  · rw [State.contextSteps_error hv, foldl_plannedPass_error plan hv, State.terminationSteps_error hv]

/-- The `last` step of a block that is not finished sets FINISHED to `last`. -/
theorem State.finishIf_of_unfinished (h : s.st.finished = false) (last : Bool) :
    s.finishIf last = s.setSt { s.st with finished := last } := by
  rw [State.finishIf_eq, h, Bool.false_or]

theorem segmentBody_ended_unfinished (h : s.st.finished = false) : (segmentBody s).ended.st.finished = false := by
  rw [Act.ended_keeps (fun u => u.st.finished) State.latch_finished, segmentBody_st, h]

/-! ## Completion -/

/-- A loop ends where its body keeps it, on the values it comes to. -/
theorem forEach_meets_of_mem {f : β → State → Act Unit} {l : List β} (hf : ∀ b ∈ l, ∀ t, P t → (f b t).Meets P E)
    (h : P s) : (forEach f l s).Meets P E := by
  induction l generalizing s with
  | nil => exact h
  | cons b bs ih =>
    exact (hf b List.mem_cons_self s h).bind fun _ t ht => ih (fun c hc => hf c (List.mem_cons_of_mem _ hc)) ht

/-- The coder step with bytes the coder can read completes and binds or keeps the coder on them
(45_block_control.md R308, R309). -/
theorem coderStep_clean (hfits : s.CoderFits raw) (hc : (s.withSegment raw).CoderClean raw) :
    ∃ t, coderStep raw s = .done () t ∧ PassClean raw t ∧ t.src.ranges = (s.withSegment raw).src.ranges := by
  obtain ⟨hreadable, hstuffing⟩ := hc
  by_cases hfresh : s.StartsFresh raw
  · have hn : s.needsFresh raw = true := needsFresh_iff.2 hfresh
    rw [State.withSegment, if_pos hn] at hreadable hstuffing ⊢
    rw [coderStep, if_pos hn]
    cases raw with
    | true => exact ⟨s.bindReader true, rfl, ⟨hreadable, hstuffing rfl, rfl⟩, rfl⟩
    | false =>
      have hclean : DecoderClean (s.bindSource s.csr.segBase s.csr.segLen .mq) := ⟨hreadable, rfl⟩
      obtain ⟨t, ht⟩ := initDec_done hclean
      have hrest := initDec_rest (s.bindSource s.csr.segBase s.csr.segLen .mq)
      rw [ht] at hrest
      simp only [State.initRest, Act.state_done, Prod.mk.injEq] at hrest
      obtain ⟨hpar, -, -, -, hranges, hbound, -⟩ := hrest
      exact ⟨t, ht, hclean.of_coderRest_ranges hpar hranges hbound, hranges⟩
  · have hn : ¬ s.needsFresh raw = true := needsFresh_iff.not.2 hfresh
    obtain ⟨hb, hl, hmode⟩ := hfits.resolve_left hfresh
    rw [State.withSegment, if_neg hn] at hreadable hstuffing ⊢
    rw [coderStep, if_neg hn, appendSegment_fits hb hl]
    refine ⟨_, rfl, ?_, rfl⟩
    cases raw with
    | true => exact ⟨hreadable, hstuffing rfl, hmode rfl⟩
    | false => exact ⟨hreadable, hb⟩

/-- A pass whose coder can read completes, or signals a mismatch of the segmentation symbol. -/
theorem segmentPass_meets (hraw : rawPass s.cfg k.1 k.2 = raw) (h : PassClean raw s) :
    (segmentPass k s).Meets (fun t => PassClean raw t ∧ t.cfg = s.cfg)
      fun e => e = .segmentationMismatch ∧ s.cfg.segSym = true := by
  obtain ⟨t, hclean, -, hd | ⟨hsym, hd⟩⟩ := segmentPass_done k (s := s) (by rwa [hraw])
  · have hrest := segmentPass_boundRest k s
    rw [hd] at hrest ⊢
    exact ⟨hraw ▸ hclean, (boundRest_fields hrest).1⟩
  · rw [hd]
    exact ⟨rfl, hsym⟩

/-- The termination check of a coder that can read completes, or fails (45_block_control.md R312). -/
theorem terminationCheck_meets (h : PassClean raw s) (hmq : s.cur.lastType = .mq → raw = false) :
    (terminationCheck s).Meets (fun t => t.cur = s.cur)
      fun e => e = .predictableTerminationFailure ∧ s.cfg.pterm = true := by
  unfold terminationCheck
  by_cases hp : s.cfg.pterm = true ∧ s.cur.lastType = .mq ∧ s.endsCodeword = true
  · rw [if_pos hp]
    obtain ⟨hpterm, htype, -⟩ := hp
    obtain rfl := hmq htype
    obtain ⟨d, t, ht⟩ := pterm_done h
    have hrest := pterm_rest s
    rw [ht] at hrest ⊢
    simp only [State.mqOnlyRest, State.coderRest, Act.state_done, Prod.mk.injEq] at hrest
    obtain ⟨⟨-, -, -, -, -, -, -, -, -, hcur, -⟩, -⟩ := hrest
    cases d
    · exact hcur
    · exact ⟨rfl, hpterm⟩
  · rw [if_neg hp]
    exact rfl

/-- A segment whose coder can read completes with the cursor at its last pass, or raises SegmentationMismatch with SEGSYM
or PredictableTerminationFailure with PTERM (45_block_control.md R311, R312). -/
theorem runSegment_meets (hfits : s.CoderFits raw) (hc : (s.withSegment raw).CoderClean raw)
    (hraw : ∀ k ∈ plan, rawPass s.cfg k.1 k.2 = raw) (hl : plan.getLast? = some final) :
    (runSegment plan raw s).Meets
      (fun t => t.cur =
        { lastPass := some final.1, plane := final.2, passCount := s.cur.passCount + BitVec.ofNat 8 plan.length,
          lastType := if rawPass s.cfg final.1 final.2 then .raw else .mq })
      fun e => (e = .segmentationMismatch ∧ s.cfg.segSym = true) ∨
        (e = .predictableTerminationFailure ∧ s.cfg.pterm = true) := by
  obtain ⟨v, hv, hclean, -⟩ := coderStep_clean hfits hc
  obtain ⟨hcfg, -, -, hcur⟩ := coderStep_done_fields hv
  have hcfg' : v.segmentReset.cfg = s.cfg := (boundRest_fields (segmentReset_boundRest v)).1.trans hcfg
  have hpasses : (forEach segmentPass plan v.segmentReset).Meets (fun t => PassClean raw t ∧ t.cfg = s.cfg)
      fun e => e = .segmentationMismatch ∧ s.cfg.segSym = true :=
    forEach_meets_of_mem (fun k hk t ⟨ht, hct⟩ => hct ▸ segmentPass_meets (by rw [hct, hraw k hk]) ht)
      ⟨hclean.segmentReset, hcfg'⟩
  rw [runSegment, hv, Act.bind_done]
  cases hd : forEach segmentPass plan v.segmentReset with
  | raised e w =>
    rw [hd] at hpasses
    exact .inl hpasses
  | done a w =>
    rw [hd] at hpasses
    obtain ⟨hw, hcw⟩ := hpasses
    have hend := segmentPasses_done_cur hd hl
    rw [hcfg', segmentReset_cur, hcur] at hend
    have hterm := terminationCheck_meets hw fun hmq => by
      rw [hend, hraw _ (List.mem_of_getLast? hl)] at hmq
      cases raw
      · rfl
      · cases hmq
    rw [Act.bind_done]
    cases ht : terminationCheck w with
    | done a x => rw [ht] at hterm; exact hterm.trans hend
    | raised e x => rw [ht, hcw] at hterm; exact .inr hterm

/-- What a segment leaves alone, and the coder and the bytes it leaves bound, where its coder step completes. -/
theorem runSegment_fields (h : coderStep raw s = .done () t) :
    (runSegment plan raw s).state.res = s.res ∧ (runSegment plan raw s).state.st = s.st ∧
      (runSegment plan raw s).state.bound = coderOf raw ∧ (runSegment plan raw s).state.src.ranges = t.src.ranges := by
  obtain ⟨-, hst, hres, -⟩ := coderStep_done_fields h
  obtain ⟨-, hst', hres', hbound, -, hranges⟩ := boundRest_fields (segment_boundRest plan t)
  rw [runSegment, h, Act.bind_done]
  exact ⟨hres'.trans hres, hst'.trans hst, hbound.trans (coderStep_done_bound h), hranges⟩

/-- The same of the state the segment ends in, with its error latched if it raised one. -/
theorem runSegment_ended_fields (h : coderStep raw s = .done () t) :
    (runSegment plan raw s).ended.res = s.res ∧ (runSegment plan raw s).ended.st.started = s.st.started ∧
      (runSegment plan raw s).ended.bound = coderOf raw ∧
      (runSegment plan raw s).ended.src.ranges = t.src.ranges := by
  obtain ⟨hres, hst, hbound, hranges⟩ := runSegment_fields (plan := plan) h
  exact ⟨(Act.ended_keeps State.res State.latch_res _).trans hres,
    (Act.ended_keeps (fun u => u.st.started) State.latch_started _).trans (congrArg BlockStatus.started hst),
    (Act.ended_keeps State.bound State.latch_bound _).trans hbound,
    (Act.ended_keeps (fun u => u.src.ranges) (fun u e => by rw [State.latch_src]) _).trans hranges⟩

/-- A stretch ends without an error exactly where it completes. -/
theorem Act.Meets.of_ended_safe {m : Act α} (h : m.Meets P E) (hs : m.ended.Safe) : P m.ended := by
  cases m with
  | done a t => exact h
  | raised e t => exact absurd hs (not_safe_latch t e)

/-- A stretch that keeps a state without an error ends with one only if it raised it. -/
theorem Act.Meets.of_ended_unsafe {m : Act α} (h : m.Meets P E) (hm : m.state.Safe) (hs : ¬ m.ended.Safe) :
    ∃ e, E e ∧ m.ended.st.errCode = e.code := by
  cases m with
  | done a t => exact absurd hm hs
  | raised e t => exact ⟨e, h, by rw [Act.ended_raised, t.latch_of_safe e hm]; rfl⟩

/-- The errors of a segment whose coder can read, by their codes (60_exceptions.md R341). -/
theorem runSegment_error (hs : s.Safe) (hfits : s.CoderFits raw) (hc : (s.withSegment raw).CoderClean raw)
    (hraw : ∀ k ∈ plan, rawPass s.cfg k.1 k.2 = raw) (hl : plan.getLast? = some final)
    (hn : ¬ (runSegment plan raw s).ended.Safe) :
    ((runSegment plan raw s).ended.st.errCode = 3 ∧ s.cfg.segSym = true) ∨
      ((runSegment plan raw s).ended.st.errCode = 4 ∧ s.cfg.pterm = true) := by
  obtain ⟨v, hv, -⟩ := coderStep_clean hfits hc
  have hst := (runSegment_fields (plan := plan) hv).2.1
  obtain ⟨e, he, hcode⟩ := (runSegment_meets hfits hc hraw hl).of_ended_unsafe
    ((congrArg BlockStatus.error hst).trans hs) hn
  rcases he with ⟨rfl, hsym⟩ | ⟨rfl, hpterm⟩
  · exact .inl ⟨hcode, hsym⟩
  · exact .inr ⟨hcode, hpterm⟩

/-- Settles O53: BLK_SEGMENT runs its plan, and each part of that is its command; with a coder that can read no part
raises but the two checks. -/
theorem segmentCompletes : Obligations.SegmentCompletes := by
  unfold Obligations.SegmentCompletes
  constructor
  · intro s last plan first hi hs hst hf hplan hfirst hr hb hfits t
    have hraw : ∀ k ∈ plan, rawPass s.cfg k.1 k.2 = rawPass s.cfg first.1 first.2 :=
      fun k hk => rawPass_of_bypass fun h => hb h k hk
    have hne : plan ≠ [] := by rintro rfl; cases hfirst
    have hbody := segmentBody_eq_runSegment hf hplan hfirst hr hraw
    have hended : (segmentBody s).ended = t := by
      rw [hbody]
      exact runSegment_ended hs hst hfits hne hraw (planesStayMagnitudeBits.2 s _ plan hi hst hplan)
    rw [exec_blkSegment last hs hst, State.finishIf_of_unfinished (segmentBody_ended_unfinished hf), hended]
  · intro s last plan first final hs hst hf hplan hfirst hfinal hr hb hfits hclean
    have hraw : ∀ k ∈ plan, rawPass s.cfg k.1 k.2 = rawPass s.cfg first.1 first.2 :=
      fun k hk => rawPass_of_bypass fun h => hb h k hk
    have hbody := segmentBody_eq_runSegment hf hplan hfirst hr hraw
    obtain ⟨v, hv, -, hranges⟩ := coderStep_clean hfits hclean
    obtain ⟨hres, hstarted, hbound, hrange⟩ := runSegment_ended_fields (plan := plan) hv
    have herror := runSegment_error hs hfits hclean hraw hfinal
    refine ⟨_, exec_blkSegment last hs hst, ?_⟩
    rw [State.finishIf_of_unfinished (segmentBody_ended_unfinished hf), hbody]
    refine ⟨hres, hstarted.trans hst, rfl, (runSegment_meets hfits hclean hraw hfinal).of_ended_safe,
      fun hsym hpterm => ?_, herror, hbound, hrange.trans hranges⟩
    by_contra hn
    rcases herror hn with ⟨-, hsym'⟩ | ⟨-, hpterm'⟩
    · exact absurd (hsym.symm.trans hsym') (by decide)
    · exact absurd (hpterm.symm.trans hpterm') (by decide)

end Sys2Proof.Machine
end

section
/-! PROOFS. A contribution in two parts (45_block_control.md R316). Neither coder looks at the CSRs, nor at ranges of no bytes
behind its source, so that the passes of the second part go on as those of one BLK_SEGMENT would. -/

namespace Sys2Proof.Machine

variable {α β : Type} {s t u v w : State} {cfg : BlockConfig} {n : Nat} {raw : Bool} {e : Err}
  {plan l₁ l₂ : List (PassKind × BitVec 5)} {first final k : PassKind × BitVec 5}

/-! ## Other CSRs, and ranges of no bytes behind the source -/

/-- The state with other CSRs and with more ranges behind the bound source. -/
def State.extended (s : State) (c : Csrs) (rs : List (Word × Word)) : State :=
  (s.setCsr c).setSrc { s.src with ranges := s.src.ranges ++ rs }

/-- The same pseudocode, from a state with other CSRs and with more ranges behind the bound source. -/
def Act.extended (m : Act α) (c : Csrs) (rs : List (Word × Word)) : Act α :=
  match m with
  | .done a s => .done a (s.extended c rs)
  | .raised e s => .raised e (s.extended c rs)

theorem State.extended_nil (s : State) (c : Csrs) : s.extended c [] = s.setCsr c := by
  rw [State.extended, List.append_nil]
  rfl

theorem State.latch_extended (s : State) (e : Err) (c : Csrs) (rs : List (Word × Word)) :
    (s.extended c rs).latch e = (s.latch e).extended c rs := by
  cases h : s.st.error with
  | true => rw [s.latch_of_error e h, State.latch_of_error _ e (show (s.extended c rs).st.error = true from h)]
  | false =>
    rw [s.latch_of_safe e h, State.latch_of_safe _ e (show (s.extended c rs).st.error = false from h)]
    rfl

theorem Act.ended_extended (m : Act α) (c : Csrs) (rs : List (Word × Word)) :
    (m.extended c rs).ended = m.ended.extended c rs := by
  cases m with
  | done a s => rfl
  | raised e s => exact s.latch_extended e c rs

/-- Ranges of no bytes behind a source give no index an address (20_memory.md R74). -/
theorem srcAddr_append_empty {rs : List (Word × Word)} (h : srcTotal rs = 0) (qs : List (Word × Word)) (i : Nat) :
    srcAddr (qs ++ rs) i = srcAddr qs i := by
  rw [srcAddr_append]
  split
  · rfl
  · rw [srcAddr_eq_none_iff.2 (by omega), srcAddr_eq_none_iff.2 (by omega)]

section
variable {c : Csrs} {rs : List (Word × Word)}

/-- A sequence whose parts do not look at what is extended does not look at it. -/
theorem Act.bind_extended {m m' : Act α} {f f' : α → State → Act β} (hm : m' = m.extended c rs)
    (hf : ∀ a s, f' a (s.extended c rs) = (f a s).extended c rs) : m'.bind f' = (m.bind f).extended c rs := by
  subst hm
  cases m with
  | done a s => exact hf a s
  | raised e s => rfl

theorem Act.ite_extended {p : Prop} [Decidable p] {m m' n n' : Act α} (hm : p → m' = m.extended c rs)
    (hn : ¬ p → n' = n.extended c rs) : (if p then m' else n') = (if p then m else n).extended c rs := by
  split
  · exact hm ‹_›
  · exact hn ‹_›

theorem forEach_extended {f : β → State → Act Unit} (hf : ∀ b s, f b (s.extended c rs) = (f b s).extended c rs)
    (l : List β) (s : State) : forEach f l (s.extended c rs) = (forEach f l s).extended c rs := by
  induction l generalizing s with
  | nil => rfl
  | cons b bs ih => exact Act.bind_extended (hf b s) fun _ t => ih t

variable (h : srcTotal rs = 0)
include h

/-! ## The coders -/

theorem fetchByte_extended (s : State) : fetchByte (s.extended c rs) = (fetchByte s).extended c rs := by
  have haddr : srcAddr (s.extended c rs).src.ranges (s.extended c rs).src.pos.toNat =
      srcAddr s.src.ranges s.src.pos.toNat := srcAddr_append_empty h _ _
  cases ha : srcAddr s.src.ranges s.src.pos.toNat with
  | some a =>
    by_cases hin : a < s.par.cwmemSize
    · rw [fetchByte_real ha hin, fetchByte_real (haddr.trans ha) hin]; rfl
    · rw [fetchByte_outside ha hin, fetchByte_outside (haddr.trans ha) hin]; rfl
  | none =>
    by_cases hb : s.bound = .br ∧ s.br.mode = false
    · rw [fetchByte_header ha hb.1 hb.2, fetchByte_header (haddr.trans ha) hb.1 hb.2]; rfl
    · rw [fetchByte_fill ha hb, fetchByte_fill (haddr.trans ha) hb]; rfl

theorem byteIn_extended (hu : u = s.extended c rs) : byteIn u = (byteIn s).extended c rs := by
  subst hu
  exact Act.ite_extended (fun _ => rfl) fun _ => Act.bind_extended (fetchByte_extended h s) fun _ _ => rfl

theorem initDec_extended (hu : u = s.extended c rs) : initDec u = (initDec s).extended c rs := by
  subst hu
  exact Act.bind_extended (fetchByte_extended h (s.setMq { s.mq with mf := false })) fun _ _ =>
    Act.bind_extended (byteIn_extended h rfl) fun _ _ => rfl

theorem renormD_extended (hu : u = s.extended c rs) : renormD u = (renormD s).extended c rs := by
  have hloop : ∀ n (s : State), renormLoop n (s.extended c rs) = (renormLoop n s).extended c rs := by
    intro n
    induction n with
    | zero => exact fun _ => rfl
    | succ n ih =>
      exact fun s => Act.bind_extended (Act.ite_extended (fun _ => byteIn_extended h rfl) fun _ => rfl) fun _ t =>
        Act.ite_extended (fun _ => ih (t.setMq t.mq.double)) fun _ => rfl
  exact hu ▸ hloop 16 s

theorem decodeMq_extended (k : Category) (s : State) :
    decodeMq k (s.extended c rs) = (decodeMq k s).extended c rs := by
  by_cases hc : s.mq.chigh < s.restOfA k
  · by_cases ha : s.restOfA k < 0x8000#16
    · rw [decodeMq_upper hc ha, decodeMq_upper (s := s.extended c rs) hc ha]
      exact Act.bind_extended (renormD_extended h rfl) fun _ _ => rfl
    · rw [decodeMq_kept hc (BitVec.not_lt.1 ha), decodeMq_kept (s := s.extended c rs) hc (BitVec.not_lt.1 ha)]
      rfl
  · rw [decodeMq_lower (BitVec.not_lt.1 hc), decodeMq_lower (s := s.extended c rs) (BitVec.not_lt.1 hc)]
    exact Act.bind_extended (renormD_extended h rfl) fun _ _ => rfl

theorem ptermPattern_extended (hu : u = s.extended c rs) : ptermPattern u = (ptermPattern s).extended c rs := by
  subst hu
  exact Act.ite_extended (fun _ => rfl) fun _ => Act.bind_extended (renormD_extended h rfl) fun _ _ => rfl

theorem pterm_extended (s : State) : pterm (s.extended c rs) = (pterm s).extended c rs := by
  cases hmf : s.mq.mf with
  | true =>
    rw [pterm_marker hmf, pterm_marker (s := s.extended c rs) hmf]
    exact Act.ite_extended (fun _ => rfl) fun _ => ptermPattern_extended h rfl
  | false =>
    by_cases hopen : s.mq.b ≠ 0xFF ∨ s.mq.ct ≠ 0
    · rw [pterm_unreached hmf hopen, pterm_unreached (s := s.extended c rs) hmf hopen]
      rfl
    · obtain ⟨hb, hct⟩ := not_or.1 hopen
      rw [pterm_fetch hmf (not_not.1 hb) (not_not.1 hct),
        pterm_fetch (s := s.extended c rs) hmf (not_not.1 hb) (not_not.1 hct)]
      exact Act.bind_extended (fetchByte_extended h s) fun bf t =>
        Act.ite_extended (fun _ => rfl) fun _ => ptermPattern_extended h rfl

theorem readBit_extended (s : State) : readBit (s.extended c rs) = (readBit s).extended c rs := by
  refine Act.bind_extended (Act.ite_extended (fun _ => ?_) fun _ => rfl) fun _ _ => rfl
  exact Act.bind_extended (fetchByte_extended h s) fun bf t => Act.ite_extended (fun _ => rfl) fun _ => rfl

/-! ## The passes -/

theorem passBit_extended (raw : Bool) (k : Category) (s : State) :
    passBit raw k (s.extended c rs) = (passBit raw k s).extended c rs := by
  cases raw
  · exact decodeMq_extended h k s
  · exact readBit_extended h s

theorem becomeSignificant_extended (raw : Bool) (p x y : Nat) (s : State) :
    becomeSignificant raw p x y (s.extended c rs) = (becomeSignificant raw p x y s).extended c rs := by
  refine Act.bind_extended ?_ fun _ _ => rfl
  cases raw
  · exact Act.bind_extended (decodeMq_extended h (s.sc x y).1 s) fun _ _ => rfl
  · exact readBit_extended h s

theorem spVisit_extended (p : Nat) (raw : Bool) (b : Nat × Nat) (s : State) :
    spVisit p raw b (s.extended c rs) = (spVisit p raw b s).extended c rs :=
  Act.ite_extended (fun _ => rfl) fun _ => Act.ite_extended (fun _ => rfl) fun _ =>
    Act.bind_extended (passBit_extended h raw (s.zc b.1 b.2) s) fun _ t =>
      Act.ite_extended (fun _ => becomeSignificant_extended h raw p b.1 b.2 (t.setVis b.1 b.2)) fun _ => rfl

theorem mrVisit_extended (p : Nat) (raw : Bool) (b : Nat × Nat) (s : State) :
    mrVisit p raw b (s.extended c rs) = (mrVisit p raw b s).extended c rs :=
  Act.ite_extended (fun _ => rfl) fun _ =>
    Act.bind_extended (passBit_extended h raw (s.mrLabel b.1 b.2) s) fun _ _ => rfl

theorem cuVisit_extended (p : Nat) (b : Nat × Nat) (s : State) :
    cuVisit p b (s.extended c rs) = (cuVisit p b s).extended c rs :=
  Act.ite_extended (fun _ => rfl) fun _ => Act.bind_extended (decodeMq_extended h (s.zc b.1 b.2) s) fun _ t =>
    Act.ite_extended (fun _ => becomeSignificant_extended h false p b.1 b.2 t) fun _ => rfl

theorem runPosition_extended (s : State) : runPosition (s.extended c rs) = (runPosition s).extended c rs :=
  Act.bind_extended (decodeMq_extended h _ s) fun _ t =>
    Act.bind_extended (decodeMq_extended h _ t) fun _ _ => rfl

theorem cuColumn_extended (p : Nat) (b : Nat × Nat) (s : State) :
    cuColumn p b (s.extended c rs) = (cuColumn p b s).extended c rs :=
  Act.ite_extended
    (fun _ => Act.bind_extended (decodeMq_extended h runCategory s) fun _ t => Act.ite_extended (fun _ => rfl) fun _ =>
      Act.bind_extended (runPosition_extended h t) fun r u =>
        Act.bind_extended (becomeSignificant_extended h false p b.1 (b.2 + r) u) fun _ v =>
          forEach_extended (cuVisit_extended h p) _ v)
    fun _ => forEach_extended (cuVisit_extended h p) _ s

theorem uniformBits_extended (n : Nat) (v : BitVec 4) (s : State) :
    uniformBits n v (s.extended c rs) = (uniformBits n v s).extended c rs := by
  induction n generalizing v s with
  | zero => rfl
  | succ n ih => exact Act.bind_extended (decodeMq_extended h _ s) fun _ t => ih _ t

theorem runPass_extended (kind : PassKind) (p : BitVec 5) (raw : Bool) (s : State) :
    runPass kind p raw (s.extended c rs) = (runPass kind p raw s).extended c rs := by
  cases kind with
  | sp => exact Act.bind_extended (forEach_extended (spVisit_extended h p.toNat raw) _ s) fun _ _ => rfl
  | mr => exact Act.bind_extended (forEach_extended (mrVisit_extended h p.toNat raw) _ s) fun _ _ => rfl
  | cu =>
    exact Act.bind_extended (forEach_extended (cuColumn_extended h p.toNat) _ s) fun _ t => Act.ite_extended
      (fun _ => Act.bind_extended (uniformBits_extended h 4 0 t.clearVis) fun _ _ => rfl) fun _ => rfl

/-! ## The parts of a segment -/

omit h in
theorem State.passReset_extended (s : State) : (s.extended c rs).passReset = s.passReset.extended c rs := by
  rw [State.passReset, State.passReset, apply_ite (fun u : State => u.extended c rs)]
  rfl

omit h in
theorem State.segmentReset_extended (s : State) : (s.extended c rs).segmentReset = s.segmentReset.extended c rs := by
  rw [State.segmentReset, State.segmentReset, apply_ite (fun u : State => u.extended c rs)]
  rfl

theorem segmentPass_extended (k : PassKind × BitVec 5) (s : State) :
    segmentPass k (s.extended c rs) = (segmentPass k s).extended c rs := by
  refine Act.bind_extended ?_ fun err t => Act.ite_extended (fun _ => rfl) fun _ => rfl
  rw [State.passReset_extended]
  exact runPass_extended h k.1 k.2 (rawPass s.cfg k.1 k.2) s.passReset

theorem segmentPasses_extended (plan : List (PassKind × BitVec 5)) (s : State) :
    forEach segmentPass plan (s.extended c rs) = (forEach segmentPass plan s).extended c rs :=
  forEach_extended (segmentPass_extended h) plan s

theorem terminationCheck_extended (s : State) :
    terminationCheck (s.extended c rs) = (terminationCheck s).extended c rs :=
  Act.ite_extended (fun _ => Act.bind_extended (pterm_extended h s) fun _ _ =>
    Act.ite_extended (fun _ => rfl) fun _ => rfl) fun _ => rfl

end

/-! ## SEG_PASSES is nothing to a planned segment -/

theorem coderStep_segPasses (raw : Bool) (s : State) (passes : Word) :
    coderStep raw (s.setCsr { s.csr with segPasses := passes }) =
      (coderStep raw s).extended { s.csr with segPasses := passes } [] := by
  unfold coderStep
  refine Act.ite_extended (fun _ => ?_) fun _ => ?_
  · cases raw with
    | true => rfl
    | false => exact initDec_extended rfl rfl
  · refine Act.ite_extended (fun _ => ?_) fun _ => Act.ite_extended (fun _ => ?_) fun _ => ?_
    · rw [Act.extended, State.extended_nil]
    · rw [Act.extended, State.extended_nil]
    · rw [Act.extended, State.extended_nil]
      rfl

/-- The planned passes of a segment run alike whatever SEG_PASSES holds by then. -/
theorem runSegment_segPasses (plan : List (PassKind × BitVec 5)) (raw : Bool) (s : State) (passes : Word) :
    runSegment plan raw (s.setCsr { s.csr with segPasses := passes }) =
      (runSegment plan raw s).extended { s.csr with segPasses := passes } [] := by
  refine Act.bind_extended (coderStep_segPasses raw s passes) fun _ t => ?_
  rw [State.segmentReset_extended]
  exact Act.bind_extended (segmentPasses_extended rfl plan t.segmentReset) fun _ w => terminationCheck_extended rfl w

end Sys2Proof.Machine
end

section
/-! PROOFS. BLK_SEGMENT in two parts with no context reset between them: the second part with no bytes goes on where the
first one stopped (45_block_control.md R316). -/

namespace Sys2Proof.Machine

variable {s t u v w : State} {cfg : BlockConfig} {m n : Nat} {raw : Bool} {e : Err}
  {plan l₁ l₂ : List (PassKind × BitVec 5)} {first final : PassKind × BitVec 5}

/-! ## A segment without a context reset -/

/-- The coder step and the planned passes of a segment that resets no context before its first pass. -/
def startSegment (plan : List (PassKind × BitVec 5)) (raw : Bool) (s : State) : Act Unit :=
  (coderStep raw s).bind fun _ t => forEach segmentPass plan t

theorem runSegment_eq_startSegment (h : s.cfg.resetCtx = false) :
    runSegment plan raw s = (startSegment plan raw s).bind fun _ t => terminationCheck t := by
  rw [runSegment, startSegment]
  cases hc : coderStep raw s with
  | raised e t => rfl
  | done a t =>
    rw [Act.bind_done, Act.bind_done, State.segmentReset, if_neg]
    rw [(coderStep_done_fields hc).1, h]
    simp

theorem startSegment_append :
    startSegment (l₁ ++ l₂) raw s = (startSegment l₁ raw s).bind fun _ t => forEach segmentPass l₂ t := by
  rw [startSegment, startSegment]
  cases coderStep raw s with
  | raised e t => rfl
  | done a t => exact forEach_append l₁ l₂ t

/-- What the first passes of a segment leave, where they complete. -/
theorem startSegment_done (h : startSegment plan raw s = .done () t) (hl : plan.getLast? = some final) :
    t.cfg = s.cfg ∧ t.st = s.st ∧ t.bound = coderOf raw ∧ t.cur =
      { lastPass := some final.1, plane := final.2, passCount := s.cur.passCount + BitVec.ofNat 8 plan.length,
        lastType := if rawPass s.cfg final.1 final.2 then .raw else .mq } := by
  obtain ⟨_, v, hv, h⟩ := Act.bind_eq_done.1 h
  obtain ⟨hcfg, hst, -, hcur⟩ := coderStep_done_fields hv
  have hrest := segmentPasses_boundRest plan v
  rw [h] at hrest
  obtain ⟨hcfg', hst', -, hbound, -⟩ := boundRest_fields hrest
  refine ⟨hcfg'.trans hcfg, hst'.trans hst, hbound.trans (coderStep_done_bound hv), ?_⟩
  rw [segmentPasses_done_cur h hl, hcfg, hcur]

/-- The first passes of a segment leave a legal cursor (44_coding_passes.md R270). -/
theorem startSegment_cursor (hi : s.Inv) (hst : s.st.started = true)
    (hp : planPasses s.cfg n s.cur.lastPass s.cur.plane = some plan) (h : startSegment plan raw s = .done () t) :
    Cursor.Legal s.cfg t.cur := by
  obtain ⟨_, v, hv, h⟩ := Act.bind_eq_done.1 h
  have hsound : SegmentSound s.cfg v := Act.of_done (coderStep_sound raw (hi.segmentSound hst)) hv
  have hcur := (coderStep_done_fields hv).2.2.2
  exact (Act.of_done (segmentPasses_sound hsound (by rw [hcur]; exact hp)) h).cursor

/-- Behind a pass PASSCOUNT is not 0 (45_block_control.md R311). -/
theorem Cursor.Legal.passCount_ne_zero {cur : Cursor} (h : Cursor.Legal cfg cur) (hl : cur.lastPass ≠ none) :
    cur.passCount ≠ 0 := by
  obtain ⟨-, hcu, hsp, hmr⟩ := h
  intro hzero
  have hcount : cur.passCount.toNat = 0 := by rw [hzero]; rfl
  match hlast : cur.lastPass with
  | none => exact hl hlast
  | some .cu => have := (hcu hlast).2.1; omega
  | some .sp => obtain ⟨hlt, hc, -⟩ := hsp hlast; omega
  | some .mr => obtain ⟨hlt, hc, -⟩ := hmr hlast; omega

/-- Behind the first passes of a segment a continuation with the same coder needs no fresh one
(45_block_control.md R304). -/
theorem startSegment_continues (hi : s.Inv) (hst : s.st.started = true) (hr : s.cfg.restart = false)
    (hp : planPasses s.cfg n s.cur.lastPass s.cur.plane = some plan) (h : startSegment plan raw s = .done () t)
    (hl : plan.getLast? = some final) (hraw : rawPass s.cfg final.1 final.2 = raw) :
    ¬ t.StartsFresh raw ∧ t.cur.lastType.isRaw = raw := by
  have hlegal := startSegment_cursor hi hst hp h
  obtain ⟨hcfg, -, -, hcur⟩ := startSegment_done h hl
  have htype : t.cur.lastType.isRaw = raw := by
    rw [hcur, hraw]
    cases raw <;> rfl
  refine ⟨?_, htype⟩
  rintro (hcount | hrestart | ⟨-, hne⟩)
  · exact hlegal.passCount_ne_zero (by rw [hcur]; simp) hcount
  · rw [hcfg, hr] at hrestart
    exact absurd hrestart (by decide)
  · exact hne htype.symm

/-! ## What is decoded -/

/-- What the two ways to issue a contribution have in common. -/
def State.decoded (s : State) :=
  (s.st.error, s.st.errCode, s.samp, s.cells, s.cx, s.cur, s.mq, s.br, s.src.pos)

theorem State.decoded_extended (s : State) (c : Csrs) (rs : List (Word × Word)) :
    (s.extended c rs).decoded = s.decoded := rfl

theorem decoded_fields (h : t.decoded = u.decoded) :
    (t.Safe ↔ u.Safe) ∧ t.st.errCode = u.st.errCode ∧ t.samp = u.samp ∧ t.cells = u.cells ∧ t.cx = u.cx ∧
      t.cur = u.cur ∧ t.mq = u.mq ∧ t.br = u.br ∧ t.src.pos = u.src.pos := by
  simp only [State.decoded, Prod.mk.injEq] at h
  obtain ⟨herror, hrest⟩ := h
  exact ⟨by rw [State.Safe, State.Safe, herror], hrest⟩

theorem segPasses_ofNat (h : n < 256) : (BitVec.ofNat 32 n).toNat % 256 = n := by
  rw [BitVec.toNat_ofNat]
  omega

/-! ## The second part -/

/-- Inside a codeword segment there is no termination check (45_block_control.md R312). -/
theorem terminationCheck_inside {next : PassKind × BitVec 5} (hr : s.cfg.restart = false)
    (hnext : nextPassOf s.cfg s.cur.lastPass s.cur.plane = some next)
    (hraw : rawPass s.cfg next.1 next.2 = s.cur.lastType.isRaw) : terminationCheck s = .done () s := by
  refine if_neg fun ⟨_, _, hend⟩ => ?_
  simp [State.endsCodeword, hr, hnext, hraw] at hend

/-- A continuation with no bytes runs its passes from its source with an empty range behind it
(45_block_control.md R309). -/
theorem runSegment_continued (hreset : s.cfg.resetCtx = false) (hn : ¬ s.StartsFresh raw) (hb : s.bound = coderOf raw)
    (hl : s.csr.segLen = 0) :
    runSegment plan raw s =
      ((forEach segmentPass plan s).bind fun _ t => terminationCheck t).extended s.csr [(s.csr.segBase, 0)] := by
  have hempty : srcTotal [(s.csr.segBase, 0)] = 0 := rfl
  have hcoder : coderStep raw s = .done () (s.extended s.csr [(s.csr.segBase, 0)]) := by
    rw [coderStep, if_neg (needsFresh_iff.not.2 hn), appendSegment_fits hb fun _ => hl, hl]
    rfl
  rw [runSegment_eq_startSegment hreset, startSegment, hcoder, Act.bind_done]
  exact Act.bind_extended (segmentPasses_extended hempty plan s) fun _ t =>
    terminationCheck_extended hempty t

/-- With no plan over two codeword segments BLK_SEGMENT with SEG_PASSES = `n` ends where its passes do. -/
theorem exec_blkSegment_passes (hs : s.Safe) (hst : s.st.started = true) (hf : s.st.finished = false)
    (hr : s.cfg.restart = false) (hn : s.csr.segPasses.toNat % 256 = n)
    (hp : planPasses s.cfg n s.cur.lastPass s.cur.plane = some plan) (hne : plan ≠ [])
    (hraw : ∀ k ∈ plan, rawPass s.cfg k.1 k.2 = raw) :
    exec (.blkSegment false) s = .next (runSegment plan raw s).ended := by
  obtain ⟨first, rest, rfl⟩ := List.exists_cons_of_ne_nil hne
  have hfirst : rawPass s.cfg first.1 first.2 = raw := hraw first List.mem_cons_self
  rw [exec_blkSegment false hs hst, segmentBody_eq_runSegment hf (hn ▸ hp) rfl (fun h => by simp [hr] at h)
    (fun k hk => (hraw k hk).trans hfirst.symm), hfirst]
  rfl

/-- BLK_SEGMENT of `n` planned passes leaves what its segment does, but for SEG_PASSES. -/
theorem exec_blkSegment_segPasses (hs : s.Safe) (hst : s.st.started = true) (hf : s.st.finished = false)
    (hr : s.cfg.restart = false) (hn : n < 256)
    (hp : planPasses s.cfg n s.cur.lastPass s.cur.plane = some plan) (hne : plan ≠ [])
    (hraw : ∀ k ∈ plan, rawPass s.cfg k.1 k.2 = raw) :
    exec (.blkSegment false) (s.setCsr { s.csr with segPasses := BitVec.ofNat 32 n }) =
      .next ((runSegment plan raw s).ended.extended { s.csr with segPasses := BitVec.ofNat 32 n } []) := by
  rw [← Act.ended_extended, ← runSegment_segPasses]
  exact exec_blkSegment_passes (s := s.setCsr { s.csr with segPasses := BitVec.ofNat 32 n }) hs hst hf hr
    (segPasses_ofNat hn) hp hne hraw

theorem exec_blkSegment_suppressed (h : s.st.error = true) : exec (.blkSegment false) s = .next s :=
  execBlkSegment_error false h

/-- The first pass of a plan is the one that follows the cursor. -/
theorem nextPassOf_of_planPasses {last : Option PassKind} {p : BitVec 5}
    (h : planPasses cfg n last p = some (first :: plan)) : nextPassOf cfg last p = some first := by
  cases n with
  | zero => cases h
  | succ n =>
    cases hn : nextPassOf cfg last p with
    | none => rw [planPasses_end n hn] at h; cases h
    | some k =>
      rw [planPasses_succ n hn] at h
      obtain ⟨rest, -, heq⟩ := Option.map_eq_some_iff.1 h
      cases heq
      rfl

/-- The state behind the first part of a split segment: the second part can go on from it. -/
structure SplitAt (s w : State) (n : Nat) (l₂ : List (PassKind × BitVec 5)) (raw : Bool) : Prop where
  cfg : w.cfg = s.cfg
  st : w.st = s.st
  bound : w.bound = coderOf raw
  notFresh : ¬ w.StartsFresh raw
  lastType : w.cur.lastType.isRaw = raw
  plan : planPasses s.cfg n w.cur.lastPass w.cur.plane = some l₂

theorem startSegment_splitAt (hi : s.Inv) (hst : s.st.started = true) (hr : s.cfg.restart = false)
    (hp₁ : planPasses s.cfg m s.cur.lastPass s.cur.plane = some l₁) (hne : l₁ ≠ [])
    (hp₂ : planPasses s.cfg n ((l₁.getLast?.map Prod.fst).or s.cur.lastPass)
      ((l₁.getLast?.map Prod.snd).getD s.cur.plane) = some l₂)
    (hraw : ∀ k ∈ l₁, rawPass s.cfg k.1 k.2 = raw) (h : startSegment l₁ raw s = .done () w) :
    SplitAt s w n l₂ raw := by
  have hl := List.getLast?_eq_some_getLast hne
  obtain ⟨hcfg, hstw, hb, hcur⟩ := startSegment_done h hl
  obtain ⟨hfresh, htype⟩ := startSegment_continues hi hst hr hp₁ h hl (hraw _ (List.getLast_mem hne))
  rw [hl] at hp₂
  exact ⟨hcfg, hstw, hb, hfresh, htype, by rw [hcur]; exact hp₂⟩

/-- The first part completes at the split: there is no termination check inside a codeword segment. -/
theorem SplitAt.terminationCheck_done (h : SplitAt s w n l₂ raw) (hr : s.cfg.restart = false) (hne : l₂ ≠ [])
    (hraw : ∀ k ∈ l₂, rawPass s.cfg k.1 k.2 = raw) : terminationCheck w = .done () w := by
  obtain ⟨next, rest, rfl⟩ := List.exists_cons_of_ne_nil hne
  refine terminationCheck_inside (h.cfg ▸ hr) (h.cfg ▸ nextPassOf_of_planPasses h.plan) ?_
  rw [h.cfg, h.lastType, hraw next List.mem_cons_self]

/-- The second part, from the split, decodes what the rest of the planned passes do. -/
theorem SplitAt.exec_rest {c : Csrs} (h : SplitAt s w n l₂ raw) (hs : s.Safe) (hst : s.st.started = true)
    (hf : s.st.finished = false) (hr : s.cfg.restart = false) (hreset : s.cfg.resetCtx = false) (hn : n < 256)
    (hne : l₂ ≠ []) (hraw : ∀ k ∈ l₂, rawPass s.cfg k.1 k.2 = raw)
    (hx : exec (.blkSegment false) (w.setCsr { c with segLen := 0, segPasses := BitVec.ofNat 32 n }) = .next t) :
    t.decoded = ((forEach segmentPass l₂ w).bind fun _ u => terminationCheck u).ended.decoded := by
  obtain ⟨hcfg, hstw, hb, hfresh, -, hp⟩ := h
  rw [← hcfg] at hr hreset hraw hp
  rw [← hstw] at hst hf
  have hrun := exec_blkSegment_passes (s := w.setCsr { c with segLen := 0, segPasses := BitVec.ofNat 32 n })
    ((congrArg BlockStatus.error hstw).trans hs) hst hf hr (segPasses_ofNat hn) hp hne hraw
  rw [hx, runSegment_continued (s := w.setCsr { c with segLen := 0, segPasses := BitVec.ofNat 32 n }) hreset hfresh hb rfl,
    ← State.extended_nil] at hrun
  cases hrun
  rw [Act.ended_extended, State.decoded_extended, Act.bind_extended (segmentPasses_extended rfl l₂ w)
    (fun _ u => terminationCheck_extended rfl u), Act.ended_extended, State.decoded_extended]

/-- Settles O55: where the first passes raise, the second part is suppressed; behind them it runs the other passes. -/
theorem splitContributionsDecodeTheSame : Obligations.SplitContributionsDecodeTheSame := by
  unfold Obligations.SplitContributionsDecodeTheSame
  intro s t₁ u t₂ m n whole hi hs hst hf hm hn hmn hr hreset hplan hbypass h₁ hu h₂
  obtain ⟨l₁, l₂, rfl, hp₁, hp₂⟩ := planPasses_add hplan
  have hne₁ : l₁ ≠ [] := List.ne_nil_of_length_pos (by rw [planPasses_length hp₁]; exact hm)
  have hne₂ : l₂ ≠ [] := List.ne_nil_of_length_pos (by rw [planPasses_length hp₂]; exact hn)
  have hlast : l₁.getLast hne₁ ∈ l₁ ++ l₂ := List.mem_append_left _ (List.getLast_mem hne₁)
  obtain ⟨raw, hraw⟩ : ∃ raw, ∀ k ∈ l₁ ++ l₂, rawPass s.cfg k.1 k.2 = raw :=
    ⟨_, fun k hk => rawPass_of_bypass fun hb => hbypass hb k hk _ hlast⟩
  have hraw₁ : ∀ k ∈ l₁, rawPass s.cfg k.1 k.2 = raw := fun k hk => hraw k (List.mem_append_left _ hk)
  have hraw₂ : ∀ k ∈ l₂, rawPass s.cfg k.1 k.2 = raw := fun k hk => hraw k (List.mem_append_right _ hk)
  have hwhole := exec_blkSegment_segPasses hs hst hf hr hmn hplan (List.append_ne_nil_of_left_ne_nil hne₁ _) hraw
  have hfirst := exec_blkSegment_segPasses hs hst hf hr (by omega) hp₁ hne₁ hraw₁
  rw [h₁, runSegment_eq_startSegment hreset, startSegment_append] at hwhole
  rw [hu, runSegment_eq_startSegment hreset] at hfirst
  refine decoded_fields ?_
  cases hw : startSegment l₁ raw s with
  | raised e w =>
    rw [hw] at hwhole hfirst
    cases hwhole
    cases hfirst
    rw [exec_blkSegment_suppressed (by exact State.latch_error w e)] at h₂
    cases h₂
    rfl
  | done a w =>
    have hsplit := startSegment_splitAt hi hst hr hp₁ hne₁ hp₂ hraw₁ hw
    rw [hw, Act.bind_done, hsplit.terminationCheck_done hr hne₂ hraw₂, Act.ended_done, State.extended_nil] at hfirst
    rw [hw, Act.bind_done] at hwhole
    cases hwhole
    cases hfirst
    exact (hsplit.exec_rest hs hst hf hr hreset (by omega) hne₂ hraw₂ h₂).symm

end Sys2Proof.Machine
end

section
/-! PROOFS. Errors (60_exceptions.md): every command is the prologue around its own steps; what the prologue suppresses, how
a command ends, that the first error is kept, and what becomes of RES. -/

namespace Sys2Proof.Machine

variable {α : Type} {s t u : State} {i : Instr}

/-! ## The prologue -/

/-- The commands that run with ERROR = 1 too (60_exceptions.md R343). -/
def exempt : Instr → Bool
  | .csrRd _ => true
  | .csrWr _ _ => true
  | .blkStart => true
  | .blkSegment _ => true
  | _ => false

theorem exempt_cases (h : exempt i = true) :
    (∃ c, i = .csrRd c) ∨ (∃ c d, i = .csrWr c d) ∨ i = .blkStart ∨ ∃ last, i = .blkSegment last := by
  cases i with
  | csrRd c => exact .inl ⟨c, rfl⟩
  | csrWr c d => exact .inr (.inl ⟨c, d, rfl⟩)
  | blkStart => exact .inr (.inr (.inl rfl))
  | blkSegment last => exact .inr (.inr (.inr ⟨last, rfl⟩))
  | _ => cases h

/-- Every command is the prologue around its own steps (60_exceptions.md R343). -/
theorem exec_eq_runCommand (i : Instr) : ∃ body, ∀ s, exec i s = runCommand i.wellFormed (exempt i) body s := by
  cases i <;> exact ⟨_, fun _ => rfl⟩

/-- An operand out of range is IllegalCommand, whatever else holds (30_encoding.md R97). -/
theorem exec_illFormed (hw : ¬ i.WellFormed) (s : State) : exec i s = .next (s.latch .illegalCommand) := by
  obtain ⟨body, hbody⟩ := exec_eq_runCommand i
  rw [hbody, runCommand, if_pos (Bool.eq_false_iff.2 hw)]

/-- With ERROR = 1 a command that is not exempt changes nothing, legal or not: a later error is not latched
(60_exceptions.md R342, R343). -/
theorem exec_suppressed (hx : exempt i = false) (he : s.st.error = true) : exec i s = .next s := by
  by_cases hw : i.WellFormed
  · obtain ⟨body, hbody⟩ := exec_eq_runCommand i
    rw [hbody, runCommand, if_neg (by simp [hw]), if_pos ⟨he, hx⟩]
  · rw [exec_illFormed hw, s.latch_of_error _ he]

/-- Settles O11: a command ends in a next state, and a step is a command, an illegal word's latch, or a wait. -/
theorem nothingStopsTheMachine : Obligations.NothingStopsTheMachine := by
  unfold Obligations.NothingStopsTheMachine
  refine ⟨exec_next, fun s => ?_⟩
  unfold step
  split
  · exact exec_next _ _
  · exact ⟨_, rfl⟩
  · exact ⟨_, rfl⟩

/-- Settles O12: the prologue latches IllegalCommand or suppresses, and BLK_SEGMENT has its own branch for ERROR = 1. -/
theorem errorSuppressesCommands : Obligations.ErrorSuppressesCommands := by
  unfold Obligations.ErrorSuppressesCommands
  refine ⟨fun i s hw => ⟨_, exec_illFormed hw s, s.raises_latch .illegalCommand⟩,
    fun i s _ he hrd hwr hstart hseg => exec_suppressed (Bool.eq_false_iff.2 fun hx => ?_) he, fun s last he => ?_⟩
  · rcases exempt_cases hx with ⟨c, rfl⟩ | ⟨c, d, rfl⟩ | rfl | ⟨last, rfl⟩
    · exact hrd c rfl
    · exact hwr c d rfl
    · exact hstart rfl
    · exact hseg last rfl
  · rw [← State.finishIf_eq]
    exact execBlkSegment_error last he

/-! ## How a command ends -/

/-- The steps of a command, from `s` on, leave the status flags to the latch, and write RES only where they complete
(60_exceptions.md R344). -/
def Act.ResAtEnd (s : State) (m : Act Unit) : Prop :=
  m.state.st = s.st ∧ ∀ e u, m = .raised e u → u.res = s.res

/-- Steps that complete. -/
theorem Act.ResAtEnd.done (h : u.st = s.st) : (Act.done () u).ResAtEnd s :=
  ⟨h, fun _ _ hm => by cases hm⟩

/-- Steps that never write RES. -/
theorem Act.ResAtEnd.of_fields {m : Act Unit} (h : m.state.st = s.st ∧ m.state.res = s.res) : m.ResAtEnd s := by
  obtain ⟨hst, hres⟩ := h
  exact ⟨hst, fun e u hm => by rw [hm] at hres; exact hres⟩

/-- A stretch of pseudocode that writes neither, and then what is left of the command. -/
theorem Act.ResAtEnd.bind_done {m : Act α} {f : α → State → State} (h : m.state.st = s.st ∧ m.state.res = s.res)
    (hf : ∀ a v, (f a v).st = v.st) : (m.bind fun a v => .done () (f a v)).ResAtEnd s := by
  obtain ⟨hst, hres⟩ := h
  cases m with
  | done a v => exact .done ((hf a v).trans hst)
  | raised e v => exact .of_fields ⟨hst, hres⟩

/-- Steps behind a check that raises before anything is written. -/
theorem Act.ResAtEnd.guard {c : Prop} [Decidable c] {m : Act Unit} {e : Err} (h : m.ResAtEnd s) :
    (if c then m else .raised e s).ResAtEnd s := by
  split
  · exact h
  · exact .of_fields ⟨rfl, rfl⟩

/-- A pass command writes RES behind its pass (44_coding_passes.md R250). -/
theorem passCommand_resAtEnd {raw b : Bool} {p : BitVec 5} {body : State → Act Bool}
    (h : (body s).state.passFrame b = s.passFrame b) : (passCommand raw p body s).ResAtEnd s := by
  refine .guard (.guard (.bind_done ?_ fun _ _ => rfl))
  obtain ⟨-, hst, hres, -⟩ := boundRest_fields (boundRest_of_passRest (congrArg Prod.fst h))
  exact ⟨hst, hres⟩

/-- With no error latched such steps complete with the status flags as they were, or fail with RES as it was. -/
theorem runCommand_ends {legal always : Bool} {body : State → Act Unit} (h : runCommand legal always body s = .next t)
    (hs : s.Safe) (hb : (body s).ResAtEnd s) : t.st = s.st ∨ ∃ e : Err, s.Fails t e.code := by
  obtain ⟨hst, hres⟩ := hb
  rcases runCommand_cases h with ⟨-, rfl⟩ | ⟨-, -, -, rfl⟩ | ⟨-, -, hd | ⟨e, u, hr, rfl⟩⟩
  · exact .inr ⟨_, State.fails_latch hs rfl rfl _⟩
  · exact .inl rfl
  · rw [hd] at hst; exact .inl hst
  · rw [hr] at hst; exact .inr ⟨e, State.fails_latch hs hst (hres e u hr) e⟩

/-- What neither coder writes while it decodes holds the status flags and RES. -/
theorem coderRest_report (h : t.coderRest = s.coderRest) : t.st = s.st ∧ t.res = s.res := by
  obtain ⟨hst, hres, -⟩ := coderRest_fields h
  exact ⟨hst, hres⟩

theorem brRest_report (h : t.brRest = s.brRest) : t.st = s.st ∧ t.res = s.res :=
  coderRest_report (congrArg Prod.fst h)

theorem mqRest_report (h : t.mqRest = s.mqRest) : t.st = s.st ∧ t.res = s.res :=
  coderRest_report (congrArg Prod.fst h)

/-- With no error latched a command other than BLK_START and BLK_SEGMENT completes with the status flags as they were, or
fails with RES as it was (60_exceptions.md R342, R344). -/
theorem exec_completes_or_fails (h : exec i s = .next t) (hs : s.Safe) (hstart : i ≠ .blkStart)
    (hseg : ∀ last, i ≠ .blkSegment last) : t.st = s.st ∨ ∃ e : Err, s.Fails t e.code := by
  cases i
  all_goals dsimp only [exec] at h
  case csrWr csr data => exact runCommand_ends h hs (.done rfl)
  case csrRd csr => exact runCommand_ends h hs (.done (by unfold State.spendFree; split <;> rfl))
  case blkStart => exact absurd rfl hstart
  case blkSegment last => exact absurd rfl (hseg last)
  case brBind mode => exact runCommand_ends h hs (.done rfl)
  case brReadbit => exact runCommand_ends h hs (.guard (.bind_done (brRest_report (readBit_brRest s)) fun _ _ => rfl))
  case brReadbits n =>
    exact runCommand_ends h hs (.guard (.bind_done (brRest_report (readBits_brRest _ _ s)) fun _ _ => rfl))
  case brFinish =>
    exact runCommand_ends h hs (.guard (.bind_done (brRest_report (skipStuffing_brRest s)) fun _ _ => rfl))
  case mqInit => exact runCommand_ends h hs (.of_fields (bindDecoder_fields s))
  case mqDecode => exact runCommand_ends h hs (.guard (.bind_done (mqRest_report (decodeMq_mqRest _ s)) fun _ _ => rfl))
  case mqDecodeRaw => exact runCommand_ends h hs (.guard (.bind_done (brRest_report (readBit_brRest s)) fun _ _ => rfl))
  case mqPterm => exact runCommand_ends h hs (.guard (.bind_done (mqRest_report (pterm_mqRest s)) fun _ _ => rfl))
  case cxReset => exact runCommand_ends h hs (.done rfl)
  case cxSelect k =>
    refine runCommand_ends h hs ?_
    split
    · exact .done rfl
    · exact .of_fields ⟨rfl, rfl⟩
  case cxRead => exact runCommand_ends h hs (.done rfl)
  case passSp p raw => exact runCommand_ends h hs (passCommand_resAtEnd (spPass_passFrame p.toNat raw s))
  case passMr p raw => exact runCommand_ends h hs (passCommand_resAtEnd (mrPass_passFrame p.toNat raw s))
  case passCu p => exact runCommand_ends h hs (passCommand_resAtEnd (cuPass_passFrame p.toNat s))
  case nextPass => exact runCommand_ends h hs (.guard (.done rfl))

/-! ## The first error -/

/-- In `u` the error latched in `s` is kept, and the block's data and the source with it (60_exceptions.md R342, R347). -/
def ErrorFrozen (s u : State) : Prop :=
  u.st.error = true ∧ u.st.errCode = s.st.errCode ∧ u.samp = s.samp ∧ u.cells = s.cells ∧ u.src = s.src

theorem ErrorFrozen.refl (he : s.st.error = true) : ErrorFrozen s s := ⟨he, rfl, rfl, rfl, rfl⟩

theorem ErrorFrozen.stable (s : State) : Stable (ErrorFrozen s) :=
  ⟨fun u e h => by rw [u.latch_of_error e h.1]; exact h, fun _ _ h => h⟩

theorem ErrorFrozen.spendFree (h : ErrorFrozen s u) (csr : BitVec 4) : ErrorFrozen s (u.spendFree csr) := by
  unfold State.spendFree; split <;> exact h

theorem ErrorFrozen.finishIf (h : ErrorFrozen s u) (b : Bool) : ErrorFrozen s (u.finishIf b) := by
  rw [State.finishIf_eq]; exact h

/-- Every command but BLK_START keeps a latched error; CSR_RD, CSR_WR and BLK_SEGMENT do not touch what it freezes, and the
others do nothing (60_exceptions.md R343, R347). -/
theorem exec_errorFrozen (h : exec i s = .next t) (he : s.st.error = true) (hstart : i ≠ .blkStart) :
    ErrorFrozen s t := by
  have q := ErrorFrozen.stable s
  have hs := ErrorFrozen.refl he
  cases hx : exempt i with
  | false =>
    rw [exec_suppressed hx he] at h
    cases h
    exact hs
  | true =>
    rcases exempt_cases hx with ⟨c, rfl⟩ | ⟨c, d, rfl⟩ | rfl | ⟨last, rfl⟩
    · exact q.execCsrRd h hs (hs.spendFree c)
    · exact q.execCsrWr h hs hs
    · exact absurd rfl hstart
    · obtain rfl := Host.Outcome.next.inj ((execBlkSegment_error last he).symm.trans h)
      exact hs.finishIf _

/-- An error latched in `u` is the one latched in `s`, or has a code of 60_exceptions.md R341. -/
def CodeKnown (s u : State) : Prop :=
  u.st.error = true → (s.st.error = true ∧ u.st.errCode = s.st.errCode) ∨
    (1 ≤ u.st.errCode.toNat ∧ u.st.errCode.toNat ≤ 11)

theorem CodeKnown.of_st (h : u.st = s.st) : CodeKnown s u := fun he => .inl ⟨h ▸ he, by rw [h]⟩

theorem CodeKnown.of_safe (h : u.Safe) : CodeKnown s u := fun he => absurd (h.symm.trans he) (by decide)

theorem CodeKnown.stable (s : State) : Stable (CodeKnown s) := by
  refine ⟨fun u e hu => ?_, fun _ _ hu => hu⟩
  cases he : u.st.error with
  | true => rw [u.latch_of_error e he]; exact hu
  | false => rw [u.latch_of_safe e he]; exact fun _ => .inr e.code_range

theorem CodeKnown.finishIf (h : CodeKnown s u) (b : Bool) : CodeKnown s (u.finishIf b) := by
  rw [State.finishIf_eq]; exact h

/-- No command latches a code but those of 60_exceptions.md R341. -/
theorem exec_codeKnown (h : exec i s = .next t) : CodeKnown s t := by
  have q := CodeKnown.stable s
  have hs : CodeKnown s s := .of_st rfl
  by_cases hstart : i = .blkStart
  · subst hstart
    exact q.execBlkStart h hs (.of_safe rfl) fun _ => .of_safe rfl
  by_cases hseg : ∃ last, i = .blkSegment last
  · obtain ⟨last, rfl⟩ := hseg
    exact q.execBlkSegment h hs (fun _ => .of_st (segmentBody_st s)) fun _ b _ _ hu => hu.finishIf b
  cases he : s.st.error with
  | true =>
    obtain ⟨-, hcode, -⟩ := exec_errorFrozen h he hstart
    exact fun _ => .inl ⟨he, hcode⟩
  | false =>
    rcases exec_completes_or_fails h he hstart (not_exists.1 hseg) with hst | ⟨e, hst, -⟩
    · exact .of_st hst
    · rw [CodeKnown, hst]
      exact fun _ => .inr e.code_range

/-- Settles O13: a latched error is frozen with the block's data, and a new one has a code of R341. -/
theorem firstErrorIsKept : Obligations.FirstErrorIsKept := by
  unfold Obligations.FirstErrorIsKept
  intro i s t h
  refine ⟨fun he hi => ?_, fun he hi => ?_, exec_codeKnown h⟩
  · obtain ⟨herr, hcode, -⟩ := exec_errorFrozen h he hi
    exact ⟨herr, hcode⟩
  · obtain ⟨-, -, hdata⟩ := exec_errorFrozen h he hi
    exact hdata

/-! ## RES -/

/-- The commands that return nothing (10_state.md R30). -/
def ReturnsNothing (i : Instr) : Prop :=
  (∃ c d, i = .csrWr c d) ∨ i = .blkStart ∨ (∃ last, i = .blkSegment last) ∨ (∃ mode, i = .brBind mode) ∨
    i = .mqInit ∨ i = .cxReset ∨ ∃ k, i = .cxSelect k

theorem segmentBody_res (s : State) : (segmentBody s).state.res = s.res := by
  have h := segmentBody_segRest s
  simp only [State.segRest, Prod.mk.injEq] at h
  obtain ⟨-, -, -, -, hres, -⟩ := h
  exact hres

/-- A command that returns nothing leaves RES as it is, whether it raises or not. -/
theorem exec_res_of_returnsNothing (hi : ReturnsNothing i) (h : exec i s = .next t) : t.res = s.res := by
  have hl : ∀ (u : State) e, (u.latch e).res = u.res := State.latch_res
  rcases hi with ⟨c, d, rfl⟩ | rfl | ⟨last, rfl⟩ | ⟨mode, rfl⟩ | rfl | rfl | ⟨k, rfl⟩
  · exact execCsrWr_keeps h hl fun _ _ => rfl
  · exact execBlkStart_keeps h hl (fun _ => rfl) fun _ => rfl
  · exact execBlkSegment_keeps h hl (fun u b => by rw [State.finishIf_eq]; rfl) segmentBody_res
  · exact execBrBind_keeps h hl fun _ _ => rfl
  · exact execMqInit_keeps h hl fun u => (bindDecoder_fields u).2
  · exact execCxReset_keeps h hl fun _ => rfl
  · exact execCxSelect_keeps h hl fun _ _ => rfl

/-- A command that ends with ERROR = 1 leaves RES as it is, a legal CSR_RD apart (60_exceptions.md R344). -/
theorem exec_res_of_error (h : exec i s = .next t) (ht : t.st.error = true)
    (hrd : (∃ c, i = .csrRd c) → ¬ i.WellFormed) : t.res = s.res := by
  by_cases hi : ReturnsNothing i
  · exact exec_res_of_returnsNothing hi h
  by_cases hw : i.WellFormed
  case neg =>
    rw [exec_illFormed hw] at h
    cases h
    exact s.latch_res _
  have hx : exempt i = false := by
    refine Bool.eq_false_iff.2 fun hx => ?_
    rcases exempt_cases hx with hc | hc | hc | hc
    · exact hrd hc hw
    · exact hi (.inl hc)
    · exact hi (.inr (.inl hc))
    · exact hi (.inr (.inr (.inl hc)))
  cases he : s.st.error with
  | true =>
    rw [exec_suppressed hx he] at h
    cases h
    rfl
  | false =>
    have hends := exec_completes_or_fails h he (fun hc => hi (.inr (.inl hc)))
      fun last hc => hi (.inr (.inr (.inl ⟨last, hc⟩)))
    rcases hends with hst | ⟨e, -, hres⟩
    · rw [hst, he] at ht; cases ht
    · exact hres

/-- Bit reads that go on past a 0xFF into another one raise CorruptBitstuffing (41_bit_reader.md R123). -/
theorem readBits_corrupt {a b n : Nat} (hn : n ≠ 0) (h0 : s.br.bitsLeft = 0) (hl : s.br.lastFF = false)
    (ha : srcAddr s.src.ranges s.src.pos.toNat = some a) (hb : srcAddr s.src.ranges (s.src.pos + 1).toNat = some b)
    (hac : a < s.par.cwmemSize) (hbc : b < s.par.cwmemSize) (hffa : s.cwByte a = 0xFF) (hffb : s.cwByte b = 0xFF) :
    ∃ u, readBits (8 + n) 0 s = .raised .corruptBitstuffing u := by
  obtain ⟨n, rfl⟩ := Nat.exists_eq_succ_of_ne_zero hn
  have h8 : readBits 8 0 s = .done _ (s.byteTaken a) := readBits_byte 0 h0 ha hac (by simp [hl]) (by simp [hl])
  have hload := loadByte_corrupt (s := s.byteTaken a) hb hbc ⟨by simp [hffa], hffb⟩
  exact ⟨_, by rw [readBits_add_of_done h8, readBits, readBit_of_load_raised rfl hload, Act.bind_raised]⟩

/-- A BR_READBITS that raises fails (41_bit_reader.md R129). -/
theorem exec_brReadbits_fails {n : BitVec 7} {e : Err} (hn : CountLegal n) (hs : s.Safe) (hb : s.bound = .br)
    (h : readBits n.toNat 0 s = .raised e u) : ∃ t, exec (.brReadbits n) s = .next t ∧ s.Fails t e.code := by
  have hrest := readBits_brRest n.toNat 0 s
  rw [h] at hrest
  obtain ⟨hst, hres⟩ := brRest_report hrest
  exact ⟨u.latch e, by rw [exec_brReadbits hn hs hb, h, Act.bind_raised, Act.outcome_raised],
    State.fails_latch hs hst hres e⟩

/-- Settles O14: RES is written last, by commands that complete; the literal's second 0xFF ends its reads. -/
theorem raisingCommandsKeepTheResult : Obligations.RaisingCommandsKeepTheResult := by
  unfold Obligations.RaisingCommandsKeepTheResult
  refine ⟨fun i s t h ht hrd => exec_res_of_error h ht hrd, fun i s t h hi => exec_res_of_returnsNothing hi h,
    fun s a b hs hbr h0 hl ha hb hac hbc hffa hffb => ?_⟩
  obtain ⟨u, hu⟩ := readBits_corrupt (n := 4) (by decide) h0 hl ha hb hac hbc hffa hffb
  exact exec_brReadbits_fails (n := 12) (by decide) hs hbr hu

end Sys2Proof.Machine
end
